-- ==== Sys2Proof/Word.lean ====
section
/-! DEFINITION. The word types of the machine and the type of its sparse tables. -/
namespace Sys2Proof

/-- A register of one lane (R25). -/
abbrev Word := BitVec 32

/-- One byte of memory. -/
abbrev Byte := BitVec 8

/-- A set of lanes of a group: bit l is lane l (R17, R79 LANEMASK). -/
abbrev Lanes := BitVec 32

/-- A sparse table: pairs of key and value with strictly rising keys. -/
abbrev Map (α : Type) := List (Nat × α)

end Sys2Proof
end

