-- ==== Sys2Proof/Syntax.lean ====
section
/-! DEFINITION. The instructions and the events of the device: one constructor of Instr for every row of the
opcode table. An instruction word carries the fields of R46; an event carries the data that its rule names. -/
namespace Sys2Proof

/-- Operand specifiers (R51). -/
inductive Operand where
  | v (n : Fin 64)       -- 0x00–0x3F: fixed and windowed vector registers
  | s (n : Fin 32)       -- 0x40–0x5F: scalar registers
  | p (n : Fin 8)        -- 0x60–0x67: predicates
  | zero                 -- 0x68
  | laneid               -- 0x69
  | k (n : Fin 16)       -- 0x70–0x7F: inline constants
  | lit                  -- 0x80: the IMM field
  deriving DecidableEq, Repr, Inhabited

/-- Rounding modes (R37). -/
inductive Rnd where
  | rne | rz | rd | ru
  deriving DecidableEq, Repr, Inhabited

/-- Scopes (R20). -/
inductive Scope where
  | core | quad | die | pkg | pod
  deriving DecidableEq, Repr, Inhabited

/-- The guard and the hints that every word carries (R46, R50). -/
structure Ctl where
  pred : Fin 8 := 0
  neg  : Bool := false
  sw   : Bool := false
  rb   : Bool := false
  deriving DecidableEq, Repr, Inhabited

/-- The last 32 bits of the word under CREG (R55): IMM, or the C specifier and AUX. -/
inductive Tail where
  | imm (x : BitVec 32)
  | reg (c : Operand) (aux : BitVec 24)
  deriving DecidableEq, Repr, Inhabited

/-- The predicate destination: PDST and PDV (R56). -/
structure PDest where
  valid : Bool := false
  reg   : Fin 8 := 0
  deriving DecidableEq, Repr, Inhabited

/-- A word of the integer, logic, float, convert and move classes: the common MOD layout (R56).
`ty` is a code of R57, or the destination code of R104 in CVT. -/
structure Alu where
  ctl  : Ctl := {}
  d    : Operand := .v 0
  a    : Operand := .v 0
  b    : Operand := .v 0
  ty   : BitVec 4 := 0
  rnd  : Rnd := .rne
  sat  : Bool := false
  negA : Bool := false
  absA : Bool := false
  negB : Bool := false
  absB : Bool := false
  pd   : PDest := {}
  sub  : BitVec 4 := 0
  tail : Tail := .imm 0
  deriving DecidableEq, Repr, Inhabited

/-- A word of the memory class (R141). -/
structure MemW where
  ctl   : Ctl := {}
  d     : Operand := .v 0
  a     : Operand := .v 0
  b     : Operand := .v 0
  width : BitVec 3 := 0
  inC   : Bool := false     -- SPACE: 1 is C-space
  sx    : Bool := false
  pub   : Bool := false
  ref   : Bool := false
  aop   : BitVec 4 := 0
  pd    : PDest := {}
  scope : Scope := .core
  tail  : Tail := .imm 0
  deriving DecidableEq, Repr, Inhabited

/-- A word of the sync class (R252); the operation of BARN is the constructor. -/
structure SyncW where
  ctl   : Ctl := {}
  d     : Operand := .v 0
  a     : Operand := .v 0
  b     : Operand := .v 0
  pub   : Bool := false
  ref   : Bool := false
  pd    : PDest := {}
  scope : Scope := .core
  imm   : BitVec 32 := 0
  deriving DecidableEq, Repr, Inhabited

/-- A word of the matrix class (R278). -/
structure MatW where
  ctl  : Ctl := {}
  d    : Operand := .v 0
  a    : Operand := .v 0
  b    : Operand := .v 0
  fmt  : BitVec 3 := 0
  inC  : Bool := false
  tr   : Bool := false
  acc  : Bool := false      -- KIND: 1 is accumulator slots
  clr  : Bool := false
  pd   : PDest := {}
  tail : Tail := .imm 0
  deriving DecidableEq, Repr, Inhabited

/-- A word of the surface class (R314). -/
structure SurfW where
  ctl   : Ctl := {}
  d     : Operand := .v 0
  a     : Operand := .v 0
  b     : Operand := .v 0
  sop   : BitVec 3 := 0
  raw   : Bool := false
  chan  : BitVec 2 := 0
  wmask : BitVec 4 := 0
  ord   : Bool := false
  pd    : PDest := {}
  tail  : Tail := .imm 0
  deriving DecidableEq, Repr, Inhabited

/-- A word of the raster and ray class (R346). -/
structure RastW where
  ctl  : Ctl := {}
  d    : Operand := .v 0
  a    : Operand := .v 0
  b    : Operand := .v 0
  sel  : BitVec 3 := 0
  pd   : PDest := {}
  tail : Tail := .imm 0
  deriving DecidableEq, Repr, Inhabited

/-- A word of the control and system classes (R168, R186, R210, R217, R234, R376): `arg` is MOD[43:36]
(SLIDE, n, SRN, or REGION and CORE). -/
structure SysW where
  ctl : Ctl := {}
  d   : Operand := .v 0
  a   : Operand := .v 0
  b   : Operand := .v 0
  arg : BitVec 8 := 0
  pd  : PDest := {}
  imm : BitVec 32 := 0
  deriving DecidableEq, Repr, Inhabited

/-- The structure in which an ECC error is found (R380). -/
inductive EccUnit where
  | vreg | sreg | l1 | scratch | slots | cache | surface | gddr7 | fetch | carried
  deriving DecidableEq, Repr, Inhabited

/-- Where an ECC error is: a location of memory, a register of a group, or a slot; and the context it belongs to, if any. -/
structure EccAt where
  unit : EccUnit := .gddr7
  core : Nat := 0
  slot : Nat := 0
  loc  : Nat := 0
  ctx  : Option Nat := none
  deriving DecidableEq, Repr, Inhabited

/-- A failure of an access at its target (R378): `host` gives h, `kind` gives k. -/
structure RemFail where
  host   : Bool := false
  kind   : Nat := 0
  posted : Bool := false       -- a posted store or an engine access
  group  : Option Nat := none  -- the group of a load or atomic
  core   : Nat := 0            -- DIEID × 128 + COREID of an engine
  ctx    : Option Nat := none
  packet : Option (Nat × Nat) := none  -- queue and sequence number of the packet whose work it is
  loc    : Nat := 0
  deriving DecidableEq, Repr, Inhabited

/-- A request of another package (R393). -/
structure RemReq where
  node   : Nat := 0
  key    : Nat := 0
  addr   : Nat := 0
  write  : Option (List Byte) := none    -- bytes stored; none is a read
  atomic : Option (Nat × Nat × Nat) := none  -- AOP code, width in bytes, operand
  cmp    : Option Nat := none            -- ATC: the value that the old one must equal
  near   : Bool := false                 -- the frame is one of the near tier
  pub    : Bool := false                 -- a .pod release of its group precedes the store or atomic
  len    : Nat := 0
  deriving DecidableEq, Repr, Inhabited

/-- The fields of a debug command (R384). -/
structure Dbg where
  port  : Bool := false
  ctx   : Nat := 0
  index : Nat := 0
  wkind : Nat := 0
  wsize : Nat := 0
  cause : Nat := 0
  die   : Nat := 0
  core  : Nat := 0
  slot  : Nat := 0
  deriving DecidableEq, Repr, Inhabited

/-- A management message as it arrives on a port (R395): the exchange identifier and the bytes of its contents. -/
structure Msg where
  port : Nat := 0
  xid  : Nat := 0
  body : List Byte := []
  deriving DecidableEq, Repr, Inhabited

/-- Instructions and events, one constructor per row of the opcode table. -/
inductive Instr where
  -- control
  | nop (x : SysW) | bra (x : SysW) | brx (x : SysW) | call (x : SysW) | calli (x : SysW) | ret (x : SysW)
  | merge (x : SysW) | exit (x : SysW) | trap (x : SysW) | eret (x : SysW) | yield (x : SysW)
  -- integer
  | add (x : Alu) | sub (x : Alu) | addc (x : Alu) | subb (x : Alu) | mul (x : Alu) | mulh (x : Alu)
  | mad (x : Alu) | madw (x : Alu) | div (x : Alu) | rem (x : Alu) | min (x : Alu) | max (x : Alu)
  | abs (x : Alu) | neg (x : Alu) | lea (x : Alu) | sad (x : Alu)
  -- logic
  | and (x : Alu) | or (x : Alu) | xor (x : Alu) | not (x : Alu) | lut3 (x : Alu) | shl (x : Alu)
  | shr (x : Alu) | sar (x : Alu) | rot (x : Alu) | funsh (x : Alu) | bfe (x : Alu) | bfi (x : Alu)
  | popc (x : Alu) | clz (x : Alu) | ctz (x : Alu) | brev (x : Alu)
  -- float
  | fadd (x : Alu) | fsub (x : Alu) | fmul (x : Alu) | ffma (x : Alu) | fmin (x : Alu) | fmax (x : Alu)
  | fdiv (x : Alu) | fsqrt (x : Alu) | frcp (x : Alu) | frsq (x : Alu) | fexp2 (x : Alu) | flog2 (x : Alu)
  | fsin (x : Alu) | fcos (x : Alu) | frnd (x : Alu) | ffrac (x : Alu) | fclass (x : Alu) | fdot2 (x : Alu)
  | flerp (x : Alu) | fscale (x : Alu)
  -- convert
  | cvt (x : Alu) | kpack (x : Alu) | kunpk (x : Alu) | bytsel (x : Alu)
  -- move, predicate, lane
  | mov (x : Alu) | movi (x : Alu) | movh (x : Alu) | sel (x : Alu) | icmp (x : Alu) | fcmp (x : Alu)
  | plop (x : Alu) | pmov (x : Alu) | shfl (x : Alu) | vote (x : Alu) | redux (x : Alu) | scan (x : Alu)
  -- memory
  | ld (x : MemW) | st (x : MemW) | ldp (x : MemW) | at (x : MemW) | atc (x : MemW) | red (x : MemW)
  | reds (x : MemW) | pub (x : MemW) | ref (x : MemW) | phase (x : MemW) | cflush (x : MemW) | pref (x : MemW)
  | copy (x : MemW) | copy2 (x : MemW)
  -- sync
  | bar (x : SyncW) | bara (x : SyncW) | barw (x : SyncW) | barnAlloc (x : SyncW) | barnFree (x : SyncW)
  | barnGen (x : SyncW) | swinit (x : SyncW) | swadd (x : SyncW) | swait (x : SyncW) | swtest (x : SyncW)
  -- matrix
  | mresv (x : MatW) | mfree (x : MatW) | mclaim (x : MatW) | mrel (x : MatW) | mld (x : MatW) | mlds (x : MatW)
  | mzero (x : MatW) | mma (x : MatW) | mst (x : MatW) | msts (x : MatW) | mmov (x : MatW) | mstat (x : MatW)
  | mcfg (x : MatW)
  -- surface
  | salloc (x : SurfW) | sfree (x : SurfW) | sld (x : SurfW) | sst (x : SurfW) | satop (x : SurfW)
  | sblend (x : SurfW) | squery (x : SurfW) | spin (x : SurfW) | tex (x : SurfW) | texq (x : SurfW)
  -- raster and ray
  | vemit (x : RastW) | fattr (x : RastW) | femit (x : RastW) | fkill (x : RastW) | rxsnap (x : RastW)
  | rxbox (x : RastW) | rxtri (x : RastW)
  -- system
  | sread (x : SysW) | swrite (x : SysW) | qappend (x : SysW) | svwin (x : SysW) | ldwin (x : SysW)
  | savereg (x : SysW) | loadreg (x : SysW) | loadregGroup (x : SysW) | brk (x : SysW)
  -- events of a core: `g` is 64 × core + slot, a core is DIEID × 128 + COREID (R13)
  | resultLands (g seq : Nat) (lanes : Lanes)
  | runGrant (core port : Nat)
  | transferWaitEnd (g slot : Nat)
  | handlerEntry (g : Nat)
  -- reliability
  | eccCorrected (x : EccAt) | eccUncorrectable (x : EccAt)
  | remoteAccessFailure (x : RemFail) | remoteRequestTimeout (x : RemFail) | remoteRequestServe (x : RemReq)
  -- engines
  | redsContribution (id : Nat)
  | orderedItem (ctx ste key : Nat)
  | copyEngineLine (quad : Nat)
  | mmaPass (core idx quarter : Nat)
  | matrixFillStoreDone (core idx : Nat)
  | tileEvicted (ctx ste stack tile : Nat)
  | tileRefilled (ctx ste stack tile : Nat)
  -- front end
  | launchPacket (ctx q : Nat) | drawPacket (ctx q : Nat)
  | copyPacket (ctx q : Nat) (ranges : List (Nat × Nat))   -- quad and number of destination lines of each range
  | waitswPacket (ctx q : Nat) | waitswReread (ctx q : Nat) | signalPacket (ctx q : Nat) | condPacket (ctx q : Nat)
  | loopPacket (ctx q : Nat) | jumpPacket (ctx q : Nat) | stopPacket (ctx q : Nat)
  | packetComplete (ctx q seq : Nat)
  | teamPlace (ctx q core ob ab : Nat)                      -- first core of the set, first slots as digits by core index
  | placementStarvation (ctx q : Nat)
  | groupFreed (g : Nat)
  | teamReplaced (ctx idx core : Nat)
  -- raster
  | primitiveAssemble (draw : Nat)
  | fragmentGroupLaunch (draw core : Nat)
  | earlyDepthStencil (draw : Nat)
  | fragmentApply (draw : Nat)
  -- context commands
  | build (port : Bool) (ctx record : Nat) (host : Bool)
  | admission (port : Bool) (ctx : Nat) | preempt (port : Bool) (ctx : Nat) | destroy (port : Bool) (ctx : Nat)
  | drainLimitExpired (ctx : Nat) | forcedSaveEntry (g : Nat) | contextSaved (ctx : Nat) | contextReleased (ctx : Nat)
  -- host
  | doorbellRing (port : Bool) (vf ctx q : Nat) | doorbellStart (port : Bool) (ctx q : Nat)
  | doorbellReset (port : Bool) (ctx q : Nat)
  | nowWrite (port : Bool) (value : BitVec 64)
  | resume (port : Bool) (ctx token : Nat) | resumeall (port : Bool) (ctx : Nat)
  | inval (port : Bool) (ctx : Nat) | invalall (port : Bool) (ctx : Nat)
  | migratingRewalk (ctx : Nat) | faultRingRetry (ctx : Nat)
  | setbp (x : Dbg) | setwp (x : Dbg) | clear (x : Dbg) | stepon (x : Dbg) | stepoff (x : Dbg) | inject (x : Dbg)
  | nearset (port : Bool) (stack count : Nat)
  | portctlEnable (port : Bool) (p : Nat) | portctlDisable (port : Bool) (p : Nat) | portctlRetrain (port : Bool) (p : Nat)
  | podbind (port : Bool) (ctx : Nat)
  | image (port : Bool) (bytes : List Byte)
  | registerWrite (port : Bool) (offset size value : Nat)
  -- links
  | flitReceive (p : Nat) (bytes : List Byte)
  | shadowRotation (p : Nat) | laneCalibration (p lane : Nat) | lossOfLock (p : Nat)
  | trainingEnd (p good peer : Nat) | trainingTimeout (p good : Nat)
  | routeTableWrite (node port : Nat)
  | hello (x : Msg) | share (x : Msg) | finish (x : Msg) | bind (x : Msg) | bindack (x : Msg) | unbind (x : Msg)
  | ucieModuleRetire (m : Nat)
  | atsInvalidation (port : Bool) (addr : Nat)
  -- package
  | packageReset
  | bootStage (error kind : Nat)
  | powerGate (unit : Nat) | wakeComplete (unit : Nat)
  | completionParkEnd (g slot : Nat)
  deriving DecidableEq, Repr, Inhabited

end Sys2Proof
end

