-- ==== Sys2Proof/Decode.lean ====
section
/-! DEFINITION. The instruction word (R46 to R66): the checks of its fields in the order of R62, the decoder, and the
encoder. -/
namespace Sys2Proof

/-! ### Fields of a word -/

/-- Puts fields of the given widths side by side, the first in the lowest bits. -/
def packFields : List Nat → List Nat → Nat
  | w :: ws, v :: vs => v % 2 ^ w + 2 ^ w * packFields ws vs
  | _, _ => 0

/-- Cuts a number into fields of the given widths, the first from the lowest bits. -/
def cutFields : List Nat → Nat → List Nat
  | [], _ => []
  | w :: ws, x => x % 2 ^ w :: cutFields ws (x / 2 ^ w)

/-- The fields of R46, each as a number. -/
structure Raw where
  opc  : Nat := 0
  gp   : Nat := 0
  gn   : Nat := 0
  d    : Nat := 0
  a    : Nat := 0
  b    : Nat := 0
  mod  : List Nat := []     -- MOD[55:36], cut by the layout of the opcode's class
  sw   : Nat := 0
  rb   : Nat := 0
  hint : Nat := 0
  tail : Nat := 0           -- IMM, or C and AUX
  deriving DecidableEq, Repr, Inhabited

/-- Instruction classes (R66), with the system class divided by the use of its MOD field. -/
inductive Cls where
  | ctrl | alu | mem | sync | mat | surf | rast | sreg | ctx | none
  deriving DecidableEq, Repr

/-- The opcode map (R65): the class of an assigned opcode. -/
def clsOf (opc : Nat) : Cls :=
  if opc ≤ 0x0A then .ctrl
  else if 0x10 ≤ opc ∧ opc ≤ 0x43 then .alu
  else if 0x50 ≤ opc ∧ opc ≤ 0x53 then .alu
  else if 0x60 ≤ opc ∧ opc ≤ 0x6B then .alu
  else if 0x70 ≤ opc ∧ opc ≤ 0x7D then .mem
  else if 0x90 ≤ opc ∧ opc ≤ 0x97 then .sync
  else if 0xA0 ≤ opc ∧ opc ≤ 0xAC then .mat
  else if 0xC0 ≤ opc ∧ opc ≤ 0xC9 then .surf
  else if 0xD0 ≤ opc ∧ opc ≤ 0xD6 then .rast
  else if opc = 0xE0 ∨ opc = 0xE1 then .sreg
  else if 0xE2 ≤ opc ∧ opc ≤ 0xE6 then .ctx
  else if opc = 0xE7 then .ctrl
  else .none

/-- The widths of the MOD fields of a class, from bit 36 up. -/
def modWidths : Cls → List Nat
  | .alu  => [4, 2, 1, 1, 1, 1, 1, 1, 3, 1, 4]   -- TYPE RND SAT NEGA ABSA NEGB ABSB CREG PDST PDV SUB (R56)
  | .mem  => [3, 1, 1, 1, 1, 4, 1, 3, 1, 4]      -- WIDTH SPACE SX PUBL REFR AOP CREG PDST PDV SCOPE (R141)
  | .sync => [5, 1, 1, 2, 2, 1, 3, 1, 4]         -- — PUBL REFR BOP — CREG PDST PDV SCOPE (R252)
  | .mat  => [3, 1, 1, 1, 1, 4, 1, 3, 1, 4]      -- FMT SPACE TR KIND CLR — CREG PDST PDV — (R278)
  | .surf => [3, 1, 2, 4, 1, 1, 3, 1, 4]         -- SOP RAW CHAN WMASK ORD CREG PDST PDV — (R314)
  | .rast => [3, 8, 1, 3, 1, 4]                  -- SEL — CREG PDST PDV — (R346)
  | .sreg => [8, 3, 1, 3, 1, 4]                  -- SRN — CREG — — — (R217)
  | .ctx  => [4, 2, 5, 1, 3, 1, 4]               -- REGION CORE — CREG PDST PDV — (R168, R186)
  | .ctrl => [3, 8, 1, 3, 1, 4]                  -- SLIDE or n — CREG — — — (R210, R234, R376)
  | .none => [20]

/-- The widths of the word's fields (R46). -/
def wordWidths (c : Cls) : List Nat := [8, 3, 1, 8, 8, 8] ++ modWidths c ++ [1, 1, 6, 32]

/-- The fields of a 96-bit word. -/
def Raw.ofWord (w : Nat) : Raw :=
  let c := clsOf (w % 256)
  match cutFields [8, 3, 1, 8, 8, 8, 20, 1, 1, 6, 32] w with
  | [opc, gp, gn, d, a, b, m, sw, rb, hint, tail] =>
    { opc, gp, gn, d, a, b, mod := cutFields (modWidths c) m, sw, rb, hint, tail }
  | _ => {}

/-- The 96-bit word of a set of fields. -/
def Raw.word (r : Raw) : Nat :=
  packFields [8, 3, 1, 8, 8, 8, 20, 1, 1, 6, 32]
    [r.opc, r.gp, r.gn, r.d, r.a, r.b, packFields (modWidths (clsOf r.opc)) r.mod, r.sw, r.rb, r.hint, r.tail]

/-! ### What an instruction makes of its operand fields -/

/-- The role of an operand field D, A or B. A width is 32, 64 or 128 bits (R53). -/
inductive Role where
  | off               -- not used: must hold 0x00 (R60)
  | src (w : Nat)     -- any source specifier of R51 but a predicate
  | srcP              -- a predicate position
  | pair              -- a v or s register pair only (R213)
  | addr (w : Nat)    -- an address operand: a register, a pair for .g, or 0x68 (R142; log entry 37)
  | imm               -- read only from IMM: must hold 0x80 (R108, R111)
  | dst (w : Nat)     -- a destination: v, s or 0x68
  | dstV (w : Nat)    -- a destination that may not be scalar (R116, R279)
  | dstP              -- a predicate destination position
  deriving DecidableEq, Repr

/-- The role of C and of the last 32 bits (R55). -/
inductive CRole where
  | none                        -- no C operand: CREG must be 0, IMM only through 0x80
  | immDef                      -- no C operand, the entry defines IMM
  | immOff                      -- no C operand, an address offset: IMM, or all of AUX (R142)
  | any (w : Nat)               -- IMM, or a register with CREG = 1
  | reg (w : Nat) (aux : Nat)   -- CREG must be 1; AUX bits below 2^aux are defined
  | regOnly (w : Nat) (aux : Nat)   -- CREG must be 1, C a register or 0x68 (R95)
  | pred (aux : Nat)            -- CREG must be 1, C a predicate
  | stride (aux : Nat)          -- IMM, or a register with CREG = 1 and AUX defined (R282)
  | unused                      -- a C operand that this form does not use: C 0x00, IMM zero (R153)
  deriving DecidableEq, Repr

/-- What the fields of one word must satisfy. -/
structure Use where
  d : Role := .off
  a : Role := .off
  b : Role := .off
  c : CRole := .none
  res  : Bool := false      -- a reserved or unused MOD field is nonzero (0x05)
  bad  : Bool := false      -- a used MOD field holds an unaccepted value (0x02)
  spec : Bool := false      -- a special-register number or IMM mask is not allowed (0x03)
  deriving Repr

/-- What a decode check needs to know of the issuing split: privilege (R64), whether it runs the restore handler, and
the cores of its team (R168). -/
structure DecCtx where
  priv    : Bool := false
  restore : Bool := false
  cores   : Nat := 1
  deriving DecidableEq, Repr

/-- Special-register numbers (R79): 64-bit width, privileged, listed. -/
def srnListed (n : Nat) : Bool :=
  n ≤ 0x08 || (0x10 ≤ n && n ≤ 0x17) || (0x20 ≤ n && n ≤ 0x23) || (0x30 ≤ n && n ≤ 0x34) || n == 0x40 || n == 0x50

def srnPriv (n : Nat) : Bool := (0x30 ≤ n && n ≤ 0x34) || n == 0x50

def srnWidth (n : Nat) : Nat :=
  if n == 0x04 || n == 0x05 || n == 0x06 || n == 0x20 || n == 0x31 || n == 0x33 || n == 0x40 then 64 else 32

/-- Element width of a type code of R57. -/
def tyWidth (t : Nat) : Nat := if t == 2 || t == 3 || t == 5 then 64 else 32

/-- Register width of a CVT code (R104). -/
def cvtWidth (t : Nat) : Nat := if t == 2 || t == 3 || t == 13 then 64 else 32

/-- One row of the tables R89, R94, R98, R108 and the entries R102 to R116. -/
structure AluRow where
  types : List Nat := []
  rnd   : Bool := false
  sat   : Bool := false
  modA  : Bool := false
  modB  : Bool := false
  pdv   : List Nat := [0]
  subOk : Bool := true
  d : Role := .off
  a : Role := .off
  b : Role := .off
  c : CRole := .none

/-- The row of an opcode, given TYPE, SUB and PDV. -/
def aluRow (opc ty sub pdv : Nat) : AluRow :=
  let w := tyWidth ty
  let int6 := [0, 1, 2, 3, 6, 7]
  let int4 := [0, 1, 2, 3]
  let fl5 := [8, 9, 10, 11, 12]
  let s0 := sub == 0
  let packed := ty == 6 || ty == 7
  let bin : AluRow := { d := .dst w, a := .src w, b := .src w, subOk := s0 }
  let un : AluRow := { d := .dst w, a := .src w, subOk := s0 }
  match opc with
  | 0x10 | 0x11 => { bin with types := int6, modA := true, modB := true, sat := true, pdv := if packed then [0] else [0, 1] }
  | 0x12 | 0x13 => { bin with types := [1, 3], pdv := [0, 1], c := .pred 0 }
  | 0x14 => { bin with types := int4, modA := true, modB := true, sat := true }
  | 0x15 => { bin with types := int4, modA := true, modB := true }
  | 0x16 => { bin with types := int4, modA := true, modB := true, sat := true, c := .any w }
  | 0x17 => { types := [0, 1], d := .dst 64, a := .src 32, b := .src 32, c := .any 64, subOk := s0 }
  | 0x18 | 0x19 => { bin with types := int4 }
  | 0x1A | 0x1B => { bin with types := int6, modA := true, modB := true }
  | 0x1C | 0x1D => { un with types := [0, 2], sat := true }
  | 0x1E => { types := [2, 3], d := .dst 64, a := .src 64, b := .src 32 }
  | 0x1F => { bin with types := [0, 1], sat := true, c := .any 32 }
  | 0x20 | 0x21 | 0x22 => { bin with types := [4, 5] }
  | 0x23 => { un with types := [4, 5] }
  | 0x24 => { bin with types := [4, 5], c := .regOnly w 8 }
  | 0x25 | 0x26 | 0x28 => { bin with types := [4, 5], b := .src 32 }
  | 0x27 => { bin with types := [0, 2], b := .src 32 }
  | 0x29 => { bin with types := [4], c := .any 32, subOk := sub ≤ 1 }
  | 0x2A => { bin with types := int4, b := .src 32 }
  | 0x2B => { bin with types := [4, 5], b := .src 32, c := .any w }
  | 0x2C | 0x2D | 0x2E => { un with types := [4, 5], d := .dst 32 }
  | 0x2F => { un with types := [4, 5] }
  | 0x30 | 0x31 | 0x32 => { bin with types := fl5, modA := true, modB := true, rnd := true }
  | 0x33 => { bin with types := fl5, modA := true, modB := true, rnd := true, c := .any 32 }
  | 0x34 | 0x35 => { bin with types := fl5, modA := true, modB := true }
  | 0x36 => { bin with types := [8], modA := true, modB := true, rnd := true }
  | 0x37 => { un with types := [8], modA := true, rnd := true }
  | 0x38 | 0x39 | 0x3A | 0x3B | 0x3C | 0x3D => { un with types := [8, 9], modA := true }
  | 0x3E => { un with types := [8, 9, 10], modA := true, rnd := true }
  | 0x3F => { un with types := [8], modA := true, rnd := true }
  | 0x40 => { types := [8], d := .dst 32, a := .src 32, b := if pdv == 1 then .src 32 else .off, pdv := [0, 1], subOk := s0 }
  | 0x41 => { bin with types := [9, 10], modA := true, modB := true, rnd := true, c := .any 32 }
  | 0x42 => { bin with types := [8, 9, 10], modA := true, modB := true, rnd := true, c := .any 32 }
  | 0x43 => { bin with types := [8, 9, 10], modA := true, rnd := true }
  | 0x50 =>
    { types := List.range 14, rnd := true, sat := true, modA := true, subOk := sub < 14,
      d := .dst (cvtWidth ty), a := .src (cvtWidth sub) }
  | 0x51 => { types := [8], rnd := true, d := .dst 32, a := .src 128, b := .src 128, c := .any 32, pdv := [0, 1], subOk := s0 }
  | 0x52 => { types := [8, 9, 10, 11], d := .dst (if ty == 8 then 128 else if ty == 11 then 32 else 64), a := .src 32,
              subOk := sub ≤ 1 }
  | 0x53 => { bin with types := [4], c := .any 32 }
  | 0x60 => { un with types := [4, 5] }
  | 0x61 => { types := [2, 3, 5], d := .dst 64, a := .imm, c := .immDef, subOk := s0 }
  | 0x62 => { types := [5], d := .dst 64, a := .imm, c := .immDef, subOk := s0 }
  | 0x63 => { bin with types := [4, 5], c := .pred 0 }
  | 0x64 => { bin with types := [0, 1, 2, 3, 4, 5], d := .dst 32, pdv := [0, 1], subOk := sub ≤ (if ty == 4 || ty == 5 then 1 else 5) }
  | 0x65 => { bin with types := [8, 9, 10], pdv := if ty == 8 then [0, 1] else [0], subOk := sub ≤ 7 }
  | 0x66 => { types := [0], d := .dstP, a := .srcP, b := .srcP, c := .pred 8, subOk := s0 }
  | 0x67 =>
    if sub == 1 then { types := [0], a := .src 32, b := .imm, c := .immDef }
    else { types := [0], d := .dst 32, subOk := s0 }
  | 0x68 => { types := [4, 5], d := .dst w, a := .src w, b := .src 32, pdv := [0, 1] }
  | 0x69 =>
    if sub == 3 then { types := [4], d := .dst 32, a := .srcP }
    else { types := [4], a := .srcP, pdv := [1], subOk := sub ≤ 3 }
  | 0x6A =>
    { types := if sub == 0 then [0, 1, 2, 3, 8] else if sub ≤ 2 then [0, 1, 2, 3, 8] else [4, 5], subOk := sub ≤ 5,
      rnd := sub == 0 && ty == 8, d := .dst w, a := .src w }
  | 0x6B =>
    { types := if sub % 8 ≤ 2 then [0, 1, 2, 3] else [4, 5], subOk := sub % 8 ≤ 5, d := .dstV w, a := .src w }
  | _ => {}

/-- R56 to R58, R83 to R88, R104: the common class. -/
def aluUse (opc : Nat) (mod : List Nat) (tail : Nat) : Use :=
  match mod with
  | [ty, rnd, sat, negA, absA, negB, absB, _creg, pdst, pdv, sub] =>
    let r := aluRow opc ty sub pdv
    let mty := if opc == 0x50 then [0, 2, 4, 6, 8, 9, 10].contains sub else [0, 2, 6, 8, 9, 10].contains ty
    { d := r.d, a := r.a, b := r.b, c := r.c,
      res := pdv == 0 && pdst != 0,
      bad := !r.types.contains ty || (rnd != 0 && !r.rnd) || (sat != 0 && !r.sat)
        || ((negA != 0 || absA != 0) && !(r.modA && mty)) || ((negB != 0 || absB != 0) && !(r.modB && mty))
        || !r.pdv.contains pdv || !r.subOk,
      spec := opc == 0x67 && sub == 1 && (tail % 2 != 0 || tail ≥ 256) }
  | _ => {}

/-- R141 to R143 and the entries R144 to R154. -/
def memUse (opc : Nat) (mod : List Nat) : Use :=
  match mod with
  | [width, space, sx, pub, ref, aop, _creg, pdst, pdv, scope] =>
    let addr : Role := .addr (if space == 1 then 32 else 64)
    let dw := if width == 4 then 128 else if width == 3 then 64 else 32
    let pd05 := pdv == 0 && pdst != 0
    let badScope := scope > 4
    let noPR := pub != 0 || ref != 0
    match opc with
    | 0x70 => { d := .dst dw, a := addr, c := .immOff, res := pd05 || aop != 0 || scope != 0,
                bad := width > 4 || (sx != 0 && width ≥ 2) || noPR || pdv != 0 }
    | 0x71 => { a := addr, b := .src dw, c := .immOff, res := pd05 || aop != 0 || scope != 0,
                bad := width > 4 || sx != 0 || noPR || pdv != 0 }
    | 0x72 => { d := .dst dw, a := addr, c := .immOff, res := pd05 || aop != 0 || scope != 0,
                bad := width > 4 || space != 0 || (sx != 0 && width ≥ 2) || noPR || pdv != 1 }
    | 0x73 => { d := .dst dw, a := addr, b := .src dw, c := .immOff, res := pd05,
                bad := !(width == 2 || width == 3) || sx != 0 || aop > 9 || (aop == 9 && width != 2) || pdv != 0 || badScope }
    | 0x74 => { d := .dst dw, a := addr, b := .src dw, c := .reg dw 24, res := pd05 || aop != 0,
                bad := !(width == 2 || width == 3) || sx != 0 || badScope }
    | 0x75 => { a := addr, b := .src dw, c := .immOff, res := pd05,
                bad := !(width == 2 || width == 3) || sx != 0 || aop > 9 || (aop == 9 && width != 2) || pdv != 0 || badScope }
    | 0x76 => { a := addr, b := .src dw, c := .reg 32 24, res := pd05 || aop != 0,
                bad := !(width == 2 || width == 3) || space != 0 || sx != 0 || pdv != 0 || badScope }
    | 0x77 | 0x78 | 0x79 =>
      { res := pd05 || width != 0 || space != 0 || sx != 0 || noPR || aop != 0, bad := pdv != 0 || badScope }
    | 0x7A => { a := addr, c := .immOff, res := pd05 || width != 0 || sx != 0 || noPR || aop != 0,
                bad := space != 0 || pdv != 0 || badScope }
    | 0x7B => { a := addr, c := .immOff, res := pd05 || width != 0 || sx != 0 || noPR || aop != 0,
                bad := space != 0 || pdv != 0 || scope > 1 }
    | 0x7C => { a := .src 128, b := .src 32, c := if aop % 2 == 1 then .any 32 else .unused,
                res := pd05 || width != 0 || noPR || aop > 1, bad := pdv != 0 || badScope }
    | _ => { a := .src 128, b := .src 64, c := .reg 128 0,
             res := pd05 || width != 0 || noPR || aop > 1, bad := pdv != 0 || badScope }
  | _ => {}

/-- R252. -/
def syncUse (opc : Nat) (mod : List Nat) : Use :=
  match mod with
  | [r1, pub, ref, bop, r2, _creg, pdst, pdv, scope] =>
    let res := r1 != 0 || r2 != 0 || (pdv == 0 && pdst != 0) || (opc != 0x93 && bop != 0)
    let sc := scope > 4
    match opc with
    | 0x90 => { a := .src 32, res, bad := sc || pub != 0 || ref != 0 }
    | 0x91 => { a := .src 32, res, bad := sc || pub != 0 || ref != 0 || pdv != 0 }
    | 0x92 => { a := .src 32, b := .src 32, res, bad := sc || pub != 0 || ref != 0 }
    | 0x93 => { d := if bop == 1 then .off else .dst 32, a := .src 32, res,
                bad := sc || pub != 0 || ref != 0 || bop == 3 || (pdv != 0 && bop != 0) }
    | 0x94 => { a := .addr 32, b := .src 32, res, bad := sc || ref != 0 || pdv != 0 }
    | 0x95 => { d := .dst 32, a := .addr 32, b := .src 32, res, bad := sc || pdv != 0 }
    | 0x96 => { a := .addr 32, b := .src 32, res, bad := sc || pub != 0 || ref != 0 || pdv != 0 }
    | _ => { d := .dst 32, a := .addr 32, b := .src 32, res, bad := sc || pub != 0 }
  | _ => {}

/-- R278, R279. -/
def matUse (opc : Nat) (mod : List Nat) : Use :=
  match mod with
  | [fmt, space, tr, kind, clr, r1, _creg, pdst, pdv, r2] =>
    let addr : Role := .addr (if space == 1 then 32 else 64)
    let rsv := r1 != 0 || r2 != 0 || (pdv == 0 && pdst != 0)
    let no (f s t k c p : Bool) := rsv || (f && fmt != 0) || (s && space != 0) || (t && tr != 0) || (k && kind != 0)
      || (c && clr != 0) || (p && pdv != 0)
    match opc with
    | 0xA0 => { res := no true true true true true false, bad := pdv != 1 }
    | 0xA1 => { res := no true true true true true true }
    | 0xA2 => { d := .dst 32, a := .src 32, res := no true true true false true false }
    | 0xA3 => { a := .src 32, b := .src 32, res := no true true true false true true }
    | 0xA4 => { a := .src 32, b := addr, c := .stride 24, res := no false false false true true true,
                bad := fmt > 5 || (tr != 0 && fmt == 5) }
    | 0xA5 => { a := .src 32, b := .src 64, res := no false true true true true true, bad := !(fmt == 1 || fmt == 3) }
    | 0xA6 | 0xA7 => { a := .src 32, res := no true true true true true true }
    | 0xA8 => { a := addr, b := .src 32, c := .stride 24, res := no false false true true true true, bad := fmt > 3 }
    | 0xA9 => { a := .src 32, b := .src 64, res := no true true true true true true }
    | 0xAA => { d := .dstV (if fmt == 6 then 64 else 32), a := .src 32, b := .src 32, res := no false true true true true true,
                bad := !(fmt == 0 || fmt == 6) }
    | 0xAB => { d := .dst 64, a := .src 32, res := no true true true true false false, bad := pdv != 0 }
    | _ => { a := .src 32, b := .src 32, res := no true true true true true true }
  | _ => {}

/-- R314, R315. -/
def surfUse (opc : Nat) (mod : List Nat) : Use :=
  match mod with
  | [sop, raw, chan, wmask, ord, _creg, pdst, pdv, r] =>
    let rsv := r != 0 || (pdv == 0 && pdst != 0)
    let no (so ra ch wm od p : Bool) := rsv || (so && sop != 0) || (ra && raw != 0) || (ch && chan != 0) || (wm && wmask != 0)
      || (od && ord != 0) || (p && pdv != 0)
    match opc with
    | 0xC0 => { d := .dst 32, a := .src 32, res := no true true true true true false }
    | 0xC1 => { a := .src 32, res := no true true true true true true }
    | 0xC2 => { d := .dst 128, a := .src 64, b := .src 32, res := no true false true true true true }
    | 0xC3 => { a := .src 64, b := .src 32, c := .reg 128 0, res := no true false true false true true,
                bad := if raw == 1 then wmask != 0 else wmask == 0 }
    | 0xC4 => { d := .dst 32, a := .src 64, b := .src 32, c := .reg 32 0, res := no false true false true false true, bad := sop > 3 }
    | 0xC5 => { a := .src 64, b := .src 32, c := .reg 128 22, res := no true true true false false true, bad := wmask == 0 }
    | 0xC6 => { d := .dst 32, a := .src 64, b := .src 32, res := no true true true true true true }
    | 0xC7 => { a := .src 32, res := no false true true true true false, bad := sop > 1 }
    | 0xC8 => { d := .dst 128, a := .src 64, b := .addr 64, c := .any 32, res := no true true true true true true }
    | _ => { d := .dst 128, a := .src 32, b := .addr 64, res := no true true true true true true }
  | _ => {}

/-- R346, R347. -/
def rastUse (opc : Nat) (mod : List Nat) : Use :=
  match mod with
  | [sel, r1, _creg, pdst, pdv, r2] =>
    let rsv := r1 != 0 || r2 != 0 || (pdv == 0 && pdst != 0)
    match opc with
    | 0xD0 => { a := .src 32, b := .src 128, res := rsv || sel != 0 || pdv != 0 }
    | 0xD1 => { d := .dst 128, a := if sel == 3 then .off else .src 32, res := rsv || pdv != 0, bad := sel > 3 }
    | 0xD2 => { a := if sel == 4 then .src 32 else .src 128, res := rsv || pdv != 0, bad := sel > 4 }
    | 0xD3 => { res := rsv || sel != 0 || pdv != 0 }
    | 0xD4 => { d := .dst 128, a := .src 128, b := .src 128, res := rsv || sel != 0 }
    | _ => { d := .dst 128, a := .src 128, b := .addr 64, c := .reg 128 0, res := rsv || sel != 0 }
  | _ => {}

/-- R217, R80. -/
def sregUse (opc : Nat) (mod : List Nat) : Use :=
  match mod with
  | [srn, r1, creg, pdst, pdv, r2] =>
    let res := r1 != 0 || creg != 0 || pdst != 0 || pdv != 0 || r2 != 0
    if opc == 0xE0 then { d := .dst (srnWidth srn), res, spec := !srnListed srn }
    else { a := .src (srnWidth srn), res, spec := !srnListed srn }
  | _ => {}

/-- R168, R186. -/
def ctxUse (x : DecCtx) (opc : Nat) (mod : List Nat) (tail : Nat) : Use :=
  match mod with
  | [region, core, r1, creg, pdst, pdv, r2] =>
    let rsv := r1 != 0 || creg != 0 || r2 != 0 || tail != 0
    match opc with
    | 0xE2 => { d := .dst 32, a := .addr 64, b := .src 32, res := rsv || region != 0 || core != 0 || (pdv == 0 && pdst != 0) }
    | 0xE3 | 0xE4 => { res := rsv || pdst != 0 || pdv != 0, bad := region != 0 || core != 0 }
    | 0xE5 => { d := .dst 32, a := .addr 64, b := .src 32, res := rsv || pdst != 0 || pdv != 0,
                bad := region > 3 || core ≥ x.cores || (region == 0 && core != 0) }
    | _ => { a := if region == 4 then .off else .addr 64, res := rsv || pdst != 0 || pdv != 0,
             bad := region > 4 || core ≥ x.cores || ((region == 0 || region == 4) && core != 0) || (region == 4 && !x.restore) }
  | _ => {}

/-- R210, R234, R376. -/
def ctrlUse (opc : Nat) (mod : List Nat) : Use :=
  match mod with
  | [n, r1, creg, pdst, pdv, r2] =>
    let rsv := r1 != 0 || creg != 0 || pdst != 0 || pdv != 0 || r2 != 0
    let res := rsv || n != 0
    match opc with
    | 0x01 => { c := .immDef, res }
    | 0x02 => { a := .pair, res }
    | 0x03 => { c := .immDef, res := rsv, bad := n == 0 }
    | 0x04 => { a := .src 32, res }
    | 0x08 => { c := .immDef, res := rsv }
    | 0xE7 => { c := .immDef, res }
    | _ => { res }
  | _ => {}

/-- What the word's class asks of its fields. -/
def Raw.use (x : DecCtx) (r : Raw) : Use :=
  match clsOf r.opc with
  | .alu => aluUse r.opc r.mod r.tail
  | .mem => memUse r.opc r.mod
  | .sync => syncUse r.opc r.mod
  | .mat => matUse r.opc r.mod
  | .surf => surfUse r.opc r.mod
  | .rast => rastUse r.opc r.mod
  | .sreg => sregUse r.opc r.mod
  | .ctx => ctxUse x r.opc r.mod r.tail
  | .ctrl => ctrlUse r.opc r.mod
  | .none => {}

/-- The CREG bit of the word (MOD[47]); 0 in a class without one. -/
def Raw.creg (r : Raw) : Bool :=
  match clsOf r.opc, r.mod with
  | .alu, [_, _, _, _, _, _, _, c, _, _, _] => c == 1
  | .mem, [_, _, _, _, _, _, c, _, _, _] => c == 1
  | .mat, [_, _, _, _, _, _, c, _, _, _] => c == 1
  | .sync, [_, _, _, _, _, c, _, _, _] => c == 1
  | .surf, [_, _, _, _, _, c, _, _, _] => c == 1
  | .rast, [_, _, c, _, _, _] => c == 1
  | _, _ => false

/-! ### The checks of R51 to R60, each over one field -/

/-- Registers v and s, as sources or destinations of width w (R53). -/
def misaligned (w x : Nat) : Bool := x < 0x60 && (if w == 64 then x % 2 != 0 else if w == 128 then x % 4 != 0 else false)

/-- The specifier is not allowed in its position (0x03): R51, R53, R55. -/
def Role.bad (creg : Bool) : Role → Nat → Bool
  | .off, _ => false
  | .src w, x => if w == 128 then !(x < 0x60 || x == 0x68)
      else !(x < 0x60 || x == 0x68 || x == 0x69 || (0x70 ≤ x && x ≤ 0x7F) || (x == 0x80 && !creg))
  | .srcP, x => !(0x60 ≤ x && x ≤ 0x67)
  | .pair, x => !(x < 0x60)
  | .addr _, x => !(x < 0x60 || x == 0x68)
  | .imm, x => !(x == 0x80 && !creg)
  | .dst _, x => !(x < 0x60 || x == 0x68)
  | .dstV _, x => !(x < 0x40 || x == 0x68)
  | .dstP, x => !(0x60 ≤ x && x ≤ 0x67)

/-- The register group is misaligned (0x04): R53. -/
def Role.mis : Role → Nat → Bool
  | .src w, x => misaligned w x
  | .pair, x => misaligned 64 x
  | .addr w, x => misaligned w x
  | .dst w, x => misaligned w x
  | .dstV w, x => misaligned w x
  | _, _ => false

/-- The field is not used and is not 0x00 (0x05): R60. -/
def Role.res (r : Role) (x : Nat) : Bool := r == .off && x != 0

/-- Whether a role reads IMM through specifier x: every source position that holds 0x80 does, one that does not accept it
included, which then is 0x03 and not 0x05 (DEDUCED, log entry 37); but BRX, whose IMM is 0 (R210), reads none. -/
def Role.readsImm : Role → Nat → Bool
  | .off, _ | .pair, _ | .dst _, _ | .dstV _, _ | .dstP, _ => false
  | _, x => x == 0x80

/-- The C role as a role of the C field when CREG is 1. -/
def CRole.role : CRole → Role
  | .any w => .src w
  | .reg w _ => .src w
  | .regOnly w _ => .addr w
  | .pred _ => .srcP
  | .stride _ => .src 32
  | _ => .off

/-- The bits of AUX that the entry defines. -/
def CRole.auxBits : CRole → Nat
  | .reg _ n => n
  | .regOnly _ n => n
  | .immOff => 24
  | .pred n => n
  | .stride n => n
  | _ => 0

/-- CREG is not what the C operand allows (0x02): R55, R95, R90. -/
def CRole.badCreg (c : CRole) (creg : Bool) : Bool :=
  match c with
  | .none | .immDef | .immOff => creg
  | .reg .. | .regOnly .. | .pred _ => !creg
  | _ => false

/-- The last 32 bits hold bits that nothing defines (0x05): R55. -/
def CRole.res (c : CRole) (creg immRead : Bool) (tail : Nat) : Bool :=
  if creg then
    tail / 256 ≥ 2 ^ c.auxBits || (c.role == .off && tail % 256 != 0)
  else
    match c with
    | .none | .unused => !immRead && tail != 0
    | _ => false

/-- The C specifier is not allowed (0x03). -/
def CRole.bad (c : CRole) (creg : Bool) (tail : Nat) : Bool :=
  creg && c.role.bad true (tail % 256)

/-- The checks of R62 on a word whose PC is aligned; none when the word is legal. -/
def Raw.check (x : DecCtx) (r : Raw) : Option Nat :=
  let u := r.use x
  let creg := r.creg
  let immRead := u.a.readsImm r.a || u.b.readsImm r.b
  if r.opc ≥ 0xF0 then some 0x07
  else if clsOf r.opc = .none then some 0x01
  else if !x.priv && (r.opc == 0xE5 || r.opc == 0xE6 || (clsOf r.opc == .sreg && srnPriv (r.mod.headD 0))) then some 0x06
  else if r.hint != 0 || u.res || u.d.res r.d || u.a.res r.a || u.b.res r.b || u.c.res creg immRead r.tail then some 0x05
  else if u.bad || u.c.badCreg creg then some 0x02
  else if u.spec || u.d.bad creg r.d || u.a.bad creg r.a || u.b.bad creg r.b || u.c.bad creg r.tail then some 0x03
  else if u.d.mis r.d || u.a.mis r.a || u.b.mis r.b || (creg && u.c.role.mis (r.tail % 256)) then some 0x04
  else none

/-! ### Operands, scopes, rounding modes and their codes -/

def Operand.code : Operand → Nat
  | .v n => n.val
  | .s n => 0x40 + n.val
  | .p n => 0x60 + n.val
  | .zero => 0x68
  | .laneid => 0x69
  | .k n => 0x70 + n.val
  | .lit => 0x80

/-- R51; a code without a meaning reads as 0x68 (the checks have refused it before). -/
def Operand.ofCode (x : Nat) : Operand :=
  if x < 0x40 then .v (Fin.ofNat 64 x)
  else if x < 0x60 then .s (Fin.ofNat 32 (x - 0x40))
  else if x < 0x68 then .p (Fin.ofNat 8 (x - 0x60))
  else if x = 0x69 then .laneid
  else if 0x70 ≤ x ∧ x < 0x80 then .k (Fin.ofNat 16 (x - 0x70))
  else if x = 0x80 then .lit
  else .zero

def Rnd.code : Rnd → Nat | .rne => 0 | .rz => 1 | .rd => 2 | .ru => 3
def Rnd.ofCode : Nat → Rnd | 0 => .rne | 1 => .rz | 2 => .rd | _ => .ru
def Scope.code : Scope → Nat | .core => 0 | .quad => 1 | .die => 2 | .pkg => 3 | .pod => 4
def Scope.ofCode : Nat → Scope | 0 => .core | 1 => .quad | 2 => .die | 3 => .pkg | _ => .pod

def Raw.ctl (r : Raw) : Ctl := { pred := Fin.ofNat 8 r.gp, neg := r.gn == 1, sw := r.sw == 1, rb := r.rb == 1 }

def Raw.tailOf (r : Raw) : Tail :=
  if r.creg then .reg (.ofCode (r.tail % 256)) (BitVec.ofNat 24 (r.tail / 256)) else .imm (BitVec.ofNat 32 r.tail)

def pdOf (pdst pdv : Nat) : PDest := { valid := pdv == 1, reg := Fin.ofNat 8 pdst }

/-! ### The record of each class -/

def Raw.toAlu (r : Raw) : Alu :=
  match r.mod with
  | [ty, rnd, sat, negA, absA, negB, absB, _, pdst, pdv, sub] =>
    { ctl := r.ctl, d := .ofCode r.d, a := .ofCode r.a, b := .ofCode r.b, ty := .ofNat 4 ty, rnd := .ofCode rnd, sat := sat == 1,
      negA := negA == 1, absA := absA == 1, negB := negB == 1, absB := absB == 1, pd := pdOf pdst pdv, sub := .ofNat 4 sub,
      tail := r.tailOf }
  | _ => {}

def Raw.toMem (r : Raw) : MemW :=
  match r.mod with
  | [width, space, sx, pub, ref, aop, _, pdst, pdv, scope] =>
    { ctl := r.ctl, d := .ofCode r.d, a := .ofCode r.a, b := .ofCode r.b, width := .ofNat 3 width, inC := space == 1, sx := sx == 1,
      pub := pub == 1, ref := ref == 1, aop := .ofNat 4 aop, pd := pdOf pdst pdv, scope := .ofCode scope, tail := r.tailOf }
  | _ => {}

def Raw.toSync (r : Raw) : SyncW :=
  match r.mod with
  | [_, pub, ref, _, _, _, pdst, pdv, scope] =>
    { ctl := r.ctl, d := .ofCode r.d, a := .ofCode r.a, b := .ofCode r.b, pub := pub == 1, ref := ref == 1, pd := pdOf pdst pdv,
      scope := .ofCode scope, imm := .ofNat 32 r.tail }
  | _ => {}

def Raw.toMat (r : Raw) : MatW :=
  match r.mod with
  | [fmt, space, tr, kind, clr, _, _, pdst, pdv, _] =>
    { ctl := r.ctl, d := .ofCode r.d, a := .ofCode r.a, b := .ofCode r.b, fmt := .ofNat 3 fmt, inC := space == 1, tr := tr == 1,
      acc := kind == 1, clr := clr == 1, pd := pdOf pdst pdv, tail := r.tailOf }
  | _ => {}

def Raw.toSurf (r : Raw) : SurfW :=
  match r.mod with
  | [sop, raw, chan, wmask, ord, _, pdst, pdv, _] =>
    { ctl := r.ctl, d := .ofCode r.d, a := .ofCode r.a, b := .ofCode r.b, sop := .ofNat 3 sop, raw := raw == 1, chan := .ofNat 2 chan,
      wmask := .ofNat 4 wmask, ord := ord == 1, pd := pdOf pdst pdv, tail := r.tailOf }
  | _ => {}

def Raw.toRast (r : Raw) : RastW :=
  match r.mod with
  | [sel, _, _, pdst, pdv, _] =>
    { ctl := r.ctl, d := .ofCode r.d, a := .ofCode r.a, b := .ofCode r.b, sel := .ofNat 3 sel, pd := pdOf pdst pdv, tail := r.tailOf }
  | _ => {}

/-- Control words: MOD[38:36] is the argument; SREAD and SWRITE: MOD[43:36]; context words: REGION and CORE. -/
def Raw.toSys (r : Raw) : SysW :=
  let base : SysW := { ctl := r.ctl, d := .ofCode r.d, a := .ofCode r.a, b := .ofCode r.b, imm := .ofNat 32 r.tail }
  match clsOf r.opc, r.mod with
  | .ctx, [region, core, _, _, pdst, pdv, _] => { base with arg := .ofNat 8 (region + 16 * core), pd := pdOf pdst pdv }
  | _, n :: _ => { base with arg := .ofNat 8 n }
  | _, [] => base

/-- The instruction of a legal word (R65). -/
def Raw.instr (r : Raw) : Option Instr :=
  match r.opc with
  | 0x00 => some (.nop r.toSys) | 0x01 => some (.bra r.toSys) | 0x02 => some (.brx r.toSys) | 0x03 => some (.call r.toSys)
  | 0x04 => some (.calli r.toSys) | 0x05 => some (.ret r.toSys) | 0x06 => some (.merge r.toSys) | 0x07 => some (.exit r.toSys)
  | 0x08 => some (.trap r.toSys) | 0x09 => some (.eret r.toSys) | 0x0A => some (.yield r.toSys)
  | 0x10 => some (.add r.toAlu) | 0x11 => some (.sub r.toAlu) | 0x12 => some (.addc r.toAlu) | 0x13 => some (.subb r.toAlu)
  | 0x14 => some (.mul r.toAlu) | 0x15 => some (.mulh r.toAlu) | 0x16 => some (.mad r.toAlu) | 0x17 => some (.madw r.toAlu)
  | 0x18 => some (.div r.toAlu) | 0x19 => some (.rem r.toAlu) | 0x1A => some (.min r.toAlu) | 0x1B => some (.max r.toAlu)
  | 0x1C => some (.abs r.toAlu) | 0x1D => some (.neg r.toAlu) | 0x1E => some (.lea r.toAlu) | 0x1F => some (.sad r.toAlu)
  | 0x20 => some (.and r.toAlu) | 0x21 => some (.or r.toAlu) | 0x22 => some (.xor r.toAlu) | 0x23 => some (.not r.toAlu)
  | 0x24 => some (.lut3 r.toAlu) | 0x25 => some (.shl r.toAlu) | 0x26 => some (.shr r.toAlu) | 0x27 => some (.sar r.toAlu)
  | 0x28 => some (.rot r.toAlu) | 0x29 => some (.funsh r.toAlu) | 0x2A => some (.bfe r.toAlu) | 0x2B => some (.bfi r.toAlu)
  | 0x2C => some (.popc r.toAlu) | 0x2D => some (.clz r.toAlu) | 0x2E => some (.ctz r.toAlu) | 0x2F => some (.brev r.toAlu)
  | 0x30 => some (.fadd r.toAlu) | 0x31 => some (.fsub r.toAlu) | 0x32 => some (.fmul r.toAlu) | 0x33 => some (.ffma r.toAlu)
  | 0x34 => some (.fmin r.toAlu) | 0x35 => some (.fmax r.toAlu) | 0x36 => some (.fdiv r.toAlu) | 0x37 => some (.fsqrt r.toAlu)
  | 0x38 => some (.frcp r.toAlu) | 0x39 => some (.frsq r.toAlu) | 0x3A => some (.fexp2 r.toAlu) | 0x3B => some (.flog2 r.toAlu)
  | 0x3C => some (.fsin r.toAlu) | 0x3D => some (.fcos r.toAlu) | 0x3E => some (.frnd r.toAlu) | 0x3F => some (.ffrac r.toAlu)
  | 0x40 => some (.fclass r.toAlu) | 0x41 => some (.fdot2 r.toAlu) | 0x42 => some (.flerp r.toAlu) | 0x43 => some (.fscale r.toAlu)
  | 0x50 => some (.cvt r.toAlu) | 0x51 => some (.kpack r.toAlu) | 0x52 => some (.kunpk r.toAlu) | 0x53 => some (.bytsel r.toAlu)
  | 0x60 => some (.mov r.toAlu) | 0x61 => some (.movi r.toAlu) | 0x62 => some (.movh r.toAlu) | 0x63 => some (.sel r.toAlu)
  | 0x64 => some (.icmp r.toAlu) | 0x65 => some (.fcmp r.toAlu) | 0x66 => some (.plop r.toAlu) | 0x67 => some (.pmov r.toAlu)
  | 0x68 => some (.shfl r.toAlu) | 0x69 => some (.vote r.toAlu) | 0x6A => some (.redux r.toAlu) | 0x6B => some (.scan r.toAlu)
  | 0x70 => some (.ld r.toMem) | 0x71 => some (.st r.toMem) | 0x72 => some (.ldp r.toMem) | 0x73 => some (.at r.toMem)
  | 0x74 => some (.atc r.toMem) | 0x75 => some (.red r.toMem) | 0x76 => some (.reds r.toMem) | 0x77 => some (.pub r.toMem)
  | 0x78 => some (.ref r.toMem) | 0x79 => some (.phase r.toMem) | 0x7A => some (.cflush r.toMem) | 0x7B => some (.pref r.toMem)
  | 0x7C => some (.copy r.toMem) | 0x7D => some (.copy2 r.toMem)
  | 0x90 => some (.bar r.toSync) | 0x91 => some (.bara r.toSync) | 0x92 => some (.barw r.toSync)
  | 0x93 => match r.mod with
    | [_, _, _, bop, _, _, _, _, _] =>
      if bop = 0 then some (.barnAlloc r.toSync) else if bop = 1 then some (.barnFree r.toSync) else some (.barnGen r.toSync)
    | _ => none
  | 0x94 => some (.swinit r.toSync) | 0x95 => some (.swadd r.toSync) | 0x96 => some (.swait r.toSync) | 0x97 => some (.swtest r.toSync)
  | 0xA0 => some (.mresv r.toMat) | 0xA1 => some (.mfree r.toMat) | 0xA2 => some (.mclaim r.toMat) | 0xA3 => some (.mrel r.toMat)
  | 0xA4 => some (.mld r.toMat) | 0xA5 => some (.mlds r.toMat) | 0xA6 => some (.mzero r.toMat) | 0xA7 => some (.mma r.toMat)
  | 0xA8 => some (.mst r.toMat) | 0xA9 => some (.msts r.toMat) | 0xAA => some (.mmov r.toMat) | 0xAB => some (.mstat r.toMat)
  | 0xAC => some (.mcfg r.toMat)
  | 0xC0 => some (.salloc r.toSurf) | 0xC1 => some (.sfree r.toSurf) | 0xC2 => some (.sld r.toSurf) | 0xC3 => some (.sst r.toSurf)
  | 0xC4 => some (.satop r.toSurf) | 0xC5 => some (.sblend r.toSurf) | 0xC6 => some (.squery r.toSurf) | 0xC7 => some (.spin r.toSurf)
  | 0xC8 => some (.tex r.toSurf) | 0xC9 => some (.texq r.toSurf)
  | 0xD0 => some (.vemit r.toRast) | 0xD1 => some (.fattr r.toRast) | 0xD2 => some (.femit r.toRast) | 0xD3 => some (.fkill r.toRast)
  | 0xD4 => some (.rxsnap r.toRast) | 0xD5 => some (.rxbox r.toRast) | 0xD6 => some (.rxtri r.toRast)
  | 0xE0 => some (.sread r.toSys) | 0xE1 => some (.swrite r.toSys) | 0xE2 => some (.qappend r.toSys) | 0xE3 => some (.svwin r.toSys)
  | 0xE4 => some (.ldwin r.toSys) | 0xE5 => some (.savereg r.toSys)
  | 0xE6 => if r.mod.headD 0 = 4 then some (.loadregGroup r.toSys) else some (.loadreg r.toSys)
  | 0xE7 => some (.brk r.toSys)
  | _ => none

/-- The decoder: total on every 96-bit word; a word that fails a check gives its cause (R61, R62). -/
def decodeWord (x : DecCtx) (w : Nat) : Except Nat Instr :=
  let r := Raw.ofWord w
  match r.check x with
  | some c => .error c
  | none => match r.instr with
    | some i => .ok i
    | none => .error 0x01

/-! ### The encoder -/

def Tail.raw : Tail → Nat
  | .imm x => x.toNat
  | .reg c aux => c.code + 256 * aux.toNat

def Tail.creg : Tail → Nat
  | .imm _ => 0
  | .reg .. => 1

def Ctl.raw (x : Ctl) (opc d a b : Nat) (mod : List Nat) (tail : Nat) : Raw :=
  { opc, gp := x.pred.val, gn := x.neg.toNat, d, a, b, mod, sw := x.sw.toNat, rb := x.rb.toNat, hint := 0, tail }

def Alu.raw (x : Alu) (opc : Nat) : Raw :=
  x.ctl.raw opc x.d.code x.a.code x.b.code
    [x.ty.toNat, x.rnd.code, x.sat.toNat, x.negA.toNat, x.absA.toNat, x.negB.toNat, x.absB.toNat, x.tail.creg, x.pd.reg.val,
     x.pd.valid.toNat, x.sub.toNat] x.tail.raw

def MemW.raw (x : MemW) (opc : Nat) : Raw :=
  x.ctl.raw opc x.d.code x.a.code x.b.code
    [x.width.toNat, x.inC.toNat, x.sx.toNat, x.pub.toNat, x.ref.toNat, x.aop.toNat, x.tail.creg, x.pd.reg.val, x.pd.valid.toNat,
     x.scope.code] x.tail.raw

def SyncW.raw (x : SyncW) (opc bop : Nat) : Raw :=
  x.ctl.raw opc x.d.code x.a.code x.b.code
    [0, x.pub.toNat, x.ref.toNat, bop, 0, 0, x.pd.reg.val, x.pd.valid.toNat, x.scope.code] x.imm.toNat

def MatW.raw (x : MatW) (opc : Nat) : Raw :=
  x.ctl.raw opc x.d.code x.a.code x.b.code
    [x.fmt.toNat, x.inC.toNat, x.tr.toNat, x.acc.toNat, x.clr.toNat, 0, x.tail.creg, x.pd.reg.val, x.pd.valid.toNat, 0] x.tail.raw

def SurfW.parts (x : SurfW) (opc : Nat) : Raw :=
  x.ctl.raw opc x.d.code x.a.code x.b.code
    [x.sop.toNat, x.raw.toNat, x.chan.toNat, x.wmask.toNat, x.ord.toNat, x.tail.creg, x.pd.reg.val, x.pd.valid.toNat, 0] x.tail.raw

def RastW.raw (x : RastW) (opc : Nat) : Raw :=
  x.ctl.raw opc x.d.code x.a.code x.b.code [x.sel.toNat, 0, x.tail.creg, x.pd.reg.val, x.pd.valid.toNat, 0] x.tail.raw

def SysW.raw (x : SysW) (opc : Nat) : Raw :=
  x.ctl.raw opc x.d.code x.a.code x.b.code
    (match clsOf opc with
     | .ctx => [x.arg.toNat % 16, x.arg.toNat / 16, 0, 0, x.pd.reg.val, x.pd.valid.toNat, 0]
     | _ => [x.arg.toNat, 0, 0, 0, 0, 0]) x.imm.toNat

/-- The fields of an instruction word; none for an event. -/
def Instr.raw : Instr → Option Raw
  | .nop x => some (x.raw 0x00) | .bra x => some (x.raw 0x01) | .brx x => some (x.raw 0x02) | .call x => some (x.raw 0x03)
  | .calli x => some (x.raw 0x04) | .ret x => some (x.raw 0x05) | .merge x => some (x.raw 0x06) | .exit x => some (x.raw 0x07)
  | .trap x => some (x.raw 0x08) | .eret x => some (x.raw 0x09) | .yield x => some (x.raw 0x0A)
  | .add x => some (x.raw 0x10) | .sub x => some (x.raw 0x11) | .addc x => some (x.raw 0x12) | .subb x => some (x.raw 0x13)
  | .mul x => some (x.raw 0x14) | .mulh x => some (x.raw 0x15) | .mad x => some (x.raw 0x16) | .madw x => some (x.raw 0x17)
  | .div x => some (x.raw 0x18) | .rem x => some (x.raw 0x19) | .min x => some (x.raw 0x1A) | .max x => some (x.raw 0x1B)
  | .abs x => some (x.raw 0x1C) | .neg x => some (x.raw 0x1D) | .lea x => some (x.raw 0x1E) | .sad x => some (x.raw 0x1F)
  | .and x => some (x.raw 0x20) | .or x => some (x.raw 0x21) | .xor x => some (x.raw 0x22) | .not x => some (x.raw 0x23)
  | .lut3 x => some (x.raw 0x24) | .shl x => some (x.raw 0x25) | .shr x => some (x.raw 0x26) | .sar x => some (x.raw 0x27)
  | .rot x => some (x.raw 0x28) | .funsh x => some (x.raw 0x29) | .bfe x => some (x.raw 0x2A) | .bfi x => some (x.raw 0x2B)
  | .popc x => some (x.raw 0x2C) | .clz x => some (x.raw 0x2D) | .ctz x => some (x.raw 0x2E) | .brev x => some (x.raw 0x2F)
  | .fadd x => some (x.raw 0x30) | .fsub x => some (x.raw 0x31) | .fmul x => some (x.raw 0x32) | .ffma x => some (x.raw 0x33)
  | .fmin x => some (x.raw 0x34) | .fmax x => some (x.raw 0x35) | .fdiv x => some (x.raw 0x36) | .fsqrt x => some (x.raw 0x37)
  | .frcp x => some (x.raw 0x38) | .frsq x => some (x.raw 0x39) | .fexp2 x => some (x.raw 0x3A) | .flog2 x => some (x.raw 0x3B)
  | .fsin x => some (x.raw 0x3C) | .fcos x => some (x.raw 0x3D) | .frnd x => some (x.raw 0x3E) | .ffrac x => some (x.raw 0x3F)
  | .fclass x => some (x.raw 0x40) | .fdot2 x => some (x.raw 0x41) | .flerp x => some (x.raw 0x42) | .fscale x => some (x.raw 0x43)
  | .cvt x => some (x.raw 0x50) | .kpack x => some (x.raw 0x51) | .kunpk x => some (x.raw 0x52) | .bytsel x => some (x.raw 0x53)
  | .mov x => some (x.raw 0x60) | .movi x => some (x.raw 0x61) | .movh x => some (x.raw 0x62) | .sel x => some (x.raw 0x63)
  | .icmp x => some (x.raw 0x64) | .fcmp x => some (x.raw 0x65) | .plop x => some (x.raw 0x66) | .pmov x => some (x.raw 0x67)
  | .shfl x => some (x.raw 0x68) | .vote x => some (x.raw 0x69) | .redux x => some (x.raw 0x6A) | .scan x => some (x.raw 0x6B)
  | .ld x => some (x.raw 0x70) | .st x => some (x.raw 0x71) | .ldp x => some (x.raw 0x72) | .at x => some (x.raw 0x73)
  | .atc x => some (x.raw 0x74) | .red x => some (x.raw 0x75) | .reds x => some (x.raw 0x76) | .pub x => some (x.raw 0x77)
  | .ref x => some (x.raw 0x78) | .phase x => some (x.raw 0x79) | .cflush x => some (x.raw 0x7A) | .pref x => some (x.raw 0x7B)
  | .copy x => some (x.raw 0x7C) | .copy2 x => some (x.raw 0x7D)
  | .bar x => some (x.raw 0x90 0) | .bara x => some (x.raw 0x91 0) | .barw x => some (x.raw 0x92 0)
  | .barnAlloc x => some (x.raw 0x93 0) | .barnFree x => some (x.raw 0x93 1) | .barnGen x => some (x.raw 0x93 2)
  | .swinit x => some (x.raw 0x94 0) | .swadd x => some (x.raw 0x95 0) | .swait x => some (x.raw 0x96 0) | .swtest x => some (x.raw 0x97 0)
  | .mresv x => some (x.raw 0xA0) | .mfree x => some (x.raw 0xA1) | .mclaim x => some (x.raw 0xA2) | .mrel x => some (x.raw 0xA3)
  | .mld x => some (x.raw 0xA4) | .mlds x => some (x.raw 0xA5) | .mzero x => some (x.raw 0xA6) | .mma x => some (x.raw 0xA7)
  | .mst x => some (x.raw 0xA8) | .msts x => some (x.raw 0xA9) | .mmov x => some (x.raw 0xAA) | .mstat x => some (x.raw 0xAB)
  | .mcfg x => some (x.raw 0xAC)
  | .salloc x => some (x.parts 0xC0) | .sfree x => some (x.parts 0xC1) | .sld x => some (x.parts 0xC2) | .sst x => some (x.parts 0xC3)
  | .satop x => some (x.parts 0xC4) | .sblend x => some (x.parts 0xC5) | .squery x => some (x.parts 0xC6) | .spin x => some (x.parts 0xC7)
  | .tex x => some (x.parts 0xC8) | .texq x => some (x.parts 0xC9)
  | .vemit x => some (x.raw 0xD0) | .fattr x => some (x.raw 0xD1) | .femit x => some (x.raw 0xD2) | .fkill x => some (x.raw 0xD3)
  | .rxsnap x => some (x.raw 0xD4) | .rxbox x => some (x.raw 0xD5) | .rxtri x => some (x.raw 0xD6)
  | .sread x => some (x.raw 0xE0) | .swrite x => some (x.raw 0xE1) | .qappend x => some (x.raw 0xE2) | .svwin x => some (x.raw 0xE3)
  | .ldwin x => some (x.raw 0xE4) | .savereg x => some (x.raw 0xE5) | .loadreg x => some (x.raw 0xE6) | .loadregGroup x => some (x.raw 0xE6)
  | .brk x => some (x.raw 0xE7)
  | _ => none

/-- The 96-bit word of an instruction; none for an event. -/
def encode (i : Instr) : Option Nat := i.raw.map Raw.word

/-- The 12 bytes of a word, lowest address first: three little-endian 32-bit words (R47). -/
def wordBytes (w : Nat) : List Byte := (List.range 12).map fun k => BitVec.ofNat 8 (w / 256 ^ k)

/-- The word of 12 bytes. -/
def bytesWord : List Byte → Nat
  | [] => 0
  | b :: bs => b.toNat + 256 * bytesWord bs

/-- The decoder on bytes: it reads the first 12 and leaves the rest; fewer than 12 bytes hold no instruction. -/
def decodeBytes (x : DecCtx) (bs : List Byte) : Except Nat (Instr × List Byte) :=
  if bs.length < 12 then .error 0x01
  else match decodeWord x (bytesWord (bs.take 12)) with
    | .ok i => .ok (i, bs.drop 12)
    | .error c => .error c

/-- The context in which every instruction may be decoded: privileged, in the restore handler, a team of four cores. -/
def DecCtx.all : DecCtx := { priv := true, restore := true, cores := 4 }

/-- The instruction that the decoder reads from a word whose bits are w (bits above nbits are zero). -/
def decodeTableWord (nbits w : Nat) : Option Instr :=
  match decodeBytes .all (wordBytes (w % 2 ^ nbits)) with
  | .ok (i, _) => some i
  | .error _ => none

end Sys2Proof
end

