-- ==== Sys2Proof/Config.lean ====
section
/-! DEFINITION. What the part fixes, and the free values: what the spec leaves open. A free value has no body. -/
namespace Sys2Proof.Config

/-- A value that the spec leaves open, one for every reading of the counter State.free (log entry 1). -/
opaque freeNat : Nat → Nat

/-- The unpublished function of the transcendental unit (R100): operation, format (true is f16), operand bits. -/
opaque sfu : Nat → Bool → Nat → Nat

/-- The AES-256 block cipher and its inverse (R159): key of 32 bytes, block of 16 bytes. -/
opaque aes256 : List Byte → List Byte → List Byte
opaque aes256Inv : List Byte → List Byte → List Byte

/-- Whether an access by ATS or to a target succeeds is decided outside; here only the standards of R395 and R402:
a certificate chain is valid and ends at the device root. -/
opaque chainOk : List Byte → Bool

/-- The leaf public key of a chain (R395 step 3). -/
opaque leafKey : List Byte → List Byte

/-- ECDSA P-384 with SHA-384: key, message, signature (R395 step 3). -/
opaque ecdsaOk : List Byte → List Byte → List Byte → Bool

/-- The signature of this package's root over a message (R395 step 3). -/
opaque ownSign : List Byte → List Byte

/-- The certificate chain of this package, as the HELLO message carries it (R395). -/
opaque ownChain : List Byte

/-- The nonce that the root's random generator gives for exchange n (R395). -/
opaque nonce : Nat → List Byte

/-- The ephemeral public point of exchange n, and the shared secret of that exchange with a peer's point (R395 step 4). -/
opaque ownPoint : Nat → List Byte
opaque ecdh : Nat → List Byte → List Byte

/-- SHA-384, HMAC-SHA-384 and HKDF-SHA-384 (R395): HKDF takes salt, input, info and length. -/
opaque sha384 : List Byte → List Byte
opaque hmac384 : List Byte → List Byte → List Byte
opaque hkdf384 : List Byte → List Byte → List Byte → Nat → List Byte

/-- AES-256 key wrap of RFC 3394 (R395): wrapping key, key pair; and the unwrap, none when its check fails. -/
opaque keyWrap : List Byte → List Byte → List Byte
opaque keyUnwrap : List Byte → List Byte → Option (List Byte)

/-- The XTS key pair that the root made for a key stamp (R159). -/
opaque xtsKeys : Nat → List Byte

/-- RSASSA-PSS and SLH-DSA verification of R402: key block, message, signature. -/
opaque rsaOk : List Byte → List Byte → List Byte → Bool
opaque slhOk : List Byte → List Byte → List Byte → Bool

/-- The digest fused for images of a kind, and the least version fused for it (R402). -/
opaque fusedDigest : Nat → List Byte
opaque fusedVersion : Nat → Nat

/-- The image of each kind that the module starts from at reset (R401). -/
opaque bootImage : Nat → List Byte

/-- GDDR7 capacity of the module in bytes: 192 GB, a decimal figure (R4, R14). -/
def gddr7 : Nat := 192000000000

/-- Cores of the package (R14). -/
def cores : Nat := 256

end Sys2Proof.Config
end

