-- ==== Sys2Proof/Machine/State.lean ====
section
/-! DEFINITION. The state of the package: everything that the spec names, as plain data, and its value at reset. -/
namespace Sys2Proof.Machine

/-- Why a step stops in a fault. -/
inductive Fault where
  /-- Raised by the meaning of an instruction word when no split issues: State.issue names no live split. Safe: a step
  sets State.issue before it calls a meaning. -/
  | noIssuer
  /-- Raised by step when the agenda names an instruction word instead of an event. Safe: words are fetched. -/
  | wordOnAgenda
  deriving DecidableEq, Repr

/-- Why a step is refused. -/
inductive Refusal where
  /-- Raised by an arm of exec that has no meaning yet. Safe. -/
  | notModelled (mnemonic : String)
  deriving DecidableEq, Repr

/-! ### Memory order (R124 to R131) -/

/-- What an agent knows to have happened before its next access: for each writer, the first write number that it does
not know; for locations of the issuing package and C-space, of remote packages, and of surfaces (R127). -/
structure View where
  own  : Map Nat := []
  rem  : Map Nat := []
  surf : Map Nat := []
  line : Map (Map Nat) := []      -- the same for single lines, as CFLUSH hands them over (R151)
  deriving DecidableEq, Repr, Inhabited

/-- A release: the core that made it, its scope, and what happens before it (R126 edge 3). -/
structure Rel where
  core  : Nat := 0
  scope : Nat := 0
  view  : View := {}
  deriving DecidableEq, Repr, Inhabited

/-- One write, in coherence order (R125): where, the bytes it replaced, its writer, the releases that precede it in
program order or that it inherits as an atomic, and what an engine's counted stores give to its readers (edge 5); for a
store of a group the group's uid, for one that its matrix engine performs the operation (R264); whether the Bobbin engine made
it (R135). -/
structure WriteRec where
  id    : Nat := 0
  loc   : Nat := 0
  old   : List Byte := []
  agent : Nat := 0
  rels  : Map Rel := []
  eng   : View := {}
  group : Nat := 0
  op    : Option Nat := none
  line  : Bool := false
  deriving DecidableEq, Repr, Inhabited

/-- What a group has seen: its view, its releases per scope, the releases that it has observed, and the newest write of
each location that a load returned to it (R129); the group's uid, and the operation of its engine that accesses for it. -/
structure Seen where
  view  : View := {}
  rels  : Map Rel := []
  obs   : Map Rel := []
  floor : Map Nat := []
  uid   : Nat := 0
  op    : Option Nat := none
  deriving DecidableEq, Repr, Inhabited

/-- The writes so far, newest first, and what each core's groups share (R126 edge 2). -/
structure Order where
  next   : Nat := 1
  writes : List WriteRec := []
  cores  : Map View := []
  counts : Map View := []      -- by sync word: what its next generation will hand to its readers (edge 5)
  deriving DecidableEq, Repr, Inhabited

/-! ### Groups and splits -/

/-- One value to be written to one register of one lane: the key of State's register file, the lane whose landing
carries it, the value. -/
structure RegWrite where
  key  : Nat := 0
  lane : Nat := 0
  val  : Word := 0
  deriving DecidableEq, Repr, Inhabited

/-- An outstanding variable-latency result (R69 to R73). -/
structure Outst where
  seq    : Nat := 0
  issue  : Nat := 0
  min    : Nat := 0
  ready  : Bool := true       -- false while an engine still has to produce the value
  writes : List RegWrite := []
  deriving DecidableEq, Repr, Inhabited

/-- The operands of one lane of a captured access: address or coordinates, data, third operand, index. -/
structure LaneOp where
  lane : Nat := 0
  x    : Nat := 0
  y    : Nat := 0
  b    : Nat := 0
  c    : Nat := 0
  deriving DecidableEq, Repr, Inhabited

/-- A captured instruction: its operands as read at issue (R71), kept while lanes wait for a replay or an event. -/
structure Held where
  instr : Instr := .nop {}
  pc    : Nat := 0
  lanes : Lanes := 0
  ops   : List LaneOp := []
  seq   : Nat := 0
  deriving DecidableEq, Repr, Inhabited

/-- What a completion park still has to do when it ends (R201). -/
inductive Todo where
  | done                                              -- its effect is already made
  | readFlags (d : Operand) (lanes : Lanes)           -- SREAD of FPFLAGS (R218)
  | writeFlags (x : Nat)                              -- SWRITE of FPFLAGS (R219)
  | handlerEnd                                        -- ERET, or the EXIT that ends a handler (R374, R375)
  | reds (x : MemW)                                   -- REDS: contributions not yet answered (R149)
  | order (ste key : Nat)                             -- an ordered surface operation not yet held (R310)
  | sfree (ste : Nat)                                 -- SFREE (R318)
  | entry (ste : Nat) (alloc : Bool) (writes : List RegWrite)   -- SALLOC, SPIN: the surface is LIVE, then the write-back (R293)
  | pin (ste : Nat) (writes : List RegWrite)          -- SPIN .pin: every tile resident (R324)
  | restored                                          -- LOADREG.group: every group of the team has executed it (R167)
  deriving DecidableEq, Repr, Inhabited

/-- Why a split is parked (R201). Migrating is the stall of R360. -/
inductive Park where
  | completion (t : Todo)
  | barrier (key : Nat) (scope : Nat) (wait : Option Nat) (pd : PDest) (lanes : Lanes)
  | noUnit                                            -- a team barrier waits for a free unit (R242)
  | syncWord (loc : Nat) (scope : Nat) (gen : Nat)    -- the record, the operand (R255)
  | merge
  | span                                              -- span wait (R226)
  | transfer (h : Held)                               -- transfer wait (R227)
  | issue                                             -- issue wait
  | migrating (h : Held)
  | tile (h : Held)                  -- lanes whose tile is not resident (R302)
  deriving DecidableEq, Repr, Inhabited

/-- One split entry (R204). -/
structure Split where
  pc    : Nat := 0
  mask  : Lanes := 0
  wb    : Nat := 0
  wait  : Nat := 0
  park  : Option Park := none
  defer : Bool := false
  fault : Bool := false
  priv  : Bool := false
  yielded : Bool := false    -- the group's previous run ended with its YIELD (R206)
  quiet : Bool := false      -- the first instruction after ERET matches no breakpoint (R375)
  stepped : Bool := false    -- STEP has been raised before its next issue (R385)
  deriving DecidableEq, Repr, Inhabited

/-- A raised trap that waits for its delivery (R372). -/
structure Trap where
  clock : Nat := 0
  slot  : Nat := 0
  cause : Nat := 0
  mask  : Lanes := 0
  addr  : Nat := 0
  aux   : Nat := 0
  pc    : Nat := 0           -- TRAPPC
  rpc   : Nat := 0           -- PC at which a forced save leaves the split (R374)
  whole : Bool := false      -- an asynchronous cause: the split's PC and lanes are those of its delivery (R373)
  deriving DecidableEq, Repr, Inhabited

/-- The handler that runs: the cause of its entry, the live slot, and the PC that a forced save restores. -/
structure Handler where
  cause : Nat := 0
  slot  : Nat := 0
  rpc   : Nat := 0
  again : Bool := false      -- the raising instruction has counted, and counts again when it issues again (R419)
  deriving DecidableEq, Repr, Inhabited

/-- What a group does when its fault is resumed (R365). -/
inductive Retry where
  | replay (h : Held)      -- faulted lanes perform their accesses (R139)
  | reissue                -- the instruction issues again
  | args                   -- the argument words are read again (R195)
  | entry                  -- handler entry continues (R373)
  | finish (h : Held)      -- a write-back is made again, then the instruction completes (R293)
  | save                   -- entry to the save handler continues (R162)
  deriving DecidableEq, Repr, Inhabited

/-- The fault that a group waits on. -/
structure FaultWait where
  token : Nat := 0
  slot  : Nat := 0
  retry : Retry := .reissue
  also  : List Nat := []     -- tokens of later records of the same wait: stalled lanes that have faulted since (R365)
  deriving DecidableEq, Repr, Inhabited

/-- An arrival record (R244): the barrier's key, its mask, and what the arrivals of its splits publish. -/
structure Arrival where
  key  : Nat := 0
  mask : Lanes := 0
  view : View := {}
  deriving DecidableEq, Repr, Inhabited

/-- A rejected contribution of the REDS in progress in a live slot (R149). -/
structure Reject where
  slot  : Nat := 0
  lane  : Nat := 0
  cause : Nat := 0
  index : Nat := 0
  addr  : Nat := 0
  deriving DecidableEq, Repr, Inhabited

/-- The phases of a group's life that its splits do not show (R199). -/
inductive Phase where
  | placing | active | exiting
  deriving DecidableEq, Repr, Inhabited

/-- The special registers of a group (R79) that instructions and traps write. -/
structure Spr where
  stab      : Nat := 0
  stabn     : Nat := 0
  stabs     : Nat := 16
  icount    : Nat := 0
  fpctl     : Nat := 0
  fpflags   : Nat := 0
  barstat   : Nat := 0
  trapcause : Nat := 0
  trappc    : Nat := 0
  trapmask  : Lanes := 0
  trapaddr  : Nat := 0
  trapaux   : Nat := 0
  deriving DecidableEq, Repr, Inhabited

/-- What placement loads into a group (R79, R187, R196) and what never changes. -/
structure Ident where
  uid      : Nat := 0
  core     : Nat := 0        -- DIEID × 128 + COREID
  slot     : Nat := 0        -- 0..63; the port is slot ÷ 16
  ctx      : Nat := 0
  team     : Nat := 0
  gid      : Nat := 0
  x        : Nat := 0
  y        : Nat := 0
  z        : Nat := 0
  launch   : Nat := 0
  kind     : Nat := 0
  depthW   : Bool := false
  rows     : Nat := 8        -- RINGROWS
  bsp      : Nat := 0
  bsl      : Nat := 0
  args     : Nat := 0
  scalars  : Nat := 0
  born     : Nat := 0        -- first write number of its launch (R49)
  draw     : Option Nat := none
  part     : Nat := 0        -- which share of the draw's work it does
  deriving DecidableEq, Repr, Inhabited

/-- A group (R199). -/
structure Group where
  ident   : Ident := {}
  phase   : Phase := .active
  regs    : Map Word := []          -- register file; an unlisted register holds zero
  bad     : Map Nat := []           -- poisoned registers, by their keys, with the cause of their consumption (R380)
  dirty   : List Nat := []          -- dirty ring rows (R164)
  spr     : Nat := 0                -- SPR
  sr      : Spr := {}
  live    : Map Split := []         -- slots 0..3
  pend    : List Split := []
  outst   : List Outst := []
  seq     : Nat := 0
  swPark  : Bool := false
  traps   : List Trap := []
  handler : Option Handler := none
  notes   : List (Nat × Nat) := []  -- asynchronous causes raised at its next issue decision (R372), with TRAPAUX
  fault   : Option FaultWait := none
  fmask   : Lanes := 0              -- FMASK of a restored group, until its replay (R172)
  rejects : List Reject := []
  arrivals : List Arrival := []
  counted : List Nat := []          -- uids of barriers that it has arrived at (R248)
  seen    : Seen := {}
  saving  : Bool := false           -- a forced save of it has begun (R162)
  saved   : Bool := false           -- it has entered the save handler
  loaded  : Bool := false           -- it has executed LOADREG.group (R167)
  vert    : Map Word := []          -- vertex records (R331): lane × 1,024 + word
  frag    : Map Word := []          -- fragment data of its lanes (R339): lane × 1,024 + word
  killed  : Lanes := 0              -- lanes whose fragment FKILL drops
  back    : List (Nat × Split) := []  -- entries that LOADREG.group has restored, by place: 0..3 live, then pending (R172)
  kept    : List Outst := []        -- results of ordered items held through a save (R321)
  argsDue : Bool := false           -- it was saved before its argument words were read (R195)
  uncount : Nat := 0                -- what the ICOUNT of its record counts and will issue again after a restore (R419)
  rejKept : List Reject := []       -- rejections of the REDS whose lanes replay after a restore (R149)
  deriving DecidableEq, Repr, Inhabited

/-- A run in progress on a port (R67, R203): the group, the live slot, the instructions issued, the clock of the next. -/
structure Run where
  group : Nat := 0
  slot  : Nat := 0
  count : Nat := 0
  clock : Nat := 0
  deriving DecidableEq, Repr, Inhabited

/-- A mismatch that a checker of a port is about to find (R379): the unit's kind, the lanes. -/
structure Check where
  port  : Nat := 0
  kind  : Nat := 0
  lanes : Lanes := 0
  deriving DecidableEq, Repr, Inhabited

/-! ### Surfaces -/

/-- One item of an ordered stream (R310): its instruction, the operands of the lanes still to be applied, the group by its
uid, and the numbers of the results that it will give. -/
structure OrdItem where
  key   : Nat := 0
  instr : Instr := .nop {}
  ops   : List LaneOp := []
  uid   : Nat := 0
  core  : Nat := 0
  wb    : Nat := 0
  seqs  : List Nat := []
  seen  : Seen := {}
  held  : Bool := false
  id    : Nat := 0
  deriving DecidableEq, Repr, Inhabited

/-- Tile states (R301); an unlisted tile is resident. The class is that of R299. -/
structure Tile where
  state : Nat := 1      -- 1 EVICTING, 2 EVICTED, 3 REFILLING, 4 REFILLING and waiting for its page
  cls   : Nat := 0
  wait  : Option Nat := none
  deriving DecidableEq, Repr, Inhabited

/-- A LIVE surface: the device copy of its entry and its stream (R292, R293, R303). -/
structure Surf where
  uid    : Nat := 0
  width  : Nat := 1
  height : Nat := 1
  fmt    : Nat := 0
  samples : Nat := 0
  chk    : Nat := 0
  flip   : Bool := false
  pin    : Bool := false
  back   : Nat := 0
  spages : Nat := 0
  nextKey : Nat := 0
  items  : List OrdItem := []
  tiles  : Map Tile := []      -- 2^32 × stack + tile in storage order
  used   : Nat := 0            -- clock of its last use (R300)
  entry  : Nat := 0            -- the device copy of the entry's 256 bits (R293)
  freeing : Bool := false      -- SFREE has issued
  freed  : Bool := false       -- its pages are released
  redo   : Option Nat := none  -- uid of a saved group whose SALLOC or SFREE still owes its write-back (R162, R293)
  deriving DecidableEq, Repr, Inhabited

/-! ### Teams, kernels, packets, queues -/

/-- A kernel descriptor (R187). -/
structure KDesc where
  entry   : Nat := 0
  rows    : Nat := 8
  groups  : Nat := 1
  cores   : Nat := 0
  scalars : Nat := 0
  oslots  : Nat := 0
  aslots  : Nat := 0
  kind    : Nat := 0
  depthW  : Bool := false
  cspace  : Nat := 0
  backkb  : Nat := 0
  deriving DecidableEq, Repr, Inhabited

/-- A placed team (R190). -/
structure Team where
  uid    : Nat := 0
  ctx    : Nat := 0
  queue  : Nat := 0
  seq    : Nat := 0            -- the packet that placed it
  index  : Nat := 0            -- linear index t
  kd     : KDesc := {}
  cores  : List Nat := []
  csize  : Nat := 0            -- bytes of C-space
  cline  : Nat := 0            -- CBASE ÷ 128 (R119)
  ob     : Map Nat := []       -- first operand slot on each core
  ab     : Map Nat := []       -- first accumulator slot on each core
  left   : Nat := 0            -- groups that have not exited
  copies : Nat := 0            -- copies of the team in progress
  ended  : Bool := false
  barKey : Option Nat := none  -- unit of the team barrier
  cdirty : List Nat := []      -- dirty 256-byte granules of C-space (R165)
  resv   : List Nat := []      -- core indices whose engine it held when it was saved (R259)
  draw   : Option Nat := none
  saved  : Bool := false       -- kept with a SAVED context (R167)
  claims : List (Nat × Bool × Nat) := []   -- slots claimed when it was saved: core index, accumulator, slot
  gsaved : List Group := []    -- its saved groups: what their records do not hold
  deriving DecidableEq, Repr, Inhabited

/-- A packet that has started or waits at the head of its queue (R176 to R179). -/
structure Packet where
  queue  : Nat := 0
  slot   : Nat := 0
  seq    : Nat := 0
  raw    : Nat := 0            -- its 512 bits
  kd     : List KDesc := []
  status : Nat := 0
  teams  : Nat := 0            -- teams to place
  placed : Nat := 0
  left   : Nat := 0            -- teams that have not ended
  copies : Nat := 0            -- ranges in progress
  record : Nat := 0            -- a DRAW's raster state record
  shape  : Option Surf := none -- size, samples and checker of the surfaces that it binds (R328)
  draw   : Option Nat := none
  failed : Bool := false
  starved : Bool := false      -- it has waited for a fit too long (R183)
  wait   : Option Nat := none  -- token of the fault on its completion record
  born   : Nat := 0            -- first write number after its start (R49)
  deriving DecidableEq, Repr, Inhabited

/-- Queue states (R173, R185). -/
inductive QState where
  | idle | ready | active | blocked | late | stopped | faulted
  deriving DecidableEq, Repr, Inhabited

/-- A queue and its walker (R173, R178). -/
structure Queue where
  rbase   : Nat := 0
  size    : Nat := 0
  kapp    : Bool := false
  cplbase : Nat := 0
  tail    : Nat := 0
  head    : Nat := 0
  seq     : Nat := 0
  placed  : Nat := 0
  state   : QState := .idle
  cur     : Option Packet := none    -- the head packet once it is eligible
  open_   : List Packet := []        -- consumed, not complete
  wait    : Option Nat := none       -- token of a front-end fault
  due     : Bool := false            -- its settling has met a fault or a stall and is still to be made
  owes    : Bool := false            -- HEAD, SEQ, PLACED and STATE are still to be written to its descriptor (R173)
  bells   : List Nat := []           -- OPs of doorbells whose read of TAIL is still to be made (R175)
  primSeq : Nat := 0                 -- next primitive sequence number (R180)
  deriving DecidableEq, Repr, Inhabited

/-! ### Barriers -/

/-- A taken barrier (R240, R247): a core unit, a quad unit, a network barrier, or a team barrier's unit. -/
structure Bar where
  uid    : Nat := 0
  scope  : Nat := 0
  team   : Option Nat := none      -- owner of a unit
  ctx    : Nat := 0
  core   : Nat := 0                -- core on which it was taken
  isTeam : Bool := false
  expect : Nat := 1
  arrived : Nat := 0
  gen    : Nat := 0
  abandoned : Option Nat := none   -- the recorded cause
  now    : Map Rel := []           -- arrivals of this generation (R126 edge 4)
  past   : Map Rel := []           -- arrivals of the generation last completed
  deriving DecidableEq, Repr, Inhabited

/-! ### Engines -/

/-- A copy in a quad's queue (R135, R140, R153, R154, R420): what remains is from (row, next) on. -/
structure Copy where
  id     : Nat := 0
  ctx    : Nat := 0
  team   : Option Nat := none
  core   : Nat := 0                -- issuing core
  packet : Option (Nat × Nat) := none   -- queue and sequence number of a COPY packet
  dstC   : Bool := false
  srcC   : Bool := false
  dst    : Nat := 0
  src    : Nat := 0
  bytes  : Nat := 0                -- bytes of a row
  rows   : Nat := 1
  dstride : Int := 0
  sstride : Int := 0
  scope  : Nat := 0
  sync   : Option Nat := none
  row    : Nat := 0
  next   : Nat := 0                -- bytes of the row already written
  high   : Nat := 0                -- bytes of the row already counted
  first  : Nat := 0                -- line index of its first line within the packet's copy
  view   : View := {}
  stamp  : Nat := 0                -- first write number that its source loads do not see through the issuing group
  wait   : Option Nat := none      -- token of its fault
  two    : Bool := false
  deriving DecidableEq, Repr, Inhabited

/-- Retained and pass formats of the matrix engine (R265, R266). -/
inductive MFmt where
  | k4 | f8 | g8 | bf16 | f16
  deriving DecidableEq, Repr, Inhabited

/-- An operand slot (R261, R265). -/
structure OSlot where
  owner  : Option Nat := none       -- team that claims it
  fmt    : MFmt := .bf16
  se     : Int := 0
  data   : Map Nat := []            -- element 64 × i + k
  issued : MFmt := .bf16            -- retained format in issue order (R269)
  dirty  : List Nat := []
  deriving DecidableEq, Repr, Inhabited

/-- An accumulator slot: element 16 × i + j, as an A40 pattern. -/
structure ASlot where
  owner : Option Nat := none
  data  : Map Nat := []
  dirty : List Nat := []
  deriving DecidableEq, Repr, Inhabited

/-- What an entry of the engine's queue does (R262, R264). -/
inductive MOp where
  | clear (acc : Bool) (base n : Nat)                              -- the zero fill of a claim
  | fill (slot fmt : Nat) (inC tr : Bool) (addr : Nat) (stride : Int)
  | fillSurf (slot fmt : Nat) (view : Nat)
  | zero (slot : Nat)
  | mma (a b c w0 w1 : Nat) (f : MFmt) (n : Nat)                   -- the next pass format, passes done
  | store (slot fmt : Nat) (inC : Bool) (addr : Nat) (stride : Int)
  | storeSurf (slot : Nat) (view : Nat)
  | move (fmt : Nat) (reads : List (Nat × Nat × Nat × Nat)) (seq : Nat)  -- lane, slot, row, register key
  deriving DecidableEq, Repr, Inhabited

/-- One entry of the queue of a matrix engine. -/
structure MEntry where
  id    : Nat := 0
  op    : MOp := .zero 0
  group : Nat := 0                  -- key and uid of the issuing group
  uid   : Nat := 0
  team  : Nat := 0
  ctx   : Nat := 0
  quarter : Nat := 0
  mark  : Nat := 0                  -- progress mark (R369)
  stamp : Nat := 0                  -- write number at issue
  seen  : Seen := {}
  upto  : Map Nat := []             -- newest write that the group's later loads of a location have returned (R129)
  wait  : Option Nat := none
  deriving DecidableEq, Repr, Inhabited

/-- The matrix engine of a core (R256, R259, R270, R272). -/
structure Engine where
  holder : Option Nat := none
  w0     : Nat := 0
  w1     : Nat := 0xF18             -- CANBITS 24, START and CEIL BF16
  counts : List Nat := [0, 0, 0, 0, 0]   -- PASSES, REPK4, REPF8, REPG8, CEILHITS
  last   : List Nat := [0, 0, 0, 0]
  oslots : Map OSlot := []
  aslots : Map ASlot := []
  queue  : List MEntry := []
  resume : List (Nat × Nat × Nat) := []  -- restored ladder state: see R273
  deriving DecidableEq, Repr, Inhabited

/-- A contribution on its way to, or held by, a sequenced reduction stream (R149): the word, the context, the lane's record
address, value and index, its split, the releases that precede it; of a held one, where its record lies, unless its page is
away (R360). -/
structure Contrib where
  id    : Nat := 0
  word  : MemW := {}
  ctx   : Nat := 0
  addr  : Nat := 0
  value : Nat := 0
  index : Nat := 0
  group : Nat := 0
  uid   : Nat := 0
  slot  : Nat := 0
  lane  : Nat := 0
  held  : Bool := false
  loc   : Option Nat := none
  rels  : Map Rel := []
  deriving DecidableEq, Repr, Inhabited

/-! ### Pages -/

/-- Pages that a SALLOC or a refill waits for (R300): the page of the refill, or the surface that will be LIVE; the quota
pages still to be freed on each stack; of a SALLOC, its group, uid and live slot, and what it writes when it fails after all. -/
structure Demand where
  ctx  : Nat := 0
  ste  : Nat := 0
  page : Option (Nat × Nat) := none
  surf : Surf := {}
  q0   : Nat := 0
  q1   : Nat := 0
  group : Nat := 0
  uid  : Nat := 0
  slot : Nat := 0
  fails : List RegWrite := []
  deriving DecidableEq, Repr, Inhabited

/-! ### Contexts -/

/-- Context states (R157). -/
inductive CState where
  | empty | built | resident | running | draining | saving | saved | faulted | destroyed
  deriving DecidableEq, Repr, Inhabited

/-- A context record (R156). -/
structure CRec where
  ptroot   : Nat := 0
  stbase   : Nat := 0
  stcount  : Nat := 0
  qcount   : Nat := 0
  squota   : Nat := 0
  qtbase   : Nat := 0
  fqbase   : Nat := 0
  fbbase   : Nat := 0
  savepc   : Nat := 0
  restpc   : Nat := 0
  drainlim : Nat := 0
  penote   : Bool := false
  deriving DecidableEq, Repr, Inhabited

/-- A fault record (R363) that has been made; a full ring holds it back. -/
structure FRec where
  cause : Nat := 0
  src   : Nat := 0
  die   : Nat := 0
  core  : Nat := 0
  slot  : Nat := 0
  token : Nat := 0
  va    : Nat := 0
  lanes : Nat := 0
  pmark : Nat := 0
  sub   : Nat := 0
  aux   : Nat := 0
  fseq  : Nat := 0
  deriving DecidableEq, Repr, Inhabited

/-- An entry of the surface table that DESTROY writes back (R303), with the token of the fault that it waits on (R365). -/
structure Owed where
  ste   : Nat := 0
  bytes : List Byte := []
  wait  : Option Nat := none
  deriving DecidableEq, Repr, Inhabited

/-- A network barrier's id within a context is its key in `bars` of the state; here what else a context holds. -/
structure Ctx where
  state  : CState := .empty
  cause  : Nat := 0            -- the cause recorded with its context fault (R371)
  port   : Nat := 0
  rc     : CRec := {}
  keyId  : Nat := 0
  stamp  : Nat := 0            -- names the key pair: a fresh number at each BUILD
  drain  : Nat := 0
  queues : Map Queue := []
  surfs  : Map Surf := []
  fseq   : Nat := 0
  held   : List FRec := []     -- records that the full ring holds back (R365)
  prims  : Nat := 0
  bps    : Map Nat := []       -- breakpoint k: PC
  wps    : Map (Nat × Nat × Nat) := []   -- watchpoint k: base, WSIZE, WKIND
  stepping : Bool := false
  barSave : List (Nat × Bar) := []   -- barriers kept while SAVED, with their keys: units of several teams may share one (R250)
  owed    : List Owed := []    -- entries of freed surfaces that DESTROY has still to write back (R303)
  inval   : List (Nat × Nat × Nat) := []   -- INVALs: first address, end, next write number at completion (R359)
  deriving DecidableEq, Repr, Inhabited

/-! ### Draws -/

/-- A vertex on the screen (R334): snapped position, depth and w as f32 bits, attribute words. -/
structure RVert where
  x     : Int := 0
  y     : Int := 0
  z     : Nat := 0
  w     : Nat := 0
  attrs : List Nat := []
  deriving DecidableEq, Repr, Inhabited

/-- A triangle (R336): its primitive's sequence number, its face, its vertices after the exchange, and the attributes of
the provoking vertex. -/
structure Tri where
  prim  : Nat := 0
  front : Bool := false
  v     : List RVert := []
  prov  : List Nat := []
  deriving DecidableEq, Repr, Inhabited

/-- A fragment (R340, R341): its pixel, the samples whose early steps are due, the samples still to be applied, the depth of
each sample, and, by target, the colour that its lane gave. -/
structure Frag where
  x      : Nat := 0
  y      : Nat := 0
  early  : Nat := 0
  cover  : Nat := 0
  z      : List Nat := []
  colour : Map Nat := []
  begun  : Bool := false       -- a step has been made on some of its samples, and is due on others (R180)
  deriving DecidableEq, Repr, Inhabited

/-- A quad of a triangle (R339): 0 its early steps wait, 1 it waits for a group, 2 its group runs, 3 shaded. -/
structure Quad where
  id    : Nat := 0           -- its place in the order of application
  x     : Nat := 0
  y     : Nat := 0
  tri   : Tri := {}
  frags : List Frag := []
  state : Nat := 0
  group : Nat := 0           -- uid of its group
  deriving DecidableEq, Repr, Inhabited

/-- A DRAW packet in progress (R327 to R341). -/
structure Draw where
  ctx    : Nat := 0
  queue  : Nat := 0
  seq    : Nat := 0
  record : Nat := 0               -- the raster state record
  shape  : Option Surf := none    -- size, samples and checker of its surfaces, as at its start (R329)
  fk     : KDesc := {}            -- the fragment kernel
  args   : Nat := 0
  deadline : Nat := 0
  vcount : Nat := 0
  insts  : Nat := 0
  born   : Nat := 0               -- first write number after its start
  base   : Nat := 0               -- sequence number of its first primitive
  verts  : Map (Map Word) := []   -- final records by vertex, instance × VCOUNT + v: slot × 4 + component
  dead   : List Nat := []         -- vertices whose lane was killed
  nextPrim : Nat := 0             -- next primitive to assemble
  quads  : List Quad := []        -- in the order of application
  starved : Bool := false         -- a fragment team of it has waited for a fit too long (R183)
  nextQuad : Nat := 0
  deriving DecidableEq, Repr, Inhabited

/-! ### Links, hosts, package -/

/-- Registers of one PCIe physical function that hold a value (R398). -/
structure Port where
  ctxlast  : Nat := 0            -- the context last named in CTXCMD
  ctxres   : Nat := 0            -- RESULT of that command
  entering : Option Nat := none  -- the context whose ADMIT is in progress: PENDING
  now      : Nat := 0
  pgarg    : Nat := 0
  pgstat   : Nat := 0
  dbgarg   : Nat := 0
  dbgstat  : Nat := 0
  logbase  : Nat := 0
  logctl   : Nat := 0
  logwr    : Nat := 0
  logrd    : Nat := 0
  loglost  : Nat := 0
  mgmtarg  : Nat := 0
  mgmtstat : Nat := 0
  podbind  : Option Nat := none  -- exchange identifier of the BIND of the PODBIND in progress
  vfmap    : Map Nat := []
  deriving DecidableEq, Repr, Inhabited

/-- A management message (R395): its code, exchange identifier and bytes; on its way, the fragments that have arrived. -/
structure MgmtMsg where
  code  : Nat := 0
  xid   : Nat := 0
  body  : List Byte := []
  frag  : Nat := 0          -- next fragment
  total : Nat := 0
  deriving DecidableEq, Repr, Inhabited

/-- The pairwise exchange of a port (R395): how far it is (0 none, 1 HELLO sent, 2 SHARE sent, 3 FINISH sent, 4 checked), its
number, the identifiers that both roots chose, the messages, and the keys. -/
structure Exch where
  step   : Nat := 0
  n      : Nat := 0
  xid    : Nat := 0
  peerXid : Nat := 0
  hello  : List Byte := []
  helloP : List Byte := []
  pointP : List Byte := []
  wrap   : List Byte := []
  conf   : List Byte := []
  deriving DecidableEq, Repr, Inhabited

/-- The work of an access that leaves the package (R378, R391): its context and packet, the agent as the reliability log names it, its
location; posted: a store or an engine's access; else, for a load or an atomic of a group, the group's key and uid and the
result that it waits for, if any. -/
structure Work where
  ctx    : Nat := 0
  core   : Nat := 0
  slot   : Nat := 0
  gid    : Nat := 0
  packet : Option (Nat × Nat) := none
  loc    : Nat := 0
  posted : Bool := true
  group  : Option (Nat × Nat × Option Nat) := none
  deriving DecidableEq, Repr, Inhabited

/-- A Hexolink port (R387 to R395). -/
structure Link where
  state  : Nat := 0                      -- as PORTSTAT.STATE
  half   : Bool := false                 -- two lanes active
  shadow : Nat := 4
  weak   : List Nat := []
  seq    : Nat := 0                      -- SEQ of the next flit
  last   : Nat := 4095                   -- SEQ last accepted
  nak    : Bool := false                 -- a NAK has been sent since
  nakSeq : Nat := 0                      -- ACK of the NAKs received, and how many in a row
  naks   : Nat := 0
  replay : List (Nat × List Byte) := []  -- unacknowledged flits, oldest first
  reqs   : List (Nat × Work) := []       -- the requests in the replay buffer, by SEQ
  waiting : List (Work × List Byte) := [] -- requests that the full replay buffer holds back, oldest first (R389)
  asked  : Nat := 0                      -- request flits accepted from the peer and not yet performed
  sent   : List (List Byte) := []        -- every flit sent, in order: what the peer sees
  peer   : Option Nat := none
  rx     : Option MgmtMsg := none        -- the message whose fragments arrive
  inbox  : List MgmtMsg := []            -- whole messages
  kx     : Exch := {}
  deriving DecidableEq, Repr, Inhabited

/-- A PODBIND of a local context with a remote context's key id (R394, R395): 0 its BIND is not answered, 1 accepted, 2
refused. What a peer's BIND brought: the peer's key pair and its stamp. -/
structure Binding where
  ctx    : Nat := 0
  node   : Nat := 0
  theirs : Nat := 0
  state  : Nat := 0
  port   : Nat := 0          -- the function whose MGMTSTAT waits
  xid    : Nat := 0
  keys   : List Byte := []
  stamp  : Option Nat := none
  deriving DecidableEq, Repr, Inhabited

/-- One merged reliability record (R383). -/
structure LogRec where
  cause : Nat := 0
  kind  : Nat := 0
  ctx   : Option Nat := none
  die   : Nat := 0
  core  : Nat := 0
  slot  : Nat := 0
  gid   : Nat := 0
  loc   : Nat := 0
  count : Nat := 1
  index : Nat := 0           -- its place in the ring
  deriving DecidableEq, Repr, Inhabited

/-- What the outside world and the schedule put before the machine (log entry 2). -/
inductive Input where
  | auto                                              -- the next issue, or the next event of the default order
  | event (e : Instr)
  | store (loc : Nat) (stamp : Nat) (bytes : List Byte) (agent : Nat)   -- a store from outside, at a location
  | mismatch (c : Check)                              -- a checker finds a mismatch at the port's next arithmetic issue (R379)
  deriving DecidableEq, Repr, Inhabited

/-- The state of the package. -/
structure State where
  clock   : Nat := 0
  agenda  : List Input := []
  free    : Nat := 0                        -- the model's own: counter of free values (log entry 1)
  fresh   : Nat := 1                        -- the model's own: next uid, token or operation number
  turn    : Nat := 0                        -- the model's own: how often the default order has chosen (log entry 2)
  issue   : Option (Nat × Nat) := none      -- group key and live slot of the split that issues
  runs    : Map Run := []                   -- by 4 × core + port
  rr      : Map Nat := []                   -- round-robin pointers, by 4 × core + port: slot that ran last, plus one
  mem     : Map Byte := []                  -- every location; an unlisted one reads zero
  keyB    : Map Nat := []                   -- key stamp under which a byte was written; unlisted: 0, plaintext
  keyL    : Map Nat := []                   -- key stamp under which a 128-byte line was last written
  poison  : Map Nat := []                   -- poisoned 8-byte granules of memory, with the cause of their consumption
  badSlot : Map Nat := []                   -- poisoned granules of operand and accumulator slots, by slotGranule
  badCore : Map Nat := []                   -- poisoned granules of the L1 and the instruction cache of each core, by coreGranule
  order   : Order := {}
  groups  : Map Group := []                 -- by 64 × core + slot
  teams   : Map Team := []                  -- by uid
  engines : Map Engine := []                -- by core
  copyq   : List Copy := []                 -- in issue order; each names its quad by its core
  bars    : Map Bar := []                   -- by key: see Sync
  contribs : List Contrib := []
  demands : List Demand := []               -- oldest first
  ctxs    : Map Ctx := []
  draws   : Map Draw := []                  -- by uid
  port0   : Port := {}
  port1   : Port := {}
  log0    : List LogRec := []
  log1    : List LogRec := []
  near    : Map Nat := []                   -- units set aside, by stack
  links   : Map Link := []
  node    : Nat := 0
  routes  : Map Nat := []                   -- port + 1; unlisted: none
  bindings : List Binding := []
  bindSeen : Map Nat := []                  -- by node: the greatest binding sequence number received
  unbinds : List (Nat × Nat × Nat) := []    -- UNBINDs that no trained port joins to their node yet: node, local, remote key id
  ats     : List (Nat × Nat) := []          -- host-bus pages whose IOMMU translation is cached: port, page (R397)
  ucie    : List Nat := []                  -- retired modules
  boot    : Nat := 0                        -- BOOTSTAT
  images  : Map Nat := []                   -- version of the image of each kind that runs (R402)
  gated   : List Nat := []
  msix    : List (Nat × Nat) := []          -- messages sent: function (port + 2 × virtual function), vector
  checks  : List Check := []                -- mismatches to come, oldest first (R379)
  deriving DecidableEq, Repr, Inhabited

/-- The package right after reset: no group, no context, memory with nothing listed, every register of the functions
zero (R398), BOOTSTAT stage 0 (R401). -/
def State.reset : State := {}

end Sys2Proof.Machine
end

