-- ==== Sys2Proof/Machine/Ops.lean ====
section
/-! DEFINITION. The named operations over sparse tables, registers, groups, memory bytes and free values. -/
namespace Sys2Proof.Machine

/-! ### Sparse tables: strictly rising keys -/

def Map.find {α : Type} : Map α → Nat → Option α
  | [], _ => none
  | (k, v) :: m, a => if a = k then some v else Map.find m a

def Map.set {α : Type} : Map α → Nat → α → Map α
  | [], a, v => [(a, v)]
  | (k, w) :: m, a, v => if a < k then (a, v) :: (k, w) :: m else if a = k then (a, v) :: m else (k, w) :: Map.set m a v

def Map.erase {α : Type} : Map α → Nat → Map α
  | [], _ => []
  | (k, w) :: m, a => if a = k then Map.erase m a else (k, w) :: Map.erase m a

/-- Writes v, and lists nothing when v is what an unlisted key reads as. -/
def Map.put {α : Type} [DecidableEq α] (d : α) (m : Map α) (a : Nat) (v : α) : Map α :=
  if v = d then Map.erase m a else Map.set m a v

def Map.get {α : Type} (d : α) (m : Map α) (a : Nat) : α := (Map.find m a).getD d

/-- Applies f to the entry of a key, if there is one. -/
def Map.upd {α : Type} (m : Map α) (a : Nat) (f : α → α) : Map α :=
  match Map.find m a with
  | some v => Map.set m a (f v)
  | none => m

/-- Strictly rising keys, no value equal to d. -/
def Map.wf {α : Type} [DecidableEq α] (d : α) : Map α → Bool
  | [] => true
  | [(_, v)] => v != d
  | (k, v) :: (k', v') :: m => decide (k < k') && (v != d) && Map.wf d ((k', v') :: m)

/-- A set of numbers as a rising list. -/
def insertNat : List Nat → Nat → List Nat
  | [], a => [a]
  | k :: m, a => if a < k then a :: k :: m else if a = k then k :: m else k :: insertNat m a

/-- The lanes of a mask, ascending. -/
def lanesOf (m : Lanes) : List Nat := (List.range 32).filter fun l => m.getLsbD l

/-- The mask of a list of lanes. -/
def maskOf (ls : List Nat) : Lanes := ls.foldl (fun m l => m ||| (1#32 <<< l)) 0

def lowest (m : Lanes) : Nat := (lanesOf m).headD 0

def hasLane (m : Lanes) (l : Nat) : Bool := m.getLsbD l

/-- Bit fields of a natural: w bits from bit lo. -/
def bits (x lo w : Nat) : Nat := x / 2 ^ lo % 2 ^ w

def bit (x i : Nat) : Bool := x / 2 ^ i % 2 == 1

/-- The signed value of the low w bits. -/
def sint (w x : Nat) : Int := let y := x % 2 ^ w; if y < 2 ^ (w - 1) then (y : Int) else (y : Int) - 2 ^ w

/-- The low w bits of an integer. -/
def wrap (w : Nat) (x : Int) : Nat := (x % (2 ^ w : Int)).toNat

/-- Bytes of a number, lowest first; and back. -/
def toBytes : Nat → Nat → List Byte
  | 0, _ => []
  | n + 1, x => BitVec.ofNat 8 x :: toBytes n (x / 256)

def ofBytes : List Byte → Nat
  | [] => 0
  | b :: bs => b.toNat + 256 * ofBytes bs

/-! ### Free values -/

/-- Takes a free value below n (n > 0); a choice among one needs none. -/
def State.pick (s : State) (n : Nat) : Nat × State :=
  if n ≤ 1 then (0, s) else (Config.freeNat s.free % n, { s with free := s.free + 1 })

def State.freshId (s : State) : Nat × State := (s.fresh, { s with fresh := s.fresh + 1 })

/-! ### Groups, cores, ports -/

def groupKey (core slot : Nat) : Nat := 64 * core + slot

def State.group (s : State) (k : Nat) : Option Group := Map.find s.groups k

def State.setGroup (s : State) (k : Nat) (g : Group) : State := { s with groups := Map.set s.groups k g }

def State.updGroup (s : State) (k : Nat) (f : Group → Group) : State := { s with groups := Map.upd s.groups k f }

def State.updTeam (s : State) (k : Nat) (f : Team → Team) : State := { s with teams := Map.upd s.teams k f }

def State.updCtx (s : State) (k : Nat) (f : Ctx → Ctx) : State := { s with ctxs := Map.upd s.ctxs k f }

def State.ctx (s : State) (k : Nat) : Ctx := Map.get {} s.ctxs k

def State.team (s : State) (k : Nat) : Team := Map.get {} s.teams k

def State.engine (s : State) (core : Nat) : Engine := Map.get {} s.engines core

def State.setEngine (s : State) (core : Nat) (e : Engine) : State := { s with engines := Map.put {} s.engines core e }

def State.updEngine (s : State) (core : Nat) (f : Engine → Engine) : State := s.setEngine core (f (s.engine core))

def State.port (s : State) (p : Nat) : Port := if p = 0 then s.port0 else s.port1

def State.updPort (s : State) (p : Nat) (f : Port → Port) : State :=
  if p = 0 then { s with port0 := f s.port0 } else { s with port1 := f s.port1 }

/-- The issuing group's port, as a key of State.runs. -/
def portKey (k : Nat) : Nat := k / 16

/-- Runs of some groups end with the groups: the pointers of their ports move to the slots that ran (R203). -/
def State.dropRuns (s : State) (p : Nat → Bool) : State :=
  { s with
    runs := s.runs.filter fun x => !p x.2.group,
    rr := (s.runs.filter fun x => p x.2.group).foldl (fun m x => Map.set m x.1 (x.2.group % 16 + 1)) s.rr }

def Group.updLive (g : Group) (slot : Nat) (f : Split → Split) : Group := { g with live := Map.upd g.live slot f }

def Group.entries (g : Group) : List Split := g.live.map (·.2) ++ g.pend

/-- The lanes of the group that have not exited. -/
def Group.lanes (g : Group) : Lanes := g.entries.foldl (fun m e => m ||| e.mask) 0

/-! ### The register file (R51, R220) -/

/-- Keys of the register file. A row key names an absolute row. -/
def fixedKey (r l : Nat) : Nat := 32 * r + l
def predKey (p l : Nat) : Nat := 256 + 32 * p + l
def scalarKey (n : Nat) : Nat := 512 + n
def rowKey (k i l : Nat) : Nat := 1024 + 256 * k + 32 * i + l

/-- The key of vector register n of a lane under window base wb (R220). -/
def vecKey (wb n l : Nat) : Nat := if n < 8 then fixedKey n l else rowKey (wb + (n - 8) / 8) ((n - 8) % 8) l

/-- Where the file holds a key: row k is in ring position k mod RINGROWS (R220). -/
def ringKey (rows key : Nat) : Nat :=
  if key < 1024 then key else 1024 + (key - 1024) / 256 % rows * 256 + (key - 1024) % 256

def Group.readReg (g : Group) (key : Nat) : Word := Map.get 0 g.regs (ringKey g.ident.rows key)

/-- The cause with which a read of a register kills the group, when it is poisoned (R380). -/
def Group.poisoned (g : Group) (key : Nat) : Option Nat := Map.find g.bad (ringKey g.ident.rows key)

/-- Writes a register: p0 discards (R50), a row becomes dirty (R164), a store of the whole granule clears poison (R380). -/
def Group.writeReg (g : Group) (key : Nat) (v : Word) : Group :=
  if 256 ≤ key ∧ key < 288 then g
  else
    let pos := ringKey g.ident.rows key
    { g with
      regs := Map.put 0 g.regs pos v,
      bad := Map.erase g.bad pos,
      dirty := if key < 1024 then g.dirty else insertNat g.dirty ((key - 1024) / 256) }

def Group.readPred (g : Group) (p l : Nat) : Bool := p == 0 || Map.get 0 g.regs (predKey p l) != 0

def Group.writeAll (g : Group) (ws : List RegWrite) : Group := ws.foldl (fun g w => g.writeReg w.key w.val) g

/-- Row k is resident (R221). -/
def Group.resident (g : Group) (k : Nat) : Bool := g.spr ≤ k && k < g.spr + g.ident.rows

/-- A result lands where it was bound at issue (R73); one for an exited lane or for a row that has left is discarded
(R199, R225). The spec does not say which holds of a result that an exited lane computed for a scalar register; here it lands: a scalar
is the group's (DEDUCED, log entry 47). -/
def Group.land (g : Group) (w : RegWrite) : Group :=
  if w.key ≥ 1024 && !g.resident ((w.key - 1024) / 256) then g
  else if !(512 ≤ w.key && w.key < 1024) && !hasLane g.lanes w.lane then g
  else g.writeReg w.key w.val

/-! ### The group record (R163) and the handler (R373, R375) -/

/-- The fields of the group record that handler entry stores (R373 step 2): offset and bytes. -/
def Group.recordFields (g : Group) : List (Nat × List Byte) :=
  let word (key : Nat) : List Byte := toBytes 4 (g.readReg key).toNat
  let fixed := (List.range 256).flatMap fun j => word (fixedKey (j % 8) (j / 8))
  let scalars := (List.range 32).flatMap fun n => word (scalarKey n)
  let preds := (List.range 32).flatMap fun l =>
    toBytes 1 ((List.range 8).foldl (fun x p => x + (g.readPred p l).toNat * 2 ^ p) 0)
  [(0x000, fixed ++ scalars ++ preds),
   (0x4A4, toBytes 4 g.sr.fpctl ++ toBytes 4 g.sr.fpflags ++ toBytes 4 g.sr.stabn ++ toBytes 8 g.sr.stab ++ toBytes 4 g.sr.stabs),
   (0x4C0, toBytes 8 g.sr.icount)]

/-- The first 0x4C8 bytes of a record as bytes at their offsets. -/
def recBits (bs : List Byte) (off n : Nat) : Nat := ofBytes ((bs.drop off).take n)

/-- Reloads those fields from the record's first 0x4C8 bytes (R375). Bits 31 to 6 of FPCTL and FPFLAGS are dropped, and are no reserved
bits of the record that R172 checks (DEDUCED, log entry 29). -/
def Group.reload (g : Group) (bs : List Byte) : Group :=
  let g := (List.range 256).foldl (fun (g : Group) j => g.writeReg (fixedKey (j % 8) (j / 8)) (BitVec.ofNat 32 (recBits bs (4 * j) 4))) g
  let g := (List.range 32).foldl (fun (g : Group) n => g.writeReg (scalarKey n) (BitVec.ofNat 32 (recBits bs (0x400 + 4 * n) 4))) g
  let g := (List.range 224).foldl (fun (g : Group) j =>
    let l := j / 7
    let p := j % 7 + 1
    g.writeReg (predKey p l) (if bit (recBits bs (0x480 + l) 1) p then 1 else 0)) g
  { g with sr := { g.sr with
      fpctl := recBits bs 0x4A4 4 % 64, fpflags := recBits bs 0x4A8 4 % 64, stabn := recBits bs 0x4AC 4,
      stab := recBits bs 0x4B0 8 / 16 * 16, stabs := recBits bs 0x4B8 4, icount := recBits bs 0x4C0 8 } }

/-- A trap as it is delivered: an asynchronous cause takes the PC and the lanes that its split has then (R373). -/
def Trap.now (t : Trap) (e : Split) : Trap := if t.whole then { t with mask := e.mask, pc := e.pc, rpc := e.pc } else t

/-- Taking a trap (R373 steps 3 to 6): the trap registers, privilege, the handler's PC, FPCTL and FPFLAGS zero. -/
def Group.enterHandler (g : Group) (savepc : Nat) (t : Trap) : Group :=
  let t := match Map.find g.live t.slot with | some e => t.now e | none => t
  { g with
    sr := { g.sr with trapcause := t.cause, trappc := t.pc, trapmask := t.mask, trapaddr := t.addr, trapaux := t.aux,
                      fpctl := 0, fpflags := 0 },
    traps := g.traps.drop 1,
    handler := some { cause := t.cause, slot := t.slot, rpc := t.rpc, again := t.pc != t.rpc },
    live := Map.upd g.live t.slot fun e => { e with priv := true, pc := savepc, park := none, fault := false, defer := false } }

/-- Leaving the handler (R375): privilege ends, the split goes to TRAPPC, and its first instruction matches no breakpoint. The
handler goes on while another part of its split is privileged (log entry 46). -/
def Group.leaveHandler (g : Group) (slot : Nat) : Group :=
  let live := Map.upd g.live slot fun e => { e with priv := false, pc := g.sr.trappc, park := none, quiet := true }
  let others := (live.map (·.2) ++ g.pend).any fun e => e.priv && e.mask != 0
  { g with handler := if others then g.handler else none, live }

/-! ### Memory: locations -/

def nearBase : Nat := 2 ^ 44
def hostBase (p : Nat) : Nat := (1 + p) * 2 ^ 60
def remoteBase : Nat := 3 * 2 ^ 60
def cspaceBase : Nat := 5 * 2 ^ 60
def surfBase : Nat := 2 ^ 63

/-- The location of a byte of a 128-byte line of a core's scratchpad: the lines of one number lie together, by core. -/
def scratchLoc (core line byte : Nat) : Nat := cspaceBase + 2 ^ 15 * line + 128 * core + byte

/-- The location of byte a of a C-space allocation in the scratchpads of a quad, whose CBASE is 128 × cline (R119). -/
def cspaceLoc (quad cline a : Nat) : Nat := scratchLoc (4 * quad + a / 128 % 4) (cline + a / 512) (a % 128)

/-- The quad of a team's cores. -/
def Team.quad (t : Team) : Nat := t.cores.headD 0 / 4

/-- The location of an offset of a team's C-space, and of a byte of a surface's storage. -/
def State.cLoc (s : State) (team off : Nat) : Nat := cspaceLoc (s.team team).quad (s.team team).cline off
def sLoc (uid off : Nat) : Nat := surfBase + 2 ^ 40 * uid + off

/-- A location lies in the C-space of a team. -/
def Team.holdsLoc (t : Team) (loc : Nat) : Bool :=
  let d := loc - (cspaceBase + 512 * t.quad)
  cspaceBase + 512 * t.quad ≤ loc && d % 2 ^ 15 < 512 && t.cline ≤ d / 2 ^ 15 && d / 2 ^ 15 < t.cline + (t.csize + 511) / 512

/-- C-space of a team is free, or allocated: it reads zero (R161). -/
def State.clearC (s : State) (t : Team) : State :=
  { s with
    mem := s.mem.filter fun m => !t.holdsLoc m.1,
    poison := s.poison.filter fun m => !t.holdsLoc (8 * m.1),
    order := { s.order with writes := s.order.writes.filter fun r => !t.holdsLoc r.loc,
                            counts := s.order.counts.filter fun m => !t.holdsLoc m.1 } }

/-- The slots that a team holds on a core. -/
def Team.slots (t : Team) (acc : Bool) (core : Nat) : List Nat :=
  match Map.find (if acc then t.ab else t.ob) core with
  | some b => (List.range (if acc then t.kd.aslots else t.kd.oslots)).map (b + ·)
  | none => []

/-- The operand and accumulator slots of a team are allocated: they read zero, and are clean (R161, R165). -/
def State.clearSlots (s : State) (t : Team) : State :=
  let mine (core : Nat) (acc : Bool) (n : Nat) : Bool := (t.slots acc core).contains n
  { s with
    engines := s.engines.map fun (x : Nat × Engine) =>
      (x.1, { x.2 with oslots := x.2.oslots.filter fun o => !mine x.1 false o.1, aslots := x.2.aslots.filter fun a => !mine x.1 true a.1 }),
    badSlot := s.badSlot.filter fun b =>
      let slot := b.1 / 256
      !mine (slot / 256) (slot / 128 % 2 == 1) (slot % 128) }

def State.byte (s : State) (loc : Nat) : Byte := Map.get 0 s.mem loc

def State.bytes (s : State) (loc n : Nat) : List Byte := (List.range n).map fun i => s.byte (loc + i)

/-- A location that holds ciphertext: GDDR7, near tier, hosts, remote packages (R159). -/
def keyed (loc : Nat) : Bool := loc < cspaceBase

/-- The physical address of R159 for a location: within its tier. -/
def physical (loc : Nat) : Nat :=
  if loc < nearBase then loc else if loc < hostBase 0 then loc - nearBase else if loc < remoteBase then loc % 2 ^ 60 else (loc - remoteBase) % 2 ^ 42

/-- Multiplication by α of IEEE 1619. -/
def xtsStep (t : Nat) : Nat := if t ≥ 2 ^ 127 then (2 * t - 2 ^ 128) ^^^ 0x87 else 2 * t

/-- The tweak of block j of a data unit under a key pair: the unit is a 128-byte line, numbered by its physical address ÷ 128. -/
def xtsTweak (keys : List Byte) (unit : Nat) : Nat → Nat
  | 0 => ofBytes (Config.aes256 ((keys.drop 32).take 32) (toBytes 16 unit))
  | j + 1 => xtsStep (xtsTweak keys unit j)

/-- A block of 16 bytes through AES-256-XTS, with the cipher or its inverse. -/
def xtsBlock (aes : List Byte → List Byte → List Byte) (keys : List Byte) (unit j block : Nat) : Nat :=
  let t := xtsTweak keys unit j
  ofBytes (aes (keys.take 32) (toBytes 16 (block ^^^ t))) ^^^ t

/-- A block as it lies in memory under a key stamp, and what it reads as under one; stamp 0 is plaintext. -/
def sealBlock (stamp unit j block : Nat) : Nat := if stamp = 0 then block else xtsBlock Config.aes256 (Config.xtsKeys stamp) unit j block
def unsealBlock (stamp unit j block : Nat) : Nat := if stamp = 0 then block else xtsBlock Config.aes256Inv (Config.xtsKeys stamp) unit j block

/-- What byte b of a location reads as under a key stamp (R159, R161): the byte itself when it and its line were last
written under that key; else its block, sealed under the key of its writer, as that key unseals it. -/
def State.decrypt (s : State) (stamp loc : Nat) (b : Byte) : Byte :=
  if !keyed loc then b
  else
    let t := Map.get 0 s.keyB loc
    let l := Map.get 0 s.keyL (loc / 128)
    if t = stamp ∧ l = stamp then b
    else
      let unit := physical loc / 128
      let j := loc / 16 % 8
      let block := ofBytes ((s.bytes (loc / 16 * 16) 16).set (loc % 16) b)
      BitVec.ofNat 8 (unsealBlock stamp unit j (sealBlock (if t = stamp then l else t) unit j block) / 2 ^ (8 * (loc % 16)))

/-- The key of an 8-byte granule of a core's L1 or instruction cache. -/
def coreGranule (core : Nat) (fetch : Bool) (granule : Nat) : Nat := granule * 512 + core % 256 * 2 + fetch.toNat

/-- Writes bytes to memory under a key stamp. A whole poisoned granule that is stored is clean again (R380). -/
def State.putBytes (s : State) (stamp loc : Nat) (bs : List Byte) : State :=
  let n := bs.length
  let mem := (bs.zipIdx loc).foldl (fun m (b, a) => Map.put 0 m a b) s.mem
  let keyB := if keyed loc then (List.range n).foldl (fun m i => Map.put 0 m (loc + i) stamp) s.keyB else s.keyB
  let keyL := if keyed loc && n > 0 then
      (List.range ((loc + n - 1) / 128 - loc / 128 + 1)).foldl (fun m i => Map.put 0 m (loc / 128 + i) stamp) s.keyL
    else s.keyL
  { s with mem, keyB, keyL, poison := s.poison.filter fun p => !(loc ≤ 8 * p.1 && 8 * p.1 + 8 ≤ loc + n),
           badCore := s.badCore.filter fun p => !(loc ≤ p.1 / 512 * 8 && p.1 / 512 * 8 + 8 ≤ loc + n) }

/-- The cause with which a read of [loc, loc + n) kills its group (R380). -/
def State.poisonedAt (s : State) (loc n : Nat) : Option Nat :=
  (s.poison.find? fun p => p.1 * 8 < loc + n && loc < p.1 * 8 + 8).map (·.2)

/-- The poison that an access through a core's L1, or a fetch through its instruction cache, meets there (R380). -/
def State.poisonedOn (s : State) (core : Nat) (fetch : Bool) (loc n : Nat) : Option Nat :=
  (s.badCore.find? fun p => p.1 % 512 == core % 256 * 2 + fetch.toNat && p.1 / 512 * 8 < loc + n && loc < p.1 / 512 * 8 + 8).map (·.2)

/-- Poisons the granules that hold a byte of [loc, loc + n). -/
def State.setPoison (s : State) (loc n cause : Nat) : State :=
  if n = 0 then s
  else { s with poison := (List.range ((loc + n - 1) / 8 - loc / 8 + 1)).foldl (fun m i => Map.set m (loc / 8 + i) cause) s.poison }

/-- Poison that an engine carries from the source bytes of a store to its destination (R380). -/
def State.carryPoison (s : State) (src dst n : Nat) : State :=
  ((List.range n).filter fun i => (s.poisonedAt (src + i) 1).isSome).foldl (fun s i => s.setPoison (dst + i) 1 0x9F) s

/-- The key of an 8-byte granule of a slot: core, operand or accumulator, slot, granule. -/
def slotGranule (core : Nat) (acc : Bool) (slot granule : Nat) : Nat :=
  ((2 * core + acc.toNat) * 128 + slot) * 256 + granule

/-- Memory is in canonical form. -/
def State.memWf (s : State) : Bool := Map.wf (0 : Byte) s.mem

end Sys2Proof.Machine
end

