-- ==== Sys2Proof/Machine/Order.lean ====
section
/-! DEFINITION. Phase consistency (R122 to R134): which stores a load may return, what a release hands over, what an
acquire takes. Stores enter coherence order when they are performed; a load takes its value when it is performed. -/
namespace Sys2Proof.Machine

/-! ### Views -/

def joinMap : Map Nat → Map Nat → Map Nat
  | m, [] => m
  | m, (k, v) :: r => joinMap (if Map.get 0 m k < v then Map.set m k v else m) r

def joinLines : Map (Map Nat) → Map (Map Nat) → Map (Map Nat)
  | m, [] => m
  | m, (k, v) :: r => joinLines (Map.set m k (joinMap (Map.get [] m k) v)) r

def View.join (a b : View) : View :=
  { own := joinMap a.own b.own, rem := joinMap a.rem b.rem, surf := joinMap a.surf b.surf, line := joinLines a.line b.line }

/-- The class of a location in R127: 0 the issuing package and C-space, 1 a remote package, 2 a surface. -/
def locClass (loc : Nat) : Nat := if loc ≥ surfBase then 2 else if loc ≥ cspaceBase then 0 else if loc ≥ remoteBase then 1 else 0

def View.at (v : View) (cls : Nat) : Map Nat := if cls = 2 then v.surf else if cls = 1 then v.rem else v.own

/-- The first write number of an agent that the view does not know at a location. -/
def View.known (v : View) (loc agent : Nat) : Nat :=
  max (Map.get 0 (v.at (locClass loc)) agent) (Map.get 0 (Map.get [] v.line (loc / 128)) agent)

/-- The view restricted to single lines (R151). -/
def View.onLines (v : View) (ls : List Nat) : View :=
  { line := ls.foldl (fun m l => Map.set m l (joinMap (v.at (locClass (128 * l))) (Map.get [] v.line l))) [] }

/-- Knowledge of every write of an agent below n, in every class. -/
def View.upTo (v : View) (agent n : Nat) : View :=
  v.join { own := [(agent, n)], rem := [(agent, n)], surf := [(agent, n)] }

/-- Agents: a core's groups share its number; the host ports; the front end; the other nodes of the pod; engine operations. -/
def hostAgent (p : Nat) : Nat := 300 + p
def frontAgent : Nat := 400
def nodeAgent (node : Nat) : Nat := 500 + node
def opAgent (id : Nat) : Nat := 2000 + id

/-- The agent stands in another package of the pod: its accesses reach this one as served requests (R21, R393). -/
def remoteAgent (a : Nat) : Bool := 500 ≤ a && a < 2000

/-- A scope covers two agents (R20): .core, .quad and .die cores alone, .pkg the agents of this package, .pod those of
every package. -/
def covers (scope a b : Nat) : Bool :=
  match scope with
  | 0 => a == b
  | 1 => a / 4 == b / 4 && a < 256 && b < 256
  | 2 => a / 128 == b / 128 && a < 256 && b < 256
  | 3 => !remoteAgent a && !remoteAgent b
  | _ => true

/-- What an edge of kind 3 or 4 from core x at scope s to core y at scope t carries (R126, R127). -/
def carried (v : View) (x s y t : Nat) : View :=
  let full := covers s x y && covers t x y
  let pass (cls : Nat) : Bool :=
    if cls = 0 then full else if cls = 1 then full && s == 4 && t == 4 else full || (s ≥ 1 && t ≥ 1 && !remoteAgent x && !remoteAgent y)
  { own := if pass 0 then v.own else [],
    rem := if pass 1 then v.rem else [],
    surf := if pass 2 then v.surf else [],
    line := v.line.filter fun l => pass (locClass (128 * l.1)) }

def State.coreView (s : State) (core : Nat) : View := Map.get {} s.order.cores core

/-- What a group on a core knows now: its own view, what its core shares, and every write of its core. -/
def State.viewOf (s : State) (core : Nat) (v : View) : View := (v.join (s.coreView core)).upTo core s.order.next

def relKey (uid scope : Nat) : Nat := 8 * uid + scope

def joinRels : Map Rel → Map Rel → Map Rel
  | m, [] => m
  | m, (k, r) :: rs =>
    joinRels (match Map.find m k with
      | some q => Map.set m k { r with view := q.view.join r.view }
      | none => Map.set m k r) rs

/-! ### Releases and acquires (R124, R130) -/

/-- A release by a group at a scope: PUB, PHASE, the publish part of an atomic. -/
def State.release (s : State) (core uid scope : Nat) (w : Seen) : Seen :=
  { w with rels := Map.set w.rels (relKey uid scope) { core, scope, view := s.viewOf core w.view } }

/-- An acquire by a group at a scope: every release that it has observed and that reaches it (R126 edge 3). -/
def acquire (core scope : Nat) (w : Seen) : Seen :=
  { w with view := w.obs.foldl (fun v (_, r) => v.join (carried r.view r.core r.scope core scope)) w.view }

/-- CFLUSH (R151): a PHASE limited to lines. -/
def State.flushLines (s : State) (core uid scope : Nat) (ls : List Nat) (w : Seen) : Seen :=
  let mine : View := (s.viewOf core w.view).onLines ls
  let old : View := match Map.find w.rels (relKey uid scope) with | some r => r.view | none => {}
  { w with
    rels := Map.set w.rels (relKey uid scope) { core, scope, view := old.join mine },
    view := w.obs.foldl (fun v (_, r) => v.join ((carried r.view r.core r.scope core scope).onLines ls)) w.view }

/-! ### Stores -/

/-- The ranges [a, a + n) and [b, b + m) meet. -/
def overlap (a n b m : Nat) : Bool := a < b + m && b < a + n

/-- A store enters coherence order: the newest of its location. `agent` is its writer; `group` and `op` are those of a
group's store. -/
def State.store (s : State) (agent : Nat) (rels : Map Rel) (eng : View) (stamp loc : Nat) (bs : List Byte)
    (group : Nat := 0) (op : Option Nat := none) (line : Bool := false) : State :=
  let rc : WriteRec := { id := s.order.next, loc, old := s.bytes loc bs.length, agent, rels, eng, group, op, line }
  let s := s.putBytes stamp loc bs
  { s with order := { s.order with next := s.order.next + 1, writes := rc :: s.order.writes } }

/-- A store by a group: it also hands the group's knowledge to its core (R126 edge 2). -/
def State.storeBy (s : State) (core : Nat) (w : Seen) (stamp loc : Nat) (bs : List Byte) (line : Bool := false) : State :=
  let s := { s with order := { s.order with cores := Map.set s.order.cores core ((s.coreView core).join w.view) } }
  s.store core w.rels {} stamp loc bs w.uid w.op line

/-- The releases of all earlier writes of a range: an atomic hands them on (R126 edge 3). -/
def State.inherited (s : State) (loc n : Nat) : Map Rel :=
  s.order.writes.foldl (fun m r => if overlap r.loc r.old.length loc n then joinRels m r.rels else m) []

/-- The write part of an atomic by a group. -/
def State.storeAtomic (s : State) (core : Nat) (w : Seen) (stamp loc : Nat) (bs : List Byte) : State :=
  let s' := { s with order := { s.order with cores := Map.set s.order.cores core ((s.coreView core).join w.view) } }
  s'.store core (joinRels (s.inherited loc bs.length) w.rels) {} stamp loc bs w.uid w.op

/-! ### Loads -/

/-- Byte a as it was before every write of a list (newest first) that `skip` passes over; the write seen. -/
def undo (skip : WriteRec → Bool) (a : Nat) : List WriteRec → Byte → Byte × Option WriteRec
  | [], b => (b, none)
  | r :: rs, b =>
    if a < r.loc ∨ r.loc + r.old.length ≤ a then undo skip a rs b
    else if skip r then undo skip a rs ((r.old[a - r.loc]?).getD 0)
    else (b, some r)

/-- A load of byte a may pass over a write (R128, R129): it does not happen before the load, and no older write of the byte
was required by an earlier load. -/
def mayMiss (v : View) (w : Seen) (a : Nat) (r : WriteRec) : Bool :=
  v.known a r.agent ≤ r.id && Map.get 0 w.floor a < r.id

/-- One byte of a load while it looks back through the writes: its location, the value before every write passed over, and
the write whose value it returns, once it has settled on one. -/
structure Back where
  loc  : Nat := 0
  val  : Byte := 0
  seen : Option WriteRec := none
  deriving DecidableEq, Repr, Inhabited

def WriteRec.covers (r : WriteRec) (a : Nat) : Bool := r.loc ≤ a && a < r.loc + r.old.length

/-- A byte passes over a write, or settles on it. -/
def Back.pass (r : WriteRec) (skip : Bool) (c : Back) : Back :=
  if skip then { c with val := (r.old[c.loc - r.loc]?).getD 0 } else { c with seen := some r }

/-- Each byte that `r` covers and that has not settled chooses for itself, unless it must pass over. -/
def passEach (miss late : Nat → WriteRec → Bool) (r : WriteRec) : List Back → State → List Back × State
  | [], s => ([], s)
  | c :: cs, s =>
    let (c, s) :=
      if c.seen.isNone && r.covers c.loc then
        if late c.loc r then (c.pass r true, s)
        else if miss c.loc r then let (k, s) := s.pick 2; (c.pass r (k == 1), s)
        else (c.pass r false, s)
      else (c, s)
    let (cs, s) := passEach miss late r cs s
    (c :: cs, s)

/-- The bytes that `r` covers pass over it together or not at all: when one must, or when none has settled on a newer write
and all may. -/
def passWhole (miss late : Nat → WriteRec → Bool) (r : WriteRec) (cs : List Back) (s : State) : List Back × State :=
  let mine := cs.filter fun c => r.covers c.loc
  let must := mine.any fun c => late c.loc r
  let can := mine.all fun c => c.seen.isNone && miss c.loc r
  let (k, s) := if must then (1, s) else if can && !mine.isEmpty then s.pick 2 else (0, s)
  (cs.map fun c => if c.seen.isNone && r.covers c.loc then c.pass r (k == 1) else c, s)

/-- The writes of a list, newest first, as the bytes of one access meet them. A byte passes over those that are `late` for it
without a choice, and `whole` are seen by the whole access or not at all. -/
def lookBack (miss late : Nat → WriteRec → Bool) (whole : WriteRec → Bool) : List WriteRec → List Back → State → List Back × State
  | [], cs, s => (cs, s)
  | r :: rs, cs, s =>
    let (cs, s) := if whole r then passWhole miss late r cs s else passEach miss late r cs s
    lookBack miss late whole rs cs s

/-- A store of an engine: an access sees a line wholly before or wholly after it (R135). -/
def WriteRec.engine (r : WriteRec) : Bool := r.line || r.agent ≥ 2000

/-- A group's access has returned a write of each location: what its engine still loads for instructions before that access
may return no newer one (R129). -/
def State.returned (s : State) (core : Nat) (w : Seen) (ids : List (Nat × Nat)) : State :=
  let before (e : MEntry) : Bool := w.uid != 0 && e.uid == w.uid && match w.op with | none => true | some n => decide (e.id < n)
  let note (m : Map Nat) : Map Nat := ids.foldl (fun m (a, n) =>
    match Map.find m a with | some k => Map.set m a (min k n) | none => Map.set m a n) m
  if (s.engine core).queue.any before then
    s.updEngine core fun g => { g with queue := g.queue.map fun e => if before e then { e with upto := note e.upto } else e }
  else s

/-- The loaded bytes, what the reader has then seen, and the state with its free values consumed. `late` are, for each byte,
writes that the load precedes in its own program order (R264), or may not return. -/
def State.load (s : State) (core : Nat) (w : Seen) (late : Nat → WriteRec → Bool) (stamp loc n : Nat)
    (whole : WriteRec → Bool := WriteRec.engine) : List Byte × Seen × State :=
  let v := s.viewOf core w.view
  let cs := (List.range n).map fun i => ({ loc := loc + i, val := s.byte (loc + i) } : Back)
  let (cs, s) := lookBack (fun a r => mayMiss v w a r) late whole
    (s.order.writes.filter fun r => overlap r.loc r.old.length loc n) cs s
  let w := cs.foldl (fun w c =>
    match c.seen with
    | some r => { w with obs := joinRels w.obs r.rels, view := w.view.join r.eng, floor := Map.set w.floor c.loc r.id }
    | none => w) w
  (cs.map fun c => s.decrypt stamp c.loc c.val, w, s.returned core w (cs.map fun c => (c.loc, (c.seen.map (·.id)).getD 0)))

/-- The newest value of a range, as an atomic reads it (R132), and what its reader has then seen. -/
def State.loadLatest (s : State) (w : Seen) (stamp loc n : Nat) : List Byte × Seen :=
  let seen := s.order.writes.filter fun r => overlap r.loc r.old.length loc n
  let w := { w with obs := joinRels w.obs (s.inherited loc n),
                    view := (seen.foldl (fun v r => v.join r.eng) w.view),
                    floor := (List.range n).foldl (fun m i =>
                      match (undo (fun _ => false) (loc + i) s.order.writes 0).2 with
                      | some r => Map.set m (loc + i) r.id
                      | none => m) w.floor }
  ((s.bytes loc n).zipIdx loc |>.map fun (b, a) => s.decrypt stamp a b, w)

/-- After loadLatest: the engine's earlier loads of the range return nothing newer. -/
def State.returnedLatest (s : State) (core : Nat) (w : Seen) (loc n : Nat) : State :=
  s.returned core w ((List.range n).map fun i => (loc + i, Map.get 0 w.floor (loc + i)))

/-- The newest bytes under a key stamp: what the device's own units read. -/
def State.peek (s : State) (stamp loc n : Nat) : List Byte := (s.bytes loc n).zipIdx loc |>.map fun (b, a) => s.decrypt stamp a b

/-- A view that knows every write so far: the start of a launch (R125, R130). -/
def State.viewAll (s : State) : View :=
  s.order.writes.foldl (fun v r => v.upTo r.agent s.order.next) {}

/-- A Picot unit's application of a fragment: no other agent of an operation stores to a surface. -/
def WriteRec.picot (r : WriteRec) : Bool := r.agent ≥ 2000 && locClass r.loc == 2

/-- The view of a fragment group at its start: no Picot application of another fragment happens before its reads (R341). -/
def State.viewFragment (s : State) : View :=
  (s.order.writes.filter fun r => !r.picot).foldl (fun v r => v.upTo r.agent s.order.next) {}

end Sys2Proof.Machine
end

