-- ==== Sys2Proof/Machine/Settle.lean ====
section
/-! DEFINITION. Splits: settling (R204, R205), the choice of the split that runs (R206), division (R207), the ring
adjustment of a slide (R225), span wait (R226). -/
namespace Sys2Proof.Machine

/-- The entries of a group with the places that settle orders them by: 0..3 live, from 4 on pending. -/
abbrev Ents := List (Nat × Split)

def Group.ents (g : Group) : Ents := g.live ++ g.pend.zipIdx.map fun (e, i) => (4 + i, e)

def Group.setEnts (g : Group) (es : Ents) : Group :=
  { g with live := es.filter (·.1 < 4), pend := (es.filter (·.1 ≥ 4)).map (·.2) }

/-- A split with a pending trap. -/
def Group.trapped (g : Group) (slot : Nat) : Bool := g.traps.any (·.slot == slot)

def Split.merging (e : Split) : Bool := e.park == some .merge
def Split.spanning (e : Split) : Bool := e.park == some .span


/-- A split without lanes in which the handler of its group still ends (R374). -/
def Split.ending (e : Split) : Bool := e.park == some (.completion .handlerEnd)

def Split.combinable (e : Split) : Bool := (e.park == none || e.merging) && !e.fault && !e.defer

/-- settle combines y into x: a split with a pending trap keeps its live slot until the delivery (R372), and a handler's
lanes join only a handler's. -/
def Group.pairs (g : Group) (x y : Nat × Split) : Bool :=
  y.2.combinable && !g.trapped y.1 && y.2.pc == x.2.pc && y.2.wb == x.2.wb && y.2.priv == x.2.priv

/-- Ends every span wait but those of the lanes of `keep` (R226). -/
def endSpans (keep : Lanes) (es : Ents) : Ents :=
  es.map fun (k, e) => (k, if e.spanning && e.mask &&& keep == 0 then { e with park := none, defer := false } else e)

/-- The first pair of entries that settle combines: the places of both. -/
def findPair (g : Group) : Ents → Option (Nat × Nat)
  | [] => none
  | x :: es =>
    match if x.2.combinable then es.find? (g.pairs x) else none with
    | some y => some (x.1, y.1)
    | none => findPair g es

/-- combine(E1, E2). The spec does not say whether what a combined split is made of was the split Y that executed YIELD (R206):
here it is, if either was (DEDUCED, log entry 47). -/
def combine (a b : Split) : Split :=
  { a with mask := a.mask ||| b.mask, wait := 0, park := if a.merging || b.merging then some .merge else none,
           yielded := a.yielded || b.yielded, quiet := a.quiet || b.quiet, stepped := a.stepped && b.stepped }

/-- Repeats a change of settle until it finds nothing more, at most `n` times. -/
def whileSome (f : Ents → Option Ents) : Nat → Ents → Ents
  | 0, es => es
  | n + 1, es => match f es with
    | some es' => whileSome f n es'
    | none => es

/-- Removes every entry whose lane mask is empty. -/
def settleRemove (es : Ents) : Ents :=
  if es.any (fun x => x.2.mask == 0 && !x.2.ending) then endSpans 0 (es.filter fun x => x.2.mask != 0 || x.2.ending) else es

/-- Combines one pair. -/
def settleCombine (g : Group) (es : Ents) : Option Ents :=
  match findPair g es with
  | some (i, j) =>
    match es.lookup i, es.lookup j with
    | some a, some b =>
      let c := combine a b
      some (endSpans c.mask ((es.filter (·.1 != j)).map fun (k, e) => (k, if k = i then c else e)))
    | _, _ => none
  | none => none

/-- Exchanges one live split parked at MERGE or in span wait with the oldest pending entry that is not parked. -/
def settleExchange (g : Group) (es : Ents) : Option Ents :=
  match es.find? (fun x => x.1 < 4 && (x.2.merging || x.2.spanning) && !g.trapped x.1),
        es.find? (fun x => x.1 ≥ 4 && x.2.park == none) with
  | some l, some p =>
    let last := es.foldl (fun m x => max m (x.1 + 1)) 4
    some ((es.filter (fun x => x.1 != l.1 && x.1 != p.1)).filter (·.1 < l.1) ++ [(l.1, p.2)]
      ++ (es.filter (fun x => x.1 != l.1 && x.1 != p.1)).filter (·.1 > l.1) ++ [(last, l.2)])
  | _, _ => none

/-- Moves the oldest pending entry to the lowest free live slot. -/
def settleMove (es : Ents) : Option Ents :=
  match (List.range 4).find? (fun i => !es.any (·.1 == i)), es.find? (·.1 ≥ 4) with
  | some i, some p =>
    let r := es.filter (·.1 != p.1)
    some (r.filter (·.1 < i) ++ [(i, p.2)] ++ r.filter (·.1 > i))
  | _, _ => none

/-- Releases a group whose entries are all parked at one MERGE. -/
def settleRelease (es : Ents) : Ents :=
  match es with
  | [] => es
  | x :: _ =>
    if es.all fun y => y.2.merging && y.2.pc == x.2.pc then
      es.map fun (k, e) => (k, { e with park := none, pc := e.pc + 12, wait := 0 })
    else es

/-- One pass of settle: each of its loops in turn, each to its end (R204, R205). At most 32 entries combine or change places
in one loop. -/
def settlePass (g : Group) (es : Ents) : Ents :=
  settleRelease (whileSome settleMove 4 (whileSome (settleExchange g) 32 (whileSome (settleCombine g) 32 (settleRemove es))))

/-- The passes of settle, until one changes nothing. -/
def settleLoop : Nat → Group → Ents → Ents
  | 0, _, es => es
  | n + 1, g, es =>
    let es' := settlePass g es
    if es' = es then es else settleLoop n g es'

/-- settle(group) (R204): a pass that changes anything combines, places or releases entries for good, so 64 passes reach the
end. -/
def Group.settle (g : Group) : Group :=
  let es := settleLoop 64 g g.ents
  let g := g.setEnts es
  if es.isEmpty && g.phase == .active then { g with phase := .exiting } else g

/-- Every entry is in span wait or parked at MERGE, and one is in span wait (R226): the live slot that raises 0x12, and the
group. When only pending entries are in span wait, the oldest first takes the lowest live slot from a split at MERGE, since a
live split raises the cause (log entry 46). -/
def Group.spanTrap (g : Group) : Option (Nat × Group) :=
  let es := g.ents
  if es.all (fun x => x.2.merging || x.2.spanning) then
    match es.find? (·.2.spanning) with
    | none => none
    | some (n, e) =>
      if n < 4 then some (n, g)
      else match g.live with
        | [] => none
        | (k, m) :: r => some (k, { g with live := (k, e) :: r, pend := g.pend.eraseIdx (n - 4) ++ [m] })
  else none

/-- Lanes of an instruction wait for a MIGRATING page (R360) or for a tile (R302). -/
def Split.stalled (e : Split) : Bool := match e.park with | some (.migrating _) | some (.tile _) => true | _ => false

def Group.stalled (g : Group) : Bool := g.live.any (·.2.stalled)

/-- A group-wide park reason holds (R200, R201), or lanes of an access of the group stall. -/
def Group.parked (g : Group) : Bool :=
  g.phase != .active || g.swPark || g.fault.isSome || (g.handler.isNone && !g.traps.isEmpty) || (g.saving && !g.saved) || g.stalled

/-- The live splits that may issue: while a handler runs, only its own (R373). -/
def Group.issuable (g : Group) : List (Nat × Split) :=
  if g.parked then []
  else if g.handler.isSome then g.live.filter fun x => x.2.priv && x.2.park == none
  else g.live.filter fun x => x.2.park == none && !g.trapped x.1

/-- The split that runs (R206). -/
def Group.choose (g : Group) : Option Nat :=
  let c := g.issuable
  let aged := c.filter (·.2.wait ≥ 16)
  let c := if aged.isEmpty then c else aged
  let c := if c.length > 1 then c.filter (!·.2.yielded) else c
  match c with
  | [] => none
  | x :: xs => some (xs.foldl (fun (b : Nat × Split) y =>
      if y.2.wb > b.2.wb ∨ (y.2.wb = b.2.wb ∧ y.2.pc < b.2.pc) then y else b) x).1

/-- The wait counts after the choice of a split (R206). -/
def Group.chosen (g : Group) (slot : Nat) : Group :=
  let c := g.issuable.map (·.1)
  let count (k : Nat) (e : Split) : Nat := if k = slot then 0 else if c.contains k then e.wait + 1 else e.wait
  { g with
    live := (g.live.map fun (k, e) => (k, { e with wait := count k e, yielded := false })),
    pend := (g.pend.map fun e => { e with yielded := false }) }

/-! ### Division (R207) -/

/-- One part of a divided split: next PC, window base, lanes. -/
structure Part where
  pc   : Nat := 0
  wb   : Nat := 0
  mask : Lanes := 0
  deriving DecidableEq, Repr, Inhabited

/-- Lanes sorted by next PC and window base, the parts in the order of their lowest lanes. -/
def partsOf (next : List (Nat × Nat × Nat)) : List Part :=
  next.foldl (fun ps (l, pc, wb) =>
    if ps.any (fun p => p.pc == pc && p.wb == wb) then
      ps.map fun p => if p.pc == pc && p.wb == wb then { p with mask := p.mask ||| (1#32 <<< l) } else p
    else ps ++ [{ pc, wb, mask := 1#32 <<< l }]) []

/-- Places the parts of a split: its slot, free live slots in ascending order, the tail of the pending list. -/
def Group.divide (g : Group) (slot : Nat) (ps : List Part) : Group :=
  let priv := match Map.find g.live slot with | some e => e.priv | none => false
  let mk (p : Part) : Split := { pc := p.pc, mask := p.mask, wb := p.wb, priv }
  match ps with
  | [] => { g with live := Map.erase g.live slot }
  | p :: ps =>
    let g := { g with live := Map.set g.live slot (mk p) }
    ps.foldl (fun g p =>
      match (List.range 4).find? (fun i => (Map.find g.live i).isNone) with
      | some i => { g with live := Map.set g.live i (mk p) }
      | none => { g with pend := g.pend ++ [mk p] }) g

/-! ### Ring adjustment (R225) -/

inductive Adjust where
  | defer
  | commit (spills fills : List Nat) (spr : Nat) (dropped : List Nat)
  deriving DecidableEq, Repr

def rangeFrom (lo hi : Nat) : List Nat := (List.range (hi - lo)).map (lo + ·)

/-- adjust(E): `wbs` are the window bases of all entries as they will stand. -/
def adjust (spr rows : Nat) (wbs : List Nat) : Adjust :=
  match wbs with
  | [] => .commit [] [] spr []
  | w :: ws =>
    let lo := ws.foldl min w
    let hi := ws.foldl max w + 7
    if hi - lo > rows then .defer
    else if hi > spr + rows then .commit (rangeFrom spr (hi - rows)) [] (hi - rows) []
    else if lo < spr then .commit [] (rangeFrom lo spr) lo (rangeFrom (lo + rows) (spr + rows))
    else .commit [] [] spr []

end Sys2Proof.Machine
end

