-- ==== Sys2Proof/Machine/Paging.lean ====
section
/-! DEFINITION. Translation (R354 to R359), the fault ring and the feedback ring (R362 to R368), the reliability log
(R383, R399), context faults (R160). -/
namespace Sys2Proof.Machine

/-! ### Translation -/

/-- What a walk gives (R356): location, key stamp, the entry's physical address and level; a cause, with the leaf (its address, level
and value) that the walk ended in when its page is MAPPED-NONRESIDENT (R366); or the MIGRATING stall. -/
inductive Tr where
  | ok (loc stamp pte level size : Nat)
  | bad (cause : Nat) (leaf : Option (Nat × Nat × Nat) := none)
  | stall
  deriving DecidableEq, Repr

/-- Kinds of access in R356; an instruction fetch is a read that needs X in place of R. -/
inductive AccKind where
  | read | write | atomic | fetch
  deriving DecidableEq, Repr

def AccKind.code : AccKind → Nat | .read => 0 | .write => 1 | .atomic => 2 | .fetch => 0

/-- The index of an address into the table of a level. The walk takes bits 51 to 0 alone: R177 gives the address fields of packets no
check, and one at or above 2^52 names the address modulo 2^52 (DESIGN CHOICE, log entry 47). -/
def levelIndex (va l : Nat) : Nat :=
  match l with
  | 0 => bits va 39 13
  | 1 => bits va 30 9
  | 2 => bits va 21 9
  | _ => bits va 12 9

/-- Page size in address bits of a leaf at level l (R354). -/
def pageBits (l e : Nat) : Nat := match l with | 1 => 30 | 2 => 21 | _ => if bit e 63 then 16 else 12

/-- The write number from which cached entries of an address may still be used (R359). -/
def invalStamp (c : Ctx) (va : Nat) : Nat :=
  c.inval.foldl (fun m (a, b, n) => if a ≤ va && va < b then max m n else m) 0

/-- An entry that the device may cache (R359): a table, or a leaf whose PST is RESIDENT. -/
def cacheable (l e : Nat) : Bool := bit e 0 && ((!bit e 1 && l < 3) || bits e 2 2 == 0)

/-- The 8 bytes of a page-table entry, read plaintext; until an INVAL a replaced cacheable entry may still be used (R359). -/
def State.readPte (s : State) (c : Ctx) (va l t : Nat) : Nat × State :=
  let now := ofBytes (s.peek 0 t 8)
  let since := invalStamp c va
  let recs := s.order.writes.filter fun r => overlap r.loc r.old.length t 8 && r.id ≥ since
  let olds := (List.range recs.length).map fun k =>
    let cut := (recs.take (k + 1)).map (·.id)
    ofBytes ((List.range 8).map fun i => (undo (fun r => cut.contains r.id) (t + i) s.order.writes (s.byte (t + i))).1)
  let alts := now :: olds.filter (cacheable l)
  let (k, s) := s.pick alts.length
  ((alts[k]?).getD now, s)

/-- The rules of a leaf (R356, R357, R358) by context, level and entry. -/
def State.leafOk (s : State) (c : Ctx) (l e : Nat) : Bool :=
  let pb := pageBits l e
  let frame := bits e 12 30 * 4096
  let node := bits e 42 12
  let key := bits e 54 9
  let ours := key == c.keyId
  bit e 1 && l ≥ 1 && (!bit e 63 || l == 3) && frame % 2 ^ pb == 0 &&
    match bits e 9 3 with
    | 0 => frame + 2 ^ pb ≤ Config.gddr7 && node == 0 && ours
    | 1 =>
      let last := frame + 2 ^ pb - 1
      let st := bits frame 36 6
      st < 2 && bits last 36 6 == st && bits last 26 10 < Map.get 0 s.near st && node == 0 && ours
    | 2 => c.port == 0 && (key == 0 || ours)
    | 3 => c.port == 1 && (key == 0 || ours)
    | 4 => node < 1024 && node != s.node && ours
    | _ => false

/-- The location and key stamp of an address of a leaf's page (R357). -/
def leafLoc (c : Ctx) (l e va : Nat) : Nat × Nat :=
  let frame := bits e 12 30 * 4096 + va % 2 ^ pageBits l e
  let node := bits e 42 12
  let stamp := if bits e 54 9 = 0 then 0 else c.stamp
  match bits e 9 3 with
  | 0 => (frame, stamp)
  | 1 => (nearBase + frame, stamp)
  | 2 => (hostBase 0 + node * 2 ^ 42 + frame, stamp)
  | 3 => (hostBase 1 + node * 2 ^ 42 + frame, stamp)
  | _ => (remoteBase + node * 2 ^ 42 + frame, stamp)

/-- translate(va, k) (R356), one level at a time. -/
def walk : Nat → State → Ctx → Nat → AccKind → Nat → Nat → Tr × State
  | 0, s, _, _, _, _, _ => (.bad 0x2E, s)
  | fuel + 1, s, c, va, k, l, t =>
    let a := t + 8 * levelIndex va l
    let (e, s) := s.readPte c va l a
    if !bit e 0 then (.bad (0x20 + 4 * k.code + l), s)
    else if !bit e 1 && l < 3 then
      let frame := bits e 12 30 * 4096
      if e != 1 + frame || frame + 4096 > Config.gddr7 then (.bad 0x2E, s)
      else walk fuel s c va k (l + 1) frame
    else if !s.leafOk c l e then (.bad 0x2E, s)
    else
      let pst := bits e 2 2
      let perm := match k with
        | .read => bit e 4
        | .write => bit e 5
        | .atomic => bit e 4 && bit e 5 && bit e 7
        | .fetch => bit e 6
      if pst == 3 then (.bad 0x2F, s)
      else if pst == 2 then (.stall, s)
      else if pst == 1 then (.bad 0x2D (some (a, l, e)), s)
      else if !perm then (.bad 0x2C, s)
      else let (loc, stamp) := leafLoc c l e va; (.ok loc stamp a l (2 ^ pageBits l e), s)

def State.translate (s : State) (ctx va : Nat) (k : AccKind) : Tr × State :=
  let c := s.ctx ctx
  walk 4 s c va k 0 c.rc.ptroot

/-! ### Messages and front-end stores -/

/-- The MSI-X vectors of a port's physical function (0) and of each of its 63 virtual functions (R397). -/
def vectorsOf (vf : Nat) : Nat := if vf = 0 then 2048 else if vf < 64 then 32 else 0

/-- An MSI-X message of a function of a port (R397), the physical one unless `vf` names another: the vectors of records and packets
are the physical function's (R177, R362). There is no message of a number that the function does not have (log entry 32). -/
def State.msi (s : State) (port vector : Nat) (vf : Nat := 0) : State :=
  if vector < vectorsOf vf then { s with msix := s.msix ++ [(port + 2 * vf, vector)] } else s

/-- A store of the front end or a ring unit, published at .pkg (R130). -/
def State.storePub (s : State) (stamp loc : Nat) (bs : List Byte) : State :=
  s.store frontAgent [(relKey 0 3, { core := frontAgent, scope := 3, view := s.viewAll })] {} stamp loc bs

/-! ### Context fault (R158, R160): every group stops without further commit -/

def dropGroups (s : State) (p : Group → Bool) : State :=
  ({ s with groups := (s.groups.filter fun x => p x.2).foldl (fun m x => Map.erase m x.1) s.groups } : State).dropRuns fun k =>
    match s.group k with | some g => p g | none => true

/-- Units, engines and teams that a set of teams held are free (R197, R243, R259). -/
def releaseTeams (s : State) (p : Team → Bool) : State :=
  let gone := (s.teams.filter fun x => p x.2).map (·.1)
  { s with
    teams := s.teams.filter fun x => !p x.2,
    bars := s.bars.filter fun x => match x.2.team with | some t => !gone.contains t | none => true,
    engines := s.engines.map fun (k, e) =>
      (k, { e with
        holder := match e.holder with | some t => if gone.contains t then none else some t | none => none,
        queue := e.queue.filter fun q => !(gone.contains q.team),
        oslots := e.oslots.map fun (n, o) => (n, match o.owner with | some t => if gone.contains t then {} else o | none => o),
        aslots := e.aslots.map fun (n, o) => (n, match o.owner with | some t => if gone.contains t then {} else o | none => o) }) }

/-- A split in issue wait, or waiting for a barrier unit, issues again (R201, R242). -/
def Split.unblock (e : Split) : Split := if e.park == some .issue || e.park == some .noUnit then { e with park := none } else e

def Group.unblock (g : Group) : Group := { g with live := g.live.map fun x => (x.1, x.2.unblock), pend := g.pend.map Split.unblock }

/-- Barrier units and queue entries have come free. A group in a run settles at its end. -/
def State.unblock (s : State) : State :=
  let running (k : Nat) : Bool := (Map.find s.runs (portKey k)).any (·.group == k)
  { s with groups := s.groups.map fun x => (x.1, if running x.1 then x.2.unblock else x.2.unblock.settle) }

def stopContext (s : State) (ctx : Nat) : State :=
  let s := dropGroups s fun g => g.ident.ctx == ctx
  let s := releaseTeams s fun t => t.ctx == ctx
  { s with
    bars := s.bars.filter fun x => x.2.ctx != ctx,
    copyq := s.copyq.filter fun x => x.ctx != ctx,
    contribs := s.contribs.filter fun x => x.ctx != ctx,
    demands := s.demands.filter fun d => d.ctx != ctx,
    draws := s.draws.filter fun x => x.2.ctx != ctx : State }.unblock

/-- A context fault: its groups stop, its surfaces leave the surface store (R155, R400; their contents are lost, and DESTROY frees
them), its queues enter FAULTED, and the front end owes their descriptors the new state. -/
def State.contextFault (s : State) (ctx : Nat) (cause : Nat := 0) : State :=
  let s := stopContext s ctx
  s.updCtx ctx fun c => { c with
    state := .faulted, cause,
    surfs := c.surfs.map fun (k, f) => (k, { f with freed := true, tiles := [], items := [] }),
    queues := c.queues.map fun (k, q) => (k, { q with
      state := .faulted, cur := none, open_ := [], wait := none, due := false, bells := [], owes := true }) }

/-! ### Rings (R362) -/

/-- A ring control block. -/
structure Ring where
  va    : Nat := 0          -- address of the block
  loc   : Nat := 0          -- its location
  stamp : Nat := 0
  base  : Nat := 0
  n     : Nat := 16
  put   : Nat := 0
  get   : Nat := 0
  lost  : Nat := 0
  vector : Nat := 0
  irq   : Bool := false
  deriving DecidableEq, Repr, Inhabited

/-- What an access to a ring gives: a value; a fault or a failed check, which is a context fault; or the stall of a page that is
MIGRATING (R360), after which the device tries again. -/
inductive RingAcc (α : Type) where
  | ok (x : α)
  | fault
  | stall
  deriving DecidableEq, Repr

/-- A location where a ring may lie: tier 0, 2 or 3 (R362). -/
def ringLoc (loc : Nat) : Bool := locClass loc == 0 && !(nearBase ≤ loc && loc < hostBase 0)

/-- The place of a ring's line for an access. -/
def State.ringPlace (s : State) (ctx va : Nat) (k : AccKind) : RingAcc (Nat × Nat) × State :=
  match s.translate ctx va k with
  | (.ok loc stamp _ _ _, s) => (if ringLoc loc then .ok (loc, stamp) else .fault, s)
  | (.bad _ _, s) => (.fault, s)
  | (.stall, s) => (.stall, s)

/-- A control block that is well formed. -/
def Ring.ofBits (va loc stamp x : Nat) : Option Ring :=
  let base := bits x 0 64
  if bits x 64 4 > 12 || bits x 68 28 != 0 || x / 2 ^ 209 != 0 || base % 32 != 0 || base ≥ 2 ^ 52 then none
  else some { va, loc, stamp, base, n := 2 ^ (bits x 64 4 + 4), put := bits x 96 32, get := bits x 128 32,
              lost := bits x 160 32, vector := bits x 192 16, irq := bit x 208 }

/-- Reads and checks the block at a context's address. -/
def State.readRing (s : State) (ctx va : Nat) : RingAcc Ring × State :=
  if va ≥ 2 ^ 52 || va % 64 != 0 then (.fault, s)
  else match s.ringPlace ctx va .read with
    | (.ok (loc, stamp), s) =>
      (match Ring.ofBits va loc stamp (ofBytes (s.peek stamp loc 64)) with | some r => .ok r | none => .fault, s)
    | (.fault, s) => (.fault, s)
    | (.stall, s) => (.stall, s)

/-- Writes one entry of a ring, then PUT, each published at .pkg. Entry and block are translated for writing before either is
written. -/
def State.writeRing (s : State) (ctx : Nat) (r : Ring) (bs : List Byte) : RingAcc Unit × State :=
  match s.ringPlace ctx (r.base + r.put * bs.length) .write with
  | (.ok (loc, stamp), s) =>
    match s.ringPlace ctx r.va .write with
    | (.ok (block, key), s) =>
      let s := s.storePub stamp loc bs
      let s := s.storePub key (block + 12) (toBytes 4 ((r.put + 1) % r.n))
      (.ok (), if r.irq then s.msi (s.ctx ctx).port r.vector else s)
    | (.fault, s) => (.fault, s)
    | (.stall, s) => (.stall, s)
  | (.fault, s) => (.fault, s)
  | (.stall, s) => (.stall, s)

/-- A fault record (R363); PMARK is 32 bits wide. -/
def FRec.bytes (f : FRec) : List Byte :=
  toBytes 32 (f.cause + f.src * 2 ^ 8 + f.die * 2 ^ 16 + f.core * 2 ^ 17 + f.slot * 2 ^ 24 + f.token * 2 ^ 32 + f.va * 2 ^ 64
    + f.lanes * 2 ^ 128 + f.pmark % 2 ^ 32 * 2 ^ 160 + f.sub * 2 ^ 192 + f.aux * 2 ^ 200 + f.fseq * 2 ^ 224)

/-- Writes the records that wait for free entries, in FSEQ order (R365). -/
def flushFaults : Nat → State → Nat → State
  | 0, s, _ => s
  | n + 1, s, ctx =>
    match (s.ctx ctx).held with
    | [] => s
    | f :: fs =>
      match s.readRing ctx (s.ctx ctx).rc.fqbase with
      | (.fault, s) => s.contextFault ctx
      | (.stall, s) => s
      | (.ok r, s) =>
        if (r.put + 1) % r.n = r.get then s
        else match s.writeRing ctx r f.bytes with
          | (.fault, s) => s.contextFault ctx
          | (.stall, s) => s
          | (.ok _, s) => flushFaults n (s.updCtx ctx fun c => { c with held := fs }) ctx

/-- A new fault record: a token, a sequence number, and an attempt to write it (R363, R365). -/
def State.report (s : State) (ctx : Nat) (f : FRec) : Nat × State :=
  let (tok, s) := s.freshId
  let tok := tok % 2 ^ 32
  let c := s.ctx ctx
  let s := s.updCtx ctx fun c => { c with held := c.held ++ [{ f with token := tok, fseq := c.fseq % 2 ^ 32 }], fseq := c.fseq + 1 }
  (tok, flushFaults (c.held.length + 2) s ctx)

/-! ### Residency feedback (R366 to R368) -/

/-- The page of a leaf has given its feedback: FB is set in the entry, or, for an S64 page, in one of its 16 entries (R367). -/
def State.fed (s : State) (a l e : Nat) : Bool :=
  if pageBits l e = 16 then (List.range 16).any fun i => bit (ofBytes (s.peek 0 (a / 128 * 128 + 8 * i) 8)) 8
  else bit e 8

/-- What the entry of a leaf holds when the step of feedback is taken: an earlier lane of the LDP may have set FB since the walk. -/
def State.leafNow (s : State) (a : Nat) : Nat := ofBytes (s.peek 0 a 8)

/-- One step of feedback for the page of an address that a MAPPED-NONRESIDENT leaf maps: the leaf that the translation of the lane
ended in (R366, R367). A ring that cannot be reached is a context fault; one whose page is MIGRATING lets the lane wait (R360). -/
def State.feedback (s : State) (ctx va : Nat) (leaf : Nat × Nat × Nat) : RingAcc Unit × State :=
  let (a, l, _) := leaf
  let e := s.leafNow a
  if s.fed a l e then (.ok (), s)
  else match s.readRing ctx (s.ctx ctx).rc.fbbase with
    | (.fault, s) => (.fault, s.contextFault ctx)
    | (.stall, s) => (.stall, s)
    | (.ok r, s) =>
      if (r.put + 1) % r.n = r.get then
        match s.ringPlace ctx r.va .write with
        | (.ok (block, key), s) => (.ok (), s.storePub key (block + 20) (toBytes 4 ((r.lost + 1) % 2 ^ 32)))
        | (.fault, s) => (.fault, s.contextFault ctx)
        | (.stall, s) => (.stall, s)
      else
        let pb := pageBits l e
        let size := match pb with | 12 => 0 | 16 => 1 | 21 => 2 | _ => 3
        match s.writeRing ctx r (toBytes 8 (size + va / 2 ^ pb * 2 ^ pb)) with
        | (.fault, s) => (.fault, s.contextFault ctx)
        | (.stall, s) => (.stall, s)
        | (.ok _, s) => (.ok (), s.storePub 0 a (toBytes 8 (e + 256)))

/-! ### Reliability log (R383, R399) -/

/-- Changes the packet of a sequence number, at hand or open. -/
def updPackets (s : State) (ctx q seq : Nat) (f : Packet → Packet) : State :=
  s.updCtx ctx fun c => { c with queues := Map.upd c.queues q fun q =>
    { q with open_ := (q.open_.map fun p => if p.seq == seq then f p else p),
             cur := q.cur.map fun p => if p.seq == seq then f p else p } }

def LogRec.bytes (r : LogRec) : List Byte :=
  toBytes 16 (r.cause + r.kind * 2 ^ 8 + (r.ctx.getD 0) * 2 ^ 16 + r.die * 2 ^ 24 + r.core * 2 ^ 25 + r.slot * 2 ^ 32
    + r.gid * 2 ^ 38 + (if r.ctx.isSome then 2 ^ 43 else 0) + r.loc % 2 ^ 32 * 2 ^ 64 + r.count % 2 ^ 32 * 2 ^ 96)

def State.logOf (s : State) (p : Nat) : List LogRec := if p = 0 then s.log0 else s.log1
def State.setLog (s : State) (p : Nat) (l : List LogRec) : State := if p = 0 then { s with log0 := l } else { s with log1 := l }

/-- Writes a reliability event to the log ring of the owning port. -/
def State.log (s : State) (r : LogRec) : State :=
  let p := match r.ctx with | some c => (s.ctx c).port | none => 0
  let q := s.port p
  let n := 2 ^ (q.logctl % 16 + 4)
  let unread (x : LogRec) : Bool := (x.index + n - q.logrd) % n < (q.logwr + n - q.logrd) % n
  let l := (s.logOf p).filter unread
  let loc (i : Nat) := hostBase p + q.logbase + 16 * i
  if (q.logwr + 1) % n = q.logrd then
    match l.find? (fun x => x.cause == r.cause && x.loc % 2 ^ 32 == r.loc % 2 ^ 32 && x.ctx == r.ctx) with
    | some x =>
      let x' := { x with count := x.count + 1 }
      let s := s.setLog p (l.map fun y => if y.index == x.index then x' else y)
      s.storePub 0 (loc x.index) x'.bytes
    | none => s.updPort p fun q => { q with loglost := (q.loglost + 1) % 2 ^ 32 }
  else
    let x := { r with index := q.logwr }
    let s := s.setLog p (l ++ [x])
    let s := s.storePub 0 (loc q.logwr) x.bytes
    let s := s.updPort p fun q => { q with logwr := (q.logwr + 1) % n }
    if bit q.logctl 4 then s.msi p (bits q.logctl 16 16) else s

end Sys2Proof.Machine
end

