-- ==== Sys2Proof/Machine/Flit.lean ====
section
/-! DEFINITION. Hexolink flits (R388): CRC-64, the Reed-Solomon code, the header; sending on a port (R389, R395). -/
namespace Sys2Proof.Machine

/-! ### CRC-64 (R388) -/

def crcShift : Nat → Nat → Nat
  | 0, c => c
  | n + 1, c => crcShift n (if c ≥ 2 ^ 63 then (2 * c - 2 ^ 64) ^^^ 0x42F0E1EBA9EA3693 else 2 * c)

def crcBytes : List Byte → Nat → Nat
  | [], c => c
  | b :: bs, c => crcBytes bs (crcShift 8 (c ^^^ (b.toNat * 2 ^ 56)))

def crc64 (bs : List Byte) : Nat := crcBytes bs (2 ^ 64 - 1) ^^^ (2 ^ 64 - 1)

/-! ### The field GF(2^8) of 0x11D -/

def gfMulAux : Nat → Nat → Nat → Nat → Nat
  | 0, _, _, r => r
  | n + 1, a, b, r => gfMulAux n (if a ≥ 128 then (2 * a) ^^^ 0x11D else 2 * a) (b / 2) (if b % 2 = 1 then r ^^^ a else r)

def gfMul (a b : Nat) : Nat := gfMulAux 8 a b 0

def gfPow (a : Nat) : Nat → Nat
  | 0 => 1
  | n + 1 => gfMul a (gfPow a n)

def gfInv (a : Nat) : Nat := gfPow a 254

/-- The value at x of the polynomial whose coefficients are listed from the highest power. -/
def gfEval (cs : List Nat) (x : Nat) : Nat := cs.foldl (fun r c => gfMul r x ^^^ c) 0

/-- The generator (x − α^0) … (x − α^7), without its leading 1. -/
def rsGen : List Nat :=
  ((List.range 8).foldl (fun (g : List Nat) j =>
    (List.zipWith (· ^^^ ·) (g ++ [0]) (0 :: g.map (gfMul (gfPow 2 j))))) [1]).drop 1

/-- The parity symbols of a message: the remainder of m(x) x^8. -/
def rsParity (m : List Nat) : List Nat :=
  m.foldl (fun (r : List Nat) c =>
    let k := c ^^^ r.headD 0
    List.zipWith (· ^^^ ·) (r.drop 1 ++ [0]) (rsGen.map (gfMul k))) (List.replicate 8 0)

def syndromes (cs : List Nat) : List Nat := (List.range 8).map fun j => gfEval cs (gfPow 2 j)

/-- Solves n linear equations; each row holds n coefficients and the right side. -/
def gfSolve : Nat → List (List Nat) → Option (List Nat)
  | 0, _ => some []
  | n + 1, rows =>
    match rows.find? fun r => r.headD 0 != 0 with
    | none => none
    | some p =>
      let q := p.map (gfMul (gfInv (p.headD 0)))
      let rest := (rows.erase p).map fun r => (List.zipWith (fun a b => a ^^^ gfMul (r.headD 0) b) r q).drop 1
      match gfSolve n rest with
      | none => none
      | some xs => some (((List.zipWith gfMul (q.drop 1) xs).foldl (· ^^^ ·) (q.getLastD 0)) :: xs)

/-- A correction of v symbols, when one gives a codeword. -/
def rsTry (cs : List Nat) (v : Nat) : Option (List Nat) :=
  let s := syndromes cs
  let row (i : Nat) : List Nat := (List.range (v + 1)).map fun k => s.getD (i + k) 0
  match gfSolve v ((List.range v).map row) with
  | none => none
  | some σ =>
    let locs := (List.range cs.length).filter fun p => gfEval (1 :: σ.reverse) (gfPow 2 p) == 0
    if locs.length ≠ v then none
    else match gfSolve v ((List.range v).map fun j => locs.map (fun p => gfPow (gfPow 2 p) j) ++ [s.getD j 0]) with
      | none => none
      | some es =>
        let fixed := cs.zipIdx.map fun (c, n) =>
          match (locs.zip es).find? fun x => x.1 + n + 1 == cs.length with
          | some x => c ^^^ x.2
          | none => c
        if (syndromes fixed).all (· == 0) then some fixed else none

/-- A codeword corrected in up to four symbols. -/
def rsFix (cs : List Nat) : Option (List Nat) :=
  if (syndromes cs).all (· == 0) then some cs else [1, 2, 3, 4].findSome? (rsTry cs)

def evens : List Byte → List Nat
  | a :: _ :: bs => a.toNat :: evens bs
  | [a] => [a.toNat]
  | [] => []

def odds (bs : List Byte) : List Nat := evens (bs.drop 1)

def weave : List Nat → List Nat → List Byte
  | a :: as, b :: bs => BitVec.ofNat 8 a :: BitVec.ofNat 8 b :: weave as bs
  | _, _ => []

/-! ### Flits -/

/-- A flit: header and payload, CRC, FEC. -/
def buildFlit (seq ack : Nat) (nak : Bool) (type : Nat) (payload : List Byte) : List Byte :=
  let m := toBytes 8 (seq + ack * 2 ^ 12 + nak.toNat * 2 ^ 24 + type * 2 ^ 25) ++ (payload ++ List.replicate 224 0).take 224
  let m := m ++ toBytes 8 (crc64 m)
  m ++ weave (rsParity (evens m)) (rsParity (odds m))

/-- A received flit: the header and payload of 232 bytes, once corrected and checked. -/
def openFlit (bs : List Byte) : Option (List Byte) :=
  if bs.length ≠ 256 then none
  else match rsFix (evens bs), rsFix (odds bs) with
    | some a, some b =>
      let m := (weave a b).take 240
      let body := m.take 232
      let h := ofBytes (body.take 8)
      if ofBytes (m.drop 232) = crc64 body ∧ bits h 25 3 ≤ 3 ∧ h / 2 ^ 28 = 0 then some body else none
    | _, _ => none

/-! ### Sending -/

/-- A port that carries flits now: not DOWN, and not RETRAINING, in which it stops sending (R391). -/
def Link.sending (l : Link) : Bool := l.state != 0 && l.state != 4

/-- A flit goes out on the lanes. -/
def Link.emit (l : Link) (fs : List (List Byte)) : Link := if l.sending then { l with sent := l.sent ++ fs } else l

/-- A new flit enters the replay buffer, and goes out unless the port has stopped sending. -/
def Link.send (l : Link) (type : Nat) (payload : List Byte) : Link :=
  let f := buildFlit l.seq l.last false type payload
  ({ l with replay := l.replay ++ [(l.seq, f)], seq := (l.seq + 1) % 4096 } : Link).emit [f]

/-- Every unacknowledged flit goes out again, in the original order (R389, R391). -/
def Link.resend (l : Link) : Link := l.emit (l.replay.map (·.2))

/-- A request flit goes out. -/
def Link.requestNow (l : Link) (w : Work) (payload : List Byte) : Link := { l.send 1 payload with reqs := l.reqs ++ [(l.seq, w)] }

/-- The replay buffer holds 512 flits and no more (R389). -/
def Link.full (l : Link) : Bool := l.replay.length ≥ 512

/-- A request leaves, or waits while the replay buffer is full, behind those that wait already (R389). -/
def Link.request (l : Link) (w : Work) (payload : List Byte) : Link :=
  if l.full || !l.waiting.isEmpty then { l with waiting := l.waiting ++ [(w, payload)] } else l.requestNow w payload

/-- Requests that waited go out in their order while the replay buffer has room. -/
def Link.drain : Nat → Link → Link
  | 0, l => l
  | n + 1, l =>
    match l.waiting with
    | [] => l
    | (w, bs) :: r => if l.full then l else ({ l with waiting := r }.requestNow w bs).drain n

/-- The fragments of a message, with their headers. -/
def fragments (code xid total : Nat) : Nat → Nat → List Byte → List (List Byte)
  | 0, _, _ => []
  | n + 1, k, bs =>
    if bs.isEmpty then []
    else
      let part := bs.take 208
      (toBytes 4 (code + k * 2 ^ 8 + total * 2 ^ 16) ++ toBytes 2 part.length ++ [0, 0] ++ toBytes 8 xid ++ part)
        :: fragments code xid total n (k + 1) (bs.drop 208)

/-- A management message leaves by a port. -/
def Link.sendMsg (l : Link) (code xid : Nat) (body : List Byte) : Link :=
  (fragments code xid ((body.length + 207) / 208) 255 0 body).foldl (fun l f => l.send 3 f) l

def State.link (s : State) (p : Nat) : Link := Map.get {} s.links p

def State.setLink (s : State) (p : Nat) (l : Link) : State := { s with links := Map.put {} s.links p l }

def State.sendMsg (s : State) (p code xid : Nat) (body : List Byte) : State := s.setLink p ((s.link p).sendMsg code xid body)

/-- The port that joins this package with a node: while it retrains, what it is to send stays in its replay buffer. -/
def State.portTo (s : State) (node : Nat) : Option Nat :=
  (s.links.find? fun l => l.2.peer == some node && 2 ≤ l.2.state && l.2.state ≤ 4).map (·.1)

/-- UNBIND leaves for a node; while no trained port joins it, UNBIND waits for one (R395). -/
def State.unbind (s : State) (node mine theirs : Nat) : State :=
  match s.portTo node with
  | some p => s.sendMsg p 6 0 (toBytes 2 mine ++ toBytes 2 theirs)
  | none => { s with unbinds := s.unbinds ++ [(node, mine, theirs)] }

/-- A context's bindings end, and their peers are told (R394, R395). -/
def State.unbindAll (s : State) (ctx : Nat) : State :=
  let mine := s.bindings.filter fun b => b.ctx == ctx
  let s := mine.foldl (fun (s : State) b => s.unbind b.node (s.ctx ctx).keyId b.theirs) s
  { s with bindings := s.bindings.filter fun b => b.ctx != ctx }

/-- The UNBINDs that waited leave for the nodes that a port now joins. -/
def State.unbindWaiting (s : State) : State :=
  s.unbinds.foldl (fun (s : State) u => s.unbind u.1 u.2.1 u.2.2) { s with unbinds := [] }

/-! ### Tier 4: reach, requests, failures (R378, R389, R391 to R394) -/

/-- The package of a remote location. -/
def nodeOf (loc : Nat) : Option Nat := if remoteBase ≤ loc ∧ loc < cspaceBase then some ((loc - remoteBase) / 2 ^ 42) else none

/-- Why a request of a context to a remote location fails: no route, a port that is DOWN, no binding, or a frame beyond the remote
package's memory. Its GDDR7 is that of this module, which reaches further than the near tier (log entry 34). -/
def State.remoteFail (s : State) (ctx loc : Nat) : Option Nat :=
  match nodeOf loc with
  | none => none
  | some node =>
    match Map.get 0 s.routes node with
    | 0 => some 0xB0
    | p + 1 =>
      if (s.link p).state = 0 then some 0xB0
      else if !(s.bindings.any fun b => b.ctx == ctx && b.node == node && b.state == 1) then some 0xB4
      else if (loc - remoteBase) % 2 ^ 42 ≥ Config.gddr7 then some 0xB6
      else none

/-- An access to a location must wait: its port trains, its replay buffer of 512 flits is full (R389), or a request to the same node on
another port has not left or has not been acknowledged (R392). -/
def State.portFull (s : State) (loc : Nat) : Bool :=
  match nodeOf loc with
  | none => false
  | some node =>
    match Map.get 0 s.routes node with
    | 0 => false
    | p + 1 =>
      (s.link p).state == 1 || (s.link p).full
        || s.links.any fun l => l.1 != p && (l.2.reqs.any (fun r => nodeOf r.2.loc == some node)
          || l.2.waiting.any fun r => nodeOf r.1.loc == some node)

/-- The port and the page of a host-bus location. -/
def hostPage (loc : Nat) : Option (Nat × Nat) :=
  if hostBase 0 ≤ loc ∧ loc < hostBase 1 then some (0, (loc - hostBase 0) / 4096)
  else if hostBase 1 ≤ loc ∧ loc < remoteBase then some (1, (loc - hostBase 1) / 4096)
  else none

/-- An access to the host tier caches the IOMMU's translation of its bus page (R397). -/
def State.cacheAts (s : State) (loc : Nat) : State :=
  match hostPage loc with
  | some u => if s.ats.contains u then s else { s with ats := s.ats ++ [u] }
  | none => s

/-- Where an access goes (R356), with the wait of a request that cannot leave yet. -/
def State.access (s : State) (ctx va : Nat) (k : AccKind) : Tr × State :=
  match s.translate ctx va k with
  | (.ok loc stamp pte level size, s) => (if s.portFull loc then .stall else .ok loc stamp pte level size, s.cacheAts loc)
  | r => r

/-- Bytes whose value the spec leaves open. -/
def State.freeBytes (s : State) (n : Nat) : List Byte × State :=
  ((List.range n).map fun i => BitVec.ofNat 8 (Config.freeNat (s.free + i)), { s with free := s.free + n })

/-- The request of an access leaves for the package of its location, by the port that the route table names. The spec gives the
payload of request flits no layout: it is open. -/
def State.request (s : State) (w : Work) : State :=
  match nodeOf w.loc with
  | none => s
  | some node =>
    match Map.get 0 s.routes node with
    | 0 => s
    | p + 1 => let (bs, s) := s.freeBytes 224; s.setLink p ((s.link p).request w bs)

/-- A posted store or an engine's access has failed at its target (R378): it is logged, and the packet of that work fails. -/
def State.lost (s : State) (w : Work) (cause : Nat) : State :=
  let s := s.log { cause, kind := 5, ctx := some w.ctx, die := w.core / 128, core := w.core % 128, slot := w.slot, gid := w.gid, loc := w.loc }
  match w.packet with
  | some (q, seq) => updPackets s w.ctx q seq fun p => { p with failed := true }
  | none => s

/-- An engine's access to a location goes out, or is lost. -/
def State.goesOut (s : State) (w : Work) : Bool × State :=
  match s.remoteFail w.ctx w.loc with
  | some c => (false, s.lost w c)
  | none => (true, s.request w)

/-- A posted store, or an access of an engine, for a group. -/
def State.workOf (s : State) (id : Ident) (loc : Nat) : Work :=
  let t := s.team id.team
  { ctx := id.ctx, core := id.core, slot := id.slot, gid := id.gid, packet := some (t.queue, t.seq), loc }

/-- The cause with which a group's read of a range kills it: poison in memory or, for a load, in its core's L1 (R380), or a remote
package out of reach (R378). -/
def State.readKills (s : State) (l1 : Option Nat) (ctx loc n : Nat) : Option Nat :=
  match s.poisonedAt loc n <|> l1.bind fun core => s.poisonedOn core false loc n with
  | some c => some c
  | none => s.remoteFail ctx loc

end Sys2Proof.Machine
end

