-- ==== Sys2Proof/Machine/Float.lean ====
section
/-! DEFINITION. Number formats (R27 to R33), the one rounding (R37, R38), and the exact operations of R85 and R98 to R103. -/
namespace Sys2Proof.Machine

/-! ### Flags (R30) -/

def fNV : Nat := 1
def fDZ : Nat := 2
def fOF : Nat := 4
def fUF : Nat := 8
def fNX : Nat := 16
def fSAT : Nat := 32

/-! ### Values -/

/-- A value of a floating format: a NaN, an infinity, or an exact rational, with the sign of a zero kept. -/
inductive FV where
  | nan (sig : Bool)
  | inf (neg : Bool)
  | fin (neg : Bool) (num den : Nat)
  deriving DecidableEq, Repr, Inhabited

def FV.zero : FV := .fin false 0 1

def FV.ofInt (x : Int) : FV := .fin (decide (x < 0)) x.natAbs 1

def FV.isNan : FV → Bool | .nan _ => true | _ => false
def FV.isSig : FV → Bool | .nan s => s | _ => false
def FV.neg : FV → Bool | .nan _ => false | .inf n => n | .fin n _ _ => n
def FV.isZero : FV → Bool | .fin _ num _ => num == 0 | _ => false
def FV.isInf : FV → Bool | .inf _ => true | _ => false

/-- The exact value as an integer over a common form; only for finite values. -/
def FV.num : FV → Int | .fin n a _ => if n then -(a : Int) else a | _ => 0
def FV.den : FV → Nat | .fin _ _ d => d | _ => 1

def FV.negate : FV → FV
  | .nan s => .nan s
  | .inf n => .inf (!n)
  | .fin n a d => .fin (!n) a d

def FV.abs : FV → FV
  | .nan s => .nan s
  | .inf _ => .inf false
  | .fin _ a d => .fin false a d

/-- num × 2^e over den. -/
def FV.scaled (neg : Bool) (num den : Nat) (e : Int) : FV :=
  if 0 ≤ e then .fin neg (num * 2 ^ e.toNat) den else .fin neg num (den * 2 ^ (-e).toNat)

/-- Drops the powers of two that numerator and denominator share. -/
def FV.mk2 (neg : Bool) (num den : Nat) : FV := let g := Nat.gcd num den; .fin neg (num / g) (den / g)

/-- Comparison of two values that are not NaN: the sign of a − b. −0 equals +0. -/
def FV.cmp (a b : FV) : Int :=
  match a, b with
  | .inf n, .inf m => if n = m then 0 else if n then -1 else 1
  | .inf n, _ => if n then -1 else 1
  | _, .inf m => if m then 1 else -1
  | a, b => let d := a.num * b.den - b.num * a.den; if d < 0 then -1 else if d = 0 then 0 else 1

/-! ### Formats -/

/-- A floating format (R27, R32, R294): exponent bits, fraction bits, bias, the convention of R31 without infinities, a sign bit. -/
structure Fmt where
  eb     : Nat
  mb     : Nat
  bias   : Nat
  finiteOnly : Bool := false
  signed : Bool := true
  deriving DecidableEq, Repr, Inhabited

def f32 : Fmt := { eb := 8, mb := 23, bias := 127 }
def f16 : Fmt := { eb := 5, mb := 10, bias := 15 }
def bf16 : Fmt := { eb := 8, mb := 7, bias := 127 }
def f8 : Fmt := { eb := 4, mb := 3, bias := 8, finiteOnly := true }
def g8 : Fmt := { eb := 5, mb := 2, bias := 16, finiteOnly := true }
def a40 : Fmt := { eb := 9, mb := 30, bias := 255, finiteOnly := true }
def uf11 : Fmt := { eb := 5, mb := 6, bias := 15, signed := false }
def uf10 : Fmt := { eb := 5, mb := 5, bias := 15, signed := false }

def Fmt.width (f : Fmt) : Nat := f.eb + f.mb + (if f.signed then 1 else 0)
def Fmt.signBit (f : Fmt) : Nat := 2 ^ (f.eb + f.mb)

/-- The largest finite pattern, without sign. -/
def Fmt.largest (f : Fmt) : Nat := if f.finiteOnly then 2 ^ (f.eb + f.mb) - 1 else (2 ^ f.eb - 1) * 2 ^ f.mb - 1

/-- The NaN of the format: the canonical quiet NaN (R28), the single NaN (R31), or exponent 31 with fraction 1 (R295). -/
def Fmt.nan (f : Fmt) : Nat :=
  if f.finiteOnly then f.signBit
  else if f.signed then (2 ^ f.eb - 1) * 2 ^ f.mb + 2 ^ (f.mb - 1)
  else (2 ^ f.eb - 1) * 2 ^ f.mb + 1

def Fmt.infty (f : Fmt) (neg : Bool) : Nat := (2 ^ f.eb - 1) * 2 ^ f.mb + (if neg then f.signBit else 0)

/-- The value of a pattern. -/
def Fmt.decode (f : Fmt) (x : Nat) : FV :=
  let m := x % 2 ^ f.mb
  let e := x / 2 ^ f.mb % 2 ^ f.eb
  let neg := f.signed && x / f.signBit % 2 == 1
  if f.finiteOnly && neg && e == 0 && m == 0 then .nan false
  else if !f.finiteOnly && e == 2 ^ f.eb - 1 then
    if m == 0 then .inf neg else .nan (f.signed && m < 2 ^ (f.mb - 1))
  else if e == 0 then FV.scaled neg m 1 (1 - f.bias - f.mb)
  else FV.scaled neg (2 ^ f.mb + m) 1 ((e : Int) - f.bias - f.mb)

/-- An A40 container of 64 bits (R33). -/
def decodeA40 (x : Nat) : FV := if x / 2 ^ 40 % 2 ^ 24 = 0 then a40.decode x else .nan false

/-! ### Rounding (R37, R38) -/

/-- The magnitude of neg num/den rounded to an integer. -/
def roundNat (rm : Rnd) (neg : Bool) (num den : Nat) : Nat :=
  let q := num / den
  let r := num % den
  match rm with
  | .rne => if 2 * r > den ∨ (2 * r = den ∧ q % 2 = 1) then q + 1 else q
  | .rz => q
  | .rd => if neg ∧ r > 0 then q + 1 else q
  | .ru => if !neg ∧ r > 0 then q + 1 else q

/-- ⌊log2 (num/den)⌋ for num > 0. -/
def log2q (num den : Nat) : Int :=
  let k : Int := (Nat.log2 num : Int) - Nat.log2 den
  let below := if 0 ≤ k then decide (num < den * 2 ^ k.toNat) else decide (num * 2 ^ (-k).toNat < den)
  if below then k - 1 else k

/-- Rounds a finite value to a format: the pattern and the flags. A zero keeps its sign where the format has one. With
`sat`, every mode saturates (R38). -/
def Fmt.roundFin (f : Fmt) (rm : Rnd) (sat : Bool) (neg : Bool) (num den : Nat) : Nat × Nat :=
  let sb := if neg && f.signed then f.signBit else 0
  if num = 0 then (if f.finiteOnly then 0 else sb, 0)
  else if neg && !f.signed then (0, fNX)
  else
    let emin : Int := 1 - f.bias
    let e := max (log2q num den) emin
    let q : Int := e - f.mb
    let (a, d) := if 0 ≤ q then (num, den * 2 ^ q.toNat) else (num * 2 ^ (-q).toNat, den)
    let n := roundNat rm neg a d
    let inexact := n * d != a
    let mag := (((e + f.bias - 1).toNat) * 2 ^ f.mb + n)
    if mag > f.largest then
      let away := match rm with
        | .rne => true
        | .rz => false
        | .rd => neg
        | .ru => !neg
      (if f.finiteOnly || sat || !away then f.largest + sb else f.infty (neg && f.signed), fOF ||| fNX)
    else
      let tiny := mag < 2 ^ f.mb
      let out := if mag = 0 && f.finiteOnly then 0 else mag + sb
      (out, if inexact then (if tiny then fUF ||| fNX else fNX) else 0)

/-- Rounds any value to a format in arithmetic and in conversions with SAT clear (R38). -/
def Fmt.round (f : Fmt) (rm : Rnd) (v : FV) : Nat × Nat :=
  match v with
  | .nan _ => (f.nan, 0)
  | .inf n => if f.finiteOnly then (f.nan, fNV) else if n && !f.signed then (0, 0) else (f.infty n, 0)
  | .fin n a d => f.roundFin rm false n a d

/-- Rounds with SAT set (R38). -/
def Fmt.roundSat (f : Fmt) (rm : Rnd) (v : FV) : Nat × Nat :=
  match v with
  | .inf n => if f.finiteOnly then (f.largest + (if n then f.signBit else 0), fSAT) else f.round rm v
  | .fin n a d => f.roundFin rm true n a d
  | .nan _ => f.round rm v

/-- A value rounded to an integral value, with its sign (R101). -/
def FV.rint (rm : Rnd) : FV → FV
  | .fin n a d => .fin n (roundNat rm n a d) 1
  | v => v

/-! ### Exact operations: the value and the flags -/

def sigFlag (vs : List FV) : Nat := if vs.any FV.isSig then fNV else 0

/-- a + b; an exact zero sum is +0, or −0 in RD, unless both operands have the sign. -/
def addV (rm : Rnd) (a b : FV) : FV × Nat :=
  let sf := sigFlag [a, b]
  match a, b with
  | .nan _, _ | _, .nan _ => (.nan false, sf)
  | .inf n, .inf m => if n = m then (.inf n, 0) else (.nan false, fNV)
  | .inf n, _ => (.inf n, 0)
  | _, .inf m => (.inf m, 0)
  | .fin n x d, .fin m y e =>
    if x = 0 ∧ y = 0 then (.fin (if n = m then n else rm == .rd) 0 1, 0)
    else
      let s : Int := (if n then -(x * e : Int) else x * e) + (if m then -(y * d : Int) else y * d)
      if s = 0 then (.fin (rm == .rd) 0 1, 0) else (FV.mk2 (decide (s < 0)) s.natAbs (d * e), 0)

def subV (rm : Rnd) (a b : FV) : FV × Nat := addV rm a b.negate

def mulV (a b : FV) : FV × Nat :=
  let sf := sigFlag [a, b]
  match a, b with
  | .nan _, _ | _, .nan _ => (.nan false, sf)
  | .inf n, .inf m => (.inf (n != m), 0)
  | .inf n, .fin m y _ => if y = 0 then (.nan false, fNV) else (.inf (n != m), 0)
  | .fin n x _, .inf m => if x = 0 then (.nan false, fNV) else (.inf (n != m), 0)
  | .fin n x d, .fin m y e => (FV.mk2 (n != m) (x * y) (d * e), 0)

/-- a × b + c (R98): an invalid product raises NV even when c is a quiet NaN (R85). -/
def fmaV (rm : Rnd) (a b c : FV) : FV × Nat :=
  let (p, f1) := mulV a b
  let (r, f2) := addV rm p c
  (r, f1 ||| f2)

/-- a + c × (b − a) (R98). -/
def lerpV (rm : Rnd) (a b c : FV) : FV × Nat :=
  let (d, f1) := subV rm b a
  let (m, f2) := mulV c d
  let (r, f3) := addV rm a m
  (r, f1 ||| f2 ||| f3)

def divV (a b : FV) : FV × Nat :=
  let sf := sigFlag [a, b]
  match a, b with
  | .nan _, _ | _, .nan _ => (.nan false, sf)
  | .inf _, .inf _ => (.nan false, fNV)
  | .inf n, .fin m _ _ => (.inf (n != m), 0)
  | .fin n _ _, .inf m => (.fin (n != m) 0 1, 0)
  | .fin n x d, .fin m y e =>
    if y = 0 then (if x = 0 then (.nan false, fNV) else (.inf (n != m), fDZ))
    else (FV.mk2 (n != m) (x * e) (d * y), 0)

/-- a × 2^n; a shift beyond every format's range rounds as a shift by 1,200. -/
def scaleV (a : FV) (n : Int) : FV :=
  match a with
  | .fin s x d => FV.scaled s x d (max (-1200) (min 1200 n))
  | v => v

/-- a0 × b0 + a1 × b1 + c (R103). -/
def dot2V (rm : Rnd) (a0 b0 a1 b1 c : FV) : FV × Nat :=
  let (p, f1) := mulV a0 b0
  let (q, f2) := mulV a1 b1
  let (s, f3) := addV rm p q
  let (r, f4) := addV rm s c
  (r, f1 ||| f2 ||| f3 ||| f4)

/-- ⌊√x⌋, bit by bit from bit k down. -/
def isqrtFrom : Nat → Nat → Nat → Nat
  | 0, x, r => if (r + 1) * (r + 1) ≤ x then r + 1 else r
  | k + 1, x, r => let t := r + 2 ^ (k + 1); isqrtFrom k x (if t * t ≤ x then t else r)

def isqrt (x : Nat) : Nat := isqrtFrom (Nat.log2 x / 2 + 1) x 0

/-- √(num/den) to at least 64 bits, as a fraction that every rounding to 30 bits or fewer takes as the root itself. -/
def sqrtQ (num den : Nat) : Nat × Nat :=
  let up := 64 + Nat.log2 den
  let x := num * den * 4 ^ up
  let r := isqrt x
  if r * r = x then (r, den * 2 ^ up) else (2 * r + 1, den * 2 ^ (up + 1))

def sqrtV (a : FV) : FV × Nat :=
  match a with
  | .nan s => (.nan false, if s then fNV else 0)
  | .inf n => if n then (.nan false, fNV) else (.inf false, 0)
  | .fin n x d =>
    if x = 0 then (.fin n 0 1, 0)
    else if n then (.nan false, fNV)
    else let (p, q) := sqrtQ x d; (FV.mk2 false p q, 0)

/-- FMIN and FMAX (R99): the value chosen. One NaN operand gives the other operand in F8 and G8 too, where R31 would give NaN
(DEDUCED, log entry 45). -/
def minmaxV (isMax : Bool) (a b : FV) : FV × Nat :=
  let f := sigFlag [a, b]
  if a.isNan then (if b.isNan then .nan false else b, f)
  else if b.isNan then (a, f)
  else
    let c := a.cmp b
    let aLess := decide (c < 0) || (c == 0 && a.neg && !b.neg)
    (if aLess != isMax then a else b, f)

/-- The one rounding of R85: flags of the operation and of the rounding. -/
def Fmt.result (f : Fmt) (rm : Rnd) (r : FV × Nat) : Nat × Nat :=
  let (x, fl) := f.round rm r.1
  (x, fl ||| r.2)

/-- FFRAC (R101). An operand without a fraction gives +0 in every mode (DEDUCED, log entry 45). -/
def ffrac (rm : Rnd) (a : FV) : Nat × Nat :=
  match a with
  | .nan s => (f32.nan, if s then fNV else 0)
  | .inf _ => (f32.nan, fNV)
  | .fin n x d =>
    let r := if n then (d - x % d) % d else x % d
    let (p, fl) := f32.roundFin rm false false r d
    (if p = 0x3F800000 then 0x3F7FFFFF else p, fl)

/-- FCLASS (R102): the bit of the class of an f32 pattern. -/
def fclassBit (x : Nat) : Nat :=
  let neg := x / 2 ^ 31 % 2 == 1
  match f32.decode x with
  | .nan s => if s then 0 else 1
  | .inf n => if n then 2 else 9
  | .fin _ num _ =>
    if num = 0 then (if neg then 5 else 6)
    else if x / 2 ^ 23 % 256 = 0 then (if neg then 4 else 7)
    else (if neg then 3 else 8)

/-! ### Conversions to integers (R38) -/

/-- A value to an integer type of w bits: pattern and flags. -/
def toIntV (w : Nat) (sg : Bool) (rm : Rnd) (sat : Bool) (v : FV) : Nat × Nat :=
  let lo : Int := if sg then -(2 ^ (w - 1)) else 0
  let hi : Int := if sg then 2 ^ (w - 1) - 1 else 2 ^ w - 1
  let indef := if sg then lo else hi
  match v with
  | .nan _ => (wrap w (if sat then 0 else indef), fNV)
  | .inf n => if sat then (wrap w (if n then lo else hi), fSAT) else (wrap w indef, fNV)
  | .fin n a d =>
    let m := roundNat rm n a d
    let x : Int := if n then -(m : Int) else m
    if x < lo ∨ hi < x then
      if sat then (wrap w (if x < lo then lo else hi), fSAT) else (wrap w indef, fNV)
    else (wrap w x, if m * d != a then fNX else 0)

end Sys2Proof.Machine
end

