-- ==== Sys2Proof/Machine/Operands.lean ====
section
/-! DEFINITION. Operand forms: what each specifier supplies (R51 to R55, R104), source modifiers (R58), destinations (R54). -/
namespace Sys2Proof.Machine

/-- The element formats of a floating type code (R57). -/
def fmtOf (ty : Nat) : Fmt :=
  match ty with
  | 8 => f32
  | 9 => f16
  | 10 => bf16
  | 11 => f8
  | _ => g8

/-- Element width of a type code. -/
def elemW (ty : Nat) : Nat :=
  match ty with
  | 2 | 3 | 5 => 64
  | 6 | 7 | 9 | 10 => 16
  | 11 | 12 => 8
  | _ => 32

/-- Operand width of a type code: 32 or 64. -/
def typeW (ty : Nat) : Nat := if ty = 2 ∨ ty = 3 ∨ ty = 5 then 64 else 32

def isFloatTy (ty : Nat) : Bool := 8 ≤ ty && ty ≤ 12
def isSignedTy (ty : Nat) : Bool := ty == 0 || ty == 2 || ty == 6

/-- Elements of w bits of a pattern of total bits, lowest first. -/
def elems (w total x : Nat) : List Nat := (List.range (total / w)).map fun i => x / 2 ^ (w * i) % 2 ^ w

/-- Puts elements of w bits together. -/
def joinElems (w : Nat) : List Nat → Nat
  | [] => 0
  | x :: xs => x % 2 ^ w + 2 ^ w * joinElems w xs

/-- An inline constant or lane number supplied in a type of R57 (R52). -/
def supplyTy (ty k : Nat) : Nat :=
  if isFloatTy ty then
    let f := fmtOf ty
    joinElems f.width (List.replicate (32 / f.width) (f.round .rne (.fin false k 1)).1)
  else if ty = 6 ∨ ty = 7 then joinElems 16 [k, k]
  else k

/-- The same in a CVT source code of R104 (R52). -/
def supplyCvt (code k : Nat) : Nat :=
  match code with
  | 8 => (f32.round .rne (.fin false k 1)).1
  | 9 => (f16.round .rne (.fin false k 1)).1
  | 10 => (bf16.round .rne (.fin false k 1)).1
  | 11 => (f8.round .rne (.fin false k 1)).1
  | 12 => (g8.round .rne (.fin false k 1)).1
  | 13 => (a40.round .rne (.fin false k 1)).1
  | _ => k

/-- IMM extended to a type (R55). -/
def immTy (ty imm : Nat) : Nat := if ty = 2 then wrap 64 (sint 32 imm) else imm

/-- The registers that an operand of w bits names in a lane, lowest first. -/
def operandKeys (wb : Nat) (o : Operand) (w lane : Nat) : List Nat :=
  match o with
  | .v n => (List.range (w / 32)).map fun j => vecKey wb (n.val + j) lane
  | .s n => (List.range (w / 32)).map fun j => scalarKey (n.val + j)
  | .p n => [predKey n.val lane]
  | _ => []

/-- The value of a source operand of w bits in a lane: `small` supplies an integer in the operand's type, `imm` is IMM
extended to it. -/
def Group.operand (g : Group) (wb : Nat) (o : Operand) (w lane : Nat) (small : Nat → Nat) (imm : Nat) : Nat :=
  match o with
  | .v _ | .s _ => (operandKeys wb o w lane).foldr (fun k acc => (g.readReg k).toNat + 2 ^ 32 * acc) 0
  | .p n => (g.readPred n.val lane).toNat
  | .zero => 0
  | .laneid => small lane
  | .k n => small n.val
  | .lit => imm

/-- The register writes of a value of w bits to a destination in a lane; 0x68 discards. -/
def destWrites (wb : Nat) (o : Operand) (w lane : Nat) (x : Nat) : List RegWrite :=
  ((operandKeys wb o w lane).zipIdx 0).map fun (k, j) => { key := k, lane, val := BitVec.ofNat 32 (x / 2 ^ (32 * j)) }

/-- The write of a predicate destination (R87); none when it is not valid. -/
def predWrites (pd : PDest) (lane : Nat) (b : Bool) : List RegWrite :=
  if pd.valid then [{ key := predKey pd.reg.val lane, lane, val := if b then 1 else 0 }] else []

def operandScalar : Operand → Bool | .s _ => true | _ => false

/-- With a scalar destination only the lowest executing lane computes (R54). -/
def destLanes (o : Operand) (lanes : Lanes) : Lanes :=
  if operandScalar o && lanes != 0 then 1#32 <<< lowest lanes else lanes

/-- R58: absolute value, then negation, per element. -/
def modElem (ty w : Nat) (neg abs : Bool) (x : Nat) : Nat :=
  if isFloatTy ty then
    let s := 2 ^ (w - 1)
    let y := if abs then x % s else x
    if neg then (if y / s % 2 = 1 then y % s else y + s) else y
  else
    let y : Int := sint w x
    let y := if abs then (y.natAbs : Int) else y
    wrap w (if neg then -y else y)

def applyMods (ty : Nat) (neg abs : Bool) (x : Nat) : Nat :=
  if neg || abs then
    let w := elemW ty
    joinElems w ((elems w (typeW ty) x).map (modElem ty w neg abs))
  else x

/-- The A, B and C values of a word of the common class in a lane, with widths and modifiers. -/
structure AluSrc where
  a : Nat := 0
  b : Nat := 0
  c : Nat := 0
  deriving DecidableEq, Repr, Inhabited

def tailImm : Tail → Nat
  | .imm x => x.toNat
  | .reg .. => 0

def tailAux : Tail → Nat
  | .imm _ => 0
  | .reg _ a => a.toNat

/-- C: IMM, or the register (R55). -/
def tailOperand : Tail → Operand
  | .imm _ => .lit
  | .reg c _ => c

/-- Sources of a common word: widths wa, wb, wc; b32 says that B (and C32 that C) is 32 bits read as .n32 (R83). -/
def aluSrc (x : Alu) (g : Group) (base lane wa wb wc : Nat) (tyA tyB tyC : Nat) : AluSrc :=
  let imm := tailImm x.tail
  { a := applyMods tyA x.negA x.absA (g.operand base x.a wa lane (supplyTy tyA) (immTy tyA imm)),
    b := applyMods tyB x.negB x.absB (g.operand base x.b wb lane (supplyTy tyB) (immTy tyB imm)),
    c := g.operand base (tailOperand x.tail) wc lane (supplyTy tyC) (immTy tyC imm) }

end Sys2Proof.Machine
end

