-- ==== Sys2Proof/Machine/Issue.lean ====
section
/-! DEFINITION. What surrounds every instruction: the issuing split and its executing lanes (R50), commit and the end of
a run (R67, R202, R419), traps as they are raised (R372), barriers as groups arrive, depart and leave (R244 to R249),
kills (R381), the end of a team (R197). -/
namespace Sys2Proof.Machine

/-! ### Ranges of global memory (R369): line by line -/

/-- The parts of [va, va + n) in each 128-byte line: offset and length. -/
def linePieces : Nat → Nat → Nat → Nat → List (Nat × Nat)
  | 0, _, _, _ => []
  | fuel + 1, va, off, n =>
    if off ≥ n then [] else
      let len := min (n - off) (128 - (va + off) % 128)
      (off, len) :: linePieces fuel va (off + len) n

inductive RangeTr where
  | ok (ps : List (Nat × Nat × Nat × Nat))    -- location, stamp, offset, length
  | bad (cause va : Nat)
  | stall
  deriving DecidableEq, Repr

def mapPieces (s : State) (ctx va : Nat) (k : AccKind) : List (Nat × Nat) → List (Nat × Nat × Nat × Nat) → RangeTr × State
  | [], acc => (.ok acc.reverse, s)
  | (off, len) :: ps, acc =>
    match s.access ctx (va + off) k with
    | (.ok loc stamp _ _ _, s) => mapPieces s ctx va k ps ((loc, stamp, off, len) :: acc)
    | (.bad c _, s) => (.bad c (va + off), s)
    | (.stall, s) => (.stall, s)

/-- Translates a whole range before anything of it is performed. -/
def State.mapRange (s : State) (ctx va n : Nat) (k : AccKind) : RangeTr × State :=
  mapPieces s ctx va k (linePieces (n / 128 + 2) va 0 n) []

/-- The lines of a range up to the first that cannot be translated, and why it cannot (R369). -/
def mapLines (s : State) (ctx va : Nat) (k : AccKind) : List (Nat × Nat) → List (Nat × Nat × Nat × Nat) → List (Nat × Nat × Nat × Nat) × RangeTr × State
  | [], acc => (acc.reverse, .ok [], s)
  | (off, len) :: ps, acc =>
    match s.access ctx (va + off) k with
    | (.ok loc stamp _ _ _, s) => mapLines s ctx va k ps ((loc, stamp, off, len) :: acc)
    | (.bad c _, s) => (acc.reverse, .bad c (va + off), s)
    | (.stall, s) => (acc.reverse, .stall, s)

/-- A range of C-space as pieces, line by line (R119). -/
def State.cPieces (s : State) (team a n : Nat) : List (Nat × Nat × Nat × Nat) :=
  (linePieces (n / 128 + 2) a 0 n).map fun (o, m) => (s.cLoc team (a + o), 0, o, m)

/-- Stores of a group to translated pieces, made by its Bobbin or matrix engine; one that fails at its target is lost (R378). -/
def storePieces (s : State) (id : Ident) (w : Seen) (bs : List Byte) (ps : List (Nat × Nat × Nat × Nat)) : State :=
  ps.foldl (fun s (loc, stamp, off, len) =>
    let (gone, s) := s.goesOut (s.workOf id loc)
    if gone then s.storeBy id.core w stamp loc ((bs.drop off).take len) true else s) s

/-- Loads of a group from translated pieces, in 4-byte accesses; `eng`: made by its Bobbin engine. What an engine's load that fails at its target gives is open
(R378). -/
def loadPieces (s : State) (id : Ident) (eng : Bool) (w : Seen) (ps : List (Nat × Nat × Nat × Nat)) : List Byte × Seen × State :=
  ps.foldl (fun (acc : List Byte × Seen × State) (loc, stamp, _, len) =>
    let (gone, s) := acc.2.2.goesOut { acc.2.2.workOf id loc with posted := eng }
    if gone then
      ((List.range ((len + 3) / 4)).map fun i => (4 * i, min 4 (len - 4 * i))).foldl
        (fun (acc : List Byte × Seen × State) (o, n) =>
          let (bs, w, s) := acc.2.2.load id.core acc.2.1 (fun _ _ => false) stamp (loc + o) n
          (acc.1 ++ bs, w, s)) (acc.1, acc.2.1, s)
    else
      let (bs, s) := s.freeBytes len
      (acc.1 ++ bs, acc.2.1, s)) ([], w, s)

/-! ### Poison that the Bobbin engine carries (R380) -/

/-- The location of an offset of a translated range. -/
def pieceLoc (ps : List (Nat × Nat × Nat × Nat)) (o : Nat) : Option Nat :=
  (ps.find? fun p => p.2.2.1 ≤ o && o < p.2.2.1 + p.2.2.2).map fun p => p.1 + (o - p.2.2.1)

/-- Registers and their offsets in a row and in the group record. -/
def rowCells (k : Nat) : List (Nat × Nat) := (List.range 256).map fun j => (rowKey k (j % 8) (j / 8), 4 * j)

def recordCells : List (Nat × Nat) :=
  ((List.range 256).map fun j => (fixedKey (j % 8) (j / 8), 4 * j)) ++ ((List.range 32).map fun n => (scalarKey n, 0x400 + 4 * n))
    ++ (List.range 224).map fun j => (predKey (j % 7 + 1) (j / 7), 0x480 + j / 7)

/-- Poison of stored registers goes into memory. -/
def State.poisonOut (s : State) (g : Group) (ps : List (Nat × Nat × Nat × Nat)) (cells : List (Nat × Nat)) : State :=
  if g.bad.isEmpty then s
  else cells.foldl (fun (s : State) (key, off) =>
    match (g.poisoned key).bind fun _ => pieceLoc ps off with
    | some l => s.setPoison l 1 0x9F
    | none => s) s

/-- Poison of loaded memory goes into registers. -/
def Group.poisonIn (g : Group) (s : State) (ps : List (Nat × Nat × Nat × Nat)) (cells : List (Nat × Nat)) : Group :=
  if s.poison.isEmpty then g
  else cells.foldl (fun (g : Group) (key, off) =>
    match (pieceLoc ps off).bind fun l => s.poisonedAt l 1 with
    | some _ => { g with bad := Map.set g.bad (ringKey g.ident.rows key) 0x9F }
    | none => g) g

/-! ### Barriers -/

/-- Keys of State.bars: core units, quad units, network ids. -/
def coreBarKey (core id : Nat) : Nat := 16 * core + id
def quadBarKey (core id : Nat) : Nat := 16384 + 16 * (core / 4) + id
def netBarKey (ctx id : Nat) : Nat := 32768 + 64 * ctx + id

def barId (key : Nat) : Nat := if key < 32768 then key % 16 else key % 64

/-- BARSTAT after a departure (R249). -/
def barstatOf (key : Nat) (b : Bar) : Nat :=
  (b.abandoned.getD 0) + (if b.abandoned.isSome then 2 ^ 8 else 0)
    + (if b.isTeam then 2 ^ 15 else barId key * 2 ^ 9) + b.scope * 2 ^ 16

/-- The key of a group's arrivals at a barrier in one generation: by BARs, or by BARA. -/
def arrivalKey (uid : Nat) (alone : Bool) : Nat := 2 * uid + alone.toNat

/-- The arrivals before a departure (R245, R126 edge 4): those of the generation that the split departs from, or, for BARW, of
the generation that gave the GEN it observes. -/
def Bar.before (b : Bar) : Option Nat → Map Rel
  | none => if b.abandoned.isSome then b.now else b.past
  | some g => if b.gen != g then b.past else []

/-- The acquire of a departure (R245): observed releases, and the arrivals before it. -/
def departView (core scope : Nat) (b : Bar) (wait : Option Nat) (w : Seen) : Seen :=
  let w := acquire core scope w
  { w with view := (b.before wait).foldl (fun v (_, r) => v.join (carried r.view r.core r.scope core scope)) w.view }

/-- A split leaves a barrier: the predicate, BARSTAT, the next instruction. -/
def departSplit (g : Group) (key : Nat) (b : Bar) (wait : Option Nat) (pd : PDest) (lanes : Lanes) (scope : Nat) : Group :=
  let g := g.writeAll ((lanesOf lanes).flatMap fun l => predWrites pd l b.abandoned.isNone)
  { g with sr := { g.sr with barstat := barstatOf key b }, seen := departView g.ident.core scope b wait g.seen }

/-- A split waits at the barrier, and `all` says that it departs: BARW leaves only when GEN differs from its operand or
the barrier is abandoned. -/
def leaves (key : Nat) (b : Bar) (e : Split) : Option (Option Nat × PDest × Lanes × Nat) :=
  match e.park with
  | some (.barrier k sc wait pd lanes) =>
    if k = key ∧ (match wait with | some g => b.gen != g || b.abandoned.isSome | none => true) = true then some (wait, pd, lanes, sc)
    else none
  | _ => none

/-- The splits of a group that leave a barrier. The spec does not say whether an open arrival record goes when its barrier is abandoned or
freed: here it stays, counts toward the four, and makes a later BARA raise 0x83 (DESIGN CHOICE, log entry 47). -/
def departGroup (key : Nat) (b : Bar) (g : Group) : Group :=
  let step (g : Group) (e : Split) : Group × Split :=
    match leaves key b e with
    | some (wait, pd, lanes, sc) => (departSplit g key b wait pd lanes sc, { e with park := none, pc := e.pc + 12, wait := 0 })
    | none => (g, e)
  let (g, live) := g.live.foldl (fun (acc : Group × Map Split) x => let (g, e) := step acc.1 x.2; (g, acc.2 ++ [(x.1, e)])) (g, [])
  let (g, pend) := g.pend.foldl (fun (acc : Group × List Split) e => let (g, e) := step acc.1 e; (g, acc.2 ++ [e])) (g, [])
  { g with live, pend }

/-- R246, R245: the generation completes when the arrivals reach EXPECT. -/
def Bar.complete (b : Bar) : Option Bar :=
  if b.abandoned.isNone && b.arrived > 0 && b.arrived ≥ b.expect then
    some { b with gen := (b.gen + 1) % 2 ^ 32, arrived := 0, past := b.now, now := [] }
  else none

/-! ### Settling in the state -/

/-- Inserts a raised trap in the order of clock and live slot (R372). -/
def insertTrap (t : Trap) : List Trap → List Trap
  | [] => [t]
  | u :: us => if t.clock < u.clock ∨ (t.clock = u.clock ∧ t.slot < u.slot) then t :: u :: us else u :: insertTrap t us

/-- A Handler-kind trap is raised for a live split; from a privileged split it is a context fault (R374). -/
def State.raiseTrap (s : State) (k : Nat) (t : Trap) : State :=
  match s.group k with
  | none => s
  | some g =>
    if (match Map.find g.live t.slot with | some e => e.priv | none => false) then s.contextFault g.ident.ctx t.cause
    else s.setGroup k { g with traps := insertTrap { t with clock := s.clock } g.traps }

/-- A run of the group is in progress: settle does not act within a run (R206). -/
def State.running (s : State) (k : Nat) : Bool :=
  match Map.find s.runs (portKey k) with
  | some r => r.group == k
  | none => false

/-- Settles one group after a change, between its runs: WINDOW_SPAN is raised where R226 says. -/
def State.settleOne (s : State) (k : Nat) : State :=
  match if s.running k then none else s.group k with
  | none => s
  | some g =>
    let g := g.settle
    let s := s.setGroup k g
    match if g.phase == .active then g.spanTrap else none with
    | none => s
    | some (slot, g) =>
      match Map.find g.live slot with
      | none => s
      | some e =>
        if e.priv then s else
        let s := s.setGroup k (g.updLive slot fun e => { e with park := none, defer := false })
        s.raiseTrap k { slot, cause := 0x12, mask := e.mask, pc := e.pc, rpc := e.pc }

/-- Releases every split that departs from a barrier. -/
def State.depart (s : State) (key : Nat) (b : Bar) : State :=
  let ks := (s.groups.filter fun x => x.2.entries.any fun e => (leaves key b e).isSome).map (·.1)
  ks.foldl (fun s k => (s.updGroup k (departGroup key b)).settleOne k) s

/-- Stores a barrier and completes its generation when that is due. -/
def State.setBar (s : State) (key : Nat) (b : Bar) : State :=
  match b.complete with
  | some b => ({ s with bars := Map.set s.bars key b }).depart key b
  | none => { s with bars := Map.set s.bars key b }

/-- A group enters EXITING: its team barrier expects one less (R246). -/
def State.exited (s : State) (k : Nat) : State :=
  match s.group k with
  | none => s
  | some g =>
    match (s.team g.ident.team).barKey with
    | none => s
    | some key => match Map.find s.bars key with
      | some b => if b.isTeam then s.setBar key { b with expect := b.expect - 1 } else s
      | none => s

/-- settle(group), with what follows when no entry remains. -/
def State.settle (s : State) (k : Nat) : State :=
  match s.group k with
  | none => s
  | some g =>
    let s' := s.settleOne k
    match s'.group k with
    | some g' => if g'.phase == .exiting && g.phase == .active && !g'.saved then s'.exited k else s'
    | none => s'

/-! ### The end of a team, kills -/

/-- Splits in issue wait, or waiting for a barrier unit, issue again when a wait's condition may have cleared: of groups
that satisfy p. -/
def State.wake (s : State) (p : Group → Bool) : State :=
  let waits (g : Group) : Bool := p g && g.entries.any fun e => e.park == some .issue || e.park == some .noUnit
  let ks := (s.groups.filter fun x => waits x.2).map (·.1)
  ks.foldl (fun s k => (s.updGroup k Group.unblock).settle k) s

/-- Splits that wait for a barrier unit on the quads of some cores. -/
def State.wakeQuads (s : State) (cores : List Nat) : State := s.wake fun g => cores.any fun c => c / 4 == g.ident.core / 4

/-- The team's C-space goes once its copies and matrix instructions have completed (R197). -/
def State.dropTeam (s : State) (uid : Nat) : State :=
  match Map.find s.teams uid with
  | some t => if t.ended && t.copies == 0 && !(s.engines.any fun e => e.2.queue.any (·.team == uid)) then { s with teams := Map.erase s.teams uid } else s
  | none => s

/-- A context is being saved (R158, R162): each of its groups will enter the save handler, and their tokens are void: zero
(R365); its walkers will be written back (R173). -/
def State.beginSaving (s : State) (ctx : Nat) : State :=
  let s := s.updCtx ctx fun c => { c with state := .saving, queues := c.queues.map fun (k, q) => (k, { q with owes := true }) }
  { s with groups := s.groups.map fun (k, g) => (k, if g.ident.ctx == ctx then
    { g with saving := true, fault := g.fault.map fun f => { f with token := 0, also := [] } } else g) }

/-- A context in RUNNING with no team, no copy of a queue and no queue READY, ACTIVE or LATE is RESIDENT; one in DRAINING
with no team is being saved (R158). -/
def State.idle (s : State) (ctx : Nat) : State :=
  let c := s.ctx ctx
  let busy := (s.teams.any fun x => x.2.ctx == ctx && !x.2.ended && !x.2.saved)
    || (s.copyq.any fun x => x.ctx == ctx && x.packet.isSome)
    || (c.queues.any fun x => x.2.state == .ready || x.2.state == .active || x.2.state == .late)
  let placed := s.teams.any fun x => x.2.ctx == ctx && !x.2.ended && !x.2.saved
  if c.state == .running && !busy then s.updCtx ctx fun c => { c with state := .resident }
  else if c.state == .draining && !placed then s.beginSaving ctx
  else s

/-- An engine whose reservation and slots a team held. -/
def Engine.release (uid : Nat) (e : Engine) : Engine :=
  { holder := if e.holder == some uid then none else e.holder,
    w0 := e.w0, w1 := e.w1, counts := e.counts, last := e.last, queue := e.queue, resume := e.resume,
    oslots := e.oslots.map fun x => if x.2.owner == some uid then (x.1, { x.2 with owner := none }) else x,
    aslots := e.aslots.map fun x => if x.2.owner == some uid then (x.1, { x.2 with owner := none }) else x }

/-- A team's last group has exited (R197, R243, R259). -/
def State.endTeam (s : State) (uid : Nat) : State :=
  let t := s.team uid
  let s := { s with
    bars := s.bars.filter fun x => x.2.team != some uid,
    engines := s.engines.map fun (x : Nat × Engine) => (x.1, x.2.release uid) }
  let s := s.updTeam uid fun t => { t with ended := true }
  let s := updPackets s t.ctx t.queue t.seq fun p => { p with left := p.left - 1 }
  ((s.dropTeam uid).idle t.ctx).wakeQuads t.cores

/-! ### What a group of a DRAW leaves (R331, R341) -/

/-- The vertex records of the lanes of a vertex group; those of lanes that have not exited are lost. -/
def Draw.takeVerts (d : Draw) (g : Group) : Draw :=
  (List.range 32).foldl (fun (d : Draw) l =>
    let v := 32 * g.ident.x + l
    let n := g.ident.y * d.vcount + v
    if v ≥ d.vcount then d
    else if hasLane g.lanes l then { d with dead := insertNat d.dead n }
    else
      let ws := (g.vert.filter fun x => x.1 / 1024 == l).map fun x => (x.1 % 1024, x.2)
      { d with verts := Map.set d.verts n ws }) d

/-- What lane l of a fragment group gave its fragment: nothing when it was killed, by FKILL or with its group. -/
def Frag.take (f : Frag) (g : Group) (l : Nat) : Frag :=
  let w (n : Nat) : Nat := (Map.get 0 g.frag (1024 * l + n)).toNat
  if hasLane g.killed l || hasLane g.lanes l then { f with cover := 0 }
  else
    { f with
      colour := ((List.range 4).filter fun t => w (260 + 8 * t) == 1).map fun t =>
        (t, w (256 + 8 * t) + 2 ^ 32 * w (257 + 8 * t) + 2 ^ 64 * w (258 + 8 * t) + 2 ^ 96 * w (259 + 8 * t)),
      z := if w 289 == 1 then f.z.map fun _ => w 288 else f.z }

def Draw.takeFrags (d : Draw) (g : Group) : Draw :=
  let mine := (d.quads.filter fun q => q.state == 2 && q.group == g.ident.team).zipIdx
  { d with quads := (d.quads.map fun q =>
      match mine.find? fun x => x.1.id == q.id with
      | some (_, j) => { q with state := 3, frags := q.frags.zipIdx.map fun (f, p) => f.take g (4 * j + p) }
      | none => q).filter fun q => !(q.state == 3 && q.frags.all fun f => f.cover == 0) }

/-- A group of a DRAW has ended: its vertices or its fragments go to the draw. -/
def State.harvest (s : State) (g : Group) : State :=
  match g.ident.draw with
  | none => s
  | some d => { s with draws := Map.upd s.draws d fun d => if g.ident.kind = 1 then d.takeVerts g else d.takeFrags g }

/-- A group's slot and footprint are free (R197). A group that leaves the save handler is kept with its team (R167). -/
def State.freeGroup (s : State) (k : Nat) : State :=
  match s.group k with
  | none => s
  | some g =>
    let gone (s : State) : State := ({ s with groups := Map.erase s.groups k } : State).dropRuns (· == k)
    if g.saved then
      let kept : Group := { ident := g.ident, arrivals := g.arrivals, counted := g.counted, vert := g.vert, frag := g.frag,
                            killed := g.killed, kept := g.kept, seq := g.seq, argsDue := g.argsDue, uncount := g.uncount, rejKept := g.rejKept }
      (gone s).updTeam g.ident.team fun t => { t with gsaved := t.gsaved ++ [kept] }
    else
      let s := (gone (s.harvest g)).updTeam g.ident.team fun t => { t with left := t.left - 1 }
      if (s.team g.ident.team).left = 0 then s.endTeam g.ident.team else s

/-- Every barrier that counted a killed group is abandoned, also one that a context set aside keeps, and no edge leads from the
group (R248, R249). -/
def State.abandon (s : State) (g : Group) (cause : Nat) : State :=
  let counts (b : Bar) : Bool := (b.isTeam && b.team == some g.ident.team) || g.counted.contains b.uid
  let rest (m : Map Rel) : Map Rel := m.filter fun x => x.1 / 2 != g.ident.uid
  let gone (b : Bar) : Bar := { b with abandoned := some (b.abandoned.getD cause), now := rest b.now, past := rest b.past }
  let keep (c : Ctx) : Ctx := { c with barSave := c.barSave.map fun (key, b) => (key, if counts b then gone b else b) }
  let s : State := { s with ctxs := s.ctxs.map fun (n, c) => (n, keep c) }
  (s.bars.filter fun x => counts x.2).foldl (fun s (key, b) => ({ s with bars := Map.set s.bars key (gone b) }).depart key (gone b)) s

/-- A kill (R381): the group is FREE, its barriers abandoned, its packet fails, and the kill is logged. -/
def State.kill (s : State) (k cause loc : Nat) : State :=
  match s.group k with
  | none => s
  | some g =>
    let id := g.ident
    let s := s.log { cause, kind := 3, ctx := some id.ctx, die := id.core / 128, core := id.core % 128, slot := id.slot,
                     gid := id.gid, loc }
    let t := s.team id.team
    let s := updPackets s id.ctx t.queue t.seq fun p => { p with failed := true }
    let s := s.harvest g
    let s := ({ s with groups := Map.erase s.groups k } : State).dropRuns (· == k)
    let s := s.abandon g cause
    let s := s.updTeam id.team fun t => { t with left := t.left - 1 }
    if (s.team id.team).left = 0 then s.endTeam id.team else s

/-- A posted store of a group has failed at its target (R378): it is logged, and its packet fails. -/
def State.lostStore (s : State) (id : Ident) (cause loc : Nat) : State :=
  s.lost (s.workOf id loc) cause

/-! ### The issuing split -/

/-- What an instruction word acts for: the group and its key, the live slot, the split, the lanes that execute (R50). -/
structure Iss where
  k     : Nat := 0
  slot  : Nat := 0
  g     : Group := {}
  sp    : Split := {}
  lanes : Lanes := 0
  again : Bool := false      -- a replay of faulted lanes: it does not count again (R419)
  deriving DecidableEq, Repr, Inhabited

/-- What the effect of an instruction comes to. -/
inductive Eff where
  | ok (s : State)                                           -- commits; the split continues at PC + 12
  | move (s : State) (ps : List Part) (taken : Bool)         -- commits; the split divides into parts (R207)
  | park (s : State) (p : Park)                              -- commits and parks; PC + 12
  | wait (s : State) (p : Park)                              -- counts and parks with its PC at the instruction
  | hold (s : State) (p : Park)                              -- commits nothing and parks with its PC at the instruction
  | stall (s : State) (p : Park) (counts : Bool)             -- lanes, or the issue itself, stall: the run stands still
  | endRun (s : State)                                       -- commits, ends the run
  | trap (s : State) (cause : Nat) (mask : Lanes) (addr aux : Nat)   -- commits nothing, traps precisely
  | after (s : State) (cause : Nat) (mask : Lanes) (addr aux : Nat)  -- commits, traps with TRAPPC at PC + 12
  | fault (s : State) (f : FRec) (r : Retry) (counts : Bool) -- the group parks until RESUME
  | kill (s : State) (cause loc : Nat)
  | gone (s : State)                                         -- the split no longer exists
  deriving DecidableEq, Repr

/-- The end of a run (R203): the port's pointer moves to its slot, and the group settles. -/
def State.endRun (s : State) (k : Nat) : State :=
  let s := { s with runs := Map.erase s.runs (portKey k), rr := Map.set s.rr (portKey k) (k % 16 + 1) }
  s.settle k

/-- One instruction has issued at this clock: the run goes on at the next one, or ends. With no run of the group in
progress the group settles. -/
def State.account (s : State) (k : Nat) (ends : Bool) : State :=
  match if s.running k then Map.find s.runs (portKey k) else none with
  | none => s.settle k
  | some r =>
    if ends || r.count + 1 ≥ 24 then s.endRun k
    else { s with runs := Map.set s.runs (portKey k) { r with count := r.count + 1, clock := r.clock + 1 } }

/-- The same for an instruction that takes effect at an event: where its run stood still, it goes on or ends; a run of another
split goes on. -/
def State.quietly (slot : Nat) (s : State) (k : Nat) (ends : Bool) : State :=
  match Map.find s.runs (portKey k) with
  | none => s.settle k
  | some r =>
    if r.group = k ∧ r.slot = slot then
      ({ s with runs := Map.set s.runs (portKey k) { r with clock := max r.clock s.clock } } : State).account k ends
    else s.settle k

/-- A run that stands still: an access of its group stalls. -/
def State.blocked (s : State) (r : Run) : Bool := match s.group r.group with | some g => g.stalled | none => false

/-- A commit: ICOUNT (R419), the switch marker (R68). -/
def commitGroup (ctl : Ctl) (again : Bool) (g : Group) : Group :=
  { g with sr := { g.sr with icount := if again then g.sr.icount else (g.sr.icount + 1) % 2 ^ 64 }, swPark := g.swPark || (ctl.sw && !g.outst.isEmpty) }

/-- Applies a change to the issuing split. -/
def updSplit (s : State) (i : Iss) (f : Split → Split) : State :=
  s.updGroup i.k fun g => g.updLive i.slot fun e => { f e with quiet := false, defer := false, fault := false }

/-- The split goes on as parts (R207); a lane at a new window base ends the span waits of the group (R226). -/
def movedGroup (i : Iss) (ps : List Part) (g : Group) : Group :=
  let g := match ps with
    | [p] => g.updLive i.slot fun e => { e with pc := p.pc, wb := p.wb, mask := p.mask, quiet := false, park := none, defer := false, fault := false }
    | ps => g.divide i.slot ps
  if ps.any (fun p => p.wb != i.sp.wb) then g.setEnts (endSpans 0 g.ents) else g

/-- The lanes of two parts of one instruction. -/
def Held.join (h m : Held) : Held :=
  let ops := (List.range 32).filterMap fun l => (h.ops ++ m.ops).find? (·.lane == l)
  { h with ops, lanes := maskOf (ops.map (·.lane)) }

/-- How a fault record names a group. -/
def FRec.of (f : FRec) (id : Ident) : FRec := { f with die := id.core / 128, core := id.core % 128, slot := id.slot, aux := id.gid }

/-- Lanes of the instruction on whose fault the group waits fault too: their record has a token that also releases the group, and they
replay with the others (R139, R365). -/
def State.faultBeside (s : State) (k : Nat) (f : FRec) (m : Held) : State :=
  match s.group k with
  | none => s
  | some g =>
    let (tok, s) := s.report g.ident.ctx (f.of g.ident)
    s.updGroup k fun g => { g with
      sr := { g.sr with trapmask := BitVec.ofNat 32 f.lanes },
      fault := g.fault.map fun w =>
        { w with also := w.also ++ [tok], retry := match w.retry with | .replay n => .replay (n.join m) | r => r } }

/-- Makes a fault record for the issuing group, which parks until RESUME. -/
def State.parkFault (s : State) (i : Iss) (f : FRec) (r : Retry) : State :=
  let id := i.g.ident
  let (tok, s) := s.report id.ctx (f.of id)
  s.updGroup i.k fun g =>
    { g with fault := some { token := tok, slot := i.slot, retry := r },
             sr := match r with
               | .replay _ => { g.sr with trapmask := BitVec.ofNat 32 f.lanes }      -- R139
               | _ => g.sr }

/-- The lanes of a split that still replay an instruction after a restore (R172); a handler's instructions are none of them. -/
def Group.replays (g : Group) (e : Split) : Lanes := if e.priv then 0 else g.fmask &&& e.mask

/-- What an instruction comes to when some lanes are done, some have met a translation fault and some stall: the faulted lanes
wait for RESUME (R139), those that stall for their page (R360). -/
def lanesEff (i : Iss) (h : Held) (bad : List (LaneOp × Nat × Nat)) (wait : List LaneOp) (s : State) : Eff :=
  let rest : Option Park :=
    if wait.isEmpty then none else some (.migrating { h with ops := wait, lanes := maskOf (wait.map (·.lane)) })
  match bad with
  | (_, c, va) :: _ =>
    let lanes := maskOf (bad.map (·.1.lane))
    .fault (s.updGroup i.k fun g => g.updLive i.slot fun e => { e with park := rest }) { cause := c, va, lanes := lanes.toNat }
      (.replay { h with ops := bad.map (·.1), lanes }) true
  | [] => match rest with
    | none => .ok s
    | some p => .stall s p true

/-- Carries out what an instruction's effect comes to; `acc` accounts for it in the run. -/
def Eff.carry (acc : State → Nat → Bool → State) (ctl : Ctl) (i : Iss) (e : Eff) : State :=
  let commit (s : State) : State := s.updGroup i.k (commitGroup ctl i.again)
  let hint := ctl.sw || ctl.rb
  match e with
  | .ok s => acc (updSplit (commit s) i fun e => { e with pc := i.sp.pc + 12, park := none }) i.k hint
  | .endRun s => acc (updSplit (commit s) i fun e => { e with pc := i.sp.pc + 12, park := none }) i.k true
  | .move s ps taken => acc ((commit s).updGroup i.k (movedGroup i ps)) i.k (hint || taken)
  | .park s p => acc (updSplit (commit s) i fun e => { e with pc := i.sp.pc + 12, park := some p, wait := 0 }) i.k true
  | .wait s p => acc (updSplit (commit s) i fun e => { e with park := some p, wait := 0 }) i.k true
  | .hold s p =>
    acc (s.updGroup i.k fun g => ({ g with fmask := g.fmask ||| i.g.replays i.sp } : Group).updLive i.slot fun e =>
      { e with park := some p, wait := 0, defer := (p == .span) }) i.k true
  | .stall s p counts =>
    let s := if counts then s.updGroup i.k (commitGroup { ctl with sw := false } i.again) else s
    s.updGroup i.k fun g => g.updLive i.slot fun e => { e with park := some p, wait := 0 }
  | .trap s c m a x =>
    acc ((updSplit s i fun e => { e with park := none }).raiseTrap i.k
      { slot := i.slot, cause := c, mask := m, addr := a, aux := x, pc := i.sp.pc, rpc := i.sp.pc }) i.k true
  | .after s c m a x =>
    let s := updSplit (commit s) i fun e => { e with pc := i.sp.pc + 12, park := none }
    acc (s.raiseTrap i.k { slot := i.slot, cause := c, mask := m, addr := a, aux := x, pc := i.sp.pc + 12, rpc := i.sp.pc }) i.k true
  | .fault s f r counts =>
    let s := if counts then updSplit (commit s) i id else s
    let park (e : Split) : Option Park := match r with | .reissue => none | _ => e.park
    acc ((s.updGroup i.k fun g => g.updLive i.slot fun e => { e with fault := true, wait := 0, park := park e }).parkFault i f r) i.k true
  | .kill s c l => s.kill i.k c l
  | .gone s => acc s i.k true

def Eff.retire (ctl : Ctl) (i : Iss) (e : Eff) : State := e.carry State.account ctl i

/-- The effect of an instruction that its group has held, carried out at an event. -/
def Eff.close (ctl : Ctl) (i : Iss) (e : Eff) : State := e.carry (State.quietly i.slot) ctl i

/-- The lanes that execute (R50), and, in a restored group, only those that still replay (R172). -/
def execLanes (ctl : Ctl) (g : Group) (sp : Split) : Lanes :=
  let on := maskOf ((lanesOf sp.mask).filter fun l => g.readPred ctl.pred.val l != ctl.neg)
  if g.replays sp != 0 then on &&& g.replays sp else on

/-- A poisoned register that the instruction reads (R380): the kill's cause. -/
def poisonRead (i : Iss) (ctl : Ctl) (srcs : List (Operand × Nat)) (readers : Lanes) : Option (Nat × Nat) :=
  let guard := (lanesOf i.sp.mask).map fun l => predKey ctl.pred.val l
  let keys := guard ++ srcs.flatMap fun (o, w) => (lanesOf readers).flatMap fun l => operandKeys i.sp.wb o w l
  (keys.findSome? fun k => (i.g.poisoned k).map fun c => (c, k))

/-- The split that State.issue names, and the lanes that execute a word with a guard. -/
def State.issuing (s : State) (ctl : Ctl) : Option Iss :=
  match s.issue with
  | none => none
  | some (k, slot) =>
    match s.group k with
    | none => none
    | some g => (Map.find g.live slot).map fun sp =>
        { k, slot, g, sp, lanes := execLanes ctl g sp, again := g.replays sp != 0 }

/-- The state in which the issuing instruction takes effect: nothing issues, and FMASK no longer holds the replayed lanes. -/
def Iss.start (i : Iss) (s : State) : State :=
  let s := { s with issue := none }
  if i.again then s.updGroup i.k fun g => { g with fmask := g.fmask &&& ~~~ i.sp.mask } else s

/-- Runs the effect of a word for the split that issues. `srcs` are its register sources with their widths; with a scalar
destination `d` only the lowest executing lane reads them (R54); `who` says otherwise which lanes do. -/
def withIssue (ctl : Ctl) (srcs : List (Operand × Nat)) (s : State) (f : Iss → State → Eff) (d : Operand := .zero)
    (who : Lanes → Lanes := destLanes d) :
    Host.Outcome State Fault Refusal :=
  match s.issuing ctl with
  | none => .fault .noIssuer
  | some i =>
    match poisonRead i ctl srcs (who i.lanes) with
    | some (c, loc) => .next ((Eff.kill (i.start s) c loc).retire ctl i)
    | none => .next ((f i (i.start s)).retire ctl i)

/-- A word that does nothing when no lane executes (R54, R112). -/
def whenLanes (i : Iss) (s : State) (e : Eff) : Eff := if i.lanes = 0 then .ok s else e

/-! ### Tile stores of the matrix engine (R264) -/

/-- Element size of a matrix format code (R282). -/
def matSize (fmt : Nat) : Nat := match fmt with | 0 => 4 | 1 | 2 => 2 | _ => 1

/-- The address of a line or row. -/
def matAddr (inC : Bool) (addr : Nat) (stride : Int) (r : Nat) : Nat := wrap (if inC then 32 else 64) ((addr : Int) + stride * r)

def MEntry.stores (e : MEntry) : Bool := match e.op with | .store .. | .storeSurf .. => true | _ => false

/-- A tile store still to be performed meets [a, a + n) of a space. -/
def MEntry.hits (e : MEntry) (inC : Bool) (a n : Nat) : Bool :=
  match e.op with
  | .store _ fmt c addr stride =>
    c == inC && (List.range 16).any fun r => r ≥ e.mark && overlap (matAddr c addr stride r) (16 * matSize fmt) a n
  | _ => false

/-- Tile stores of a group that are not performed. -/
def State.tileStores (s : State) (g : Group) : List MEntry :=
  (s.engine g.ident.core).queue.filter fun e => e.uid == g.ident.uid && e.stores

/-- An instruction that publishes waits for the tile stores of its group. -/
def afterTiles (i : Iss) (s : State) (e : Eff) : Eff :=
  if i.lanes ≠ 0 ∧ (s.tileStores i.g).isEmpty = false then .hold s .issue else e

/-- An access of the group follows its earlier tile stores to the same bytes in program order. -/
def clearOfTiles (i : Iss) (s : State) (inC : Bool) (n : Nat) (as : List Nat) (e : Eff) : Eff :=
  if (s.tileStores i.g).any fun t => as.any fun a => t.hits inC a n then .hold s .issue else e

/-- The group's backing and record are free of its tile stores. -/
def State.backingClear (s : State) (g : Group) : Bool :=
  (s.tileStores g).all fun t => !t.hits false g.ident.bsp (g.ident.bsl + 2048 - g.ident.bsp)

/-- Writes fixed-latency results (R69): they land at issue. -/
def State.landNow (s : State) (k : Nat) (ws : List RegWrite) : State := s.updGroup k fun g => g.writeAll ws

/-- A new outstanding result of the group (R69, R73), bound at issue. -/
def State.outstanding (s : State) (k min : Nat) (ready : Bool) (ws : List RegWrite) : State :=
  if ws.isEmpty && ready then s
  else s.updGroup k fun g =>
    { g with seq := g.seq + 1, outst := g.outst ++ [{ seq := g.seq, issue := s.clock, min, ready, writes := ws }] }

/-- Writes with the latency of the instruction's kind; 0 is fixed. -/
def State.writeResult (s : State) (k lat : Nat) (ws : List RegWrite) : State :=
  if lat = 0 then s.landNow k ws else s.outstanding k lat true ws

end Sys2Proof.Machine
end

