-- ==== Sys2Proof/Machine/Flags.lean ====
section
/-! DEFINITION. The driver of the common class (R82 to R88): what one lane computes, the flags of all lanes, the
arithmetic traps (R86, R92, R377), and where the results land (R69). -/
namespace Sys2Proof.Machine

/-- What one lane computes: D, the predicate, FPFLAGS bits, an integer division by zero. -/
structure LaneOut where
  d  : Nat := 0
  p  : Bool := false
  fl : Nat := 0
  dz : Bool := false
  deriving DecidableEq, Repr, Inhabited

/-- The class c of R377 of a floating type code of R57. -/
def fpClass (ty : Nat) : Nat := if ty = 9 ∨ ty = 10 then 1 else if ty = 11 ∨ ty = 12 then 2 else 0

/-- The class c of a CVT destination code (R104). -/
def cvtClass (code : Nat) : Nat := if code = 9 ∨ code = 10 then 1 else if code = 11 ∨ code = 12 then 2 else 0

/-- The number of the lowest flag of a set: 0 NV to 4 NX. -/
def lowFlag (x : Nat) : Nat := ((List.range 5).find? (bit x)).getD 0

def allFlags (outs : List (Nat × LaneOut)) : Nat := outs.foldl (fun m o => m ||| o.2.fl) 0

/-- The arithmetic trap of R86 and R92: cause, TRAPMASK, TRAPAUX. -/
def arithTrap (fpctl cls : Nat) (outs : List (Nat × LaneOut)) : Option (Nat × Lanes × Nat) :=
  let en := fpctl % 32
  let hot := outs.filter fun o => o.2.fl &&& en != 0
  let zero := outs.filter fun o => o.2.dz
  if !hot.isEmpty then
    some (0x50 + 5 * cls + lowFlag (allFlags outs &&& en), maskOf (hot.map (·.1)), allFlags outs % 32)
  else if bit fpctl 5 && !zero.isEmpty then some (0x5F, maskOf (zero.map (·.1)), 0)
  else none

/-- Ors flags into FPFLAGS of a group. -/
def State.raiseFlags (s : State) (k fl : Nat) : State :=
  s.updGroup k fun g => { g with sr := { g.sr with fpflags := g.sr.fpflags ||| fl } }

/-- Ends an instruction of the common class: a trap and nothing else (R86), or flags and results. `wr` gives a lane's
register writes. -/
def aluEff (lat cls : Nat) (wr : Nat → LaneOut → List RegWrite) (outs : List (Nat × LaneOut)) (i : Iss) (s : State) : Eff :=
  match arithTrap i.g.sr.fpctl cls outs with
  | some (c, m, aux) => .trap s c m 0 aux
  | none => .ok ((s.raiseFlags i.k (allFlags outs)).writeResult i.k lat (outs.flatMap fun o => wr o.1 o.2))

/-- The register width of an operand's role, none where it reads no register. -/
def roleW : Role → Option Nat
  | .src w | .addr w | .dst w | .dstV w => some w
  | .srcP | .dstP => some 32
  | .pair => some 64
  | .off | .imm => none

def croleW : CRole → Option Nat
  | .any w | .reg w _ => some w
  | .regOnly w _ => some w
  | .pred _ => some 32
  | _ => none

/-- The row of the tables of R89 to R116 for a word. -/
def Alu.row (x : Alu) (opc : Nat) : AluRow := aluRow opc x.ty.toNat x.sub.toNat x.pd.valid.toNat

/-- The width of the C operand. -/
def cWidth (r : AluRow) : Nat := (croleW r.c).getD 32

/-- The register sources of a word with their widths. -/
def aluReads (x : Alu) (r : AluRow) : List (Operand × Nat) :=
  (match roleW r.a with | some w => [(x.a, w)] | none => [])
    ++ (match roleW r.b with | some w => [(x.b, w)] | none => [])
    ++ (match r.c with | .none | .immDef | .immOff => [] | _ => [(tailOperand x.tail, cWidth r)])

/-- The values that a lane reads; `ta`, `tb` and `tc` are the types in which A, B and C are supplied. -/
def aluVals (x : Alu) (r : AluRow) (g : Group) (wb lane ta tb tc : Nat) : AluSrc :=
  aluSrc x g wb lane ((roleW r.a).getD 32) ((roleW r.b).getD 32) (cWidth r) ta tb tc

/-- The writes of a lane: D in its width, the predicate where it is valid (R87). -/
def aluWrites (x : Alu) (r : AluRow) (wb lane : Nat) (o : LaneOut) : List RegWrite :=
  (match roleW r.d with | some w => destWrites wb x.d w lane o.d | none => []) ++ predWrites x.pd lane o.p

/-- An instruction in which every lane computes alone (R82). `opc` names its row; A, B and C are supplied in the types `ta`,
`tb` and `tc`. -/
def aluOp3 (opc lat cls ta tb tc : Nat) (f : AluSrc → LaneOut) (x : Alu) (s : State) : Host.Outcome State Fault Refusal :=
  let r := Alu.row x opc
  withIssue x.ctl (aluReads x r) s (d := x.d) fun i s =>
    let outs := (lanesOf (destLanes x.d i.lanes)).map fun l => (l, f (aluVals x r i.g i.sp.wb l ta tb tc))
    aluEff lat cls (aluWrites x r i.sp.wb) outs i s

/-- The same, with A in the type of the word. -/
def aluOp (opc lat cls tb tc : Nat) (f : AluSrc → LaneOut) (x : Alu) (s : State) : Host.Outcome State Fault Refusal :=
  aluOp3 opc lat cls x.ty.toNat tb tc f x s

/-- The same, with B and C in the type of the word. -/
def aluOp1 (opc lat cls : Nat) (f : AluSrc → LaneOut) (x : Alu) (s : State) : Host.Outcome State Fault Refusal :=
  aluOp opc lat cls x.ty.toNat x.ty.toNat f x s

end Sys2Proof.Machine
end

