-- ==== Sys2Proof/Machine/Barrier.lean ====
section
/-! DEFINITION. Barriers (R240 to R254). -/
namespace Sys2Proof.Machine

/-! ### Handles (R241, R242) -/

/-- What a handle names: a cause, a taken barrier, or the team barrier before its first use. -/
inductive BarRef where
  | bad (cause : Nat)
  | ok (key : Nat) (b : Bar)
  | first
  deriving DecidableEq, Repr

def unitBase (core scope : Nat) : Nat := if scope = 0 then coreBarKey core 0 else quadBarKey core 0

/-- The handle checks, in order. -/
def State.handle (s : State) (g : Group) (scope h : Nat) : BarRef :=
  let id := g.ident
  let n := h % 64
  let t := s.team id.team
  if h ≥ 128 then .bad 0x80
  else if bit h 6 then
    if n ≠ 0 ∨ scope ≥ 2 then .bad 0x80
    else if scope = 0 ∧ t.cores.length > 1 then .bad 0x81
    else match t.barKey with
      | none => .first
      | some key => match Map.find s.bars key with
        | some b => if b.scope ≠ scope then .bad 0x81 else .ok key b
        | none => .first
  else if scope < 2 then
    if n > 15 then .bad 0x80
    else match Map.find s.bars (unitBase id.core scope + n) with
      | some b => if b.ctx ≠ id.ctx then .bad 0x80 else .ok (unitBase id.core scope + n) b
      | none => .bad 0x80
  else match Map.find s.bars (netBarKey id.ctx n) with
    | some b =>
      if b.scope ≠ scope ∨ (scope = 2 ∧ b.core / 128 ≠ id.core / 128) then .bad 0x81 else .ok (netBarKey id.ctx n) b
    | none => .bad 0x80

/-- The lowest free unit or network id from a base. -/
def State.freeUnit (s : State) (base n : Nat) : Option Nat := ((List.range n).map (base + ·)).find? fun k => (Map.find s.bars k).isNone

/-- Takes a barrier (R247). -/
def State.takeBar (s : State) (key : Nat) (b : Bar) : State :=
  let (uid, s) := s.freshId
  { s with bars := Map.set s.bars key { b with uid } }

/-- The team's groups that have not exited. -/
def State.teamGroups (s : State) (uid : Nat) : Nat :=
  (s.groups.filter fun x => x.2.ident.team == uid && x.2.phase != .exiting).length

/-- The barrier that an instruction uses; the first BAR or BARA takes the team barrier (R242). `wait` says that no unit is
free. -/
inductive BarUse where
  | bad (cause : Nat)
  | wait
  | ok (key : Nat) (b : Bar) (s : State)
  deriving DecidableEq, Repr

def State.useBar (s : State) (g : Group) (scope h : Nat) (takes : Bool) : BarUse :=
  match s.handle g scope h with
  | .bad c => .bad c
  | .ok key b => .ok key b s
  | .first =>
    if !takes then .bad 0x80
    else match s.freeUnit (unitBase g.ident.core scope) 16 with
      | none => .wait
      | some key =>
        let s := s.takeBar key { scope, team := some g.ident.team, ctx := g.ident.ctx, core := g.ident.core, isTeam := true,
                                 expect := s.teamGroups g.ident.team }
        let s := s.updTeam g.ident.team fun t => { t with barKey := some key }
        match Map.find s.bars key with
        | some b => .ok key b s
        | none => .wait

/-! ### Arrival (R244, R245) -/

/-- A group arrives, by BARs or, `alone`, by a BARA: the barrier counts it; the group remembers that it did (R248). -/
def State.groupArrives (s : State) (k key : Nat) (v : View) (alone : Bool) : State :=
  match s.group k, Map.find s.bars key with
  | some g, some b =>
    let s := s.setGroup k { g with arrivals := g.arrivals.filter (·.key != key), counted := insertNat g.counted b.uid }
    let r : Rel := { core := g.ident.core, scope := b.scope, view := v }
    s.setBar key { b with arrived := b.arrived + 1, now := joinRels b.now [(arrivalKey g.ident.uid alone, r)] }
  | _, _ => s

/-- An exit may complete an arrival record (R244). `left` are the lanes that remain. -/
def State.arriveAtExit (s : State) (k : Nat) (left : Lanes) : State :=
  match s.group k with
  | none => s
  | some g =>
    if left = 0 then s
    else (g.arrivals.filter fun a => a.mask &&& left == left).foldl (fun s a => s.groupArrives k a.key a.view false) s

/-- The acquire, predicate and BARSTAT of a departure that does not wait. -/
def departNow (i : Iss) (s : State) (key : Nat) (b : Bar) (wait : Option Nat) (pd : PDest) (scope : Nat) : State :=
  s.updGroup i.k fun g => departSplit g key b wait pd i.lanes scope

/-- The release of an arrival: what it publishes (R245). -/
def arrivalRelease (i : Iss) (s : State) (scope : Nat) : View × State :=
  match s.group i.k with
  | none => ({}, s)
  | some g => (s.viewOf g.ident.core g.seen.view,
      s.setGroup i.k { g with seen := s.release g.ident.core g.ident.uid scope g.seen })

/-- The value of an operand in the lowest executing lane (R252). -/
def Iss.low (i : Iss) (o : Operand) (w : Nat) (imm : BitVec 32) : Nat := i.g.operand i.sp.wb o w (lowest i.lanes) id imm.toNat

/-- BAR. R244 gives records by barrier: here a record is that of a barrier's unit, so one handle used at two scopes has two, and the team's
handle 0x40 and the plain handle of its unit share one (DEDUCED, log entry 47). -/
def execBar (x : SyncW) (s : State) : Host.Outcome State Fault Refusal :=
  withIssue x.ctl [(x.a, 32)] s (d := .s 0) fun i s =>
    let h := i.low x.a 32 x.imm
    let sc := x.scope.code
    let trap (c : Nat) : Eff := .trap s c i.lanes 0 h
    whenLanes i s <| afterTiles i s <|
      match s.useBar i.g sc h true with
      | .bad c => trap c
      | .wait => .hold s .noUnit
      | .ok key b s =>
        match i.g.arrivals.find? (·.key == key) with
        | some a =>
          if b.abandoned.isSome then .endRun (departNow i (arrivalRelease i s sc).2 key b none x.pd sc)
          else if a.mask &&& i.sp.mask ≠ 0 then trap 0x83
          else arrive i s key b sc a
        | none =>
          if b.abandoned.isSome then .endRun (departNow i (arrivalRelease i s sc).2 key b none x.pd sc)
          else if i.g.arrivals.length ≥ 4 then trap 0x87
          else arrive i s key b sc { key }
where
  /-- The split joins the record; it parks, or departs at once when it completes the generation. -/
  arrive (i : Iss) (s : State) (key : Nat) (b : Bar) (sc : Nat) (a : Arrival) : Eff :=
    let (v, s) := arrivalRelease i s sc
    let a := { a with mask := a.mask ||| i.sp.mask, view := a.view.join v }
    let s := s.updGroup i.k fun g => { g with arrivals := g.arrivals.filter (·.key != key) ++ [a] }
    let park : Park := .barrier key sc none x.pd i.lanes
    if a.mask &&& i.g.lanes = i.g.lanes then
      let s := s.groupArrives i.k key a.view false
      match Map.find s.bars key with
      | some b' => if b'.gen ≠ b.gen then .endRun (departNow i s key b' none x.pd sc) else .wait s park
      | none => .wait s park
    else .wait s park

def execBara (x : SyncW) (s : State) : Host.Outcome State Fault Refusal :=
  withIssue x.ctl [(x.a, 32)] s (d := .s 0) fun i s =>
    let h := i.low x.a 32 x.imm
    let sc := x.scope.code
    whenLanes i s <| afterTiles i s <|
      match s.useBar i.g sc h true with
      | .bad c => .trap s c i.lanes 0 h
      | .wait => .hold s .noUnit
      | .ok key b s' =>
        if i.sp.mask ≠ i.g.lanes ∨ (i.g.arrivals.any (·.key == key)) = true then .trap s 0x83 i.lanes 0 h
        else
          let (v, s) := arrivalRelease i s' sc
          .endRun (if b.abandoned.isSome then s else s.groupArrives i.k key v true)

def execBarw (x : SyncW) (s : State) : Host.Outcome State Fault Refusal :=
  withIssue x.ctl [(x.a, 32), (x.b, 32)] s (d := .s 0) fun i s =>
    let h := i.low x.a 32 x.imm
    let gen := i.low x.b 32 x.imm
    let sc := x.scope.code
    whenLanes i s <|
      match s.useBar i.g sc h false with
      | .bad c => .trap s c i.lanes 0 h
      | .wait => .hold s .noUnit
      | .ok key b s =>
        if b.gen ≠ gen ∨ b.abandoned.isSome = true then .endRun (departNow i s key b (some gen) x.pd sc)
        else .wait s (.barrier key sc (some gen) x.pd i.lanes)

/-! ### BARN (R254) -/

def execBarnAlloc (x : SyncW) (s : State) : Host.Outcome State Fault Refusal :=
  withIssue x.ctl [(x.a, 32)] s (d := .s 0) fun i s =>
    let n := i.low x.a 32 x.imm
    let sc := x.scope.code
    let id := i.g.ident
    let top := if sc = 0 then 64 else if sc = 1 then 256 else 2 ^ 24
    let base := if sc < 2 then unitBase id.core sc else netBarKey id.ctx 0
    let result (v : Nat) (p : Bool) (s : State) : Eff :=
      .park (s.landNow i.k ((lanesOf (destLanes x.d i.lanes)).flatMap fun l =>
        destWrites i.sp.wb x.d 32 l v ++ predWrites x.pd l p)) (.completion .done)
    whenLanes i s <|
      if n = 0 ∨ n > top then .trap s 0x82 i.lanes 0 n
      else match s.freeUnit base (if sc < 2 then 16 else 64) with
        | none => result 0xFFFFFFFF false s
        | some key => result (key - base) true
            (s.takeBar key { scope := sc, team := if sc < 2 then some id.team else none, ctx := id.ctx, core := id.core, expect := n })

def execBarnFree (x : SyncW) (s : State) : Host.Outcome State Fault Refusal :=
  withIssue x.ctl [(x.a, 32)] s (d := .s 0) fun i s =>
    let h := i.low x.a 32 x.imm
    whenLanes i s <|
      if h = 64 then .trap s 0x80 i.lanes 0 h
      else match s.handle i.g x.scope.code h with
        | .bad c => .trap s c i.lanes 0 h
        | .first => .trap s 0x80 i.lanes 0 h
        | .ok key b =>
          if b.isTeam then .trap s 0x80 i.lanes 0 h
          else if b.arrived > 0 ∧ b.abandoned.isNone = true then .trap s 0x84 i.lanes 0 h
          else .park (({ s with bars := Map.erase s.bars key }).wakeQuads [i.g.ident.core]) (.completion .done)

def execBarnGen (x : SyncW) (s : State) : Host.Outcome State Fault Refusal :=
  withIssue x.ctl [(x.a, 32)] s (d := .s 0) fun i s =>
    let h := i.low x.a 32 x.imm
    whenLanes i s <|
      match s.handle i.g x.scope.code h with
      | .bad c => .trap s c i.lanes 0 h
      | .first => .trap s 0x80 i.lanes 0 h
      | .ok _ b => .park (s.landNow i.k ((lanesOf (destLanes x.d i.lanes)).flatMap fun l => destWrites i.sp.wb x.d 32 l b.gen))
          (.completion .done)

end Sys2Proof.Machine
end

