-- ==== Sys2Proof/Machine/Native.lean ====
section
/-! DEFINITION. K4 (R34 to R36) and the sums of the matrix engine (R40 to R45). -/
namespace Sys2Proof.Machine

/-! ### K4 -/

/-- A nibble as 4-bit two's complement. -/
def sint4 (n : Nat) : Int := if n < 8 then n else (n : Int) - 16

/-- The two elements of a K4 byte (R34). -/
def k4Pair (byte : Nat) : FV × FV :=
  let lo := byte % 16
  let hi := byte / 16 % 16
  if lo = 8 then (f8.decode (hi * 16 + 8), .zero)
  else if hi = 8 then (.zero, f8.decode (lo * 16 + 8))
  else (.ofInt (sint4 lo), .ofInt (sint4 hi))

/-- |x| > n/2 for a finite or infinite value; false for NaN. -/
def FV.above (x : FV) (n d : Nat) : Bool :=
  match x with
  | .nan _ => false
  | .inf _ => true
  | .fin _ a e => decide (a * d > n * e)

/-- R36 outlier: the upper nibble and its saturation count. -/
def k4Outlier (x : FV) : Nat × Nat :=
  let u := if x.above 80 1 then 7 else if x.above 20 1 then 6 else 5
  (u + (if x.neg then 8 else 0), if x.above 128 1 then 1 else 0)

/-- R36 int4: nibble, saturation count, underflow count. -/
def k4Int (rm : Rnd) (x : FV) : Nat × Nat × Nat :=
  match x with
  | .fin n a d =>
    let m := roundNat rm n a d
    let v := min m 7
    let nib := if n && v != 0 then 16 - v else v
    (nib, if m > 7 then 1 else 0, if m = 0 ∧ a ≠ 0 then 1 else 0)
  | _ => (0, 1, 0)

/-- R36 pack_pair: byte, saturation count, underflow count. -/
def packPair (rm : Rnd) (x0 x1 : FV) : Nat × Nat × Nat :=
  let q0 := x0.above 15 2
  let q1 := x1.above 15 2
  if q0 then
    let (u, s) := k4Outlier x0
    (u * 16 + 8, s + (if q1 || x1.isNan then 1 else 0), if !(q1 || x1.isNan) && !x1.isZero then 1 else 0)
  else if q1 then
    let (u, s) := k4Outlier x1
    (128 + u, s + (if x0.isNan then 1 else 0), if !x0.isNan && !x0.isZero then 1 else 0)
  else
    let (n0, s0, u0) := k4Int rm x0
    let (n1, s1, u1) := k4Int rm x1
    (n1 * 16 + n0, s0 + s1, u0 + u1)

/-! ### Chunk sums: the sum, SAT, UND -/

/-- R41: a K4 chunk, in units of 2^−8. -/
def chunkK4 (ps : List (FV × FV)) : FV × Nat × Nat :=
  let lim : Int := 2 ^ 23 - 1
  let r := ps.foldl (fun (acc : Int × Nat × Nat) (ab : FV × FV) =>
    let (s, sat, und) := acc
    let num := ab.1.num * ab.2.num * 256
    let den : Int := ab.1.den * ab.2.den
    let small := num ≠ 0 ∧ num.natAbs < den.natAbs
    let p : Int := if small then 0 else num / den
    let s := s + p
    let und := if small then und + 1 else und
    if s > lim then (lim, sat + 1, und) else if s < -lim then (-lim, sat + 1, und) else (s, sat, und)) (0, 0, 0)
  (.fin (decide (r.1 < 0)) r.1.natAbs 256, r.2.1, r.2.2)

/-- R42 and R43: products truncated to a multiple of 2^(E − drop) and summed exactly; a NaN operand makes the sum NaN
and counts as a zero product (R45). -/
def chunkTrunc (drop : Nat) (ps : List (FV × FV)) : FV × Nat × Nat :=
  let prods : List (Int × Nat) := ps.map fun (a, b) =>
    if a.isNan || b.isNan then (0, 1) else (a.num * b.num, a.den * b.den)
  let bad := ps.any fun (a, b) => a.isNan || b.isNan
  let live := prods.filter fun (p : Int × Nat) => p.1 != 0
  match live.map fun (p : Int × Nat) => log2q p.1.natAbs p.2 with
  | [] => (if bad then .nan false else .zero, 0, 0)
  | e :: es =>
    let q : Int := es.foldl max e - drop
    let trunc (p : Int × Nat) : Int :=
      let (a, d) := if 0 ≤ q then (p.1.natAbs, p.2 * 2 ^ q.toNat) else (p.1.natAbs * 2 ^ (-q).toNat, p.2)
      if p.1 < 0 then -((a / d : Nat) : Int) else ((a / d : Nat) : Int)
    let ts := live.map trunc
    let s := ts.foldl (· + ·) 0
    (if bad then .nan false else FV.scaled (decide (s < 0)) s.natAbs 1 q, 0, (ts.filter (· == 0)).length)

/-- R44: a value to A40, RNE. -/
def toA40 (v : FV) : Nat := (a40.round .rne v).1

/-- R44: the promotion of a chunk sum into the accumulator. -/
def promote (acc : Nat) (s : FV) (sc : Int) : Nat :=
  let c := a40.decode (toA40 s)
  let c := a40.decode (toA40 (scaleV c sc))
  toA40 (addV .rne (a40.decode acc) c).1

/-- The sum of two A40 patterns (R44, R149). -/
def addA40 (x y : FV) : Nat := toA40 (addV .rne x y).1

end Sys2Proof.Machine
end

