-- ==== Sys2Proof/Machine/Sync.lean ====
section
/-! DEFINITION. Sync words (R251, R255). -/
namespace Sys2Proof.Machine

/-- count(sw, n): COUNT and GEN after the count (R251). -/
def countOf (target count gen n : Nat) : Nat × Nat :=
  if target = 0 then ((count + n) % 2 ^ 32, gen)
  else
    let c := count + n
    (c % target, (gen + c / target) % 2 ^ 32)

/-- A location of a team's C-space has been written: its granules are dirty (R165). -/
def State.touchC (s : State) (team off n : Nat) : State :=
  if n = 0 then s
  else s.updTeam team fun t =>
    { t with cdirty := (List.range ((off + n - 1) / 256 - off / 256 + 1)).foldl (fun m j => insertNat m (off / 256 + j)) t.cdirty }

/-- A split that waits at the record departs: its read of GEN is an acquire (R255). -/
def syncDepart (s : State) (loc gen : Nat) (g : Group) (e : Split) : Group × Split :=
  match e.park with
  | some (.syncWord l sc b) =>
    if l = loc ∧ gen ≠ b then
      let w := (s.loadLatest g.seen 0 (loc + 8) 4).2
      ({ g with seen := acquire g.ident.core sc w }, { e with park := none, pc := e.pc + 12, wait := 0 })
    else (g, e)
  | _ => (g, e)

def syncDepartAll (s : State) (loc gen : Nat) (g : Group) : Group :=
  let (g, live) := g.live.foldl (fun (acc : Group × Map Split) x =>
    let (g, e) := syncDepart s loc gen acc.1 x.2; (g, acc.2 ++ [(x.1, e)])) (g, [])
  let (g, pend) := g.pend.foldl (fun (acc : Group × List Split) e =>
    let (g, e) := syncDepart s loc gen acc.1 e; (g, acc.2 ++ [e])) (g, [])
  { g with live, pend }

/-- Every SWAIT at the record reads GEN again (R255). -/
def State.recheck (s : State) (loc : Nat) : State :=
  let gen := ofBytes (s.bytes (loc + 8) 4)
  let waits (e : Split) : Bool := match e.park with | some (.syncWord l _ b) => l == loc && gen != b | _ => false
  let ks := (s.groups.filter fun x => x.2.entries.any waits).map (·.1)
  ks.foldl (fun s k => (s.updGroup k (syncDepartAll s loc gen)).settle k) s

/-- One count as an atomic access of the record by an agent: what it hands over is `rels`, and, of an engine, `eng` (R126
edges 3 and 5). GEN after the count. -/
def State.countSync (s : State) (agent : Nat) (rels : Map Rel) (eng : View) (team off n : Nat) : Nat × State :=
  let loc := s.cLoc team off
  let x := ofBytes (s.bytes loc 12)
  let (c, g) := countOf (bits x 0 32) (bits x 32 32) (bits x 64 32) n
  let hand := joinRels (s.inherited loc 12) rels
  let pending := (Map.get {} s.order.counts loc).join eng
  let s := { s with order := { s.order with counts := Map.set s.order.counts loc pending } }
  let s := s.store agent hand {} 0 (loc + 4) (toBytes 4 c)
  let s := if g = bits x 64 32 then s else s.store agent hand pending 0 (loc + 8) (toBytes 4 g)
  (g, (s.touchC team off 16).recheck loc)

/-- The checks of a sync word address (R138, R252). -/
def syncTrap (i : Iss) (s : State) (off : Nat) : Option Eff :=
  let m : Lanes := 1#32 <<< lowest i.lanes
  if off ≥ (s.team i.g.ident.team).csize then some (.trap s 0x42 m off 0)
  else if off % 16 ≠ 0 then some (.trap s 0x40 m off 0)
  else none

/-- The release and the acquire parts of an atomic (R133). -/
def State.atomicPub (s : State) (k : Nat) (pub : Bool) (scope : Nat) : State :=
  if pub then s.updGroup k fun g => { g with seen := s.release g.ident.core g.ident.uid scope g.seen } else s

def State.atomicRef (s : State) (k : Nat) (ref : Bool) (scope : Nat) : State :=
  if ref then s.updGroup k fun g => { g with seen := acquire g.ident.core scope g.seen } else s

def seenOf (s : State) (k : Nat) : Seen := match s.group k with | some g => g.seen | none => {}

/-- What a group hands to its core with a store (R126 edge 2). -/
def State.shareView (s : State) (core : Nat) (w : Seen) : State :=
  { s with order := { s.order with cores := Map.set s.order.cores core ((s.coreView core).join w.view) } }

def execSwinit (x : SyncW) (s : State) : Host.Outcome State Fault Refusal :=
  withIssue x.ctl [(x.a, 32), (x.b, 32)] s (d := .s 0) fun i s =>
    let off := i.low x.a 32 x.imm
    let b := i.low x.b 32 x.imm
    whenLanes i s <| (if x.pub then afterTiles i s else fun e => e) <|
      match syncTrap i s off with
      | some e => e
      | none =>
        let s := s.atomicPub i.k x.pub x.scope.code
        let s := s.storeAtomic i.g.ident.core (seenOf s i.k) 0 (s.cLoc i.g.ident.team off) (toBytes 4 b ++ toBytes 4 0)
        .ok (s.touchC i.g.ident.team off 16)

def execSwadd (x : SyncW) (s : State) : Host.Outcome State Fault Refusal :=
  withIssue x.ctl [(x.a, 32), (x.b, 32)] s (d := .s 0) fun i s =>
    let off := i.low x.a 32 x.imm
    let b := i.low x.b 32 x.imm
    let id := i.g.ident
    whenLanes i s <| (if x.pub then afterTiles i s else fun e => e) <|
      match syncTrap i s off with
      | some e => e
      | none =>
        let s := s.atomicPub i.k x.pub x.scope.code
        let w := seenOf s i.k
        let s := s.updGroup i.k fun g => { g with seen := (s.loadLatest g.seen 0 (s.cLoc id.team off) 12).2 }
        let (gen, s) := (s.shareView id.core w).countSync id.core w.rels {} id.team off b
        let s := s.atomicRef i.k x.ref x.scope.code
        .ok (s.outstanding i.k 40 true ((lanesOf (destLanes x.d i.lanes)).flatMap fun l => destWrites i.sp.wb x.d 32 l gen))

def execSwtest (x : SyncW) (s : State) : Host.Outcome State Fault Refusal :=
  withIssue x.ctl [(x.a, 32), (x.b, 32)] s (d := .s 0) fun i s =>
    let off := i.low x.a 32 x.imm
    let b := i.low x.b 32 x.imm
    let loc := s.cLoc i.g.ident.team off
    whenLanes i s <|
      match syncTrap i s off with
      | some e => e
      | none =>
        let (bs, w) := s.loadLatest (seenOf s i.k) 0 (loc + 8) 4
        let s := (s.updGroup i.k fun g => { g with seen := w }).atomicRef i.k x.ref x.scope.code
        let gen := ofBytes bs
        .ok (s.outstanding i.k 40 true ((lanesOf (destLanes x.d i.lanes)).flatMap fun l =>
          destWrites i.sp.wb x.d 32 l gen ++ predWrites x.pd l (gen != b)))

/-- SWAIT (R255): when GEN already differs it goes on at once, and its read is an acquire. -/
def execSwait (x : SyncW) (s : State) : Host.Outcome State Fault Refusal :=
  withIssue x.ctl [(x.a, 32), (x.b, 32)] s (d := .s 0) fun i s =>
    let off := i.low x.a 32 x.imm
    let b := i.low x.b 32 x.imm
    let loc := s.cLoc i.g.ident.team off
    whenLanes i s <|
      match syncTrap i s off with
      | some e => e
      | none =>
        let (bs, w) := s.loadLatest (seenOf s i.k) 0 (loc + 8) 4
        if ofBytes bs ≠ b then
          .endRun (s.updGroup i.k fun g => { g with seen := acquire g.ident.core x.scope.code w })
        else .wait s (.syncWord loc x.scope.code b)

end Sys2Proof.Machine
end

