-- ==== Sys2Proof/Machine/Memory.lean ====
section
/-! DEFINITION. Loads, stores, atomics and reductions of lanes (R138, R139, R142 to R149), publish and refresh (R150 to R152). -/
namespace Sys2Proof.Machine

/-! ### Lane accesses -/

/-- How an instruction accesses memory: the kind of translation (R356), the space, the width in bytes, whether it brings
bytes into the group, the latency of its results, and what it does in one lane at a translated place. -/
structure Access where
  kind  : AccKind := .read
  inC   : Bool := false
  width : Nat := 4
  reads : Bool := true
  lat   : Nat := 28
  act   : Iss → LaneOp → Nat → Nat → State → List RegWrite × State

/-- R142: the offset of an address operand. -/
def addrOffset (t : Tail) : Int :=
  match t with
  | .imm x => x.toInt
  | .reg _ a => a.toInt

/-- The effective address of a lane (R142). -/
def effAddr (i : Iss) (x : MemW) (lane : Nat) : Nat :=
  let w := if x.inC then 32 else 64
  wrap w ((i.g.operand i.sp.wb x.a w lane id 0 : Nat) + addrOffset x.tail)

def memBytes (width : BitVec 3) : Nat := 2 ^ width.toNat

/-- The first failing check of R138 over all lanes: cause, lanes, address. `align` is the width, or 1. -/
def accessTrap (i : Iss) (s : State) (inC : Bool) (align : Nat) (ops : List LaneOp) : Option (Nat × Lanes × Nat) :=
  let size := (s.team i.g.ident.team).csize
  let pick (c : Nat) (p : LaneOp → Bool) : Option (Nat × Lanes × Nat) :=
    match ops.filter p with
    | [] => none
    | o :: os => some (c, maskOf ((o :: os).map (·.lane)), o.x)
  (pick 0x41 fun o => !inC && o.x ≥ 2 ^ 52) <|>
    (pick 0x42 fun o => inC && o.x ≥ size) <|> (pick 0x40 fun o => o.x % align != 0)

/-- DATA_WATCH (R385): for unprivileged splits, in global memory, after R138 and before translation. -/
def watchTrap (i : Iss) (s : State) (inC rd wr : Bool) (n : Nat) (ops : List LaneOp) : Option (Nat × Lanes × Nat × Nat) :=
  if inC || i.sp.priv || i.sp.quiet then none
  else
    (s.ctx i.g.ident.ctx).wps.findSome? fun (k, base, size, kind) =>
      let hit (o : LaneOp) : Bool := overlap o.x n base (2 ^ size) && ((rd && bit kind 0) || (wr && bit kind 1))
      match ops.filter hit with
      | [] => none
      | o :: os => some (0x48 + k, maskOf ((o :: os).map (·.lane)), o.x, k)

/-- Where a lane's access goes. -/
def placeLane (i : Iss) (s : State) (a : Access) (o : LaneOp) : Tr × State :=
  if a.inC then (.ok (s.cLoc i.g.ident.team o.x) 0 0 0 0, s) else s.access i.g.ident.ctx o.x a.kind

def placeLanes (i : Iss) (a : Access) : List LaneOp → State → List (LaneOp × Tr) → List (LaneOp × Tr) × State
  | [], s, acc => (acc.reverse, s)
  | o :: os, s, acc => let (t, s) := placeLane i s a o; placeLanes i a os s ((o, t) :: acc)

/-- The request of a lane's access, for the result that its group waits for. -/
def Access.work (a : Access) (i : Iss) (s : State) (loc : Nat) : Work :=
  let seq := (s.group i.k).map (·.seq)
  { s.workOf i.g.ident loc with
    posted := a.kind = .write,
    group := if a.kind = .write then none else some (i.k, i.g.ident.uid, if a.reads then seq else none) }

/-- One lane of an access that can be reached: its request leaves, and it is performed. CFLUSH sends none. -/
def Access.lane (a : Access) (i : Iss) (o : LaneOp) (loc stamp : Nat) (s : State) : List RegWrite × State :=
  a.act i o loc stamp (if a.kind = .read && !a.reads then s else s.request (a.work i s loc))

/-- Performs the accesses of lanes in ascending order: good lanes complete; faulted lanes are reported and wait for RESUME;
stalled lanes wait for their page (R139, R360). A poisoned byte that a lane reads kills the group (R380), and so does a load
or atomic that a remote package cannot be reached for; a store that cannot reach it is logged (R378). -/
def perform (a : Access) (i : Iss) (s : State) (h : Held) : Eff :=
  let (ts, s) := placeLanes i a h.ops s []
  let good := ts.filterMap fun (o, t) => match t with | .ok loc stamp _ _ _ => some (o, loc, stamp) | _ => none
  let bad := ts.filterMap fun (o, t) => match t with | .bad c _ => some (o, c) | _ => none
  let wait := ts.filterMap fun (o, t) => match t with | .stall => some o | _ => none
  let ctx := i.g.ident.ctx
  let dead (loc : Nat) : Option Nat :=
    if a.reads then s.readKills (if a.kind = .read then some i.g.ident.core else none) ctx loc a.width else if a.kind = .write then none else s.remoteFail ctx loc
  let lost (loc : Nat) : Option Nat := if a.kind = .write then s.remoteFail ctx loc else none
  match good.findSome? fun (_, loc, _) => (dead loc).map fun c => (c, loc) with
  | some (c, loc) => .kill s c loc
  | none =>
    let (ws, s) := good.foldl (fun (acc : List RegWrite × State) (o, loc, stamp) =>
      match lost loc with
      | some c => (acc.1, acc.2.lostStore i.g.ident c loc)
      | none => let (w, s) := a.lane i o loc stamp acc.2; (acc.1 ++ w, s)) ([], s)
    let s := s.writeResult i.k a.lat ws
    lanesEff i h (bad.map fun (o, c) => (o, c, o.x)) wait s

/-- Checks, then performs: the whole of a lane-access instruction. -/
def accessRun (a : Access) (rd wr : Bool) (instr : Instr) (i : Iss) (s : State) (ops : List LaneOp) : Eff :=
  clearOfTiles i s a.inC a.width (ops.map (·.x)) <|
  match accessTrap i s a.inC a.width ops with
  | some (c, m, addr) => .trap s c m addr 0
  | none =>
    match watchTrap i s a.inC rd wr a.width ops with
    | some (c, m, addr, k) => .trap s c m addr k
    | none => perform a i s { instr, pc := i.sp.pc, lanes := i.lanes, ops }

/-! ### LD, ST, LDP -/

/-- The value of loaded bytes in a register (R144). -/
def loadValue (width : Nat) (sx : Bool) (bs : List Byte) : Nat :=
  let v := ofBytes bs
  if width < 2 && sx then wrap 32 (sint (8 * 2 ^ width) v) else v

/-- A load by the group: 16 bytes are four accesses of 4 (R144). -/
def groupLoad (i : Iss) (s : State) (stamp loc n : Nat) : List Byte × State :=
  let parts := if n = 16 then (List.range 4).map fun j => (loc + 4 * j, 4) else [(loc, n)]
  let (bs, w, s) := parts.foldl (fun (acc : List Byte × Seen × State) (l, m) =>
    let (b, w, s) := acc.2.2.load i.g.ident.core acc.2.1 (fun _ _ => false) stamp l m
    (acc.1 ++ b, w, s)) ([], seenOf s i.k, s)
  (bs, s.updGroup i.k fun g => { g with seen := w })

def dataWidth (width : BitVec 3) : Nat := max 32 (8 * memBytes width)

def loadAccess (x : MemW) : Access :=
  { kind := .read, inC := x.inC, width := memBytes x.width,
    act := fun i o loc stamp s =>
      let (bs, s) := groupLoad i s stamp loc (memBytes x.width)
      (destWrites i.sp.wb x.d (dataWidth x.width) o.lane (loadValue x.width.toNat x.sx bs), s) }

def execLd (x : MemW) (s : State) : Host.Outcome State Fault Refusal :=
  withIssue x.ctl [(x.a, if x.inC then 32 else 64)] s (d := x.d) fun i s =>
    accessRun (loadAccess x) true false (.ld x) i s
      ((lanesOf (destLanes x.d i.lanes)).map fun l => { lane := l, x := effAddr i x l })

def storeAccess (x : MemW) : Access :=
  { kind := .write, inC := x.inC, width := memBytes x.width, reads := false, lat := 0,
    act := fun i o loc stamp s =>
      let s := s.storeBy i.g.ident.core (seenOf s i.k) stamp loc (toBytes (memBytes x.width) o.b)
      ([], if x.inC then s.touchC i.g.ident.team o.x (memBytes x.width) else s) }

def execSt (x : MemW) (s : State) : Host.Outcome State Fault Refusal :=
  let w := dataWidth x.width
  withIssue x.ctl [(x.a, if x.inC then 32 else 64), (x.b, w)] s fun i s =>
    accessRun (storeAccess x) false true (.st x) i s
      ((lanesOf i.lanes).map fun l =>
        { lane := l, x := effAddr i x l, b := i.g.operand i.sp.wb x.b w l id (tailImm x.tail) })

/-- A lane of an LDP, with the lanes that wait so far (R146, R366): it loads; or its page does not let it load, which gives zero and
false, with feedback for a MAPPED-NONRESIDENT leaf; or it waits for its page, or for a ring's. -/
def probeLane (x : MemW) (i : Iss) (acc : List RegWrite × List LaneOp × State) (o : LaneOp) (t : Tr) : List RegWrite × List LaneOp × State :=
  let (ws, late, s) := acc
  let absent := destWrites i.sp.wb x.d (dataWidth x.width) o.lane 0 ++ predWrites x.pd o.lane false
  match t with
  | .ok loc stamp _ _ _ =>
    let (w, s) := (loadAccess x).lane i o loc stamp s
    (ws ++ w ++ predWrites x.pd o.lane true, late, s)
  | .bad _ none => (ws ++ absent, late, s)
  | .bad _ (some leaf) =>
    match s.feedback i.g.ident.ctx o.x leaf with
    | (.stall, s) => (ws, late ++ [o], s)
    | (_, s) => (ws ++ absent, late, s)
  | .stall => (ws, late ++ [o], s)

/-- LDP: no lane faults. -/
def probe (x : MemW) (i : Iss) (s : State) (h : Held) : Eff :=
  let a := loadAccess x
  let (ts, s) := placeLanes i a h.ops s []
  let good := ts.filterMap fun (_, t) => match t with | .ok loc _ _ _ _ => some loc | _ => none
  match good.findSome? fun loc => (s.readKills (some i.g.ident.core) i.g.ident.ctx loc a.width).map fun c => (c, loc) with
  | some (c, loc) => .kill s c loc
  | none =>
    let (ws, wait, s) := ts.foldl (fun acc (o, t) => probeLane x i acc o t) ([], [], s)
    lanesEff i h [] wait (s.outstanding i.k 28 true ws)

def execLdp (x : MemW) (s : State) : Host.Outcome State Fault Refusal :=
  withIssue x.ctl [(x.a, 64)] s (d := x.d) fun i s =>
    let ops := (lanesOf (destLanes x.d i.lanes)).map fun l => ({ lane := l, x := effAddr i x l } : LaneOp)
    clearOfTiles i s false (memBytes x.width) (ops.map (·.x)) <|
    match accessTrap i s false (memBytes x.width) ops with
    | some (c, m, addr) => .trap s c m addr 0
    | none =>
      match watchTrap i s false true false (memBytes x.width) ops with
      | some (c, m, addr, k) => .trap s c m addr k
      | none => probe x i s { instr := .ldp x, pc := i.sp.pc, lanes := i.lanes, ops }

/-! ### Atomics -/

/-- The new value of an atomic operation on w bits (R147). -/
def atomicOp (aop w old b : Nat) : Nat :=
  let so := sint w old
  let sb := sint w b
  match aop with
  | 0 => (old + b) % 2 ^ w
  | 1 => if so ≤ sb then old else b
  | 2 => if old ≤ b then old else b
  | 3 => if so ≥ sb then old else b
  | 4 => if old ≥ b then old else b
  | 5 => old &&& b
  | 6 => old ||| b
  | 7 => old ^^^ b
  | 9 => (f32.result .rne (addV .rne (f32.decode old) (f32.decode b))).1
  | _ => b

/-- One atomic read and, where `f` gives a value, write, with the parts that .pub and .ref name (R132, R133). -/
def atomicLane (x : MemW) (i : Iss) (o : LaneOp) (loc stamp : Nat) (s : State) (f : Nat → Option Nat) : Nat × State :=
  let n := memBytes x.width
  let s := s.atomicPub i.k x.pub x.scope.code
  let (bs, w) := s.loadLatest (seenOf s i.k) stamp loc n
  let s := (s.returnedLatest i.g.ident.core w loc n).updGroup i.k fun g => { g with seen := w }
  let old := ofBytes bs
  let s := match f old with
    | some v =>
      let s := s.storeAtomic i.g.ident.core w stamp loc (toBytes n v)
      if x.inC then s.touchC i.g.ident.team o.x n else s
    | none => s
  (old, s.atomicRef i.k x.ref x.scope.code)

def atAccess (x : MemW) (ret : Bool) : Access :=
  { kind := .atomic, inC := x.inC, width := memBytes x.width, reads := ret, lat := if ret then 40 else 0,
    act := fun i o loc stamp s =>
      let w := 8 * memBytes x.width
      let (old, s) := atomicLane x i o loc stamp s fun old => some (atomicOp x.aop.toNat w old (o.b % 2 ^ w))
      (if ret then destWrites i.sp.wb x.d w o.lane old else [], s) }

/-- The lanes and operands of AT, ATC and RED. B is supplied in the type of the operation (R52, R55): .f32 for the float
addition, signed for the signed operations, natural otherwise (DEDUCED for .add, log entry 12). -/
def atomicOps (i : Iss) (x : MemW) (lanes : Lanes) : List LaneOp :=
  let w := 8 * memBytes x.width
  let small : Nat → Nat := if x.aop = 9 then supplyTy 8 else id
  let imm := immTy (if x.width = 3 ∧ (x.aop = 1 ∨ x.aop = 3) then 2 else 4) (tailImm x.tail)
  (lanesOf lanes).map fun l =>
    { lane := l, x := effAddr i x l, b := i.g.operand i.sp.wb x.b w l small imm,
      c := match x.tail with | .reg c _ => i.g.operand i.sp.wb c w l id 0 | _ => 0 }

/-- With .pub the group's tile stores come first (R264). -/
def publishing (x : MemW) (i : Iss) (s : State) (e : Eff) : Eff := if x.pub then afterTiles i s e else e

def execAt (x : MemW) (s : State) : Host.Outcome State Fault Refusal :=
  withIssue x.ctl [(x.a, if x.inC then 32 else 64), (x.b, 8 * memBytes x.width)] s (d := x.d) fun i s =>
    publishing x i s <| accessRun (atAccess x true) true true (.at x) i s (atomicOps i x (destLanes x.d i.lanes))

def execRed (x : MemW) (s : State) : Host.Outcome State Fault Refusal :=
  withIssue x.ctl [(x.a, if x.inC then 32 else 64), (x.b, 8 * memBytes x.width)] s fun i s =>
    publishing x i s <| accessRun (atAccess x false) true true (.red x) i s (atomicOps i x i.lanes)

/-- ATC (R148): compare with B, exchange with C. -/
def atcAccess (x : MemW) : Access :=
  { kind := .atomic, inC := x.inC, width := memBytes x.width, lat := 40,
    act := fun i o loc stamp s =>
      let w := 8 * memBytes x.width
      let (old, s) := atomicLane x i o loc stamp s fun old => if old = o.b then some o.c else none
      (destWrites i.sp.wb x.d w o.lane old ++ predWrites x.pd o.lane (old == o.b), s) }

def execAtc (x : MemW) (s : State) : Host.Outcome State Fault Refusal :=
  let w := 8 * memBytes x.width
  withIssue x.ctl [(x.a, if x.inC then 32 else 64), (x.b, w), (tailOperand x.tail, w)] s (d := x.d) fun i s =>
    publishing x i s <| accessRun (atcAccess x) true true (.atc x) i s (atomicOps i x (destLanes x.d i.lanes))

/-! ### Sequenced reduction streams (R137, R149) -/

/-- A stream record as a number of 512 bits. -/
def streamBad (r : Nat) (a40f : Bool) (i : Nat) : Bool :=
  let fmt := bits r 128 2
  fmt ≥ 2 || (fmt == 1) != a40f || r / 2 ^ 130 != 0 || (fmt == 0 && bits r 32 32 != 0) || i ≥ bits r 96 32

/-- The next VALUE (R149). -/
def streamAdd (a40f : Bool) (value b : Nat) : Nat :=
  if a40f then addA40 (decodeA40 value) (decodeA40 b)
  else (f32.result .rne (addV .rne (f32.decode (value % 2 ^ 32)) (f32.decode b))).1

/-- REDS in .a40 (WIDTH 3) or in .f32. -/
def Contrib.a40 (c : Contrib) : Bool := c.word.width == 3

/-- The atomic write of VALUE and NEXT for one contribution: a store of its group, after the atomic read of the record, from
which the group inherits (R126 edges 1 to 3, R133). -/
def State.applyContrib (s : State) (c : Contrib) (loc stamp : Nat) (bs : List Byte) : State :=
  let s := s.updGroup c.group fun g =>
    if g.ident.uid = c.uid then { g with seen := (s.loadLatest g.seen stamp loc 12).2 } else g
  s.store (c.group / 64) (joinRels (s.inherited loc 12) c.rels) {} stamp loc bs c.uid none true

/-- Applies the held contributions of a record from NEXT on; each application is one atomic write of VALUE and NEXT. -/
def drainStream : Nat → State → Nat → Nat → State
  | 0, s, _, _ => s
  | n + 1, s, loc, stamp =>
    let r := ofBytes (s.peek stamp loc 64)
    let next := bits r 64 32
    match s.contribs.find? fun c => c.held && c.loc == some loc && c.index == next with
    | none => s
    | some c =>
      let s := s.applyContrib c loc stamp (toBytes 8 (streamAdd c.a40 (bits r 0 64) c.value) ++ toBytes 4 (next + 1))
      drainStream n { s with contribs := s.contribs.filter (·.id != c.id) } loc stamp

/-- A rejected lane is remembered until the instruction ends (R149). -/
def State.reject (s : State) (c : Contrib) (cause : Nat) : State :=
  s.updGroup c.group fun g =>
    if g.ident.uid = c.uid then
      { g with rejects := g.rejects ++ [{ slot := c.slot, lane := c.lane, cause, index := c.index, addr := c.addr }] }
    else g

def State.dropContrib (s : State) (c : Contrib) : State := { s with contribs := s.contribs.filter (·.id != c.id) }

/-- The group of a contribution is answered: every record write of the loop that its arrival began, from write `first` on, precedes the
answer, also those of other groups' held contributions (R149). -/
def State.answered (s : State) (c : Contrib) (first loc : Nat) : State :=
  let agents := (s.order.writes.filter fun r => r.id ≥ first).foldl (fun m r => Map.set m r.agent s.order.next) ([] : Map Nat)
  if agents.isEmpty then s
  else s.updGroup c.group fun g =>
    if g.ident.uid = c.uid then { g with seen := { g.seen with view := g.seen.view.join { line := [(loc / 128, agents)] } } } else g

/-- One contribution is handled at its home slice (R149), with its record at a location; one that lies beyond the window of
64 waits. -/
def State.contribute (s : State) (c : Contrib) (loc stamp : Nat) : State :=
  let r := ofBytes (s.peek stamp loc 64)
  let next := bits r 64 32
  if streamBad r c.a40 c.index then (s.reject c 0x86).dropContrib c
  else if c.index < next || (s.contribs.any fun d => d.held && d.loc == some loc && d.index == c.index) then
    (s.reject c 0x85).dropContrib c
  else if c.index ≥ next + 64 then s
  else
    let first := s.order.next
    let s := { s with contribs := s.contribs.map fun d => if d.id == c.id then { d with held := true, loc := some loc } else d }
    (drainStream (s.contribs.length + 1) s loc stamp).answered c first loc

/-- Where the records of the held contributions lie now: their pages may have moved (R360). -/
def State.placeHeld (s : State) : State :=
  (s.contribs.filter (·.held)).foldl (fun s c =>
    let (t, s) := s.translate c.ctx c.addr .atomic
    let loc := match t with | .ok loc _ _ _ _ => some loc | _ => none
    { s with contribs := s.contribs.map fun d => if d.id == c.id then { d with loc } else d }) s

/-- The contribution of a lower lane of the same REDS to the record at a location has still to be handled (R123): its address may be
another one of the same record. -/
def State.behind (s : State) (c : Contrib) (loc : Nat) : Bool :=
  s.contribs.any fun d => !d.held && d.uid == c.uid && d.slot == c.slot && d.lane < c.lane &&
    match (s.translate d.ctx d.addr .atomic).1 with
    | .ok l _ _ _ _ => l == loc
    | _ => false

/-- The page of a record on its way has gone: the lane faults (R139). Beside a fault of the same instruction it joins those lanes; a group
that waits on another fault reports it after that, or, while it is being saved, at once, and the lane goes to FMASK (R365). -/
def State.contribFault (s : State) (c : Contrib) (cause : Nat) : State :=
  match s.group c.group with
  | none => s.dropContrib c
  | some g =>
    if g.ident.uid ≠ c.uid then s.dropContrib c
    else match Map.find g.live c.slot with
      | none => s.dropContrib c
      | some sp =>
        let lanes : Lanes := 1#32 <<< c.lane
        let f : FRec := { cause, va := c.addr, lanes := lanes.toNat }
        let m : Held := { instr := .reds c.word, pc := sp.pc, lanes, ops := [{ lane := c.lane, x := c.addr, b := c.value, c := c.index }] }
        let marked : State := (s.dropContrib c).updGroup c.group fun g => g.updLive c.slot fun e => { e with fault := true, wait := 0 }
        match g.fault with
        | none => marked.parkFault { k := c.group, slot := c.slot, g, sp } f (.replay m)
        | some w =>
          if w.slot = c.slot ∧ (match w.retry with | .replay _ => true | _ => false) = true then marked.faultBeside c.group f m
          else if g.saving then
            (marked.report g.ident.ctx (f.of g.ident)).2.updGroup c.group fun g => { g with fmask := g.fmask ||| lanes }
          else s

/-- REDS_CONTRIBUTION: a contribution reaches its home slice. Of two groups' contributions with one index the agenda names the first,
and the other is rejected (DESIGN CHOICE, log entry 41). -/
def execRedsContribution (id : Nat) (s : State) : Host.Outcome State Fault Refusal :=
  match s.contribs.find? fun c => c.id == id && !c.held with
  | none => .next s
  | some c =>
    match s.placeHeld.translate c.ctx c.addr .atomic with
    | (.ok loc stamp _ _ _, t) => if t.behind c loc then .next s else .next (t.contribute c loc stamp)
    | (.bad cause _, s) => .next (s.contribFault c cause)
    | (.stall, s) => .next s

/-- The accesses of a REDS: each good lane sends one contribution. -/
def redsAccess (x : MemW) : Access :=
  { kind := .atomic, width := 64, reads := false, lat := 0,
    act := fun i o _ _ s =>
      let s := s.atomicPub i.k x.pub x.scope.code
      let (cid, s) := s.freshId
      let w := seenOf s i.k
      let s := s.shareView i.g.ident.core w
      ([], { s with contribs := s.contribs ++ [{ id := cid, word := x, ctx := i.g.ident.ctx, addr := o.x, value := o.b, index := o.c,
                                                 group := i.k, uid := i.g.ident.uid, slot := i.slot, lane := o.lane, rels := w.rels }] }) }

/-- After the good lanes: the split parks until every contribution is answered (R149); its PC stays at the instruction. -/
def redsWait (x : MemW) (e : Eff) : Eff :=
  match e with
  | .ok s => .wait s (.completion (.reds x))
  | e => e

def redsOps (i : Iss) (x : MemW) : List LaneOp :=
  let w := if x.width = 3 then 64 else 32
  (lanesOf i.lanes).map fun l =>
    { lane := l, x := effAddr i x l, b := i.g.operand i.sp.wb x.b w l (supplyCvt (if x.width = 3 then 13 else 8)) (tailImm x.tail),
      c := match x.tail with | .reg c _ => i.g.operand i.sp.wb c 32 l id 0 | _ => 0 }

def execReds (x : MemW) (s : State) : Host.Outcome State Fault Refusal :=
  withIssue x.ctl [(x.a, 64), (x.b, if x.width = 3 then 64 else 32), (tailOperand x.tail, 32)] s fun i s =>
    whenLanes i s <| publishing x i s (redsWait x (accessRun (redsAccess x) true true (.reds x) i s (redsOps i x)))

/-- Contributions of the REDS in a live slot that are not answered. -/
def State.unanswered (s : State) (g : Group) (slot : Nat) : Bool :=
  s.contribs.any fun c => c.uid == g.ident.uid && c.slot == slot && !c.held

/-- The end of a REDS: the acquire of .ref, then the one trap of its rejections, which lets the split go on after it. -/
def redsEnd (x : MemW) (i : Iss) (s : State) : Eff :=
  let s := s.atomicRef i.k x.ref x.scope.code
  let rej := i.g.rejects.filter (·.slot == i.slot)
  let s := s.updGroup i.k fun g => { g with rejects := g.rejects.filter (·.slot != i.slot) }
  match rej with
  | [] => .ok s
  | r :: rs =>
    let low := rs.foldl (fun (a : Reject) b => if b.lane < a.lane then b else a) r
    .after s low.cause (maskOf (rej.map (·.lane))) low.addr low.index

/-! ### Publish, refresh, flush, prefetch -/

def fence (x : MemW) (pub ref : Bool) (s : State) : Host.Outcome State Fault Refusal :=
  withIssue x.ctl [] s fun i s =>
    whenLanes i s <| (if pub then afterTiles i s else fun e => e) <| (.park ((s.atomicPub i.k pub x.scope.code).atomicRef i.k ref x.scope.code) (.completion .done))

def execPub (x : MemW) (s : State) : Host.Outcome State Fault Refusal := fence x true false s
def execRef (x : MemW) (s : State) : Host.Outcome State Fault Refusal := fence x false true s
def execPhase (x : MemW) (s : State) : Host.Outcome State Fault Refusal := fence x true true s

/-- CFLUSH: every lane's line is translated as a read (R356); then the PHASE of the named lines (R151). It publishes the group's tile stores
to them, and so waits until they are performed (R264). -/
def flushAccess (x : MemW) : Access :=
  { kind := .read, width := 1, reads := false, lat := 0,
    act := fun i _ loc _ s =>
      ([], s.updGroup i.k fun g => { g with seen := s.flushLines g.ident.core g.ident.uid x.scope.code [loc / 128] g.seen }) }

/-- CFLUSH parks its split until it is complete. -/
def flushWait (e : Eff) : Eff :=
  match e with
  | .ok s => .park s (.completion .done)
  | e => e

def execCflush (x : MemW) (s : State) : Host.Outcome State Fault Refusal :=
  withIssue x.ctl [(x.a, 64)] s fun i s =>
    let ops := (lanesOf i.lanes).map fun l => ({ lane := l, x := effAddr i x l } : LaneOp)
    whenLanes i s <| afterTiles i s <|
      match accessTrap i s false 1 ops with
      | some (c, m, addr) => .trap s c m addr 0
      | none => flushWait (perform (flushAccess x) i s { instr := .cflush x, pc := i.sp.pc, lanes := i.lanes, ops })

/-- PREF changes no value and no relation (R152). -/
def execPref (x : MemW) (s : State) : Host.Outcome State Fault Refusal :=
  withIssue x.ctl [(x.a, 64)] s fun _ s => .ok s

end Sys2Proof.Machine
end

