-- ==== Sys2Proof/Machine/Copy.lean ====
section
/-! DEFINITION. COPY and COPY2 and the copy engine of a quad (R135, R136, R140, R153, R154, R420). -/
namespace Sys2Proof.Machine

/-- The quad of a core, counted over the package; the first core of a quad. -/
def quadOf (core : Nat) : Nat := core / 4

/-- Row k of a range of rows: its first address, exactly. -/
def rowStart (base : Nat) (stride : Int) (k : Nat) : Int := base + stride * k

/-- The first row of a set that does not lie wholly in [0, lim): its address. Rows are n > 0 bytes. -/
def outsideRows (lim base : Nat) (stride : Int) (n rows : Nat) : Option Nat :=
  let st := stride.natAbs
  let k : Nat :=
    if base + n > lim then 0
    else if stride = 0 then rows
    else if stride < 0 then base / st + 1
    else (lim - n - base) / st + 1
  if n = 0 ∨ k ≥ rows then none else some (wrap 64 (rowStart base stride k))

/-- A row [a, a + n) meets one of the rows base + stride × j. -/
def meetsRows (a : Int) (base : Nat) (stride : Int) (n rows : Nat) : Bool :=
  let st : Int := stride.natAbs
  let d : Int := if stride < 0 then base + stride * (rows - 1 : Nat) else base
  let hit (j : Int) : Bool := decide (0 ≤ j) && decide (j < rows) && decide ((a - (d + st * j)).natAbs < n)
  if rows = 0 then false
  else if st = 0 then hit 0
  else (List.range (2 * n / st.toNat + 3)).any fun e => hit ((a - d - n) / st + e)

/-- What a copy instruction asks for. -/
structure CopyReq where
  dst  : Nat := 0
  src  : Nat := 0
  n    : Nat := 0
  rows : Nat := 1
  sst  : Int := 0
  dst2 : Int := 0           -- destination row stride
  sync : Option Nat := none
  deriving DecidableEq, Repr, Inhabited

/-- The checks of R153 and R154 in order: cause and address. A failing sync offset is its own address (DEDUCED, log entry 15). -/
def copyCheck (x : MemW) (two : Bool) (csize : Nat) (r : CopyReq) : Option (Nat × Nat) :=
  let dC := x.inC
  let sC := x.sx
  let at_ (c : Nat) (o : Option Nat) : Option (Nat × Nat) := o.map fun a => (c, a)
  (at_ 0x41 (if dC then none else outsideRows (2 ^ 52) r.dst r.dst2 r.n r.rows))
    <|> (at_ 0x41 (if sC then none else outsideRows (2 ^ 52) r.src r.sst r.n r.rows))
    <|> (if (if two then r.n = 0 ∨ r.n > 2 ^ 20 ∨ r.rows = 0 ∨ r.rows > 65536 ∨ (r.rows > 1 ∧ r.dst2.natAbs < r.n) else r.n > 2 ^ 30)
          then some (0x43, 0) else none)
    <|> (if dC == sC && r.n > 0 && (List.range r.rows).any (fun k => meetsRows (rowStart r.src r.sst k) r.dst r.dst2 r.n r.rows)
          then some (0x43, 0) else none)
    <|> (at_ 0x42 (if dC then outsideRows csize r.dst r.dst2 r.n r.rows else none))
    <|> (at_ 0x42 (if sC then outsideRows csize r.src r.sst r.n r.rows else none))
    <|> (match r.sync with
      | some o => if o ≥ csize then some (0x42, o) else if o % 16 ≠ 0 then some (0x40, o) else none
      | none => none)

/-- Copies in a quad's queue of 16 that instructions placed there (R153). -/
def State.quadLoad (s : State) (quad : Nat) : Nat := (s.copyq.filter fun c => c.packet.isNone && quadOf c.core == quad).length

/-- Issues a copy: the checks, the wait for a free entry, the publication at .quad of its core's stores (R136), the entry. -/
def issueCopy (x : MemW) (two : Bool) (r : CopyReq) (i : Iss) (s : State) : Eff :=
  let id := i.g.ident
  match copyCheck x two (s.team id.team).csize r with
  | some (c, a) => .trap s c i.lanes a 0
  | none =>
    afterTiles i s <|
    if s.quadLoad (quadOf id.core) ≥ 16 then .hold s .issue
    else
      let s := s.updGroup i.k fun g => { g with seen := s.release g.ident.core g.ident.uid 1 g.seen }
      if r.n = 0 then .ok s
      else
        let (cid, s) := s.freshId
        let c : Copy := { id := cid, ctx := id.ctx, team := some id.team, core := id.core, dstC := x.inC, srcC := x.sx, dst := r.dst,
                          src := r.src, bytes := r.n, rows := r.rows, dstride := r.dst2, sstride := r.sst, scope := x.scope.code,
                          sync := r.sync, view := s.viewOf id.core (seenOf s i.k).view, stamp := s.order.next, two }
        .ok ({ s with copyq := s.copyq ++ [c] }.updTeam id.team fun t => { t with copies := t.copies + 1 })

/-- The quad of registers that A or C names, in the lowest executing lane. -/
def Iss.quad (i : Iss) (o : Operand) (j : Nat) : Nat :=
  i.g.operand i.sp.wb o 128 (lowest i.lanes) id 0 / 2 ^ (32 * j) % 2 ^ 32

def copyAddr (i : Iss) (o : Operand) (inC : Bool) (j : Nat) : Nat := i.quad o j + (if inC then 0 else 2 ^ 32 * i.quad o (j + 1))

def execCopy (x : MemW) (s : State) : Host.Outcome State Fault Refusal :=
  let sw := bit x.aop.toNat 0
  withIssue x.ctl ([(x.a, 128), (x.b, 32)] ++ if sw then [(tailOperand x.tail, 32)] else []) s (d := .s 0) fun i s =>
    whenLanes i s <|
      issueCopy x false
        { dst := copyAddr i x.a x.inC 0, src := copyAddr i x.a x.sx 2,
          n := i.g.operand i.sp.wb x.b 32 (lowest i.lanes) id (tailImm x.tail),
          sync := if sw then some (i.g.operand i.sp.wb (tailOperand x.tail) 32 (lowest i.lanes) id (tailImm x.tail)) else none } i s

def execCopy2 (x : MemW) (s : State) : Host.Outcome State Fault Refusal :=
  let sw := bit x.aop.toNat 0
  let c := tailOperand x.tail
  withIssue x.ctl [(x.a, 128), (x.b, 64), (c, 128)] s (d := .s 0) fun i s =>
    let b := i.g.operand i.sp.wb x.b 64 (lowest i.lanes) id (tailImm x.tail)
    whenLanes i s <|
      issueCopy x true
        { dst := copyAddr i x.a x.inC 0, src := copyAddr i x.a x.sx 2, n := b % 2 ^ 32, rows := b / 2 ^ 32,
          sst := sint 32 (i.quad c 0), dst2 := sint 32 (i.quad c 1), sync := if sw then some (i.quad c 2) else none } i s

/-! ### The engine -/

/-- The next bytes that a copy writes: one destination line of its row (R153). -/
def Copy.piece (c : Copy) : Nat × Nat × Nat :=
  let d := (rowStart c.dst c.dstride c.row).toNat + c.next
  let n := min (c.bytes - c.next) (128 - d % 128)
  (d, (rowStart c.src c.sstride c.row).toNat + c.next, n)

/-- The progress mark (R369). -/
def Copy.mark (c : Copy) : Nat := if c.two then c.row else c.first + (c.piece.1 / 128 - c.dst / 128)

/-- Places a range of either space. -/
def State.place (s : State) (ctx : Nat) (team : Option Nat) (inC : Bool) (a n : Nat) (k : AccKind) : RangeTr × State :=
  if inC then (.ok (s.cPieces (team.getD 0) a n), s) else s.mapRange ctx a n k

/-- Places the lines of a range of either space, up to the first that cannot be translated. -/
def State.placeLines (s : State) (ctx : Nat) (team : Option Nat) (inC : Bool) (a n : Nat) (k : AccKind) :
    List (Nat × Nat × Nat × Nat) × RangeTr × State :=
  if inC then (s.cPieces (team.getD 0) a n, .ok [], s) else mapLines s ctx a k (linePieces (n / 128 + 2) a 0 n) []

/-- Reads placed pieces as an engine: free among the stores that its view allows (R128). A piece that fails at its target is
open (R378). -/
def State.engineLoad (s : State) (x : Work) (w : Seen) (late : Nat → WriteRec → Bool) (ps : List (Nat × Nat × Nat × Nat)) : List Byte × State :=
  ps.foldl (fun (acc : List Byte × State) (loc, stamp, _, n) =>
    let (gone, s) := acc.2.goesOut { x with loc }
    if gone then
      let (bs, _, s) := s.load 999 w late stamp loc n
      (acc.1 ++ bs, s)
    else
      let (bs, s) := s.freeBytes n
      (acc.1 ++ bs, s)) ([], s)

/-- Writes placed pieces as an engine's operation `id`, and carries poison from the sources (R380). A piece that fails at its
target is lost. -/
def State.engineStore (s : State) (x : Work) (agent : Nat) (bs : List Byte) (src dst : List (Nat × Nat × Nat × Nat)) : State :=
  let s := dst.foldl (fun (s : State) (loc, stamp, off, n) =>
    let (gone, s) := s.goesOut { x with loc }
    if gone then s.store agent [] {} stamp loc ((bs.drop off).take n) else s) s
  let locs (ps : List (Nat × Nat × Nat × Nat)) : List Nat := ps.flatMap fun (loc, _, _, n) => (List.range n).map (loc + ·)
  if s.poison.isEmpty then s
  else ((locs src).zip (locs dst)).foldl (fun s (a, b) => s.carryPoison a b 1) s

/-- A copy is done: its entry and its part of team or packet. -/
def State.endCopy (s : State) (c : Copy) : State :=
  let s := { s with copyq := s.copyq.filter (·.id != c.id) }
  let s := match c.packet with
    | some (q, seq) => updPackets s c.ctx q seq fun p => { p with copies := p.copies - 1 }
    | none => s
  let s := match c.team with
    | some t => ((s.updTeam t fun t => { t with copies := t.copies - 1 }).dropTeam t)
    | none => s
  (if c.packet.isSome then s.idle c.ctx else s).wake fun g => quadOf g.ident.core == quadOf c.core

/-- A copy faults: a record with its mark; it waits for RESUME (R140). A COPY2 will start its row again. -/
def State.copyFault (s : State) (c : Copy) (cause sub va : Nat) : State :=
  let (tok, s) := s.report c.ctx { cause, src := 2, die := c.core / 128, core := c.core % 128 / 4 * 4, va, pmark := c.mark, sub }
  { s with copyq := s.copyq.map fun d =>
      if d.id == c.id then { d with wait := some tok, next := if c.two then 0 else d.next } else d }

/-- The work of a copy: its packet, or that of the team that issued it. -/
def State.copyWork (s : State) (c : Copy) : Work :=
  { ctx := c.ctx, core := c.core / 4 * 4, packet := c.packet.orElse fun _ => c.team.map fun t => ((s.team t).queue, (s.team t).seq) }

/-- COPY_ENGINE_LINE: the engine of a quad writes the next destination line of its oldest copy that does not wait: source
loads, the line, its publication and its count (R136). -/
def execCopyEngineLine (quad : Nat) (s : State) : Host.Outcome State Fault Refusal :=
  match s.copyq.find? fun c => quadOf c.core == quad && c.wait.isNone with
  | none => .next s
  | some c =>
    let (d, a, n) := c.piece
    match s.place c.ctx c.team c.srcC a n .read with
    | (.bad sub va, s) => .next (s.copyFault c 0x32 sub va)
    | (.stall, s) => .next s
    | (.ok src, s) =>
      match s.place c.ctx c.team c.dstC d n .write with
      | (.bad sub va, s) => .next (s.copyFault c 0x33 sub va)
      | (.stall, s) => .next s
      | (.ok dst, s) =>
        let (bs, s) := s.engineLoad (s.copyWork c) { view := c.view } (fun _ _ => false) src
        let s := s.engineStore (s.copyWork c) (opAgent c.id) bs src dst
        let s := if c.dstC then s.touchC (c.team.getD 0) d n else s
        let fresh := c.next + n - max c.high c.next
        let s := match c.sync, c.team with
          | some off, some t =>
            if fresh > 0 then (s.countSync (opAgent c.id) [] (c.view.upTo (opAgent c.id) s.order.next) t off fresh).2 else s
          | _, _ => s
        let next := c.next + n
        let high := max c.high next
        let c' := if next ≥ c.bytes then { c with row := c.row + 1, next := 0, high := 0 } else { c with next, high }
        if c'.row ≥ c.rows then .next (s.endCopy c)
        else .next { s with copyq := s.copyq.map fun e => if e.id == c.id then c' else e }

end Sys2Proof.Machine
end

