-- ==== Sys2Proof/Machine/SurfMem.lean ====
section
/-! DEFINITION. The surface store (R291 to R304): formats, storage order, tiles, pages, eviction, the pixels. -/
namespace Sys2Proof.Machine

/-! ### Formats and channels (R294, R295) -/

/-- Channel encodings. -/
inductive Enc where
  | unorm (n : Nat)
  | flt (f : Fmt)
  | n8
  deriving DecidableEq, Repr

/-- Bytes of a sample. -/
def sampleBytes (fmt : Nat) : Nat :=
  match fmt with
  | 1 => 8 | 4 => 16 | 5 => 8 | 8 => 2 | 9 => 1 | _ => 4

/-- The channels of a format: bit offset, width, encoding. -/
def channels (fmt : Nat) : List (Nat × Nat × Enc) :=
  let row (n w : Nat) (e : Enc) : List (Nat × Nat × Enc) := (List.range n).map fun c => (c * w, w, e)
  match fmt with
  | 0 => row 4 8 (.unorm 8)
  | 1 => row 4 16 (.flt f16)
  | 2 => row 2 16 (.flt f16)
  | 3 => row 1 32 (.flt f32)
  | 4 => row 4 32 (.flt f32)
  | 5 => row 4 16 (.flt bf16)
  | 6 => row 4 8 (.flt f8)
  | 7 => row 1 32 (.flt f32)
  | 8 => row 1 16 (.unorm 16)
  | 9 => row 1 8 .n8
  | _ => [(0, 11, .flt uf11), (11, 11, .flt uf11), (22, 10, .flt uf10)]

/-- The exact value of a channel's bits. -/
def Enc.decode (e : Enc) (k : Nat) : FV :=
  match e with
  | .unorm n => .fin false k (2 ^ n - 1)
  | .flt f => f.decode k
  | .n8 => .fin false k 1

/-- A value clamped to [0, hi]; NaN is zero. -/
def clampV (v : FV) (hi : Nat) : FV :=
  match v with
  | .nan _ => .zero
  | .inf n => if n then .zero else .fin false hi 1
  | .fin n a d => if n then .zero else if a > hi * d then .fin false hi 1 else .fin false a d

/-- RNE of a finite value that is not negative. -/
def rneNat (v : FV) : Nat :=
  match v with
  | .fin _ a d => roundNat .rne false a d
  | _ => 0

/-- The bits of a channel that encode a value. -/
def Enc.encode (e : Enc) (v : FV) : Nat :=
  match e with
  | .unorm n => match clampV v 1 with
    | .fin _ a d => roundNat .rne false (a * (2 ^ n - 1)) d
    | _ => 0
  | .flt f => if f.finiteOnly then (f.roundSat .rne v).1 else (f.round .rne v).1
  | .n8 => min 255 (rneNat (clampV v 256))

/-- The four-channel form of a sample. -/
def decodeSample (fmt x : Nat) : List FV :=
  let got := (channels fmt).map fun (lo, w, e) => e.decode (bits x lo w)
  got ++ ([.zero, .zero, .zero, .fin false 1 1].drop got.length)

/-- A sample with channel c replaced by bits. -/
def putChannel (fmt x c v : Nat) : Nat :=
  match (channels fmt)[c]? with
  | some (lo, w, _) => x - bits x lo w * 2 ^ lo + v % 2 ^ w * 2 ^ lo
  | none => x

/-- What a store of some channels writes: offsets in the sample and bytes. `old` is the sample before. -/
def channelStores (fmt old : Nat) (vs : List (Nat × Nat)) : List (Nat × List Byte) :=
  if fmt = 10 then
    let x := vs.foldl (fun x (c, v) => putChannel fmt x c v) old
    if vs.isEmpty then [] else [(0, toBytes 4 x)]
  else vs.filterMap fun (c, v) =>
    match (channels fmt)[c]? with
    | some (lo, w, _) => some (lo / 8, toBytes (w / 8) v)
    | none => none

/-! ### Storage order (R296, R297) -/

def Surf.side (f : Surf) : Nat := 2 ^ (f.chk + 3)
def Surf.count (f : Surf) : Nat := 2 ^ f.samples
def Surf.tileBytes (f : Surf) : Nat := 16 * sampleBytes f.fmt * f.count
def Surf.tilesPerBlock (f : Surf) : Nat := (f.side / 4) ^ 2

/-- Numbers below c with parity p. -/
def ofParity (c p : Nat) : Nat := (c + 1 - p) / 2

/-- The stack that owns a block. -/
def Surf.owner (f : Surf) (bx by_ : Nat) : Nat := (bx + by_ + f.flip.toNat) % 2

/-- Blocks of a stack in the rows above row r. -/
def Surf.blocksAbove (f : Surf) (st r : Nat) : Nat :=
  let bw := (f.width + f.side - 1) / f.side
  let p := (st + f.flip.toNat) % 2
  (r + 1) / 2 * ofParity bw p + r / 2 * ofParity bw (1 - p)

def Surf.blocks (f : Surf) (st : Nat) : Nat := f.blocksAbove st ((f.height + f.side - 1) / f.side)
def Surf.tileCount (f : Surf) (st : Nat) : Nat := f.blocks st * f.tilesPerBlock
def Surf.pages (f : Surf) (st : Nat) : Nat := (f.tileCount st * f.tileBytes + 4095) / 4096

/-- Where a pixel is: stack, tile, byte offset in the stack's storage. -/
def Surf.locate (f : Surf) (x y sample : Nat) : Nat × Nat × Nat :=
  let k := f.side
  let bx := x / k
  let by_ := y / k
  let st := f.owner bx by_
  let rank := f.blocksAbove st by_ + ofParity bx ((st + by_ + f.flip.toNat) % 2)
  let tile := rank * f.tilesPerBlock + y % k / 4 * (k / 4) + x % k / 4
  (st, tile, tile * f.tileBytes + ((y % 4 * 4 + x % 4) * f.count + sample) * sampleBytes f.fmt)

/-- The location of an offset of a stack's storage of a surface. -/
def Surf.loc (f : Surf) (st off : Nat) : Nat := sLoc f.uid (st * f.pages 0 * 4096 + off)

def Surf.pixelLoc (f : Surf) (x y sample : Nat) : Nat := let (st, _, off) := f.locate x y sample; f.loc st off

def Surf.inside (f : Surf) (x y : Nat) : Bool := x < f.width && y < f.height

def tileKey (st tile : Nat) : Nat := 2 ^ 32 * st + tile

def Surf.tile (f : Surf) (st tile : Nat) : Option Tile := Map.find f.tiles (tileKey st tile)

def Surf.pageOf (f : Surf) (tile : Nat) : Nat := tile * f.tileBytes / 4096

/-- Tiles of a page. -/
def Surf.tilesIn (f : Surf) (st page : Nat) : Nat := min (4096 / f.tileBytes) (f.tileCount st - page * (4096 / f.tileBytes))

/-- Tiles of a stack that hold no page. -/
def Surf.outTiles (f : Surf) (st : Nat) : List Nat :=
  f.tiles.filterMap fun (k, t) => if k / 2 ^ 32 = st ∧ (t.state = 2 ∨ t.state = 4) then some (f.pageOf (k % 2 ^ 32)) else none

/-- No tile of the page holds it. -/
def Surf.pageGone (f : Surf) (st page : Nat) : Bool := (f.outTiles st).count page ≥ f.tilesIn st page

/-- Pages of a stack that hold at least one resident tile (R298). -/
def Surf.charged (f : Surf) (st : Nat) : Nat :=
  if f.freed then 0
  else
    let out := f.outTiles st
    let pages := out.foldl insertNat []
    f.pages st - (pages.filter fun p => out.count p ≥ f.tilesIn st p).length

/-! ### The pages of the stacks and the quotas (R291, R298, R300) -/

def State.charge (s : State) (ctx : Nat) : Nat := (s.ctx ctx).surfs.foldl (fun n x => n + x.2.charged 0 + x.2.charged 1) 0

def State.stackUsed (s : State) (st : Nat) : Nat :=
  s.ctxs.foldl (fun n x => x.2.surfs.foldl (fun n y => n + y.2.charged st) n) 0

def State.stackPages (s : State) (st : Nat) : Nat := 1572864 - Map.get 0 s.near st * 16384

def State.surf? (s : State) (ctx ste : Nat) : Option Surf := Map.find (s.ctx ctx).surfs ste

/-- A LIVE surface: not one that SFREE has begun to free. -/
def State.liveSurf (s : State) (ctx ste : Nat) : Option Surf :=
  match s.surf? ctx ste with
  | some f => if f.freeing || ste ≥ (s.ctx ctx).rc.stcount then none else some f
  | none => none

def State.updSurf (s : State) (ctx ste : Nat) (g : Surf → Surf) : State := s.updCtx ctx fun c => { c with surfs := Map.upd c.surfs ste g }

def State.setTile (s : State) (ctx ste st tile : Nat) (t : Tile) : State :=
  s.updSurf ctx ste fun f => { f with tiles := Map.set f.tiles (tileKey st tile) t }

def State.eraseTile (s : State) (ctx ste st tile : Nat) : State :=
  s.updSurf ctx ste fun f => { f with tiles := Map.erase f.tiles (tileKey st tile) }

def CState.isResident : CState → Bool
  | .resident | .running | .draining | .saving => true
  | _ => false

/-- Candidates of R300 on a stack, in order: context, STE, surface. `own` limits them to one context; `skip` is left out. -/
def State.candidates (s : State) (st : Nat) (own : Option Nat) (skip : Nat × Nat) : List (Nat × Nat × Surf) :=
  let all := s.ctxs.flatMap fun (c, x) =>
    if x.state.isResident && (own.isNone || own == some c) then x.surfs.map fun (n, f) => (c, n, f) else []
  let ok := all.filter fun (c, n, f) => (c, n) != skip && !f.pin && f.charged st > 0
  ok.foldl (fun acc x =>
    acc.takeWhile (fun y => y.2.2.used ≤ x.2.2.used) ++ [x] ++ acc.dropWhile (fun y => y.2.2.used ≤ x.2.2.used)) []

/-- Pages that the candidates can give. -/
def supply (st : Nat) (cs : List (Nat × Nat × Surf)) : Nat := cs.foldl (fun n x => n + x.2.2.charged st) 0

/-- R298: the limits on pins, were a surface of a context pinned; a pinned surface that waits for its pages counts. -/
def State.pinFits (s : State) (ctx ste : Nat) (f : Surf) : Bool :=
  let pinned (c : Nat) (x : Ctx) : List Surf := x.surfs.filterMap fun (n, g) => if g.pin && !g.freed && !(c == ctx && n == ste) then some g else none
  let due := s.demands.filter fun d => d.page.isNone && d.surf.pin && !(d.ctx == ctx && d.ste == ste)
  let mine := (pinned ctx (s.ctx ctx)).foldl (fun n g => n + g.spages) ((due.filter (·.ctx == ctx)).foldl (fun n d => n + d.surf.spages) 0)
  let onStack (st : Nat) : Nat :=
    s.ctxs.foldl (fun n x => (pinned x.1 x.2).foldl (fun n g => n + g.pages st) n) (due.foldl (fun n d => n + d.surf.pages st) 0)
  decide (mine + f.spages + 1 ≤ (s.ctx ctx).rc.squota)
    && [0, 1].all fun st => decide (4 * (onStack st + f.pages st) ≤ 3 * s.stackPages st)

/-- The quota shares of a SALLOC (R300), and whether it can obtain its pages: refills that wait for their pages already get theirs
first. -/
def State.canAlloc (s : State) (ctx ste : Nat) (f : Surf) : Option (Nat × Nat) :=
  let quota := (s.ctx ctx).rc.squota
  let refills (p : Demand → Bool) : Nat := (s.demands.filter fun d => d.page.isSome && p d).length
  let mine := s.charge ctx + refills fun d => d.ctx == ctx
  let all := mine + f.spages - quota
  let x := all - (mine - quota)
  let have_ (st : Nat) : Nat := supply st (s.candidates st (some ctx) (ctx, ste))
  let e0 := min (f.pages 0) x
  let e1 := x - e0
  let e0' := e0 - (e0 - have_ 0) + (e1 - have_ 1)
  let e1' := e1 - (e1 - have_ 1) + (e0 - have_ 0)
  let room (st : Nat) : Bool :=
    decide (s.stackUsed st + (refills fun d => d.page.any (·.1 == st)) + f.pages st
      ≤ s.stackPages st + supply st (s.candidates st none (ctx, ste)))
  if f.spages ≤ quota && all ≤ have_ 0 + have_ 1 && e0' ≤ have_ 0 && e1' ≤ have_ 1 && room 0 && room 1 && (!f.pin || s.pinFits ctx ste f) then some (e0', e1')
  else none

/-! ### The eviction engines (R299 to R302) -/

/-- The class of a tile's bytes (R299). -/
def State.tileClass (s : State) (f : Surf) (st tile : Nat) : Nat :=
  let n := sampleBytes f.fmt
  let vs := (List.range (16 * f.count)).foldl (fun vs j => insertNat vs (ofBytes (s.bytes (f.loc st (tile * f.tileBytes + n * j)) n))) []
  if vs.length = 1 ∧ n ≤ 8 then 1 else if vs.length ≤ 4 then 2 else 3

/-- The first resident tile of a surface on a stack that `ok` admits, in storage order. -/
def firstResident (f : Surf) (st : Nat) (ok : Nat → Bool) : Option Nat :=
  (List.range (f.tileCount st)).find? fun t => (f.tile st t).isNone && ok t

/-- The demand's context stays within its quota once it has its pages. -/
def State.quotaMet (s : State) (d : Demand) : Bool :=
  s.charge d.ctx + (if d.page.isSome then 1 else d.surf.spages) ≤ (s.ctx d.ctx).rc.squota

/-- The pages that a demand needs on a stack are free. -/
def State.stackMet (s : State) (d : Demand) (st : Nat) : Bool :=
  let n := match d.page with | some (t, _) => if t = st then 1 else 0 | none => d.surf.pages st
  s.stackUsed st + n ≤ s.stackPages st

/-- A tile of the stack is EVICTING. -/
def State.evicting (s : State) (st : Nat) : Bool :=
  s.ctxs.any fun x => x.2.surfs.any fun y => y.2.tiles.any fun (k, t) => k / 2 ^ 32 == st && t.state == 1

/-- The tile that the engine of a stack evicts next for a demand (R300); a pinned surface keeps its tiles (R298). -/
def State.victimFor (s : State) (d : Demand) (st : Nat) : Option (Nat × Nat × Nat) :=
  let first (cs : List (Nat × Nat × Surf)) : Option (Nat × Nat × Nat) :=
    cs.findSome? fun (c, n, f) => (firstResident f st fun _ => true).map fun t => (c, n, t)
  let quota := s.candidates st (some d.ctx) (d.ctx, d.ste)
  let full := s.candidates st none (d.ctx, d.ste)
  match d.page with
  | none =>
    let share := if st = 0 then d.q0 else d.q1
    let alone : Bool := (first (s.candidates (1 - st) (some d.ctx) (d.ctx, d.ste))).isNone
    if !s.quotaMet d && (share > 0 || (d.q0 == 0 && d.q1 == 0) || alone) then first quota
    else if !s.stackMet d st then first full
    else none
  | some (home, page) =>
    let own (stack : Nat) : Option (Nat × Nat × Nat) :=
      match s.surf? d.ctx d.ste with
      | some f =>
        if f.pin then none else (firstResident f stack fun t => !(stack == home && f.pageOf t == page)).map fun t => (d.ctx, d.ste, t)
      | none => none
    if st = home then
      if !s.quotaMet d then first quota <|> own st
      else if !s.stackMet d st then first full <|> own st
      else none
    else if !s.quotaMet d then
      let home_ : Option (Nat × Nat × Nat) :=
        ((s.candidates home (some d.ctx) (d.ctx, d.ste)).findSome? fun (c, n, f) => (firstResident f home fun _ => true).map fun t => (c, n, t))
        <|> own home
      if home_.isSome || s.evicting home then none else first quota <|> own st
    else none

/-- A resident tile of a context in SAVING (R300). -/
def State.savingVictim (s : State) (st : Nat) : Option (Nat × Nat × Nat) :=
  s.ctxs.findSome? fun (c, x) =>
    if x.state == .saving then x.surfs.findSome? fun (n, f) => (firstResident f st fun _ => true).map fun t => (c, n, t) else none

/-- A demand has its pages. -/
def State.demandMet (s : State) (d : Demand) : Bool := s.quotaMet d && s.stackMet d 0 && s.stackMet d 1

/-- A tile is being evicted or refilled: pages may still come free. -/
def State.tilesMove (s : State) : Bool := s.ctxs.any fun x => x.2.surfs.any fun y => y.2.tiles.any fun t => t.2.state == 1 || t.2.state == 3

/-- A demand that has not its pages, and for which nothing is left to evict: a SPIN or a SALLOC of a pinned surface has come since. -/
def State.demandStuck (s : State) (d : Demand) : Bool :=
  !s.demandMet d && (s.victimFor d 0).isNone && (s.victimFor d 1).isNone && !s.tilesMove

/-- The demand that the engines serve: the oldest, but a refill that is stuck lets later ones pass (R298). -/
def State.nextDemand (s : State) : Option Demand := s.demands.find? fun d => !(d.page.isSome && s.demandStuck d)

/-- The tile that the engine of a stack chooses next. -/
def State.nextVictim (s : State) (st : Nat) : Option (Nat × Nat × Nat) :=
  (s.nextDemand.bind fun d => s.victimFor d st) <|> s.savingVictim st

/-- Each engine without a tile in hand chooses its next victim. -/
def State.chooseVictims (s : State) : State :=
  [0, 1].foldl (fun s st =>
    if s.evicting st then s
    else match s.nextVictim st with
      | some (c, n, t) => match s.surf? c n with
        | some f => s.setTile c n st t { state := 1, cls := s.tileClass f st t }
        | none => s
      | none => s) s

/-- A demand has its pages, and their banks are awake (R404): the surface is LIVE, or the tiles of the page are being refilled. -/
def State.fulfil (s : State) (d : Demand) : State :=
  let s : State := { s with gated := s.gated.filter fun u => u / 2 ^ 16 != 3 }
  match d.page with
  | none => (s.updCtx d.ctx fun c => { c with surfs := Map.set c.surfs d.ste d.surf }).wake fun _ => true
  | some (st, page) => s.updSurf d.ctx d.ste fun f =>
      { f with tiles := f.tiles.map fun (k, t) =>
          (k, if k / 2 ^ 32 = st ∧ f.pageOf (k % 2 ^ 32) = page ∧ t.state = 4 then { t with state := 3 } else t) }

/-- A SALLOC whose pages another instruction has pinned since it was found to fit fails (R303; DESIGN CHOICE, log entry 48); its
split goes on. -/
def State.failAlloc (s : State) (d : Demand) : State :=
  match s.group d.group with
  | some g =>
    if g.ident.uid = d.uid then
      ((s.landNow d.group d.fails).updGroup d.group fun g => g.updLive d.slot fun e => { e with park := some (.completion .done) }).wake fun _ => true
    else s
  | none => s

/-- Demands are met in their order, each with what becomes of it. -/
def meetDemands : Nat → State → State
  | 0, s => s
  | n + 1, s =>
    match s.nextDemand with
    | none => s
    | some d =>
      let t : State := { s with demands := s.demands.erase d }
      if s.demandMet d then meetDemands n (t.fulfil d)
      else if s.demandStuck d then meetDemands n (t.failAlloc d)
      else s

def State.runEviction (s : State) : State := (meetDemands (s.demands.length + 1) s).chooseVictims

/-- An access arrives at a tile (R301): whether it is resident now. An eviction in hand is cancelled and the engine chooses
its next victim among the other tiles; an evicted tile begins its refill. -/
def State.arriveTile (s : State) (ctx ste st tile : Nat) : Bool × State :=
  match s.surf? ctx ste with
  | none => (true, s)
  | some f =>
    match f.tile st tile with
    | none => (true, s)
    | some t =>
      if t.state = 1 then
        if (s.ctx ctx).state == .saving then (false, s)
        else (true, ((s.setTile ctx ste st tile { t with state := 5 }).chooseVictims).eraseTile ctx ste st tile)
      else if t.state = 2 then
        let page := f.pageOf tile
        if f.pageGone st page then
          let s := s.setTile ctx ste st tile { t with state := 4, wait := none }
          if s.demands.any fun d => d.ctx == ctx && d.ste == ste && d.page == some (st, page) then (false, s)
          else
            let d : Demand := { ctx, ste, page := some (st, page) }
            (false, ({ s with demands := s.demands ++ [d] } : State).runEviction)
        else (false, s.setTile ctx ste st tile { t with state := 3, wait := none })
      else (false, s)

/-- A page has become free: the quota shares of the SALLOC that is served count it. -/
def State.pageFreed (s : State) (ctx st : Nat) : State :=
  match s.nextDemand with
  | some d =>
    if d.ctx = ctx ∧ d.page = none then
      { s with demands := s.demands.map fun e =>
          if e == d then { d with q0 := if st = 0 then d.q0 - 1 else d.q0, q1 := if st = 1 then d.q1 - 1 else d.q1 } else e }
    else s
  | none => s

/-- One access arrives at several tiles of a context at once, given as STE index, stack and tile: when all are resident or still
being evicted, every eviction in hand is cancelled, and the engines choose among the other tiles (R301). -/
def State.arriveTiles (s : State) (ctx : Nat) (ts : List (Nat × Nat × Nat)) : Bool × State :=
  let tileOf (t : Nat × Nat × Nat) : Option Tile := (s.surf? ctx t.1).bind fun f => f.tile t.2.1 t.2.2
  if ts.all (fun t => match tileOf t with | none => true | some x => x.state == 1 && (s.ctx ctx).state != .saving) then
    if ts.any (fun t => (tileOf t).isSome) then
      let held := ts.foldl (fun (s : State) t => s.setTile ctx t.1 t.2.1 t.2.2 { state := 5 }) s
      (true, ts.foldl (fun (s : State) t => s.eraseTile ctx t.1 t.2.1 t.2.2) held.chooseVictims)
    else (true, s)
  else (false, ts.foldl (fun s t => (s.arriveTile ctx t.1 t.2.1 t.2.2).2) s)

/-- The address of a tile's slot in the backing area (R297). -/
def Surf.slotAddr (f : Surf) (st tile : Nat) : Nat := f.back + st * f.pages 0 * 4096 + tile * f.tileBytes

/-- Bytes of the backing slot that a class uses; the compressed size is left to the device (log entry 20). -/
def backingBytes (f : Surf) (cls : Nat) : Nat := if cls = 1 then 8 else f.tileBytes

/-- A fault of the eviction engine on a tile: the record, and the tile waits for RESUME. -/
def State.tileFault (s : State) (ctx ste st tile : Nat) (t : Tile) (cause sub va : Nat) : State :=
  let (tok, s) := s.report ctx { cause, src := 4, die := st, va, sub }
  s.setTile ctx ste st tile { t with wait := some tok }

/-- Poison of n bytes at a location moves to the placed bytes of a slot that holds m (R380). -/
def State.evictPoison (s : State) (loc n m : Nat) (ps : List (Nat × Nat × Nat × Nat)) : State :=
  let at_ (o : Nat) : Option Nat := ps.findSome? fun (l, _, off, len) => if off ≤ o && o < off + len then some (l + o - off) else none
  let s' := (List.range n).foldl (fun (t : State) o =>
    if (s.poisonedAt (loc + o) 1).isSome then match at_ (o % m) with | some l => t.setPoison l 1 0x9F | none => t else t) s
  { s' with poison := s'.poison.filter fun p => !overlap (8 * p.1) 8 loc n }

/-- TILE_EVICTED: the backing write of a tile that is EVICTING is performed, in bytes that are the device's own (R297); the tile is EVICTED, and its page is free when
it was the last. An engine without a tile in hand first chooses it. Poison goes with the bytes, and for a tile of class 1 to
its one granule (R380). -/
def execTileEvicted (ctx ste stack tile : Nat) (s : State) : Host.Outcome State Fault Refusal :=
  let s := if s.nextVictim stack = some (ctx, ste, tile) then s.chooseVictims else s
  match s.surf? ctx ste with
  | none => .next s
  | some f =>
    match f.tile stack tile with
    | none => .next s
    | some t =>
      if t.state ≠ 1 ∨ t.wait.isSome = true then .next s
      else
        let n := backingBytes f t.cls
        match s.mapRange ctx (f.slotAddr stack tile) n .write with
        | (.bad sub va, s) => .next (s.tileFault ctx ste stack tile t 0x36 sub va)
        | (.stall, s) => .next s
        | (.ok ps, s) =>
          let (bs, s) := s.freeBytes n
          let s := ps.foldl (fun (s : State) (loc, stamp, off, len) =>
            let (gone, s) := s.goesOut { ctx, core := 128 * stack, loc }
            if gone then s.store (opAgent (sLoc f.uid 0)) [] {} stamp loc ((bs.drop off).take len) else s) s
          let s := s.evictPoison (f.loc stack (tile * f.tileBytes)) f.tileBytes n ps
          let had := f.pageGone stack (f.pageOf tile)
          let s := s.setTile ctx ste stack tile { state := 2, cls := t.cls }
          let gone := match s.surf? ctx ste with | some f => f.pageGone stack (f.pageOf tile) | none => false
          .next ((if gone && !had then s.pageFreed ctx stack else s).runEviction)

/-- The entry that the device writes back: STATE, SBASE, SPAGES and PIN (R293). SBASE is kept in the device copy. -/
def entryBits (f : Surf) : Nat :=
  let rest := f.entry % 2 ^ 42 + f.entry / 2 ^ 44 % 2 ^ 20 * 2 ^ 44 + f.entry / 2 ^ 128 * 2 ^ 128
  rest + f.pin.toNat * 2 ^ 42 + (if f.freed then 0 else 2 ^ 43 + bits f.entry 64 32 * 2 ^ 64 + f.spages % 2 ^ 32 * 2 ^ 96)

/-- What a DRAW keeps of a surface that it binds: size, samples, checker (R329). -/
def Surf.shape (f : Surf) : Surf := { width := f.width, height := f.height, samples := f.samples, chk := f.chk, flip := f.flip }

/-! ### Pixels -/

/-- Every access to a surface stamps its use when it issues (R300). -/
def State.stampUse (s : State) (ctx ste : Nat) : State := s.updSurf ctx ste fun f => { f with used := s.clock }

/-- The newest value of a sample. -/
def State.sampleNow (s : State) (loc n : Nat) : Nat := ofBytes (s.bytes loc n)

end Sys2Proof.Machine
end

