-- ==== Sys2Proof/Machine/Place.lean ====
section
/-! DEFINITION. Kernel descriptors (R187, R189), the resources of teams (R190, R191), placement (R192 to R196), the ranks
of packets (R183). -/
namespace Sys2Proof.Machine

/-! ### Descriptors -/

def KDesc.ofBits (x : Nat) : KDesc :=
  { entry := bits x 0 64, rows := bits x 64 8, groups := bits x 72 6, cores := bits x 78 2, scalars := bits x 80 8,
    oslots := bits x 88 8, aslots := bits x 96 8, kind := bits x 104 2, depthW := bit x 106, cspace := bits x 128 32,
    backkb := bits x 160 32 }

/-- Cores per team. -/
def KDesc.width (d : KDesc) : Nat := 2 ^ d.cores

/-- Groups of the team on core index j (R193). -/
def KDesc.groupsOn (d : KDesc) (j : Nat) : Nat := (d.groups + d.width - 1 - j) / d.width

/-- Register file of a group, in KiB; the residency limit of a core (R191). -/
def KDesc.footprint (d : KDesc) : Nat := 1 + d.rows
def KDesc.limit (d : KDesc) : Nat := min 64 (768 / d.footprint)

def KDesc.stride (d : KDesc) : Nat := (d.backkb + 2) * 1024

/-- The descriptor passes R189 for a packet that needs `kind`. -/
def KDesc.ok (x kind : Nat) : Bool :=
  let d := KDesc.ofBits x
  d.entry % 64 == 0 && d.entry < 2 ^ 52 && 8 ≤ d.rows && d.rows ≤ 64 && 1 ≤ d.groups && d.groups ≤ 32 && d.cores < 3
    && d.scalars ≤ 30 && d.oslots ≤ 128 && d.aslots ≤ 32 && d.kind == kind && (!d.depthW || d.kind == 2)
    && bits x 107 21 == 0 && d.cspace ≤ 2 ^ 20 && d.backkb ≤ 65536 && x / 2 ^ 192 == 0 && d.groupsOn 0 ≤ d.limit

/-- C-space of a team in bytes (R119). -/
def roundC (n : Nat) : Nat := (n + 511) / 512 * 512

/-! ### What cores hold -/

def State.slotsOn (s : State) (core : Nat) : List Nat :=
  s.groups.filterMap fun x => if x.2.ident.core = core then some x.2.ident.slot else none

/-- Register file in use on a core, in KiB. -/
def State.fileOn (s : State) (core : Nat) : Nat :=
  s.groups.foldl (fun n x => if x.2.ident.core = core then n + 1 + x.2.ident.rows else n) 0

/-- Teams whose slots are not free: placed and not saved, and not ended, or with matrix instructions that still complete, which no
other team may meet (R161, R259; log entry 23). -/
def State.holding (s : State) : List Team :=
  (s.teams.map (·.2)).filter fun t => !t.saved && (!t.ended || s.engines.any fun e => e.2.queue.any (·.team == t.uid))

/-- Slots held on a core: ranges of first slot and number. -/
def State.heldSlots (s : State) (acc : Bool) (core : Nat) : List (Nat × Nat) :=
  s.holding.filterMap fun t =>
    (Map.find (if acc then t.ab else t.ob) core).map fun b => (b, if acc then t.kd.aslots else t.kd.oslots)

def rangeFree (held : List (Nat × Nat)) (lim b n : Nat) : Bool := b + n ≤ lim && held.all fun r => !overlap r.1 r.2 b n

/-- C-space allocated in the scratchpads of a quad: first line and lines of each, the same on its four cores (R119). -/
def State.cHeld (s : State) (quad : Nat) : List (Nat × Nat) :=
  s.teams.filterMap fun x => if !x.2.saved && x.2.quad == quad then some (x.2.cline, x.2.csize / 512) else none

/-- The lowest line from which n lines of a quad's scratchpads of 256 KiB are free (R190). -/
def State.cFree (s : State) (quad n : Nat) : Option Nat :=
  let held := s.cHeld quad
  if n = 0 then some 0
  else match (0 :: held.map fun r => r.1 + r.2).filter fun b => rangeFree held 2048 b n with
    | [] => none
    | b :: bs => some (bs.foldl min b)

/-- A set of cores that R192 allows, from its first core. -/
def coreSet (d : KDesc) (core : Nat) : List Nat := (List.range d.width).map (core + ·)

def setOk (d : KDesc) (core : Nat) : Bool := core + d.width ≤ Config.cores && core % d.width == 0

/-- R190 and R191 hold on every core of the set, with the first slots given by core index. -/
def State.fits (s : State) (d : KDesc) (core : Nat) (ob ab : Nat → Nat) : Bool :=
  setOk d core && (s.cFree (quadOf core) (roundC d.cspace / 512)).isSome &&
    (coreSet d core).zipIdx.all fun (c, j) =>
      decide ((s.slotsOn c).length + d.groupsOn j ≤ 64) && decide (s.fileOn c + d.groupsOn j * d.footprint ≤ 768)
        && (d.oslots == 0 || rangeFree (s.heldSlots false c) 128 (ob j) d.oslots)
        && (d.aslots == 0 || rangeFree (s.heldSlots true c) 32 (ab j) d.aslots)

/-- The lowest first slots that are free on a core. -/
def State.lowSlots (s : State) (acc : Bool) (core n : Nat) : Nat :=
  let lim := if acc then 32 else 128
  ((List.range lim).find? fun b => rangeFree (s.heldSlots acc core) lim b n).getD lim

/-- A placement on a set of cores with the lowest slots, if the team fits there. -/
def State.fitAt (s : State) (d : KDesc) (core : Nat) : Bool :=
  s.fits d core (fun j => s.lowSlots false (core + j) d.oslots) (fun j => s.lowSlots true (core + j) d.aslots)

/-- The first set of cores on which a team fits; `die` limits it to a stack. -/
def State.firstFit (s : State) (d : KDesc) (die : Option Nat) : Option Nat :=
  (List.range Config.cores).find? fun c => (die.isNone || die == some (c / 128)) && s.fitAt d c

/-! ### Placing a team -/

/-- What every group of a team is given. -/
structure TeamReq where
  ctx    : Nat := 0
  queue  : Nat := 0
  seq    : Nat := 0
  index  : Nat := 0
  kd     : KDesc := {}
  x      : Nat := 0
  y      : Nat := 0
  z      : Nat := 0
  launch : Nat := 0
  args   : Nat := 0
  back   : Nat := 0              -- BSPBASE
  draw   : Option Nat := none
  born   : Nat := 0              -- first write number of the launch (R49)
  mask   : Lanes := 0xFFFFFFFF   -- lanes that do not begin exited
  deriving DecidableEq, Repr, Inhabited

/-- A free slot of a core: on the port with the most free slots, the lower port on a tie (R193). -/
def freeSlot (used : List Nat) : Nat :=
  let load (p : Nat) : Nat := (used.filter fun n => n / 16 == p).length
  let p := [1, 2, 3].foldl (fun b p => if load p < load b then p else b) 0
  ((List.range 16).map (16 * p + ·)).find? (fun n => !used.contains n) |>.getD 0

/-- The backing of group g (R194, R330). -/
def TeamReq.bsp (r : TeamReq) (g core slot : Nat) : Nat :=
  let n := if r.draw.isSome then 64 * core + slot else r.index * r.kd.groups + g
  r.back + n * r.kd.stride

/-- A group at its start (R195), before its argument words are read. -/
def TeamReq.group (r : TeamReq) (uid team g core slot : Nat) (v : View) : Group :=
  let bsp := r.bsp g core slot
  let g0 : Group :=
    { ident := { uid, core, slot, ctx := r.ctx, team, gid := g, x := r.x, y := r.y, z := r.z, launch := r.launch, kind := r.kd.kind,
                 depthW := r.kd.depthW, rows := r.kd.rows, bsp, bsl := bsp + r.kd.backkb * 1024, args := r.args,
                 scalars := r.kd.scalars, born := r.born, draw := r.draw },
      phase := .placing, live := [(0, { pc := r.kd.entry, mask := r.mask })], seen := { view := v, uid } }
  (g0.writeReg (scalarKey 0) (BitVec.ofNat 32 r.args)).writeReg (scalarKey 1) (BitVec.ofNat 32 (r.args / 2 ^ 32))

/-- The bytes of the argument words, and what the group has then seen: a request for those in another package leaves first. -/
def State.loadArgs (s : State) (k : Nat) (g : Group) (ps : List (Nat × Nat × Nat × Nat)) : List Byte × Seen × State :=
  ps.foldl (fun (acc : List Byte × Seen × State) (loc, stamp, _, n) =>
    let s := acc.2.2.request { acc.2.2.workOf g.ident loc with posted := false, group := some (k, g.ident.uid, none) }
    let (bs, w, s) := s.load g.ident.core acc.2.1 (fun _ _ => false) stamp loc n
    (acc.1 ++ bs, w, s)) ([], g.seen, s)

/-- Reads the argument words of a group that is being placed, as acquires at .pkg (R195): it becomes READY, or waits on a fault (0x39).
No lane and no instruction has faulted, and the spec states neither LANES nor SRC of that record: both are 0 (DESIGN CHOICE, log entry
47). -/
def State.readArgs (s : State) (k : Nat) : State :=
  match s.group k with
  | none => s
  | some g =>
    if g.phase != .placing || g.fault.isSome then s
    else if g.ident.scalars = 0 then s.setGroup k { g with phase := .active }
    else match s.mapRange g.ident.ctx g.ident.args (4 * g.ident.scalars) .read with
      | (.stall, s) => s
      | (.bad c va, s) =>
        let (tok, s) := s.report g.ident.ctx { cause := 0x39, va, die := g.ident.core / 128, core := g.ident.core % 128,
                                               slot := g.ident.slot, aux := g.ident.gid, sub := c }
        s.updGroup k fun g => { g with fault := some { token := tok, slot := 0, retry := .args } }
      | (.ok ps, s) =>
        match ps.findSome? fun (loc, _, _, n) => (s.readKills none g.ident.ctx loc n).map fun c => (c, loc) with
        | some (c, loc) => s.kill k c loc
        | none =>
          let (bs, w, s) := s.loadArgs k g ps
          let g := (List.range g.ident.scalars).foldl (fun (g : Group) j =>
            g.writeReg (scalarKey (j + 2)) (BitVec.ofNat 32 (ofBytes ((bs.drop (4 * j)).take 4)))) g
          s.setGroup k { g with phase := .active, seen := acquire g.ident.core 3 w }

/-- A unit that gates: 2^16 × kind + number. Kinds: 0 a cache way, 1 the scratchpad of a core, 2 the operand memory of a core,
3 a surface bank, 4 a core. Whether it holds live data. -/
def State.live (s : State) (unit : Nat) : Bool :=
  let n := unit % 2 ^ 16
  let uses (f : Team → Bool) : Bool := s.teams.any fun t => t.2.cores.contains n && !t.2.saved && f t.2
  match unit / 2 ^ 16 with
  | 0 => false
  | 1 => s.teams.any fun t => !t.2.saved && t.2.csize > 0 && t.2.cores.any fun c => c / 4 == n / 4
  | 2 => uses fun t => t.kd.oslots > 0 || t.kd.aslots > 0
  | 3 => [0, 1].any fun st => s.stackUsed st > 0 || Map.get 0 s.near st > 0
  | 4 => s.groups.any fun g => g.2.ident.core == n
  | _ => true

/-- An allocation wakes the storage that it takes (R404). -/
def State.wakeUnits (s : State) : State := { s with gated := s.gated.filter fun u => !s.live u }

/-- Places all groups of a team together (R192, R193), and wakes the storage that it takes (R404). The keys of the groups come with it. -/
def State.placeTeam (s : State) (r : TeamReq) (core : Nat) (ob ab : Nat → Nat) : List Nat × Nat × State :=
  let (uid, s) := s.freshId
  let cs := coreSet r.kd core
  let byCore (n : Nat) (f : Nat → Nat) : Map Nat := if n = 0 then [] else cs.zipIdx.map fun (c, j) => (c, f j)
  let t : Team := { uid, ctx := r.ctx, queue := r.queue, seq := r.seq, index := r.index, kd := r.kd, cores := cs,
                    csize := roundC r.kd.cspace, cline := (s.cFree (quadOf core) (roundC r.kd.cspace / 512)).getD 0, ob := byCore r.kd.oslots ob, ab := byCore r.kd.aslots ab,
                    left := r.kd.groups, draw := r.draw }
  let s : State := { s with teams := Map.set s.teams uid t }
  let s := (s.clearC t).clearSlots t
  let v := if r.kd.kind = 2 then s.viewFragment else s.viewAll
  let (ks, s) := (List.range r.kd.groups).foldl (fun (acc : List Nat × State) g =>
    let c := core + g % r.kd.width
    let slot := freeSlot (acc.2.slotsOn c)
    let (gid, s) := acc.2.freshId
    (acc.1 ++ [groupKey c slot], s.setGroup (groupKey c slot) (r.group gid uid g c slot v))) ([], s)
  let s := ks.foldl State.readArgs s.wakeUnits
  (ks, uid, s.updCtx r.ctx fun c => { c with state := if c.state == .resident then .running else c.state })

/-! ### Packets that compete for cores (R183) -/

/-- DEADLINE − NOW. -/
def State.rankKey (s : State) (ctx deadline : Nat) : Int := (deadline : Int) - (s.port (s.ctx ctx).port).now

def Packet.kind (p : Packet) : Nat := bits p.raw 0 8
def Packet.drop (p : Packet) : Bool := bit p.raw 8
def Packet.cpl (p : Packet) : Bool := bit p.raw 9
def Packet.deadline (p : Packet) : Nat := bits p.raw 64 64
def Packet.body (p : Packet) (lo w : Nat) : Nat := bits p.raw lo w

def State.late (s : State) (ctx deadline : Nat) : Bool := s.rankKey ctx deadline < 0

/-- Walkers run while the context is RESIDENT or RUNNING (R185). -/
def Ctx.dispatching (c : Ctx) : Bool := c.state == .resident || c.state == .running

/-- The context is resident and not being saved. -/
def Ctx.active (c : Ctx) : Bool := c.dispatching || c.state == .draining

/-- Saved teams are placed again before any new dispatch (R158). -/
def State.dispatching (s : State) (ctx : Nat) : Bool :=
  (s.ctx ctx).dispatching && !(s.teams.any fun t => t.2.ctx == ctx && t.2.saved)

/-- The checker block of a draw's surfaces: side, and whether a block is flipped (R296). -/
def Draw.bound (d : Draw) : List Nat :=
  (if bit d.record 142 then [bits d.record 144 12] else []) ++ (if bit d.record 143 then [bits d.record 156 12] else [])
    ++ (List.range (bits d.record 139 3)).map fun i => bits d.record (256 + 12 * i) 12

/-- The stack that owns a quad's checker block. -/
def Draw.quadOwner (d : Draw) (q : Quad) : Nat :=
  match d.shape with
  | some f => f.owner (q.x / f.side) (q.y / f.side)
  | none => (q.x / 8 + q.y / 8) % 2

/-- A packet with an unplaced team: context, queue, deadline, descriptor, the stack it needs, starvation. -/
structure Bid where
  ctx   : Nat := 0
  queue : Nat := 0
  deadline : Nat := 0
  kd    : KDesc := {}
  die   : Option Nat := none
  starved : Bool := false
  deriving DecidableEq, Repr, Inhabited

def State.bids (s : State) : List Bid :=
  (s.ctxs.flatMap fun (c, x) =>
    if !s.dispatching c then [] else
    x.queues.filterMap fun (q, qu) =>
      match qu.cur with
      | none => none
      | some p =>
        let open_ := (qu.state == .ready || qu.state == .late || qu.state == .active) && qu.wait.isNone && !qu.due
        let dropped := p.drop && p.placed == 0 && s.late c p.deadline
        match p.kd with
        | [] => none
        | kd :: _ =>
          if open_ && !dropped && p.placed < p.teams then
            some { ctx := c, queue := q, deadline := p.deadline, kd, starved := p.starved }
          else none) ++
  s.draws.filterMap fun (_, d) =>
    match d.quads.find? (·.state == 1) with
    | some q =>
      if s.dispatching d.ctx then
        some { ctx := d.ctx, queue := d.queue, deadline := d.deadline, kd := d.fk, die := some (d.quadOwner q), starved := d.starved }
      else none
    | none => none

/-- One packet ranks before another: key, context, queue. -/
def State.before (s : State) (a b : Bid) : Bool :=
  let ka := s.rankKey a.ctx a.deadline
  let kb := s.rankKey b.ctx b.deadline
  ka < kb || (ka == kb && (a.ctx < b.ctx || (a.ctx == b.ctx && a.queue < b.queue)))

/-- No packet of higher rank has a team that fits, or has starved (R183). -/
def State.mayPlace (s : State) (b : Bid) : Bool :=
  s.bids.all fun a => !s.before a b || !(a.starved || (s.firstFit a.kd a.die).isSome)

end Sys2Proof.Machine
end

