-- ==== Sys2Proof/Machine/Front.lean ====
section
/-! DEFINITION. The front end (R173 to R185, R420): walkers, packets, completion records, doorbells. -/
namespace Sys2Proof.Machine

/-! ### Packets (R176, R177) -/

def Queue.n (q : Queue) : Nat := 2 ^ (q.size + 4)

/-- Bits [511:lo] are zero. -/
def zeroFrom (raw lo : Nat) : Bool := raw / 2 ^ lo == 0

/-- Source and destination of a COPY overlap. -/
def copyOverlaps (raw : Nat) : Bool :=
  let n := bits raw 256 64
  n > 0 && overlap (bits raw 128 64) n (bits raw 192 64) n

/-- The body of a packet is well formed in a ring of n slots. -/
def bodyOk (raw n : Nat) : Bool :=
  let f (lo w : Nat) : Nat := bits raw lo w
  match f 0 8 with
  | 1 => f 128 7 == 0 && f 256 12 == 0 && zeroFrom raw 416 && [320, 352, 384].all fun lo => 1 ≤ f lo 32 && f lo 32 ≤ 65535
  | 2 => f 128 7 == 0 && f 192 7 == 0 && f 256 7 == 0 && zeroFrom raw 448
  | 3 => f 256 64 ≤ 2 ^ 40 && zeroFrom raw 320 && !copyOverlaps raw
  | 4 => f 128 2 == 0 && zeroFrom raw 258
  | 5 => f 256 2 != 3 && f 259 13 == 0 && f 128 (if f 256 2 == 1 then 3 else 2) == 0 && zeroFrom raw 288
  | 6 =>
    let k := f 192 4
    f 128 2 == 0 && 1 ≤ k && k ≤ 8 && f 196 60 == 0 && (List.range k).all fun i => f (256 + 32 * i) 32 < n
  | 7 => f 128 2 == 0 && f 192 32 < n && zeroFrom raw 225
  | 8 => f 128 32 < n && zeroFrom raw 160
  | 9 => zeroFrom raw 128
  | _ => false

def packetOk (raw n : Nat) : Bool := bits raw 11 53 == 0 && bodyOk raw n

/-- The packet waits for earlier work (R178). -/
def Packet.waits (p : Packet) : Bool :=
  match p.kind with
  | 1 | 2 | 3 => bit p.raw 10
  | 5 | 6 | 7 | 9 => true
  | _ => false

/-- How the queue and the log name a packet. -/
def Packet.name (p : Packet) : Option (Nat × Nat) := some (p.queue, p.seq)

/-- The packet, with what was lost of its work since it was taken to hand (R378). -/
def Packet.noteLoss (p : Packet) (qu : Queue) : Packet := { p with failed := p.failed || qu.cur.any (·.failed) }

/-! ### Accesses of the front end -/

/-- Bytes that the front end reads, the fault that it met, or a stall. -/
inductive FRead where
  | ok (x : Nat)
  | bad (cause va : Nat)
  | stall
  deriving DecidableEq, Repr

/-- A read of the front end for a packet, if it is one's (R378: what a piece that fails at its target gives is open). -/
def State.frontRead (s : State) (ctx va n : Nat) (packet : Option (Nat × Nat) := none) : FRead × State :=
  match s.mapRange ctx va n .read with
  | (.ok ps, s) =>
    let (bs, s) := ps.foldl (fun (acc : List Byte × State) (loc, stamp, _, m) =>
      let (gone, s) := acc.2.goesOut { ctx, packet, loc }
      if gone then (acc.1 ++ s.peek stamp loc m, s)
      else
        let (bs, s) := s.freeBytes m
        (acc.1 ++ bs, s)) ([], s)
    (.ok (ofBytes bs), s)
  | (.bad c a, s) => (.bad c a, s)
  | (.stall, s) => (.stall, s)

/-- A store of the front end, published at .pkg; one that fails at its target is lost. -/
def State.frontStore (s : State) (ctx va : Nat) (bs : List Byte) (k : AccKind) (packet : Option (Nat × Nat) := none) : FRead × State :=
  match s.mapRange ctx va bs.length k with
  | (.ok ps, s) => (.ok 0, ps.foldl (fun (s : State) (loc, stamp, off, n) =>
      let (gone, s) := s.goesOut { ctx, packet, loc }
      if gone then s.storePub stamp loc ((bs.drop off).take n) else s) s)
  | (.bad c a, s) => (.bad c a, s)
  | (.stall, s) => (.stall, s)

/-- The walker's fault (R364: 0x3A, SRC 5). -/
def State.frontFault (s : State) (ctx q cause va : Nat) : Nat × State :=
  s.report ctx { cause := 0x3A, src := 5, va, sub := cause, aux := q }

def State.updQueue (s : State) (ctx q : Nat) (f : Queue → Queue) : State := s.updCtx ctx fun c => { c with queues := Map.upd c.queues q f }

def State.queue? (s : State) (ctx q : Nat) : Option Queue := Map.find (s.ctx ctx).queues q

/-- The walker waits on a fault. -/
def State.walkerWaits (s : State) (ctx q cause va : Nat) : State :=
  let (tok, s) := s.frontFault ctx q cause va
  s.updQueue ctx q fun qu => { qu with wait := some tok }

def QState.code : QState → Nat
  | .idle => 0 | .ready => 1 | .active => 2 | .blocked => 3 | .late => 4 | .stopped => 5 | .faulted => 6

def qstateOf (n : Nat) : QState :=
  match n with
  | 1 => .ready | 2 => .active | 3 => .blocked | 4 => .late | 5 => .stopped | 6 => .faulted | _ => .idle

/-- HEAD, SEQ, PLACED and STATE as the queue descriptor holds them (R173). -/
def Queue.fields (q : Queue) : List Byte :=
  toBytes 4 q.head ++ toBytes 4 q.seq ++ toBytes 4 q.placed ++ toBytes 4 q.state.code

/-- Writes HEAD, SEQ, PLACED and STATE (R173). -/
def State.writeQueue (s : State) (ctx q : Nat) : FRead × State :=
  match s.queue? ctx q with
  | none => (.ok 0, s)
  | some qu => s.frontStore ctx ((s.ctx ctx).rc.qtbase + 64 * q + 16) qu.fields .write

/-- The walker pays what it owes to the descriptor; a fault waits for RESUME, a stall for its page. -/
def State.payQueue (s : State) (ctx q : Nat) : State :=
  match s.queue? ctx q with
  | none => s
  | some qu =>
    if !qu.owes || qu.wait.isSome then s
    else match s.writeQueue ctx q with
      | (.ok _, s) => s.updQueue ctx q fun qu => { qu with owes := false }
      | (.bad c va, s) => s.walkerWaits ctx q c va
      | (.stall, s) => s

/-- HEAD, SEQ, PLACED and STATE are to be written (R173): at once, unless their page is away. -/
def State.writeBack (s : State) (ctx q : Nat) : State := (s.updQueue ctx q fun qu => { qu with owes := true }).payQueue ctx q

/-! ### Settling a queue (R185) -/

/-- A packet that does not pass its checks: the queue is FAULTED; the packet is not consumed and will be recorded with
STATUS 3 (R185). -/
def State.faultQueue (s : State) (ctx q : Nat) (p : Packet) : State :=
  let s := s.updQueue ctx q fun qu =>
    { qu with state := .faulted, cur := none, due := false,
              open_ := qu.open_ ++ [{ p with status := 3, failed := true, teams := 0 }] }
  s.writeBack ctx q

/-- The comparison of a WAITSW. -/
def Packet.holds (p : Packet) (w : Nat) : Bool :=
  let a := w &&& p.body 224 32
  let v := p.body 192 32
  match p.body 256 2 with
  | 0 => a == v | 1 => a != v | 2 => a ≥ v | _ => a < v

/-- A viewport value is NaN or infinite. -/
def notFinite (x : Nat) : Bool := (f32.decode x).isNan || (f32.decode x).isInf

/-- The raster state record passes R328. -/
def State.rasterOk (s : State) (ctx rc : Nat) (fk : KDesc) : Bool :=
  let f (lo w : Nat) : Nat := bits rc lo w
  let d : Draw := { ctx, record := rc }
  let ds := f 192 64
  let surfs := d.bound.map (s.liveSurf ctx)
  let same (a b : Surf) : Bool := a.width == b.width && a.height == b.height && a.samples == b.samples && a.chk == b.chk && a.flip == b.flip
  let fmtOf (n : Nat) : Nat := match s.liveSurf ctx n with | some g => g.fmt | none => 16
  f 0 12 == 0 && f 52 12 == 0 && f 64 12 == 0 && f 116 12 == 0 && f 128 3 ≤ 3 && f 131 2 ≤ 2 && f 135 4 ≤ 8 && f 139 3 ≤ 4
    && f 168 24 == 0 && ds / 2 ^ 42 == 0 && f 304 16 == 0 && rc / 2 ^ 704 == 0
    && (List.range 4).all (fun i =>
      let w := f (320 + 32 * i) 32
      w / 2 ^ 27 == 0 && bits w 0 4 ≤ 10 && bits w 4 4 ≤ 10 && bits w 8 3 ≤ 4 && bits w 11 4 ≤ 10 && bits w 15 4 ≤ 10 && bits w 19 3 ≤ 4)
    && (List.range 6).all (fun i => !notFinite (f (448 + 32 * i) 32))
    && (bit rc 142 || !(bit ds 4 || bit ds 3)) && (bit rc 143 || !bit ds 17)
    && surfs.all (·.isSome)
    && (!bit rc 142 || fmtOf (f 144 12) == 7 || fmtOf (f 144 12) == 8)
    && (!bit rc 143 || fmtOf (f 156 12) == 9)
    && (List.range (f 139 3)).all (fun i => let g := fmtOf (f (256 + 12 * i) 12); g != 7 && g != 8 && g != 9)
    && surfs.all (fun a => surfs.all fun b => match a, b with | some a, some b => same a b | _, _ => false)
    && (bit rc 134 || !fk.depthW)

/-- What becomes of an eligible LAUNCH or DRAW: its descriptors and record read and checked (R189, R327). -/
inductive Loaded where
  | ok (p : Packet)
  | fails
  | bad (cause va : Nat)
  | stall
  deriving DecidableEq, Repr

def State.readParts (s : State) (ctx : Nat) (packet : Option (Nat × Nat)) : List Nat → List Nat → Except FRead (List Nat) × State
  | [], acc => (.ok acc, s)
  | a :: as, acc =>
    match s.frontRead ctx a 128 packet with
    | (.ok x, s) => s.readParts ctx packet as (acc ++ [x])
    | (r, s) => (.error r, s)

def State.loadPacket (s : State) (ctx : Nat) (p : Packet) : Loaded × State :=
  let addrs := match p.kind with
    | 1 => [p.body 128 64]
    | _ => [p.body 128 64, p.body 192 64, p.body 256 64]
  match s.readParts ctx p.name addrs [] with
  | (.error (.bad c va), s) => (.bad c va, s)
  | (.error _, s) => (.stall, s)
  | (.ok xs, s) =>
    let kd := KDesc.ofBits (xs.getD 0 0)
    if p.kind = 1 then
      let n := p.body 320 32 * p.body 352 32 * p.body 384 32
      if KDesc.ok (xs.getD 0 0) 0 && p.body 256 64 + n * kd.groups * kd.stride ≤ 2 ^ 52 then
        (.ok { p with kd := [kd], teams := n }, s)
      else (.fails, s)
    else
      let fk := KDesc.ofBits (xs.getD 1 0)
      let n := (p.body 320 32 + 31) / 32 * p.body 352 32
      if KDesc.ok (xs.getD 0 0) 1 && KDesc.ok (xs.getD 1 0) 2 && kd.groups == 1 && fk.groups == 1 && kd.cores == 0 && fk.cores == 0
          && s.rasterOk ctx (xs.getD 2 0) fk then
        let ground := ({ ctx, record := xs.getD 2 0 } : Draw).bound.findSome? (s.liveSurf ctx)
        (.ok { p with kd := [kd, fk], record := xs.getD 2 0, teams := n, shape := ground.map (·.shape) }, s)
      else (.fails, s)

/-- Takes the packet at P to hand: its bytes, its form. -/
def State.headPacket (s : State) (ctx q : Nat) (qu : Queue) : Option Packet × State :=
  match qu.cur with
  | some p => (some p, s)
  | none =>
    match s.frontRead ctx (qu.rbase + 64 * qu.head) 64 with
    | (.bad c va, s) => (none, s.walkerWaits ctx q c va)
    | (.stall, s) => (none, s)
    | (.ok raw, s) =>
      let p : Packet := { queue := q, slot := qu.head, seq := qu.seq, raw, placed := qu.placed }
      if packetOk raw qu.n then (some p, s.updQueue ctx q fun qu => { qu with cur := some p })
      else (none, s.faultQueue ctx q p)

/-- READY, or LATE when the head's deadline has passed. -/
def State.rankQueue (s : State) (ctx q : Nat) (p : Packet) : State :=
  s.updQueue ctx q fun qu => { qu with cur := some (p.noteLoss qu), due := false, state := if s.late ctx p.deadline then .late else .ready }

/-- The head waits for earlier work, or for its comparison. -/
def State.blockQueue (s : State) (ctx q : Nat) : State := s.updQueue ctx q fun qu => { qu with due := false, state := .blocked }

/-- Settles a queue whose packet is at hand. -/
def State.settleHead (s : State) (ctx q : Nat) (qu : Queue) (p : Packet) : State :=
  if p.waits && !qu.open_.isEmpty then s.blockQueue ctx q
  else match p.kind with
    | 1 | 2 =>
      if !p.kd.isEmpty then s.rankQueue ctx q p
      else match s.loadPacket ctx p with
        | (.ok p, s) => s.rankQueue ctx q p
        | (.fails, s) => s.faultQueue ctx q p
        | (.bad c va, s) => s.walkerWaits ctx q c va
        | (.stall, s) => s
    | 4 =>
      match s.frontRead ctx (p.body 128 64) 4 p.name with
      | (.ok w, s) => if p.holds w then s.rankQueue ctx q p else s.blockQueue ctx q
      | (.bad c va, s) => s.walkerWaits ctx q c va
      | (.stall, s) => s
    | _ => s.rankQueue ctx q p

/-- "Settle" (R185). A walker that halts keeps its state; one that waits on a fault will settle later, as after a translation
fault or a stall, which leave the state as it is until then. -/
def State.settleNow (s : State) (ctx q : Nat) : State :=
  match s.queue? ctx q with
  | none => s
  | some qu =>
    let s' := s.updQueue ctx q fun qu => { qu with due := true }
    if !(s.ctx ctx).dispatching then s
    else if qu.wait.isSome then s'
    else if qu.head == qu.tail then s.updQueue ctx q fun qu => { qu with due := false, state := .idle, cur := none }
    else match s'.headPacket ctx q qu with
      | (some p, s) => s.settleHead ctx q qu p
      | (none, s) => s

/-- The end of a wait settles a queue that is BLOCKED, or whose settling is due: an IDLE queue has no row for it, though a start or
reset doorbell may have read a TAIL past P (R8, R185). -/
def State.wakeQueue (s : State) (ctx q : Nat) : State :=
  match s.queue? ctx q with
  | none => s
  | some qu => if qu.state == .blocked || qu.due then s.settleNow ctx q else s

/-- A ring or an append settles a queue that is IDLE too; in every other state the table has no row for them (R185). -/
def State.settleQueue (s : State) (ctx q : Nat) : State :=
  match s.queue? ctx q with
  | none => s
  | some qu => if qu.state == .idle || qu.state == .blocked || qu.due then s.settleNow ctx q else s

/-! ### Consuming (R178, R184) -/

/-- Consumes the head with a status: it is open until its record is written, P moves on, and the queue settles. -/
def State.consume (s : State) (ctx q : Nat) (p : Packet) (next : Nat) : State :=
  let s := s.updQueue ctx q fun qu =>
    { qu with open_ := qu.open_ ++ [p.noteLoss qu], cur := none, head := next % qu.n, seq := (qu.seq + 1) % 2 ^ 32, placed := 0 }
  s.settleNow ctx q

/-- STATUS of a packet at its start (R184). -/
def State.startStatus (s : State) (ctx : Nat) (p : Packet) : Nat := if s.late ctx p.deadline then 1 else 0

/-- The head of a kind, in a queue that may start it. -/
def State.startable (s : State) (ctx q kind : Nat) : Option (Queue × Packet) :=
  match s.queue? ctx q with
  | none => none
  | some qu =>
    if !s.dispatching ctx || !(qu.state == .ready || qu.state == .late) || qu.wait.isSome || qu.due then none
    else match qu.cur with
      | some p => if p.kind = kind then some (qu, p) else none
      | none => none

/-- A packet that is late with DROP is consumed with no other effect: STATUS 2, P + 1. -/
def State.dropLate (s : State) (ctx q : Nat) (p : Packet) : State :=
  s.consume ctx q { p with status := 2, teams := 0, placed := 0 } (p.slot + 1)

def State.isDropped (s : State) (ctx : Nat) (p : Packet) : Bool := p.drop && p.placed == 0 && s.late ctx p.deadline

/-- Starts a control packet: drops it, or lets it act; its action answers the next P, or a fault. -/
def State.control (s : State) (ctx q kind : Nat) (act : Queue → Packet → State → Except FRead Nat × State) :
    Host.Outcome State Fault Refusal :=
  match s.startable ctx q kind with
  | none => .next s
  | some (qu, p) =>
    if s.isDropped ctx p then .next (s.dropLate ctx q p)
    else match act qu p s with
      | (.ok next, s) => .next (s.consume ctx q { p with status := s.startStatus ctx p } next)
      | (.error (.bad c va), s) => .next (s.walkerWaits ctx q c va)
      | (.error _, s) => .next s

def execWaitswPacket (ctx q : Nat) (s : State) : Host.Outcome State Fault Refusal :=
  s.control ctx q 4 fun _ p s => (.ok (p.slot + 1), s)

/-- The walker reads the word of a blocked WAITSW again. -/
def execWaitswReread (ctx q : Nat) (s : State) : Host.Outcome State Fault Refusal :=
  match s.queue? ctx q with
  | some qu =>
    if qu.state == .blocked && (qu.cur.map Packet.kind) == some 4 then .next (s.wakeQueue ctx q) else .next s
  | none => .next s

/-- SIGNAL: a store or an atomic add, published at .pkg with everything before it; then the message. -/
def execSignalPacket (ctx q : Nat) (s : State) : Host.Outcome State Fault Refusal :=
  s.control ctx q 5 fun _ p s =>
    let a := p.body 128 64
    let irq (s : State) : State := if bit p.raw 258 then s.msi (s.ctx ctx).port (p.body 272 16) else s
    let done (r : FRead × State) : Except FRead Nat × State :=
      match r with
      | (.ok _, s) => (.ok (p.slot + 1), irq s)
      | (r, s) => (.error r, s)
    match p.body 256 2 with
    | 0 => done (s.frontStore ctx a (toBytes 4 (p.body 192 32)) .write p.name)
    | 1 => done (s.frontStore ctx a (toBytes 8 (p.body 192 64)) .write p.name)
    | _ =>
      match s.mapRange ctx a 4 .atomic with
      | (.ok ps, s) =>
        let old := ofBytes (ps.flatMap fun (loc, stamp, _, m) => s.peek stamp loc m)
        done (s.frontStore ctx a (toBytes 4 (old + p.body 192 32)) .atomic p.name)
      | (.bad c va, s) => (.error (.bad c va), s)
      | (.stall, s) => (.error .stall, s)

def execCondPacket (ctx q : Nat) (s : State) : Host.Outcome State Fault Refusal :=
  s.control ctx q 6 fun _ p s =>
    match s.frontRead ctx (p.body 128 64) 4 p.name with
    | (.ok w, s) => (.ok (p.body (256 + 32 * min w (p.body 192 4 - 1)) 32), s)
    | (r, s) => (.error r, s)

def execLoopPacket (ctx q : Nat) (s : State) : Host.Outcome State Fault Refusal :=
  s.control ctx q 7 fun _ p s =>
    match s.frontRead ctx (p.body 128 64) 4 p.name with
    | (.ok w, s) =>
      if w = 0 then (.ok (p.slot + 1), s)
      else if !bit p.raw 224 then (.ok (p.body 192 32), s)
      else match s.frontStore ctx (p.body 128 64) (toBytes 4 (w - 1)) .atomic p.name with
        | (.ok _, s) => (.ok (p.body 192 32), s)
        | (r, s) => (.error r, s)
    | (r, s) => (.error r, s)

def execJumpPacket (ctx q : Nat) (s : State) : Host.Outcome State Fault Refusal :=
  s.control ctx q 8 fun _ p s => (.ok (p.body 128 32), s)

/-- STOP: the queue enters STOPPED at P + 1, and its fields are written. -/
def execStopPacket (ctx q : Nat) (s : State) : Host.Outcome State Fault Refusal :=
  match s.startable ctx q 9 with
  | none => .next s
  | some (_, p) =>
    if s.isDropped ctx p then .next (s.dropLate ctx q p)
    else
      let p' := { p with status := s.startStatus ctx p }
      let s := s.updQueue ctx q fun qu =>
        { qu with open_ := qu.open_ ++ [p'], cur := none, head := (p.slot + 1) % qu.n, seq := (qu.seq + 1) % 2 ^ 32, placed := 0,
                  state := .stopped }
      .next (s.writeBack ctx q)

/-! ### COPY (R420) -/

/-- Destination lines of a copy. -/
def lineCount (dst n : Nat) : Nat := if n = 0 then 0 else (dst + n - 1) / 128 - dst / 128 + 1

/-- The copies of the ranges, from destination line `first` on. -/
def rangeCopies (c : Copy) (dst src n : Nat) : Nat → List (Nat × Nat) → List Copy
  | _, [] => []
  | first, (quad, lines) :: rs =>
    let lo := if first = 0 then 0 else (dst / 128 + first) * 128 - dst
    let hi := min n ((dst / 128 + first + lines) * 128 - dst)
    { c with core := 4 * quad, dst := dst + lo, src := src + lo, bytes := hi - lo, first } :: rangeCopies c dst src n (first + lines) rs

/-- COPY_PACKET: the copy is handed over in contiguous ranges of destination lines, each to a quad; one of no bytes completes at once
(R158). -/
def execCopyPacket (ctx q : Nat) (ranges : List (Nat × Nat)) (s : State) : Host.Outcome State Fault Refusal :=
  match s.startable ctx q 3 with
  | none => .next s
  | some (_, p) =>
    let dst := p.body 128 64
    let n := p.body 256 64
    let total := ranges.foldl (fun t r => t + r.2) 0
    if s.isDropped ctx p then .next (s.dropLate ctx q p)
    else if total ≠ lineCount dst n ∨ (ranges.any fun r => r.1 ≥ Config.cores / 4 || r.2 == 0) = true then .next s
    else
      let c : Copy := { ctx, packet := some (q, p.seq), scope := 3, view := s.viewAll, stamp := s.order.next }
      let s := (rangeCopies c dst (p.body 192 64) n 0 ranges).foldl (fun (s : State) c =>
        let (cid, s) := s.freshId
        { s with copyq := s.copyq ++ [{ c with id := cid }] }) s
      let s := s.updCtx ctx fun c => { c with state := if c.state == .resident then .running else c.state }
      let s := s.consume ctx q { p with status := s.startStatus ctx p, copies := ranges.length } (p.slot + 1)
      .next (if ranges.isEmpty then s.idle ctx else s)

/-! ### LAUNCH, DRAW and placement -/

/-- What the next team of a packet is given (R194 to R196, R330). -/
def Packet.request (p : Packet) (ctx q : Nat) : TeamReq :=
  let kd := p.kd.headD {}
  let t := p.placed
  let tx := if p.kind = 1 then p.body 320 32 else (p.body 320 32 + 31) / 32
  let ty := p.body 352 32
  let x := t % tx
  let vc := p.body 320 32
  { ctx, queue := q, seq := p.seq, index := t, kd, x, y := t / tx % ty, z := t / tx / ty,
    launch := q * 2 ^ 26 + p.seq % 2 ^ 26,
    args := if p.kind = 1 then p.body 192 64 else p.body 384 64,
    back := if p.kind = 1 then p.body 256 64 else bits p.record 0 64,
    draw := p.draw, born := p.born,
    mask := if p.kind = 1 ∨ vc ≥ 32 * x + 32 then 0xFFFFFFFF else BitVec.ofNat 32 (2 ^ (vc - 32 * x) - 1) }

/-- Primitives of one instance (R332). -/
def primCount (topo v : Nat) : Nat := match topo with | 0 => v / 3 | 1 => v - 2 | 2 => v / 2 | _ => v

/-- A DRAW starts: its primitives take their sequence numbers (R332, R180). -/
def State.startDraw (s : State) (ctx q : Nat) (p : Packet) : Packet × State :=
  let (uid, s) := s.freshId
  let base := match s.queue? ctx q with | some qu => qu.primSeq | none => 0
  let v := p.body 320 32
  let n := p.body 352 32
  let d : Draw := { ctx, queue := q, seq := p.seq, record := p.record, shape := p.shape, fk := p.kd.getD 1 {}, args := p.body 384 64,
                    deadline := p.deadline, vcount := v, insts := n, born := p.born, base }
  let s := { s with draws := Map.set s.draws uid d }
  ({ p with draw := some uid },
   s.updQueue ctx q fun qu => { qu with primSeq := (qu.primSeq + n * primCount (bits p.record 128 3) v) % 2 ^ 32 })

/-- Places the next team of the head packet of a queue on a set of cores; with the last team P moves on. The packet counts
the team before its groups begin, since a kill may end it at once. -/
def State.placeNext (s : State) (ctx q : Nat) (p : Packet) (core : Nat) (ob ab : Nat → Nat) : State :=
  let first := p.placed == 0 && p.draw.isNone && p.teams > 0
  let p := if p.placed = 0 ∧ p.left = 0 then { p with status := s.startStatus ctx p, born := s.order.next } else p
  let (p, s) := if first && p.kind == 2 then s.startDraw ctx q p else (p, s)
  let r := p.request ctx q
  let p := { p with placed := p.placed + 1, left := p.left + 1, starved := false }
  let s := s.updQueue ctx q fun qu => { qu with cur := some p, placed := p.placed, state := .active }
  let (_, _, s) := s.placeTeam r core ob ab
  match (s.queue? ctx q).bind (·.cur) with
  | some p => if p.placed ≥ p.teams then s.consume ctx q p (p.slot + 1) else s
  | none => s

/-- The head packet with an unplaced team, in a queue that may place it. -/
def State.placeable (s : State) (ctx q : Nat) : Option Packet :=
  match s.queue? ctx q with
  | none => none
  | some qu =>
    let open_ := qu.state == .ready || qu.state == .late || qu.state == .active
    if !s.dispatching ctx || !open_ || qu.wait.isSome || qu.due then none
    else match qu.cur with
      | some p => if (p.kind = 1 ∨ p.kind = 2) ∧ !p.kd.isEmpty ∧ p.placed < p.teams ∧ !s.isDropped ctx p then some p else none
      | none => none

def Packet.bid (p : Packet) (ctx q : Nat) : Bid := { ctx, queue := q, deadline := p.deadline, kd := p.kd.headD {}, starved := p.starved }

/-- TEAM_PLACE: the next team of the highest-ranked packet, on the set of cores that starts at `core`. Digit j of ob and
ab, to the bases 128 and 32, is the first slot on core index j. -/
def execTeamPlace (ctx q core ob ab : Nat) (s : State) : Host.Outcome State Fault Refusal :=
  match s.placeable ctx q with
  | none => .next s
  | some p =>
    let fo (j : Nat) : Nat := ob / 128 ^ j % 128
    let fa (j : Nat) : Nat := ab / 32 ^ j % 32
    if s.fits (p.kd.headD {}) core fo fa && s.mayPlace (p.bid ctx q) then .next (s.placeNext ctx q p core fo fa) else .next s

/-- Starts a LAUNCH or DRAW: drops a late one, completes one without work, or places its first team where it fits first. -/
def State.startWork (s : State) (ctx q kind : Nat) : State :=
  match s.startable ctx q kind with
  | none => s
  | some (_, p) =>
    let kd := p.kd.headD {}
    if p.kd.isEmpty then s
    else if s.isDropped ctx p then s.dropLate ctx q p
    else if p.teams = 0 then s.consume ctx q { p with status := s.startStatus ctx p } (p.slot + 1)
    else match s.firstFit kd none with
      | some core =>
        if s.mayPlace (p.bid ctx q) then
          s.placeNext ctx q p core (fun j => s.lowSlots false (core + j) kd.oslots) (fun j => s.lowSlots true (core + j) kd.aslots)
        else s
      | none => s

def execLaunchPacket (ctx q : Nat) (s : State) : Host.Outcome State Fault Refusal := .next (s.startWork ctx q 1)
def execDrawPacket (ctx q : Nat) (s : State) : Host.Outcome State Fault Refusal := .next (s.startWork ctx q 2)

/-- A draw has a fragment team that fits nowhere. -/
def State.drawStarves (s : State) (d : Draw) : Bool :=
  match d.quads.find? (·.state == 1) with
  | some q => (s.firstFit d.fk (some (d.quadOwner q))).isNone
  | none => false

/-- PLACEMENT_STARVATION (R183): 4,096 front-end clocks have passed without a fit, for a team of the head packet or for a
fragment team of a DRAW of the queue. -/
def execPlacementStarvation (ctx q : Nat) (s : State) : Host.Outcome State Fault Refusal :=
  let t : State := { s with draws := s.draws.map fun (n, d) =>
    (n, if d.ctx == ctx && d.queue == q && s.drawStarves d then { d with starved := true } else d) }
  match s.placeable ctx q with
  | none => .next t
  | some p =>
    if (s.firstFit (p.kd.headD {}) none).isSome then .next t
    else .next (t.updQueue ctx q fun qu => { qu with cur := some { p with starved := true } })

/-! ### Completion (R179, R181) -/

/-- Every fragment of a draw is applied. -/
def Draw.done (d : Draw) : Bool := d.quads.isEmpty && d.nextPrim ≥ d.insts * primCount (bits d.record 128 3) d.vcount

/-- Stores of a team that has ended are still to be performed: tile stores, and those of its copies (R179, R197). -/
def State.storesDue (s : State) (t : Team) : Bool :=
  t.copies > 0 || s.engines.any fun e => e.2.queue.any fun m => m.team == t.uid && m.stores

def State.packetDone (s : State) (ctx : Nat) (p : Packet) : Bool :=
  p.wait.isNone && p.placed ≥ p.teams && p.left == 0 && p.copies == 0
    && !(s.teams.any fun t => t.2.ctx == ctx && t.2.queue == p.queue && t.2.seq == p.seq && s.storesDue t.2)
    && match p.draw with
      | some d => match Map.find s.draws d with | some d => d.done | none => true
      | none => true

def Packet.record_ (p : Packet) (now : Nat) : List Byte :=
  toBytes 16 (p.seq % 2 ^ 32 + (if p.failed then 3 else p.status) * 2 ^ 32 + p.kind % 256 * 2 ^ 36 + now * 2 ^ 64)

/-- Removes the first packet that satisfies f. -/
def dropFirst (f : Packet → Bool) : List Packet → List Packet
  | [] => []
  | p :: ps => if f p then ps else p :: dropFirst f ps

/-- PACKET_COMPLETE: the record if CPL asks for one, with the queue's fields; then later packets may start. -/
def execPacketComplete (ctx q seq : Nat) (s : State) : Host.Outcome State Fault Refusal :=
  match s.queue? ctx q with
  | none => .next s
  | some qu =>
    let mine (p : Packet) : Bool := p.seq == seq && s.packetDone ctx p
    match qu.open_.find? mine with
    | none => .next s
    | some p =>
      let close (s : State) : State :=
        let s := s.updQueue ctx q fun qu => { qu with open_ := dropFirst (fun r => r == p) qu.open_ }
        let s := match p.draw with | some d => { s with draws := Map.erase s.draws d } | none => s
        s.wakeQueue ctx q
      let halt (s : State) (c va : Nat) : State :=
        let (tok, s) := s.frontFault ctx q c va
        s.updQueue ctx q fun qu => { qu with open_ := qu.open_.map fun r => if r == p then { r with wait := some tok } else r }
      if (s.ctx ctx).state == .saved then .next s
      else if !p.cpl then .next (close s)
      else match s.frontStore ctx (qu.cplbase + 16 * p.slot) (p.record_ (s.port (s.ctx ctx).port).now) .write p.name with
        | (.bad c va, s) => .next (halt s c va)
        | (.stall, s) => .next s
        | (.ok _, s) => .next (close (s.writeBack ctx q))

/-- GROUP_FREED (R199): an EXITING group's results have landed; its slot and footprint are free, and the team may end. -/
def execGroupFreed (g : Nat) (s : State) : Host.Outcome State Fault Refusal :=
  match s.group g with
  | none => .next s
  | some gr => if gr.phase == .exiting && gr.outst.isEmpty then .next (s.freeGroup g) else .next s

/-! ### Doorbells and NOW (R175, R182, R185) -/

/-- The queue of a doorbell: of a context of the port, resident, with a number below QCOUNT. -/
def State.rung (s : State) (port : Bool) (ctx q : Nat) : Bool :=
  (s.ctx ctx).port == port.toNat && (s.ctx ctx).dispatching && q < (s.ctx ctx).rc.qcount && (s.queue? ctx q).isSome

/-- The address of TAIL in a queue's descriptor. -/
def State.tailAt (s : State) (ctx q : Nat) : Nat := (s.ctx ctx).rc.qtbase + 64 * q + 12

/-- What a doorbell does once TAIL is read: 0 ring, 1 start, 2 reset (R185). -/
def State.bellAct (s : State) (ctx q op : Nat) : State :=
  match s.queue? ctx q with
  | none => s
  | some qu =>
    match op with
    | 0 => s.settleQueue ctx q
    | 1 => if qu.state == .stopped then s.settleNow ctx q else s
    | _ =>
      if qu.state == .stopped || qu.state == .faulted then
        (s.updQueue ctx q fun qu => { qu with head := qu.tail, placed := 0, cur := none }).settleNow ctx q
      else s

/-- Doorbells in their order: each reads TAIL again (R175). The rest wait for a fault or a page. -/
def State.answerBells (s : State) (ctx q : Nat) : List Nat → State
  | [] => s.updQueue ctx q fun qu => { qu with bells := [] }
  | op :: ops =>
    let rest (s : State) : State := s.updQueue ctx q fun qu => { qu with bells := op :: ops }
    if (match s.queue? ctx q with | some qu => qu.wait.isSome | none => true) then rest s
    else match s.frontRead ctx (s.tailAt ctx q) 4 with
      | (.ok t, s) => ((s.updQueue ctx q fun qu => { qu with tail := t }).bellAct ctx q op).answerBells ctx q ops
      | (.bad c va, s) => (rest s).walkerWaits ctx q c va
      | (.stall, s) => rest s

def State.bell (s : State) (ctx q op : Nat) : State :=
  match s.queue? ctx q with
  | some qu => s.answerBells ctx q (qu.bells ++ [op])
  | none => s

/-- DOORBELL_RING: from the physical function, 0, or from the virtual function that VFMAP names for the context (R398). -/
def execDoorbellRing (port : Bool) (vf ctx q : Nat) (s : State) : Host.Outcome State Fault Refusal :=
  if s.rung port ctx q && (vf == 0 || Map.get 0 (s.port port.toNat).vfmap ctx == vf) then .next (s.bell ctx q 0) else .next s

def execDoorbellStart (port : Bool) (ctx q : Nat) (s : State) : Host.Outcome State Fault Refusal :=
  if s.rung port ctx q then .next (s.bell ctx q 1) else .next s

def execDoorbellReset (port : Bool) (ctx q : Nat) (s : State) : Host.Outcome State Fault Refusal :=
  if s.rung port ctx q then .next (s.bell ctx q 2) else .next s

/-- The walker of a queue goes on: what it owes, the doorbells that wait, a settling that is due. -/
def State.walkerGoesOn (s : State) (ctx q : Nat) : State :=
  let s := s.payQueue ctx q
  let s := match s.queue? ctx q with
    | some qu => if qu.bells.isEmpty || !(s.ctx ctx).dispatching then s else s.answerBells ctx q qu.bells
    | none => s
  s.wakeQueue ctx q

/-- The walkers of a context go on. -/
def State.settleQueues (s : State) (ctx : Nat) : State :=
  ((s.ctx ctx).queues.map (·.1)).foldl (fun s q => s.walkerGoesOn ctx q) s

/-- NOW_WRITE: the new value, whole; READY and LATE queues of the port settle. -/
def execNowWrite (port : Bool) (value : BitVec 64) (s : State) : Host.Outcome State Fault Refusal :=
  let s := s.updPort port.toNat fun p => { p with now := value.toNat }
  let cs := (s.ctxs.filter fun x => x.2.port == port.toNat && x.2.dispatching).map (·.1)
  .next (cs.foldl (fun s c =>
    (((s.ctx c).queues.filter fun x => x.2.state == .ready || x.2.state == .late).map (·.1)).foldl (fun s q => s.settleNow c q) s) s)

/-! ### QAPPEND (R186) -/

/-- The steps from the full check on; translations first, so that a fault leaves nothing done. -/
def qappend (x : SysW) (i : Iss) (s : State) (a q : Nat) : Eff :=
  let ctx := i.g.ident.ctx
  let one : Lanes := 1#32 <<< lowest i.lanes
  let fault (s : State) (c va : Nat) : Eff := .fault s { cause := c, va, lanes := one.toNat } .reissue false
  let again (s : State) : Eff := .stall s (.migrating { instr := .qappend x, pc := i.sp.pc }) false
  let answer (s : State) (r : Nat) : Eff :=
    let who := lanesOf (destLanes x.d i.lanes)
    .park (s.landNow i.k (who.flatMap fun l => destWrites i.sp.wb x.d 32 l r ++ predWrites x.pd l (r < 0xFFFFFFFD))) (.completion .done)
  let s := s.updGroup i.k fun g => { g with seen := s.release g.ident.core g.ident.uid 3 g.seen }
  match if q ≥ (s.ctx ctx).rc.qcount then none else s.queue? ctx q with
  | none => answer s 0xFFFFFFFD
  | some qu =>
    if !qu.kapp || qu.state == .faulted then answer s 0xFFFFFFFD
    else match s.mapRange ctx a 64 .read with
      | (.bad c va, s) => fault s c va
      | (.stall, s) => again s
      | (.ok ps, s) =>
        match ps.findSome? fun (loc, _, _, n) => (s.readKills (some i.g.ident.core) ctx loc n).map fun c => (c, loc) with
        | some (c, loc) => .kill s c loc
        | none =>
          let (bs, w, s) := loadPieces s i.g.ident false (seenOf s i.k) ps
          let s := s.updGroup i.k fun g => { g with seen := w }
          let kind := ofBytes (bs.take 1)
          if kind < 1 ∨ kind > 9 then answer s 0xFFFFFFFE
          else
          let at_ := s.tailAt ctx q
          match s.frontRead ctx at_ 4 with
          | (.bad c va, s) => fault s c va
          | (.stall, s) => again s
          | (.ok tail, s) =>
          if (tail + 1) % qu.n = qu.head then answer (s.updQueue ctx q fun qu => { qu with tail }) 0xFFFFFFFF
          else
            let next := (tail + 1) % qu.n
            match s.mapRange ctx (qu.rbase + 64 * tail) 64 .write with
            | (.bad c va, s) => fault s c va
            | (.stall, s) => again s
            | (.ok ps, s) =>
              match s.mapRange ctx at_ 4 .write with
              | (.bad c va, s) => fault s c va
              | (.stall, s) => again s
              | (.ok ts, s) =>
                let put (s : State) (bs : List Byte) (ps : List (Nat × Nat × Nat × Nat)) : State :=
                  ps.foldl (fun (s : State) (loc, stamp, off, n) =>
                    let (gone, s) := s.goesOut (s.workOf i.g.ident loc)
                    if gone then s.storePub stamp loc ((bs.drop off).take n) else s) s
                let s := put (put s bs ps) (toBytes 4 next) ts
                answer ((s.updQueue ctx q fun qu => { qu with tail := next }).settleQueue ctx q) tail

def execQappend (x : SysW) (s : State) : Host.Outcome State Fault Refusal :=
  withIssue x.ctl [(x.a, 64), (x.b, 32)] s (d := .s 0) fun i s =>
    let a := i.low x.a 64 x.imm
    let q := i.low x.b 32 x.imm
    let one : Lanes := 1#32 <<< lowest i.lanes
    whenLanes i s <| afterTiles i s <|
      if a ≥ 2 ^ 52 then .trap s 0x41 one a 0
      else if a % 64 ≠ 0 then .trap s 0x40 one a 0
      else qappend x i s a q

end Sys2Proof.Machine
end

