-- ==== Sys2Proof/Machine/Matrix.lean ====
section
/-! DEFINITION. The matrix engine (R256 to R290): reservation, slots, engine order, fills, passes, tile stores. -/
namespace Sys2Proof.Machine

/-! ### Formats -/

def MFmt.fmt : MFmt → Fmt
  | .k4 => Machine.f8
  | .f8 => Machine.f8
  | .g8 => Machine.g8
  | .bf16 => Machine.bf16
  | .f16 => Machine.f16

/-- The codes of START, CEIL and LEVEL (R270). -/
def MFmt.ofCode (c : Nat) : MFmt := match c with | 0 => .k4 | 1 => .f8 | 2 => .g8 | _ => .bf16
def MFmt.code : MFmt → Nat | .k4 => 0 | .f8 => 1 | .g8 => 2 | _ => 3

/-- The retained format of a fill by source format (R265). -/
def retainedOf (fmt : Nat) : MFmt := match fmt with | 0 | 1 => .bf16 | 2 => .f16 | 3 => .f8 | 4 => .g8 | _ => .k4

/-- R266. -/
def MFmt.permits (retained pass : MFmt) : Bool :=
  match retained with
  | .bf16 | .f16 => pass != .f16
  | .f8 => pass == .k4 || pass == .f8
  | .g8 => pass == .g8
  | .k4 => pass == .k4

/-- The ladders (R269). -/
def ladder (start : MFmt) : List MFmt :=
  match start with
  | .k4 => [.k4, .f8, .bf16]
  | .f8 => [.f8, .bf16]
  | .g8 => [.g8, .bf16]
  | _ => [.bf16]

/-- The value of an element of an operand slot. A K4 pair is kept under its even element. -/
def OSlot.value (o : OSlot) (k : Nat) : FV :=
  if o.fmt = .k4 then
    let p := k4Pair (Map.get 0 o.data (k - k % 2))
    if k % 2 = 0 then p.1 else p.2
  else o.fmt.fmt.decode (Map.get 0 o.data k)

/-- The scale exponent of a slot's contents (R265). -/
def OSlot.scale (o : OSlot) : Int :=
  let es := (List.range 1024).filterMap fun k =>
    match o.value k with
    | .fin _ a d => if a = 0 then none else some (log2q a d)
    | _ => none
  match es with
  | [] => 0
  | e :: es => es.foldl max e

/-! ### A pass (R267, R268) -/

/-- EMAX of R267. -/
def emax : MFmt → Int | .k4 => 2 | .f8 => 7 | .g8 => 15 | _ => 0

/-- An element in a pass format other than K4: the value, and its SAT and UND counts. -/
def convElem (f : Fmt) (y : FV) : FV × Nat × Nat :=
  match y with
  | .nan _ => (.nan false, 1, 0)
  | .inf n => (f.decode (f.largest + (if n then f.signBit else 0)), 1, 0)
  | .fin n a d =>
    let (p, fl) := f.roundFin .rne true n a d
    let v := f.decode p
    (v, if fl &&& fOF ≠ 0 then 1 else 0, if a ≠ 0 ∧ v.isZero then 1 else 0)

/-- An element read unchanged: only a BF16 infinity is clamped and counted. -/
def keepElem (f : MFmt) (y : FV) : FV × Nat × Nat :=
  match y with
  | .inf n => (f.fmt.decode (f.fmt.largest + (if n then f.fmt.signBit else 0)), 1, 0)
  | v => (v, 0, 0)

/-- Pairs of elements through pack_pair (R36). -/
def packLine : List FV → List (FV × Nat × Nat)
  | a :: b :: r =>
    let (byte, s, u) := packPair .rne a b
    let p := k4Pair byte
    (p.1, s, u) :: (p.2, 0, 0) :: packLine r
  | _ => []

/-- A slot as a pass in format f reads it: 16 lines of values, its shift, SAT, UND. -/
def readSlot (o : OSlot) (f : MFmt) : List (List FV) × Int × Nat × Nat :=
  let same := o.fmt == f
  let h : Int := if same then 0 else emax f - o.se
  let line (i : Nat) : List (FV × Nat × Nat) :=
    let ys := (List.range 64).map fun k => o.value (64 * i + k)
    if same then ys.map (keepElem f)
    else
      let ys := ys.map fun y => scaleV y h
      if f = .k4 then packLine ys else ys.map (convElem f.fmt)
  let ls := (List.range 16).map line
  (ls.map fun l => l.map (·.1), h, (ls.flatten.map (·.2.1)).foldl (· + ·) 0, (ls.flatten.map (·.2.2)).foldl (· + ·) 0)

/-- The chunks of a line of products. -/
def chunksOf (f : MFmt) (ps : List (FV × FV)) : List (List (FV × FV)) :=
  let n := if f = .bf16 then 8 else 16
  (List.range (64 / n)).map fun c => (ps.drop (n * c)).take n

def chunkSum (f : MFmt) (ps : List (FV × FV)) : FV × Nat × Nat :=
  match f with
  | .k4 => chunkK4 ps
  | .f8 | .g8 => chunkTrunc 28 ps
  | _ => chunkTrunc 32 ps

/-- One element: its new accumulator value, inner SAT and UND, and whether it counts as a cancellation. -/
def passElem (f : MFmt) (sc : Int) (canbits acc : Nat) (a b : List FV) : Nat × Nat × Nat × Bool :=
  let cs := (chunksOf f (a.zip b)).map (chunkSum f)
  let out := cs.foldl (fun acc c => promote acc c.1 sc) acc
  let s := (cs.foldl (fun (t : FV) c => (addV .rne t c.1).1) FV.zero)
  let m := cs.foldl (fun (t : FV) c => if t.cmp c.1.abs < 0 then c.1.abs else t) FV.zero
  let can := !(cs.any fun c => c.1.isNan) && decide ((scaleV s.abs canbits).cmp m < 0)
  (out, (cs.map (·.2.1)).foldl (· + ·) 0, (cs.map (·.2.2)).foldl (· + ·) 0, can)

/-- pass(F): the results and SAT, UND, CAN. -/
def quarterPass (f : MFmt) (canbits : Nat) (a b : OSlot) (c : ASlot) : List Nat × Nat × Nat × Nat :=
  let (la, ha, sa, ua) := readSlot a f
  let (lb, hb, sb, ub) := readSlot b f
  let rs := (la.zipIdx.flatMap fun (x, i) => lb.zipIdx.map fun (y, j) =>
    passElem f (-(ha + hb)) canbits (Map.get 0 c.data (16 * i + j)) x y)
  (rs.map (·.1), sa + sb + (rs.map (·.2.1)).foldl (· + ·) 0, ua + ub + (rs.map (·.2.2.1)).foldl (· + ·) 0,
    (rs.filter (·.2.2.2)).length)

/-- The ceiling of a quarter op: the widest format of the ladder that both slots permit, at or below the configured one. -/
def ceilingOf (start ceil : MFmt) (a b : OSlot) : MFmt :=
  (((ladder start).filter fun f => a.fmt.permits f && b.fmt.permits f && decide ((ladder start).idxOf f ≤ (ladder start).idxOf ceil)).getLast?).getD start

/-! ### Slots and engine order (R260 to R264) -/

/-- The slots that an entry names: accumulator or operand, number. -/
def MOp.names : MOp → List (Bool × Nat)
  | .clear acc base n => (List.range n).map fun k => (acc, base + k)
  | .fill slot .. => [(false, slot)]
  | .fillSurf slot .. => [(false, slot)]
  | .zero slot => [(true, slot)]
  | .mma a b c .. => [(false, a), (false, b), (true, c)]
  | .store slot .. => [(true, slot)]
  | .storeSurf slot _ => [(true, slot)]
  | .move _ reads _ => reads.map fun r => (true, r.2.1)

def MOp.isMma : MOp → Bool | .mma .. => true | _ => false

def shareSlot (a b : List (Bool × Nat)) : Bool := a.any fun x => b.contains x

/-- The STE of a surface entry. -/
def MOp.ste : MOp → Option Nat
  | .fillSurf _ _ v => some (bits v 0 12)
  | .storeSurf _ v => some (bits v 0 12)
  | _ => none

/-- An entry must wait for an earlier one: a shared slot, or the program order of a group's accesses to the same place. -/
def MEntry.after (e p : MEntry) : Bool :=
  let order :=
    if p.uid = e.uid && p.stores then
      match e.op with
      | .fill _ fmt inC tr addr stride =>
        let n := if fmt = 5 then 32 else (if tr then 16 else 64) * matSize fmt
        (List.range (if tr then 64 else 16)).any fun r => p.hits inC (matAddr inC addr stride r) n
      | .store _ fmt inC addr stride => (List.range 16).any fun r => p.hits inC (matAddr inC addr stride r) (16 * matSize fmt)
      | .fillSurf .. | .storeSurf .. => p.op.ste == e.op.ste
      | _ => false
    else false
  order || (match e.op, p.op with
    | .mma _ _ c .., .mma _ _ c' .. => c == c'
    | _, _ => shareSlot e.op.names p.op.names)

/-- The entry may be performed now: it waits for no RESUME and for no earlier entry. -/
def Engine.mayRun (q : List MEntry) (e : MEntry) : Bool :=
  e.wait.isNone && (q.takeWhile fun p => !(p.id == e.id && p.quarter == e.quarter)).all fun p => !e.after p

/-- The instructions in the queue, oldest first. -/
def Engine.instrs (e : Engine) : List Nat := e.queue.foldl (fun ids q => if ids.contains q.id then ids else ids ++ [q.id]) []

/-- R263: the instruction does not issue yet. `every` says that every MMA of the core must have committed. -/
def Engine.holds (e : Engine) (every : Bool) (names : List (Bool × Nat)) : Bool :=
  e.instrs.length ≥ 16 || e.queue.any fun q => q.op.isMma && (every || shareSlot q.op.names names)

/-- The engine of the issuing core takes no instruction yet: R263, or the context is being saved (R273). -/
def Iss.matHolds (i : Iss) (s : State) (every : Bool) (names : List (Bool × Nat)) : Bool :=
  (s.ctx i.g.ident.ctx).state == .saving || (s.engine i.g.ident.core).holds every names

/-- A slot is claimed by a team. -/
def Engine.claimed (e : Engine) (team : Nat) (acc : Bool) (n : Nat) : Bool :=
  if acc then (Map.get {} e.aslots n).owner == some team else (Map.get {} e.oslots n).owner == some team

/-! ### Quarters (R258) -/

/-- The issuing quarters: number, lowest executing lane, executing lanes. -/
def quartersOf (m : Lanes) : List (Nat × Nat × Lanes) :=
  (List.range 4).filterMap fun q =>
    let ls := (lanesOf m).filter fun l => l / 8 == q
    if ls.isEmpty then none else some (q, ls.headD 0, maskOf ls)

/-- The lanes that give operands. -/
def quarterReaders (m : Lanes) : Lanes := maskOf ((quartersOf m).map (·.2.1))

def Iss.val (i : Iss) (o : Operand) (w lane imm : Nat) : Nat := i.g.operand i.sp.wb o w lane id imm

/-- A cause raised for the lowest failing quarter (R282, R285): its lanes, and its number in TRAPAUX (R373). -/
def quarterTrap (s : State) (cause : Nat) (qs : List (Nat × Nat × Lanes)) (bad : Nat → Nat → Option Nat) : Option Eff :=
  qs.findSome? fun (q, l, m) => (bad q l).map fun addr => .trap s cause m addr q

/-- A cause whose rule names no lanes: every executing lane, and the lowest failing quarter. -/
def wholeTrap (i : Iss) (s : State) (cause : Nat) (qs : List (Nat × Nat × Lanes)) (bad : Nat → Bool) : Option Eff :=
  (qs.find? fun q => bad q.2.1).map fun q => .trap s cause i.lanes 0 q.1

/-- A cause of an instruction performed once. -/
def onceTrap (i : Iss) (s : State) (cause : Nat) : Eff := .trap s cause i.lanes 0 (lowest i.lanes / 8)

def holder? (i : Iss) (s : State) : Bool := (s.engine i.g.ident.core).holder == some i.g.ident.team

/-- Places operations in the engine's queue, in ascending quarter order. -/
def enqueue (i : Iss) (s : State) (ops : List (Nat × MOp)) : State :=
  let id := i.g.ident
  let (n, s) := s.freshId
  let es := ops.map fun (q, op) =>
    ({ id := n, op, group := i.k, uid := id.uid, team := id.team, ctx := id.ctx, quarter := q, stamp := s.order.next,
       seen := { seenOf s i.k with op := some n } } : MEntry)
  s.updEngine id.core fun e => { e with queue := e.queue ++ es }

/-! ### Reservation, claims, configuration -/

/-- The defaults of R270. -/
def gaugeDefault : Nat := 24 + 3 * 2 ^ 8 + 3 * 2 ^ 10

def freshGauge (e : Engine) (holder : Option Nat) : Engine :=
  { e with holder, w0 := 0, w1 := gaugeDefault, counts := [0, 0, 0, 0, 0], last := [0, 0, 0, 0] }

def execMresv (x : MatW) (s : State) : Host.Outcome State Fault Refusal :=
  withIssue x.ctl [] s fun i s =>
    let e := s.engine i.g.ident.core
    let mine := e.holder == none || e.holder == some i.g.ident.team
    whenLanes i s <|
      if i.matHolds s false [] then .hold s .issue
      else
        let s := if e.holder == none then s.setEngine i.g.ident.core (freshGauge e (some i.g.ident.team)) else s
        .ok (s.outstanding i.k 20 true ((lanesOf i.lanes).flatMap fun l => predWrites x.pd l mine))

def execMfree (x : MatW) (s : State) : Host.Outcome State Fault Refusal :=
  withIssue x.ctl [] s fun i s =>
    let e := s.engine i.g.ident.core
    whenLanes i s <|
      if i.matHolds s true [] then .hold s .issue
      else .ok (if holder? i s then s.setEngine i.g.ident.core (freshGauge e none) else s)

/-- The slots that a team holds on a core: first, number. -/
def heldSlots (s : State) (team core : Nat) (acc : Bool) : Nat × Nat :=
  let t := s.team team
  if acc then (Map.get 0 t.ab core, if (Map.find t.ab core).isSome then t.kd.aslots else 0)
  else (Map.get 0 t.ob core, if (Map.find t.ob core).isSome then t.kd.oslots else 0)

def slotLimit (acc : Bool) : Nat := if acc then 32 else 128

/-- Claims or releases slots. -/
def setOwner (e : Engine) (acc : Bool) (base n : Nat) (owner : Option Nat) : Engine :=
  if acc then { e with aslots := (List.range n).foldl (fun m k => Map.set m (base + k) { Map.get {} m (base + k) with owner }) e.aslots }
  else { e with oslots := (List.range n).foldl (fun m k =>
    Map.set m (base + k) { Map.get {} m (base + k) with owner, issued := .bf16 }) e.oslots }

def execMclaim (x : MatW) (s : State) : Host.Outcome State Fault Refusal :=
  withIssue x.ctl [(x.a, 32)] s (d := .s 0) fun i s =>
    let id := i.g.ident
    let e := s.engine id.core
    let n := i.val x.a 32 (lowest i.lanes) (tailImm x.tail)
    let (lo, cnt) := heldSlots s id.team id.core x.acc
    let result (v : Nat) (p : Bool) (s : State) : Eff :=
      .ok (s.outstanding i.k 20 true ((lanesOf (destLanes x.d i.lanes)).flatMap fun l =>
        destWrites i.sp.wb x.d 32 l v ++ predWrites x.pd l p))
    whenLanes i s <|
      if i.matHolds s false [] then .hold s .issue
      else if n = 0 ∨ n > slotLimit x.acc then onceTrap i s 0x61
      else
        match (List.range (cnt + 1 - n)).find? fun k =>
            (List.range n).all fun j => !e.claimed id.team x.acc (lo + k + j) with
        | none => result 0xFFFFFFFF false s
        | some k =>
          let s := s.setEngine id.core (setOwner e x.acc (lo + k) n (some id.team))
          result (lo + k) true (enqueue i s [(0, .clear x.acc (lo + k) n)])

def execMrel (x : MatW) (s : State) : Host.Outcome State Fault Refusal :=
  withIssue x.ctl [(x.a, 32), (x.b, 32)] s (d := .s 0) fun i s =>
    let id := i.g.ident
    let e := s.engine id.core
    let base := i.val x.a 32 (lowest i.lanes) (tailImm x.tail)
    let n := i.val x.b 32 (lowest i.lanes) (tailImm x.tail)
    let names := (List.range (min n 128)).map fun k => (x.acc, base + k)
    whenLanes i s <|
      if i.matHolds s false [] || e.queue.any (fun q => shareSlot q.op.names names) then .hold s .issue
      else if n = 0 ∨ n > slotLimit x.acc then onceTrap i s 0x61
      else if names.all fun y => e.claimed id.team x.acc y.2 then .ok (s.setEngine id.core (setOwner e x.acc base n none))
      else onceTrap i s 0x62

def validGauge (w0 w1 : Nat) : Bool :=
  w0 / 2 ^ 26 == 0 && bits w1 5 3 == 0 && w1 / 2 ^ 12 == 0 && 4 ≤ w1 % 32 && w1 % 32 ≤ 24
    && (ladder (.ofCode (bits w1 8 2))).contains (.ofCode (bits w1 10 2))

def execMcfg (x : MatW) (s : State) : Host.Outcome State Fault Refusal :=
  withIssue x.ctl [(x.a, 32), (x.b, 32)] s (d := .s 0) fun i s =>
    let w0 := i.val x.a 32 (lowest i.lanes) (tailImm x.tail)
    let w1 := i.val x.b 32 (lowest i.lanes) (tailImm x.tail)
    whenLanes i s <|
      if i.matHolds s true [] then .hold s .issue
      else if !holder? i s then onceTrap i s 0x60
      else if !validGauge w0 w1 then onceTrap i s 0x61
      else .ok (s.updEngine i.g.ident.core fun e => { e with w0, w1 })

def execMstat (x : MatW) (s : State) : Host.Outcome State Fault Refusal :=
  withIssue x.ctl [(x.a, 32)] s (d := .s 0) fun i s =>
    let e := s.engine i.g.ident.core
    let item := i.val x.a 32 (lowest i.lanes) (tailImm x.tail)
    let v : Nat :=
      if item < 5 then e.counts.getD item 0 else if item = 8 then e.w0 + 2 ^ 32 * e.w1 else e.last.getD (item - 12) 0
    whenLanes i s <|
      if i.matHolds s true [] then .hold s .issue
      else if !holder? i s then onceTrap i s 0x60
      else if item > 15 ∨ (5 ≤ item ∧ item ≤ 7) ∨ (9 ≤ item ∧ item ≤ 11) ∨ (x.clr = true ∧ item ≥ 5) then onceTrap i s 0x61
      else
        let s := if x.clr then s.setEngine i.g.ident.core { e with counts := e.counts.set item 0 } else s
        .ok (s.outstanding i.k 20 true ((lanesOf (destLanes x.d i.lanes)).flatMap fun l => destWrites i.sp.wb x.d 64 l v))

/-! ### Slot-acting instructions: issue -/

/-- The slot operand of each quarter, checked (R260). -/
def slotTrap (i : Iss) (s : State) (acc : Bool) (slot : Nat → Nat) (qs : List (Nat × Nat × Lanes)) : Option Eff :=
  let e := s.engine i.g.ident.core
  wholeTrap i s 0x62 qs fun l => !e.claimed i.g.ident.team acc (slot l)

def resvTrap (i : Iss) (s : State) (qs : List (Nat × Nat × Lanes)) : Option Eff :=
  wholeTrap i s 0x60 qs fun _ => !holder? i s

/-- R282: the stride and address checks of MLD and MST; `rows` gives the element addresses of a quarter in row order. -/
def matAddrTrap (i : Iss) (s : State) (inC : Bool) (size : Nat) (stride : Nat → Int) (rows : Nat → List Nat)
    (qs : List (Nat × Nat × Lanes)) : Option Eff :=
  let csize := (s.team i.g.ident.team).csize
  quarterTrap s 0x64 qs (fun _ l => if stride l % size ≠ 0 then some 0 else none)
    <|> quarterTrap s 0x41 qs (fun _ l => if inC then none else (rows l).find? fun a => a ≥ 2 ^ 52)
    <|> quarterTrap s 0x42 qs (fun _ l => if inC then (rows l).find? fun a => a ≥ csize else none)
    <|> quarterTrap s 0x40 qs (fun _ l => (rows l).find? fun a => a % size ≠ 0)

/-- The base address of MLD and MST: the offset comes from AUX alone (R282). -/
def tileBase (i : Iss) (x : MatW) (o : Operand) (lane : Nat) : Nat :=
  let w := if x.inC then 32 else 64
  let off : Int := match x.tail with | .imm _ => 0 | .reg _ a => a.toInt
  wrap w ((i.val o w lane 0 : Nat) + off)

def tileStride (i : Iss) (x : MatW) (lane : Nat) : Int := sint 32 (i.val (tailOperand x.tail) 32 lane (tailImm x.tail))

/-- Addresses of the elements of a line or row set. -/
def rowElems (inC : Bool) (addr : Nat) (stride : Int) (rows n size : Nat) : List Nat :=
  (List.range rows).flatMap fun (r : Nat) => (List.range n).map fun (k : Nat) =>
    wrap (if inC then 32 else 64) ((addr : Int) + stride * (r : Nat) + ((k * size : Nat) : Int))

def tailSrc (t : Tail) : List (Operand × Nat) := match t with | .imm _ => [] | .reg c _ => [(c, 32)]

def execMld (x : MatW) (s : State) : Host.Outcome State Fault Refusal :=
  let fmt := x.fmt.toNat
  withIssue x.ctl ([(x.a, 32), (x.b, if x.inC then 32 else 64)] ++ tailSrc x.tail) s (who := quarterReaders) fun i s =>
    let qs := quartersOf i.lanes
    let slot (l : Nat) : Nat := i.val x.a 32 l (tailImm x.tail)
    let elems (l : Nat) : List Nat :=
      rowElems x.inC (tileBase i x x.b l) (tileStride i x l) (if x.tr then 64 else 16)
        (if fmt = 5 then 32 else if x.tr then 16 else 64) (matSize fmt)
    whenLanes i s <|
      if i.matHolds s false (qs.map fun q => (false, slot q.2.1)) then .hold s .issue
      else match resvTrap i s qs <|> slotTrap i s false slot qs
          <|> matAddrTrap i s x.inC (matSize fmt) (tileStride i x) elems qs with
      | some t => t
      | none =>
        let s := s.updEngine i.g.ident.core fun e =>
          { e with oslots := qs.foldl (fun m q => Map.set m (slot q.2.1) { Map.get {} m (slot q.2.1) with issued := retainedOf fmt }) e.oslots }
        .ok (enqueue i s (qs.map fun (q, l, _) => (q, .fill (slot l) fmt x.inC x.tr (tileBase i x x.b l) (tileStride i x l))))

/-- R283: an invalid view. -/
def viewBad (s : State) (ctx v : Nat) (stores : Bool) : Bool :=
  let cc := bits v 14 2
  bits v 16 16 != 0 || bit v 47 || bit v 63 || cc == 3 ||
    match s.liveSurf ctx (bits v 0 12) with
    | none => true
    | some f => f.samples != 0 || f.fmt == 8 || f.fmt == 9 || bits v 12 2 + 2 ^ cc > (channels f.fmt).length
        || (stores && !(1 ≤ f.fmt && f.fmt ≤ 6))

def viewTrap (i : Iss) (s : State) (view : Nat → Nat) (stores : Bool) (qs : List (Nat × Nat × Lanes)) : Option Eff :=
  wholeTrap i s 0x65 qs fun l => viewBad s i.g.ident.ctx (view l) stores

def execMlds (x : MatW) (s : State) : Host.Outcome State Fault Refusal :=
  let fmt := x.fmt.toNat
  withIssue x.ctl [(x.a, 32), (x.b, 64)] s (who := quarterReaders) fun i s =>
    let qs := quartersOf i.lanes
    let slot (l : Nat) : Nat := i.val x.a 32 l (tailImm x.tail)
    let view (l : Nat) : Nat := i.val x.b 64 l (tailImm x.tail)
    whenLanes i s <|
      if i.matHolds s false (qs.map fun q => (false, slot q.2.1)) then .hold s .issue
      else match resvTrap i s qs <|> slotTrap i s false slot qs <|> viewTrap i s view false qs with
      | some t => t
      | none =>
        let s := qs.foldl (fun s q => s.stampUse i.g.ident.ctx (bits (view q.2.1) 0 12)) s
        let s := s.updEngine i.g.ident.core fun e =>
          { e with oslots := qs.foldl (fun m q => Map.set m (slot q.2.1) { Map.get {} m (slot q.2.1) with issued := retainedOf fmt }) e.oslots }
        .ok (enqueue i s (qs.map fun (q, l, _) => (q, .fillSurf (slot l) fmt (view l))))

def execMzero (x : MatW) (s : State) : Host.Outcome State Fault Refusal :=
  withIssue x.ctl [(x.a, 32)] s (who := quarterReaders) fun i s =>
    let qs := quartersOf i.lanes
    let slot (l : Nat) : Nat := i.val x.a 32 l (tailImm x.tail)
    whenLanes i s <|
      if i.matHolds s false (qs.map fun q => (true, slot q.2.1)) then .hold s .issue
      else match resvTrap i s qs <|> slotTrap i s true slot qs with
      | some t => t
      | none => .ok (enqueue i s (qs.map fun (q, l, _) => (q, .zero (slot l))))

/-- MMA: the lowest failing quarter decides, with its first failing check (R285). -/
def execMma (x : MatW) (s : State) : Host.Outcome State Fault Refusal :=
  withIssue x.ctl [(x.a, 32)] s (who := quarterReaders) fun i s =>
    let qs := quartersOf i.lanes
    let e := s.engine i.g.ident.core
    let t (l : Nat) : Nat := i.val x.a 32 l (tailImm x.tail)
    let start : MFmt := .ofCode (bits e.w1 8 2)
    let team := i.g.ident.team
    let badSlot (l : Nat) : Bool :=
      bit (t l) 7 || bit (t l) 15 || bits (t l) 21 11 != 0 || !e.claimed team false (bits (t l) 0 7)
        || !e.claimed team false (bits (t l) 8 7) || !e.claimed team true (bits (t l) 16 5)
    let badFmt (l : Nat) : Bool :=
      [bits (t l) 0 7, bits (t l) 8 7].any fun n => !(Map.get {} e.oslots n).issued.permits start
    whenLanes i s <|
      if i.matHolds s false [] then .hold s .issue
      else match qs.findSome? fun (q, l, m) =>
          (if !holder? i s then some 0x60 else if badSlot l then some 0x62 else if badFmt l then some 0x63 else none).map fun c =>
            Eff.trap s c m 0 q with
      | some t => t
      | none =>
        .ok (enqueue i s (qs.map fun (q, l, _) => (q, .mma (bits (t l) 0 7) (bits (t l) 8 7) (bits (t l) 16 5) e.w0 e.w1 start 0)))

def execMst (x : MatW) (s : State) : Host.Outcome State Fault Refusal :=
  let fmt := x.fmt.toNat
  withIssue x.ctl ([(x.a, if x.inC then 32 else 64), (x.b, 32)] ++ tailSrc x.tail) s (who := quarterReaders) fun i s =>
    let qs := quartersOf i.lanes
    let slot (l : Nat) : Nat := i.val x.b 32 l (tailImm x.tail)
    let elems (l : Nat) : List Nat := rowElems x.inC (tileBase i x x.a l) (tileStride i x l) 16 16 (matSize fmt)
    whenLanes i s <|
      if i.matHolds s false (qs.map fun q => (true, slot q.2.1)) then .hold s .issue
      else match resvTrap i s qs <|> slotTrap i s true slot qs
          <|> matAddrTrap i s x.inC (matSize fmt) (tileStride i x) elems qs with
      | some t => t
      | none => .ok (enqueue i s (qs.map fun (q, l, _) => (q, .store (slot l) fmt x.inC (tileBase i x x.a l) (tileStride i x l))))

def execMsts (x : MatW) (s : State) : Host.Outcome State Fault Refusal :=
  withIssue x.ctl [(x.a, 32), (x.b, 64)] s (who := quarterReaders) fun i s =>
    let qs := quartersOf i.lanes
    let slot (l : Nat) : Nat := i.val x.a 32 l (tailImm x.tail)
    let view (l : Nat) : Nat := i.val x.b 64 l (tailImm x.tail)
    whenLanes i s <|
      if i.matHolds s false (qs.map fun q => (true, slot q.2.1)) then .hold s .issue
      else match resvTrap i s qs <|> slotTrap i s true slot qs <|> viewTrap i s view true qs with
      | some t => t
      | none =>
        let s := qs.foldl (fun s q => s.stampUse i.g.ident.ctx (bits (view q.2.1) 0 12)) s
        .ok (enqueue i s (qs.map fun (q, l, _) => (q, .storeSurf (slot l) (view l))))

def execMmov (x : MatW) (s : State) : Host.Outcome State Fault Refusal :=
  let w := if x.fmt = 6 then 64 else 32
  withIssue x.ctl [(x.a, 32), (x.b, 32)] s fun i s =>
    let e := s.engine i.g.ident.core
    let slot (l : Nat) : Nat := i.val x.a 32 l (tailImm x.tail)
    let row (l : Nat) : Nat := i.val x.b 32 l (tailImm x.tail)
    let ls := lanesOf i.lanes
    let lost := ls.filter fun l => !e.claimed i.g.ident.team true (slot l)
    let far := ls.filter fun l => row l > 15
    whenLanes i s <|
      if i.matHolds s false (ls.map fun l => (true, slot l)) then .hold s .issue
      else if !holder? i s then onceTrap i s 0x60
      else if !lost.isEmpty then .trap s 0x62 i.lanes 0 (lost.headD 0 / 8)
      else if !far.isEmpty then .trap s 0x61 (maskOf far) 0 (far.headD 0 / 8)
      else
        let seq := i.g.seq
        let s := s.outstanding i.k 20 false (ls.flatMap fun l => destWrites i.sp.wb x.d w l 0)
        .ok (enqueue i s [(0, .move x.fmt.toNat (ls.map fun l => (l, slot l, row l, 0)) seq)])

/-! ### Slot-acting operations: performance -/

/-- An operation is complete: it leaves the queue, splits in issue wait on the core may go on. -/
def State.finishOp (s : State) (core : Nat) (e : MEntry) : State :=
  let s := s.updEngine core fun g => { g with queue := g.queue.filter fun q => !(q.id == e.id && q.quarter == e.quarter) }
  (s.wake fun g => g.ident.core == core).dropTeam e.team

def State.setMark (s : State) (core : Nat) (e : MEntry) (mark : Nat) (wait : Option Nat) : State :=
  s.updEngine core fun g => { g with queue := g.queue.map fun q => if q.id == e.id && q.quarter == e.quarter then { q with mark, wait } else q }

/-- The engine meets a translation fault: a record with the next line or row as its mark (R264). -/
def State.matFault (s : State) (core : Nat) (e : MEntry) (cause sub va mark : Nat) : State :=
  let (tok, s) := s.report e.ctx { cause, src := 3, die := core / 128, core := core % 128, va, pmark := mark, sub }
  s.setMark core e mark (some tok)

def State.updOSlot (s : State) (core n : Nat) (f : OSlot → OSlot) : State :=
  s.updEngine core fun e => { e with oslots := Map.set e.oslots n (f (Map.get {} e.oslots n)) }

def State.updASlot (s : State) (core n : Nat) (f : ASlot → ASlot) : State :=
  s.updEngine core fun e => { e with aslots := Map.set e.aslots n (f (Map.get {} e.aslots n)) }

/-- Poison of a granule of a slot is set or cleared (R380). -/
def State.slotPoison (s : State) (core : Nat) (acc : Bool) (slot granule : Nat) (on : Bool) : State :=
  let k := slotGranule core acc slot granule
  { s with badSlot := if on then Map.set s.badSlot k 0x9F else Map.erase s.badSlot k }

def State.slotBad (s : State) (core : Nat) (acc : Bool) (slot granule : Nat) : Option Nat :=
  Map.find s.badSlot (slotGranule core acc slot granule)

def State.slotClean (s : State) (core : Nat) (acc : Bool) (slot : Nat) : State :=
  { s with badSlot := s.badSlot.filter fun p => p.1 / 256 != slotGranule core acc slot 0 / 256 }

/-- What a group observed through its engine's loads; its later loads, those of its engine among them, return nothing older
(R129). -/
def State.observed (s : State) (core : Nat) (e : MEntry) (w : Seen) : State :=
  let more (v : Seen) : Seen := { v with floor := joinMap v.floor w.floor }
  let s := s.updGroup e.group fun g =>
    if g.ident.uid = e.uid then { g with seen := more { g.seen with obs := joinRels g.seen.obs w.obs, view := g.seen.view.join w.view } } else g
  s.updEngine core fun g => { g with queue := g.queue.map fun q => if q.uid = e.uid ∧ q.id ≥ e.id then { q with seen := more q.seen } else q }

/-- Writes that the engine's load passes over: stores of the issuing group after the instruction (R264; a tile store has its
instruction's place), and what is newer than a later load of the group returned (R129). -/
def MEntry.late (e : MEntry) (a : Nat) (r : WriteRec) : Bool :=
  (r.group == e.uid && (match r.op with | some n => decide (n > e.id) | none => decide (r.id ≥ e.stamp)))
    || match Map.find e.upto a with | some n => decide (n < r.id) | none => false

/-- A load of the group by its engine: the pattern. -/
def engineRead (s : State) (core : Nat) (e : MEntry) (stamp loc n : Nat) : Nat × State :=
  let e := ((s.engine core).queue.find? fun q => q.id == e.id && q.quarter == e.quarter).getD e
  let (bs, w, s) := s.load core e.seen e.late stamp loc n
  (ofBytes bs, s.observed core e w)

/-- The group of an operation as its work is named. -/
def MEntry.ident (e : MEntry) (core : Nat) : Ident := { core, ctx := e.ctx, team := e.team, uid := e.uid, slot := e.group % 64 }

/-- Loads of the group in elements of n bytes from placed pieces: patterns, and which are poisoned. An element that fails at its
target is open (R378). -/
def loadElems (s : State) (core : Nat) (e : MEntry) (n : Nat) (ps : List (Nat × Nat × Nat × Nat)) : List (Nat × Bool) × State :=
  ps.foldl (fun (acc : List (Nat × Bool) × State) (loc, stamp, _, len) =>
    (List.range (len / n)).foldl (fun (acc : List (Nat × Bool) × State) j =>
      let a := loc + n * j
      let (gone, s) := acc.2.goesOut (acc.2.workOf (e.ident core) a)
      if gone then
        let (v, s) := engineRead s core e stamp a n
        (acc.1 ++ [(v, (s.poisonedAt a n).isSome)], s)
      else
        let (bs, s) := s.freeBytes n
        (acc.1 ++ [(ofBytes bs, false)], s)) acc) ([], s)

/-- The place in a slot of element j of line r of a fill. -/
def fillKey (fmt : Nat) (tr : Bool) (r j : Nat) : Nat := if fmt = 5 then 64 * r + 2 * j else if tr then 64 * j + r else 64 * r + j

def fillPattern (fmt v : Nat) : Nat := if fmt = 0 then (bf16.round .rne (f32.decode v)).1 else v

/-- The lines of a fill from line r on. -/
def fillLines : Nat → State → Nat → MEntry → Nat → Nat → Bool → Bool → Nat → Int → Nat → State
  | 0, s, core, e, slot, fmt, _, _, _, _, _ =>
    let s := s.updOSlot core slot fun o =>
      let o := { o with fmt := retainedOf fmt, dirty := List.range 8 }
      { o with se := o.scale }
    s.finishOp core e
  | left + 1, s, core, e, slot, fmt, inC, tr, addr, stride, r =>
    let size := matSize fmt
    let n := if fmt = 5 then 32 else (if tr then 16 else 64) * size
    match s.place e.ctx (some e.team) inC (matAddr inC addr stride r) n .read with
    | (.bad sub va, s) => s.matFault core e 0x34 sub va r
    | (.stall, s) => s.setMark core e r none
    | (.ok ps, s) =>
      let (vs, s) := loadElems s core e size ps
      let s := s.updOSlot core slot fun o =>
        { o with data := (vs.zipIdx).foldl (fun m (v, j) => Map.put 0 m (fillKey fmt tr r j) (fillPattern fmt v.1)) o.data }
      let s := (vs.zipIdx).foldl (fun (s : State) (v, j) => if v.2 then s.slotPoison core false slot (fillKey fmt tr r j / 4) true else s) s
      fillLines left s core e slot fmt inC tr addr stride (r + 1)

/-- The channel value as MLDS keeps it (R283). -/
def fillChannel (fmt : Nat) (v : FV) : Nat := if fmt = 3 then (f8.roundSat .rne v).1 else (bf16.round .rne v).1

/-- The pixels of an MLDS from pixel p on. -/
def fillPixels : Nat → State → Nat → MEntry → Nat → Nat → Nat → Nat → State
  | 0, s, core, e, slot, fmt, _, _ =>
    let s := s.updOSlot core slot fun o =>
      let o := { o with fmt := retainedOf fmt, dirty := List.range 8 }
      { o with se := o.scale }
    s.finishOp core e
  | left + 1, s, core, e, slot, fmt, view, p =>
    let c := 2 ^ bits view 14 2
    let i := p / (64 / c)
    let px := p % (64 / c)
    let x := bits view 32 15 + px
    let y := bits view 48 15 + i
    let put (s : State) (vs : List Nat) : State :=
      s.updOSlot core slot fun o => { o with data := (vs.zipIdx).foldl (fun m (v, j) => Map.put 0 m (64 * i + c * px + j) v) o.data }
    match s.surf? e.ctx (bits view 0 12) with
    | none => s.finishOp core e
    | some f =>
      if !f.inside x y then fillPixels left (put s (List.replicate c 0)) core e slot fmt view (p + 1)
      else
        let (st, tile, off) := f.locate x y 0
        match s.arriveTile e.ctx (bits view 0 12) st tile with
        | (false, s) => s.setMark core e p none
        | (true, s) =>
          let loc := f.loc st off
          let (v, s) := engineRead s core e 0 loc (sampleBytes f.fmt)
          let vs := ((decodeSample f.fmt v).drop (bits view 12 2)).take c
          let s := if (s.poisonedAt loc (sampleBytes f.fmt)).isSome then
              (List.range c).foldl (fun s j => s.slotPoison core false slot ((64 * i + c * px + j) / 4) true) s
            else s
          fillPixels left (put s (vs.map (fillChannel fmt))) core e slot fmt view (p + 1)

/-- An accumulator element as R286 converts it. -/
def storePattern (f : Fmt) (x : Nat) : Nat := (f.roundSat .rne (a40.decode x)).1

def storeFmt (fmt : Nat) : Fmt := match fmt with | 0 => f32 | 1 => bf16 | 2 => f16 | _ => f8

/-- The rows of an MST from row r on; of a row that meets a fault the lines before it are stored (R369). -/
def storeRows : Nat → State → Nat → MEntry → Nat → Nat → Bool → Nat → Int → Nat → State
  | 0, s, core, e, _, _, _, _, _, _ => s.finishOp core e
  | left + 1, s, core, e, slot, fmt, inC, addr, stride, r =>
    let size := matSize fmt
    let a := matAddr inC addr stride r
    let (ps, out, s) := s.placeLines e.ctx (some e.team) inC a (16 * size) .write
    let acc := (Map.get {} (s.engine core).aslots slot).data
    let bs := (List.range 16).flatMap fun j => toBytes size (storePattern (storeFmt fmt) (Map.get 0 acc (16 * r + j)))
    let s := storePieces s (e.ident core) e.seen bs ps
    let s := if inC then s.touchC e.team a (16 * size) else s
    let s := (List.range 16).foldl (fun (s : State) j =>
      if (s.slotBad core true slot (16 * r + j)).isSome then
        ps.foldl (fun s (loc, _, off, len) => if off ≤ size * j && size * j < off + len then s.setPoison (loc + size * j - off) size 0x9F else s) s
      else s) s
    match out with
    | .bad sub va => s.matFault core e 0x35 sub va r
    | .stall => s.setMark core e r none
    | .ok _ => storeRows left s core e slot fmt inC addr stride (r + 1)

/-- The pixels of an MSTS from pixel p on: the channels that it writes of a pixel lie side by side, and are one store (R286). -/
def storePixels : Nat → State → Nat → MEntry → Nat → Nat → Nat → State
  | 0, s, core, e, _, _, _ => s.finishOp core e
  | left + 1, s, core, e, slot, view, p =>
    let c := 2 ^ bits view 14 2
    let i := p / (16 / c)
    let px := p % (16 / c)
    let x := bits view 32 15 + px
    let y := bits view 48 15 + i
    match s.surf? e.ctx (bits view 0 12) with
    | none => s.finishOp core e
    | some f =>
      if !f.inside x y then storePixels left s core e slot view (p + 1)
      else
        let (st, tile, off) := f.locate x y 0
        match s.arriveTile e.ctx (bits view 0 12) st tile with
        | (false, s) => s.setMark core e p none
        | (true, s) =>
          let acc := (Map.get {} (s.engine core).aslots slot).data
          let conv (j : Nat) : Nat :=
            match (channels f.fmt)[bits view 12 2 + j]? with
            | some (_, _, .flt g) => storePattern g (Map.get 0 acc (16 * i + c * px + j))
            | _ => 0
          let parts := channelStores f.fmt 0 ((List.range c).map fun j => (bits view 12 2 + j, conv j))
          let s := s.storeBy core e.seen 0 (f.loc st (off + (parts.headD (0, [])).1)) (parts.flatMap (·.2)) true
          let s := if (List.range c).any fun j => (s.slotBad core true slot (16 * i + c * px + j)).isSome then
              s.setPoison (f.loc st off) (sampleBytes f.fmt) 0x9F else s
          storePixels left s core e slot view (p + 1)

/-- MMOV reads its elements: the result may land from then on. A poisoned element kills the group (R380). -/
def performMove (s : State) (core : Nat) (e : MEntry) (fmt : Nat) (reads : List (Nat × Nat × Nat × Nat)) (seq : Nat) : State :=
  let elem (r : Nat × Nat × Nat × Nat) : Nat := 16 * r.2.2.1 + r.1 % 16
  let vals := reads.flatMap fun r =>
    let x := Map.get 0 (Map.get {} (s.engine core).aslots r.2.1).data (elem r)
    if fmt = 6 then [x % 2 ^ 32, x / 2 ^ 32] else [storePattern f32 x]
  let dead := reads.findSome? fun r => s.slotBad core true r.2.1 (elem r)
  let s := s.finishOp core e
  match s.group e.group with
  | none => s
  | some g =>
    if g.ident.uid ≠ e.uid then s
    else match dead with
      | some c => s.kill e.group c 0
      | none => s.setGroup e.group { g with outst := g.outst.map fun o =>
          if o.seq = seq then { o with ready := true, writes := (o.writes.zip vals).map fun (w, v) => { w with val := BitVec.ofNat 32 v } } else o }

/-- Performs an operation that is not an MMA, from its mark on. -/
def performOp (s : State) (core : Nat) (e : MEntry) : State :=
  match e.op with
  | .clear acc base n =>
    let s := (List.range n).foldl (fun s k =>
      let s := s.slotClean core acc (base + k)
      if acc then s.updASlot core (base + k) fun a => { a with data := [], dirty := [] }
      else s.updOSlot core (base + k) fun o => { o with fmt := .bf16, se := 0, data := [], dirty := [] }) s
    s.finishOp core e
  | .zero slot => ((s.slotClean core true slot).updASlot core slot fun a => { a with data := [] }).finishOp core e
  | .fill slot fmt inC tr addr stride =>
    let s := if e.mark = 0 then s.slotClean core false slot else s
    fillLines ((if tr then 64 else 16) - e.mark) s core e slot fmt inC tr addr stride e.mark
  | .fillSurf slot fmt view =>
    let s := if e.mark = 0 then s.slotClean core false slot else s
    fillPixels (16 * (64 / 2 ^ bits view 14 2) - e.mark) s core e slot fmt view e.mark
  | .store slot fmt inC addr stride => storeRows (16 - e.mark) s core e slot fmt inC addr stride e.mark
  | .storeSurf slot view => storePixels (16 * (16 / 2 ^ bits view 14 2) - e.mark) s core e slot view e.mark
  | .move fmt reads seq => performMove s core e fmt reads seq
  | .mma .. => s

/-- MATRIX_FILL_STORE_DONE: the engine performs an operation of the instruction that stands at place idx of its queue. -/
def execMatrixFillStoreDone (core idx : Nat) (s : State) : Host.Outcome State Fault Refusal :=
  let g := s.engine core
  match g.instrs[idx]? with
  | none => .next s
  | some n =>
    match g.queue.find? fun e => e.id == n && !e.op.isMma && Engine.mayRun g.queue e with
    | some e => .next (performOp s core e)
    | none => .next s

def incCount (cs : List Nat) (k : Nat) : List Nat := cs.set k ((cs.getD k 0 + 1) % 2 ^ 64)

/-- One pass of a quarter op: squashed to the next format of its ladder, or committed (R269). -/
def runPass (s : State) (core : Nat) (e : MEntry) (a b c w0 w1 : Nat) (f : MFmt) (n : Nat) : State :=
  let g := s.engine core
  let oa := Map.get {} g.oslots a
  let ob := Map.get {} g.oslots b
  let start := ladder (.ofCode (bits w1 8 2))
  let top := ceilingOf (.ofCode (bits w1 8 2)) (.ofCode (bits w1 10 2)) oa ob
  let (res, sat, und, can) := quarterPass f (w1 % 32) oa ob (Map.get {} g.aslots c)
  let past := sat > bits w0 0 8 || und > bits w0 8 10 || can > bits w0 18 8
  let counts := incCount g.counts 0
  if past && f != top then
    s.setEngine core { g with
      counts := incCount counts (1 + f.code),
      queue := g.queue.map fun q => if q.id == e.id && q.quarter == e.quarter then
          { q with op := .mma a b c w0 w1 ((start.drop (start.idxOf f + 1)).headD .bf16) (n + 1) } else q }
  else
    let bad (l : Nat) (slot : Nat) : Bool := (List.range 16).any fun j => (s.slotBad core false slot (16 * l + j)).isSome
    let poison := (List.range 16).flatMap fun i => (List.range 16).filterMap fun j =>
      if bad i a || bad j b || (s.slotBad core true c (16 * i + j)).isSome then some (16 * i + j) else none
    let last := f.code + (n + 1) * 2 ^ 2 + past.toNat * 2 ^ 4 + 2 ^ 5 + sat % 2 ^ 16 * 2 ^ 16 + und % 2 ^ 16 * 2 ^ 32 + can % 2 ^ 9 * 2 ^ 48
    let s := s.setEngine core { g with
      counts := if past then incCount counts 4 else counts,
      last := g.last.set e.quarter last }
    let s := s.updASlot core c fun o =>
      { o with data := (res.zipIdx).foldl (fun m (v, k) => Map.put 0 m k v) [], dirty := List.range 5 }
    let s := poison.foldl (fun s k => s.slotPoison core true c k true) (s.slotClean core true c)
    s.finishOp core e

/-- MMA_PASS: a pass of the quarter op of a quarter of the instruction at place idx of the engine's queue ends. A context
that is being saved runs no pass (R273). -/
def execMmaPass (core idx quarter : Nat) (s : State) : Host.Outcome State Fault Refusal :=
  let g := s.engine core
  match g.instrs[idx]? with
  | none => .next s
  | some n =>
    match g.queue.find? fun e => e.id == n && e.quarter == quarter && Engine.mayRun g.queue e && (s.ctx e.ctx).state != .saving with
    | some e => match e.op with
      | .mma a b c w0 w1 f n => .next (runPass s core e a b c w0 w1 f n)
      | _ => .next s
    | none => .next s

end Sys2Proof.Machine
end

