-- ==== Sys2Proof/Machine/Traps.lean ====
section
/-! DEFINITION. TRAP, BRK, ERET (R375, R376), entry to the handler (R373) and its end. -/
namespace Sys2Proof.Machine

def execTrap (x : SysW) (s : State) : Host.Outcome State Fault Refusal :=
  withIssue x.ctl [] s fun i s => whenLanes i s (.after s (0xA8 + x.arg.toNat % 8) i.lanes 0 x.imm.toNat)

def execBrk (x : SysW) (s : State) : Host.Outcome State Fault Refusal :=
  withIssue x.ctl [] s fun i s => whenLanes i s (.after s 0xA4 i.lanes 0 x.imm.toNat)

/-- A group's stores to a range of global memory, or the fault or stall that it meets; nothing is stored then. -/
inductive Done where
  | ok (s : State)
  | bad (cause va : Nat) (s : State)
  | stall (s : State)
  deriving DecidableEq, Repr

/-- Stores parts of one record, all translated before any is performed. -/
def State.storeParts (s : State) (g : Group) (base : Nat) (parts : List (Nat × List Byte)) : Done :=
  let r := parts.foldl (fun (acc : Option (Nat × Nat) × Bool × List (List Byte × List (Nat × Nat × Nat × Nat)) × State) p =>
    match acc with
    | (none, false, ps, s) =>
      match s.mapRange g.ident.ctx (base + p.1) p.2.length .write with
      | (.ok m, s) => (none, false, ps ++ [(p.2, m)], s)
      | (.bad c va, s) => (some (c, va), false, ps, s)
      | (.stall, s) => (none, true, ps, s)
    | acc => acc) (none, false, [], s)
  match r with
  | (some (c, va), _, _, s) => .bad c va s
  | (none, true, _, s) => .stall s
  | (none, false, ps, s) => .ok (ps.foldl (fun s p => storePieces s g.ident g.seen p.1 p.2) s)

/-- Poison of the registers of a group record that has been stored at BSL. -/
def State.poisonRecord (s : State) (g : Group) : State :=
  if g.bad.isEmpty then s
  else match s.mapRange g.ident.ctx g.ident.bsl 0x4A0 .write with
    | (.ok ps, s) => s.poisonOut g ps recordCells
    | (_, s) => s

/-- Parks a group on a Bobbin fault (R364: SRC 1). -/
def State.bobbinFault (s : State) (k slot cause va sub : Nat) (r : Retry) : State :=
  match s.group k with
  | none => s
  | some g => s.parkFault { k, slot, g } { cause, src := 1, va, sub } r

/-- Handler entry (R373): for the first pending trap, when every outstanding result has landed. -/
def execHandlerEntry (g : Nat) (s : State) : Host.Outcome State Fault Refusal :=
  match s.group g with
  | none => .next s
  | some gr =>
    match gr.traps with
    | [] => .next s
    | t :: ts =>
      if gr.handler.isSome || gr.fault.isSome || gr.saving || gr.phase != .active || !gr.outst.isEmpty || gr.stalled || s.running g
          || !s.backingClear gr then .next s
      else if (Map.find gr.live t.slot).isNone then .next ((s.setGroup g { gr with traps := ts }).settle g)
      else match s.storeParts gr gr.ident.bsl gr.recordFields with
        | .ok s => .next ((s.poisonRecord gr).updGroup g (fun gr => gr.enterHandler (s.ctx gr.ident.ctx).rc.savepc t))
        | .bad c va s => .next (s.bobbinFault g t.slot 0x30 va c .entry)
        | .stall s => .next s

/-- The end of an ordinary handler (R374, R375): the reload, then the next pending trap or settle. A fault on the reload
parks the group. -/
def State.endHandler (s : State) (k slot : Nat) : State :=
  match s.group k with
  | none => s
  | some g =>
    if !s.backingClear g then s
    else match s.mapRange g.ident.ctx g.ident.bsl 0x4C8 .read with
    | (.ok ps, s) =>
      let (bs, w, s) := loadPieces s g.ident true g.seen ps
      (s.setGroup k ((({ g with seen := w }.reload bs).poisonIn s ps recordCells).leaveHandler slot)).settle k
    | (.bad c va, s) =>
      let s := s.updGroup k fun g => g.updLive slot fun e => { e with fault := true }
      s.bobbinFault k slot 0x31 va c .reissue
    | (.stall, s) => s

/-- ERET (R375): at once when nothing is outstanding, else when the last result has landed. -/
def execEret (x : SysW) (s : State) : Host.Outcome State Fault Refusal :=
  withIssue x.ctl [] s fun i s =>
    let cause := (i.g.handler.map (·.cause)).getD 0
    whenLanes i s <|
      if !i.sp.priv || cause == 0xA1 || cause == 0xA3 then .trap s 0x10 i.lanes 0 0
      else if i.g.sr.trappc % 4 ≠ 0 ∨ i.g.sr.trappc ≥ 2 ^ 52 then .trap s 0x18 i.lanes 0 0
      else .wait s (.completion .handlerEnd)

end Sys2Proof.Machine
end

