-- ==== Sys2Proof/Machine/Control.lean ====
section
/-! DEFINITION. Control instructions (R208 to R216) and special registers (R79 to R81, R217 to R219). -/
namespace Sys2Proof.Machine

/-- The next PC and window base of every lane of the split when the lanes of `go` take f and the others continue. -/
def nextLanes (i : Iss) (go : Lanes) (f : Nat → Nat) : List (Nat × Nat × Nat) :=
  (lanesOf i.sp.mask).map fun l => (l, if hasLane go l then f l else i.sp.pc + 12, i.sp.wb)

def execNop (x : SysW) (s : State) : Host.Outcome State Fault Refusal := withIssue x.ctl [] s fun _ s => .ok s

/-- The target of a relative branch (R212). -/
def branchTarget (pc : Nat) (imm : BitVec 32) : Int := pc + 12 * imm.toInt

def execBra (x : SysW) (s : State) : Host.Outcome State Fault Refusal :=
  withIssue x.ctl [] s fun i s =>
    let t := branchTarget i.sp.pc x.imm
    whenLanes i s <|
      if t < 0 ∨ t ≥ 2 ^ 52 then .trap s 0x41 i.lanes (wrap 64 t) 0
      else .move s (partsOf (nextLanes i i.lanes fun _ => t.toNat)) true

def execBrx (x : SysW) (s : State) : Host.Outcome State Fault Refusal :=
  withIssue x.ctl [(x.a, 64)] s fun i s =>
    let t (l : Nat) := i.g.operand i.sp.wb x.a 64 l id 0
    let far := (lanesOf i.lanes).filter fun l => t l ≥ 2 ^ 52
    let odd := (lanesOf i.lanes).filter fun l => t l % 4 != 0
    whenLanes i s <|
      if !far.isEmpty then .trap s 0x41 (maskOf far) (t (far.headD 0)) 0
      else if !odd.isEmpty then .trap s 0x00 (maskOf odd) (t (odd.headD 0)) 0
      else .move s (partsOf (nextLanes i i.lanes t)) true

/-- MERGE parks with its PC at itself; settle releases it (R208, R214). -/
def execMerge (x : SysW) (s : State) : Host.Outcome State Fault Refusal :=
  withIssue x.ctl [] s fun i s => whenLanes i s (.wait s .merge)

/-- EXIT (R215). When it leaves the handler's split without a lane, the handler ends as ERET ends it (R374): here the split
waits with no lane. -/
def execExit (x : SysW) (s : State) : Host.Outcome State Fault Refusal :=
  withIssue x.ctl [] s fun i s =>
    let rest := i.sp.mask &&& ~~~ i.lanes
    whenLanes i s <|
      let s := s.arriveAtExit i.k (i.g.lanes &&& ~~~ i.lanes)
      if rest = 0 ∧ (i.g.handler.isSome ∧ i.sp.priv = true ∧ (i.g.handler.map (·.cause)) ≠ some 0xA1 ∧ (i.g.handler.map (·.cause)) ≠ some 0xA3) then
        .park (s.updGroup i.k fun g => g.updLive i.slot fun e => { e with mask := 0 }) (.completion .handlerEnd)
      else .move s [{ pc := i.sp.pc + 12, wb := i.sp.wb, mask := rest }] (rest == 0)

def execYield (x : SysW) (s : State) : Host.Outcome State Fault Refusal :=
  withIssue x.ctl [] s fun i s =>
    whenLanes i s (.endRun (s.updGroup i.k fun g => g.updLive i.slot fun e => { e with yielded := true }))

/-! ### Special registers -/

/-- The value that SREAD gives (R79, R218). -/
def State.special (s : State) (i : Iss) (n : Nat) : Nat :=
  let id := i.g.ident
  let r := i.g.sr
  match n with
  | 0x00 => i.sp.mask.toNat
  | 0x01 => i.slot
  | 0x02 => i.sp.wb
  | 0x03 => i.g.spr
  | 0x04 => id.bsp
  | 0x05 => id.bsl
  | 0x06 => r.stab
  | 0x07 => r.stabn
  | 0x08 => r.stabs
  | 0x10 => id.gid
  | 0x11 => id.x
  | 0x12 => id.y
  | 0x13 => id.z
  | 0x14 => id.launch
  | 0x15 => id.core % 128
  | 0x16 => id.core % 128 / 4
  | 0x17 => id.core / 128
  | 0x20 => r.icount
  | 0x21 => r.fpctl
  | 0x22 => r.fpflags
  | 0x23 => r.barstat
  | 0x30 => r.trapcause
  | 0x31 => r.trappc
  | 0x32 => r.trapmask.toNat
  | 0x33 => r.trapaddr
  | 0x34 => r.trapaux
  | 0x40 => (s.port (s.ctx id.ctx).port).now
  | 0x50 => (s.ctx id.ctx).keyId
  | _ => 0

/-- The writes of a special register's value to D (R218). -/
def specialWrites (i : Iss) (d : Operand) (lanes : Lanes) (n v : Nat) : List RegWrite :=
  (lanesOf (destLanes d lanes)).flatMap fun l => destWrites i.sp.wb d (srnWidth n) l v

/-- SREAD. A read of FPFLAGS waits in its park for every outstanding result. -/
def execSread (x : SysW) (s : State) : Host.Outcome State Fault Refusal :=
  let n := x.arg.toNat
  withIssue x.ctl [] s fun i s =>
    whenLanes i s <|
      if n = 0x22 then .park s (.completion (.readFlags x.d (destLanes x.d i.lanes)))
      else .ok (s.landNow i.k (specialWrites i x.d i.lanes n (s.special i n)))

/-- What SWRITE does to a register's value x (R219, R371): a cause, or the change. -/
def swriteOp (i : Iss) (n x : Nat) : Except Nat (Spr → Spr) :=
  match n with
  | 0x06 => .ok fun r => { r with stab := x / 16 * 16 }
  | 0x07 => if x > 1048576 then .error 0x03 else .ok fun r => { r with stabn := x }
  | 0x08 => if x % 16 ≠ 0 ∨ x < 16 ∨ x > 256 then .error 0x03 else .ok fun r => { r with stabs := x }
  | 0x21 => .ok fun r => { r with fpctl := x % 64 }
  | 0x31 => .ok fun r => { r with trappc := x }
  | 0x32 => if BitVec.ofNat 32 x &&& ~~~ i.sp.mask ≠ 0 then .error 0x19 else .ok fun r => { r with trapmask := BitVec.ofNat 32 x }
  | _ => .ok fun r => r

def execSwrite (x : SysW) (s : State) : Host.Outcome State Fault Refusal :=
  let n := x.arg.toNat
  withIssue x.ctl [(x.a, srnWidth n)] s (d := .s 0) fun i s =>
    whenLanes i s <|
      let v := i.g.operand i.sp.wb x.a (srnWidth n) (lowest i.lanes) id x.imm.toNat
      if n = 0x22 then .park s (.completion (.writeFlags (v % 64)))
      else match swriteOp i n v with
        | .error 0x03 => .trap s 0x03 i.sp.mask 0 0xE1
        | .error c => .trap s c i.lanes 0 0
        | .ok f => .ok (s.updGroup i.k fun g => { g with sr := f g.sr })

end Sys2Proof.Machine
end

