-- ==== Sys2Proof/Machine/Window.lean ====
section
/-! DEFINITION. The register window (R220 to R239): CALL, CALLI, RET, spills and fills. -/
namespace Sys2Proof.Machine

/-- The bytes of a row in its backing: lane l's registers at 32 l (R228). -/
def Group.rowBytes (g : Group) (k : Nat) : List Byte :=
  (List.range 256).flatMap fun j => toBytes 4 (g.readReg (rowKey k (j % 8) (j / 8))).toNat

/-- A row filled from its backing. -/
def Group.fillRow (g : Group) (k : Nat) (bs : List Byte) : Group :=
  (List.range 256).foldl (fun (g : Group) j =>
    g.writeReg (rowKey k (j % 8) (j / 8)) (BitVec.ofNat 32 (recBits bs (4 * j) 4))) g

def Group.rowAddr (g : Group) (k : Nat) : Nat := g.ident.bsp + 1024 * k

/-- Translates every row; the first failing row's cause and address. -/
def mapRows (s : State) (g : Group) (kind : AccKind) : List Nat → List (Nat × List (Nat × Nat × Nat × Nat)) →
    Except (Option (Nat × Nat)) (List (Nat × List (Nat × Nat × Nat × Nat))) × State
  | [], acc => (.ok acc.reverse, s)
  | k :: ks, acc =>
    match s.mapRange g.ident.ctx (g.rowAddr k) 1024 kind with
    | (.ok ps, s) => mapRows s g kind ks ((k, ps) :: acc)
    | (.bad c _, s) => (.error (some (c, g.rowAddr k)), s)
    | (.stall, s) => (.error none, s)

/-- A write outstanding to one of the rows (R227). -/
def Group.boundTo (g : Group) (rows : List Nat) : Bool :=
  g.outst.any fun o => o.writes.any fun w => w.key ≥ 1024 && rows.contains ((w.key - 1024) / 256)

/-- Stores rows to their backing, and loads rows from it, as accesses of the group (R230). -/
def State.spillRows (s : State) (g : Group) (rows : List (Nat × List (Nat × Nat × Nat × Nat))) : State :=
  rows.foldl (fun s (k, ps) => (storePieces s g.ident g.seen (g.rowBytes k) ps).poisonOut g ps (rowCells k)) s

def State.fillRows (s : State) (g : Group) (rows : List (Nat × List (Nat × Nat × Nat × Nat))) : Group × State :=
  rows.foldl (fun (acc : Group × State) (k, ps) =>
    let (bs, w, s) := loadPieces acc.2 acc.1.ident true acc.1.seen ps
    ((({ acc.1 with seen := w }).fillRow k bs).poisonIn s ps (rowCells k), s)) (g, s)

/-- The writes of a lane that calls (R223, R237): the link in `b`, and in `c` bit 0, then PARAMW and PARAM. -/
def slideWrites (o : LaneOp) : List RegWrite :=
  if o.c = 0 then []
  else [{ key := rowKey o.y 6 o.lane, lane := o.lane, val := BitVec.ofNat 32 o.b },
        { key := rowKey o.y 7 o.lane, lane := o.lane, val := BitVec.ofNat 32 (o.b / 2 ^ 32) }]
    ++ (if bit o.c 1 then [{ key := rowKey o.y 5 o.lane, lane := o.lane, val := BitVec.ofNat 32 (o.c / 4) }] else [])

/-- A Bobbin fault of a slide: nothing commits, TRAPADDR holds the row (R232). -/
def bobbin (i : Iss) (s : State) (cause sub va : Nat) : Eff :=
  .fault (s.updGroup i.k fun g => { g with sr := { g.sr with trapaddr := va } }) { cause, src := 1, va, sub } .reissue false

/-- What the ring does for a slide: each lane of the split with its next PC in x and window base in y. -/
def slideAdjust (i : Iss) (h : Held) : Adjust :=
  adjust i.g.spr i.g.ident.rows
    ((partsOf (h.ops.map fun o => (o.lane, o.x, o.y))).map (·.wb) ++ (i.g.ents.filter (·.1 != i.slot)).map (·.2.wb))

/-- R233 steps 3 to 6 for a slide. -/
def slide (i : Iss) (s : State) (h : Held) : Eff :=
  let i : Iss := { i with g := (s.group i.k).getD i.g }
  match slideAdjust i h with
  | .defer => .hold s .span
  | .commit spills fills spr dropped =>
    match spills.find? fun k => i.g.rowAddr (k + 1) > i.g.ident.bsl with
    | some k => .trap s 0x13 h.lanes (i.g.rowAddr k) 0
    | none =>
      if i.g.boundTo spills then .hold s (.transfer h)
      else
        match mapRows s i.g .write spills [] with
        | (.error (some (c, va)), s) => bobbin i s 0x30 c va
        | (.error none, s) => .hold s (.transfer h)
        | (.ok sp, s) =>
          match mapRows s i.g .read fills [] with
          | (.error (some (c, va)), s) => bobbin i s 0x31 c va
          | (.error none, s) => .hold s (.transfer h)
          | (.ok fl, s) =>
            let s := s.spillRows i.g sp
            let (g, s) := s.fillRows i.g fl
            let gone := spills ++ fills ++ dropped
            let g := { g with spr, dirty := g.dirty.filter fun k => !gone.contains k }
            let s := s.setGroup i.k (g.writeAll (h.ops.flatMap slideWrites))
            .move s (partsOf (h.ops.map fun o => (o.lane, o.x, o.y))) true

/-- A row that a slide spills or fills meets a tile store of the group that is not performed. -/
def State.rowsMet (s : State) (i : Iss) (h : Held) : Bool :=
  match slideAdjust i h with
  | .commit spills fills _ _ => (s.tileStores i.g).any fun t => (spills ++ fills).any fun k => t.hits false (i.g.rowAddr k) 1024
  | .defer => false

/-- A slide at its issue: its spills and fills follow the group's earlier tile stores to the same bytes (R230, R264; log
entry 46). -/
def issueSlide (i : Iss) (s : State) (h : Held) : Eff := if s.rowsMet i h then .hold s .issue else slide i s h

/-- The link of a call with slide n (R223). -/
def linkOf (pc n : Nat) : Nat := (pc + 12) % 2 ^ 52 + n * 2 ^ 60

/-- CALL (R235). A privileged split raises 0x11 (R371). -/
def execCall (x : SysW) (s : State) : Host.Outcome State Fault Refusal :=
  withIssue x.ctl [] s fun i s =>
    let n := x.arg.toNat % 8
    let t := branchTarget i.sp.pc x.imm
    whenLanes i s <|
      if i.sp.priv then .trap s 0x11 i.lanes 0 0
      else if t < 0 ∨ t ≥ 2 ^ 52 then .trap s 0x41 i.lanes (wrap 64 t) 0
      else
        issueSlide i s { instr := .call x, pc := i.sp.pc, lanes := i.lanes,
                         ops := (lanesOf i.sp.mask).map fun l =>
                           if hasLane i.lanes l then { lane := l, x := t.toNat, y := i.sp.wb + n, b := linkOf i.sp.pc n, c := 1 }
                           else { lane := l, x := i.sp.pc + 12, y := i.sp.wb } }

/-- RET: a lane's link, and whether it fails R224. -/
def retLink (i : Iss) (l : Nat) : Nat :=
  (i.g.readReg (vecKey i.sp.wb 14 l)).toNat + 2 ^ 32 * (i.g.readReg (vecKey i.sp.wb 15 l)).toNat

def badLink (wb link : Nat) : Bool :=
  let n := bits link 60 4
  bits link 52 8 != 0 || n == 0 || n > 7 || n > wb || link % 4 != 0

/-- RET (R238). -/
def execRet (x : SysW) (s : State) : Host.Outcome State Fault Refusal :=
  withIssue x.ctl [(.v 14, 64)] s fun i s =>
    let bad := (lanesOf i.lanes).filter fun l => badLink i.sp.wb (retLink i l)
    whenLanes i s <|
      if i.sp.priv then .trap s 0x11 i.lanes 0 0
      else if !bad.isEmpty then .trap s 0x15 (maskOf bad) (retLink i (bad.headD 0)) 0
      else
        issueSlide i s { instr := .ret x, pc := i.sp.pc, lanes := i.lanes,
                         ops := (lanesOf i.sp.mask).map fun l =>
                           if hasLane i.lanes l then
                             { lane := l, x := bits (retLink i l) 0 52, y := i.sp.wb - bits (retLink i l) 60 4 }
                           else { lane := l, x := i.sp.pc + 12, y := i.sp.wb } }

/-- A shader-table record (R236) as a number; malformed. -/
def badRecord (r : Nat) : Bool :=
  let e := bits r 0 64
  e != 0 && (e % 4 != 0 || e ≥ 2 ^ 52 || bits r 64 8 == 0 || bits r 64 8 > 7 || bits r 73 7 != 0 || bits r 112 16 != 0)

inductive RecLoad where
  | ok (rs : List (Nat × Nat)) (w : Seen) (s : State)     -- index, record
  | bad (i cause va : Nat) (s : State)
  | stall (s : State)
  | dead (cause loc : Nat)
  deriving DecidableEq, Repr

def Group.recordAddr (g : Group) (j : Nat) : Nat := g.sr.stab + j * g.sr.stabs

/-- Loads the record of each index in the order given (R237). -/
def loadRecords (g : Group) : List Nat → List (Nat × Nat) → Seen → State → RecLoad
  | [], acc, w, s => .ok acc w s
  | j :: js, acc, w, s =>
    match s.mapRange g.ident.ctx (g.recordAddr j) 16 .read with
    | (.ok ps, s) =>
      match ps.findSome? fun (loc, _, _, n) => (s.readKills (some g.ident.core) g.ident.ctx loc n).map fun c => (c, loc) with
      | some (c, loc) => .dead c loc
      | none =>
        let (bs, w, s) := loadPieces s g.ident false w ps
        loadRecords g js (acc ++ [(j, ofBytes bs)]) w s
    | (.bad c va, s) => .bad j c va s
    | (.stall, s) => .stall s

/-- CALLI (R237), for the indices of its executing lanes and the table's registers as read at issue (R219). When several records lie at or
above 2^52, the 0x41 is that of the record which the lowest such lane names (DESIGN CHOICE, log entry 47). At its `issue` the loads of its
records follow the group's tile stores to them (R264); a slide whose rows meet one waits with the records it has read. -/
def calli (issue : Bool) (i : Iss) (s : State) (x : SysW) (h : Held) : Eff :=
  let o := h.ops.headD {}
  let sr : Spr := { i.g.sr with stab := o.y, stabs := o.b, stabn := o.c }
  let idx (l : Nat) : Nat := ((h.ops.find? (·.lane == l)).map (·.x)).getD 0
  let ls := lanesOf h.lanes
  let beyond := ls.filter fun l => idx l ≥ sr.stabn
  let named (j : Nat) : Lanes := maskOf (ls.filter fun l => idx l == j)
  let g : Group := { i.g with sr }
  let js := (ls.map idx).foldl (fun js j => if js.contains j then js else js ++ [j]) []
  if !beyond.isEmpty then .trap s 0x14 (maskOf beyond) (idx (beyond.headD 0)) 0
  else match js.find? fun j => g.recordAddr j ≥ 2 ^ 52 with
  | some j => .trap s 0x41 (named j) 0 0
  | none =>
    (if issue then clearOfTiles i s false 16 (ls.map fun l => g.recordAddr (idx l)) else fun e => e) <|
    match loadRecords g js [] i.g.seen s with
    | .bad j c va s =>
      .fault (s.updGroup i.k fun g => { g with sr := { g.sr with trapmask := named j } }) { cause := c, va, lanes := (named j).toNat } .reissue false
    | .stall s => .hold s (.transfer h)
    | .dead c loc => .kill s c loc
    | .ok rs w s =>
      let rec_ (l : Nat) : Nat := (rs.lookup (idx l)).getD 0
      let bad := ls.filter fun l => badRecord (rec_ l)
      let s := if w = i.g.seen then s else s.updGroup i.k fun g => { g with seen := w }
      if !bad.isEmpty then
        .trap s 0x16 (maskOf bad) (g.recordAddr ((bad.map idx).foldl min (idx (bad.headD 0)))) 0
      else
        let op (l : Nat) : LaneOp :=
          let r := rec_ l
          let n := bits r 64 8
          if hasLane h.lanes l && bits r 0 64 != 0 then
            { lane := l, x := bits r 0 64, y := i.sp.wb + n, b := linkOf i.sp.pc n,
              c := 1 + (if bit r 72 then 2 + 4 * bits r 80 32 else 0) }
          else { lane := l, x := i.sp.pc + 12, y := i.sp.wb }
        let h : Held := { h with instr := .call x, ops := (lanesOf i.sp.mask).map op }
        if s.rowsMet i h then .hold s (.transfer h) else slide i s h

def execCalli (x : SysW) (s : State) : Host.Outcome State Fault Refusal :=
  withIssue x.ctl [(x.a, 32)] s fun i s =>
    whenLanes i s <|
      if i.sp.priv then .trap s 0x11 i.lanes 0 0
      else
        let op (l : Nat) : LaneOp :=
          { lane := l, x := i.g.operand i.sp.wb x.a 32 l id x.imm.toNat, y := i.g.sr.stab, b := i.g.sr.stabs, c := i.g.sr.stabn }
        calli true i s x { instr := .calli x, pc := i.sp.pc, lanes := i.lanes, ops := (lanesOf i.lanes).map op }

end Sys2Proof.Machine
end

