-- ==== Sys2Proof/Machine/Save.lean ====
section
/-! DEFINITION. What a forced save writes and a restore reads (R162 to R172, R273 to R276): group records, images, SVWIN,
LDWIN, SAVEREG, LOADREG. -/
namespace Sys2Proof.Machine

/-! ### Splits in the group record (R163) -/

/-- A split entry of 16 bytes. -/
def splitBits (live : Bool) (e : Split) : Nat :=
  e.pc % 2 ^ 52 + e.mask.toNat * 2 ^ 64 + e.wb % 2 ^ 24 * 2 ^ 96 + 2 ^ 120 + live.toNat * 2 ^ 121 + e.defer.toNat * 2 ^ 122
    + (e.park == some .merge).toNat * 2 ^ 123 + e.fault.toNat * 2 ^ 124

/-- The 512 bytes of SPLITS: live slots, then the pending list. -/
def splitBytes (es : List (Nat × Split)) : List Byte :=
  (List.range 32).flatMap fun n =>
    match es.find? (·.1 == n) with
    | some (_, e) => toBytes 16 (splitBits (n < 4) e)
    | none => toBytes 16 0

/-- An entry read back. -/
def splitOf (x : Nat) : Split :=
  { pc := bits x 0 52, mask := BitVec.ofNat 32 (bits x 64 32), wb := bits x 96 24, defer := bit x 122, fault := bit x 124,
    park := if bit x 123 then some .merge else none }

/-- The instruction of a live slot has committed and waits on the fault of its write-back (R293). -/
def Group.finishing (g : Group) (n : Nat) : Bool :=
  match g.fault with
  | some f => f.slot == n && match f.retry with | .finish _ => true | _ => false
  | none => false

/-- A split waits at an instruction that has issued and has changed nothing that its next issue would not: SREAD or SWRITE of FPFLAGS,
SPIN .pin. It issues again after a restore (R162). -/
def Split.undone (e : Split) : Bool :=
  match e.park with
  | some (.completion (.readFlags ..)) | some (.completion (.writeFlags _)) | some (.completion (.pin ..)) => true
  | _ => false

/-- Where a forced save leaves an entry: a split of a running handler and one with a pending trap at the instruction that
raised it (R372, R374); one whose instruction is not done at that instruction. -/
def Group.savedPc (g : Group) (n : Nat) (e : Split) : Nat :=
  let own : Nat :=
    match g.traps.find? fun t => t.slot == n && !t.whole with
    | some t => t.rpc
    | none => if g.finishing n || e.undone then e.pc - 12 else e.pc
  match g.handler with
  | some h => if e.priv then h.rpc else own
  | none => own

/-- The lanes that wait for a replay: FMASK. Those of a handler are none of them: a forced save abandons it (R374). -/
def Group.faulted (g : Group) : Lanes :=
  match g.fault with
  | some f =>
    match f.retry with
    | .replay h => if (Map.find g.live f.slot).any (·.priv) then g.fmask else h.lanes ||| g.fmask
    | _ => g.fmask
  | none => g.fmask

/-- The group as a forced save leaves it: what was parked or trapped will issue again, and counts then (R162, R419). -/
def Group.asSaved (g : Group) : Group :=
  let again := (g.traps.filter fun t => t.pc != t.rpc).length + (g.ents.filter fun x => g.finishing x.1).length
  { g.setEnts (g.ents.map fun (n, e) => (n, { e with pc := g.savedPc n e, park := if e.merging then e.park else none, wait := 0 })) with
    traps := [], fmask := g.faulted, fault := none, sr := { g.sr with icount := g.sr.icount - again } }

/-- The restore handler runs: the record at BSL is still that of the group (R167). -/
def Group.restoring (g : Group) : Bool := (g.handler.map (·.cause)) == some 0xA3

/-- What a forced save stores at BSL (R162 step 4): the whole record; over a running handler SPR, FMASK and SPLITS; over the
restore handler nothing, since the record that it would load is there. -/
def Group.saveFields (g : Group) : List (Nat × List Byte) :=
  let a := g.asSaved
  let own : List (Nat × List Byte) :=
    [(0x4A0, toBytes 4 g.spr), (0x4BC, toBytes 4 g.faulted.toNat), (0x500, splitBytes a.ents)]
  if g.restoring then []
  else if g.handler.isSome then own
  else a.recordFields ++ own ++ [(0x4C8, List.replicate 56 0), (0x700, List.replicate 256 0)]

/-! ### Images (R166) -/

/-- The code and payload of a granule of 64 words (R166). -/
def codeGranule (dirty : Bool) (ws : List Nat) : Nat × List Byte :=
  let some_ := (ws.zipIdx.filter fun x => x.1 != 0)
  if !dirty || some_.isEmpty then (0, [])
  else if ws.all (· == ws.headD 0) then (1, toBytes 4 (ws.headD 0))
  else if some_.length ≤ 61 then
    (2, toBytes 8 (some_.foldl (fun m x => m + 2 ^ x.2) 0) ++ some_.flatMap fun x => toBytes 4 x.1)
  else (3, ws.flatMap (toBytes 4))

def pad16 (bs : List Byte) : List Byte := bs ++ List.replicate ((16 - bs.length % 16) % 16) 0

/-- The image of a region from its granules. -/
def encodeImage (region core slotmap : Nat) (gs : List (Bool × List Nat)) : List Byte :=
  let cs := gs.map fun g => codeGranule g.1 g.2
  let body := pad16 (pad16 (cs.map fun c => BitVec.ofNat 8 c.1) ++ cs.flatMap (·.2))
  toBytes 16 (region + core * 2 ^ 4 + gs.length * 2 ^ 16 + (32 + body.length) * 2 ^ 32) ++ toBytes 16 slotmap ++ body

def wordsOf (bs : List Byte) : List Nat := (List.range 64).map fun i => ofBytes ((bs.drop (4 * i)).take 4)

/-- Decodes payloads by their tags: the granules and what is left; none when a tag or mask is out of range. -/
def decodePayloads : List Nat → List Byte → Option (List (List Nat) × Nat)
  | [], _ => some ([], 0)
  | t :: ts, bs =>
    let one : Option (List Nat × Nat) :=
      match t with
      | 0 => some (List.replicate 64 0, 0)
      | 1 => some (List.replicate 64 (ofBytes (bs.take 4)), 4)
      | 2 =>
        let m := ofBytes (bs.take 8)
        let on := (List.range 64).filter (bit m)
        if on.length > 61 then none
        else some ((List.range 64).map fun i => if bit m i then ofBytes ((bs.drop (8 + 4 * on.idxOf i)).take 4) else 0, 8 + 4 * on.length)
      | 3 => some (wordsOf (bs.take 256), 256)
      | _ => none
    match one with
    | none => none
    | some (g, n) => (decodePayloads ts (bs.drop n)).map fun (gs, m) => (g :: gs, n + m)

/-- The granules of an image that passes the check of R171. -/
def decodeImage (region core slotmap n : Nat) (bs : List Byte) : Option (List (List Nat)) :=
  let h := ofBytes (bs.take 32)
  let tags := (bs.drop 32).take n
  let at_ := 32 + (n + 15) / 16 * 16
  if bits h 0 4 ≠ region ∨ bits h 4 2 ≠ core ∨ bits h 6 10 ≠ 0 ∨ bits h 16 16 ≠ n ∨ bits h 64 64 ≠ 0 ∨ h / 2 ^ 128 ≠ slotmap then none
  else match decodePayloads (tags.map BitVec.toNat) (bs.drop at_) with
    | none => none
    | some (gs, m) => if bits h 32 32 = at_ + (m + 15) / 16 * 16 then some gs else none

/-- Words of bytes of 256-byte granules. -/
def granules (bs : List Byte) : Nat → List (List Nat)
  | 0 => []
  | n + 1 => wordsOf (bs.take 256) :: granules (bs.drop 256) n

/-- The bytes of an operand slot: element e as 16 bits at 2 e; of an accumulator slot: 5 bytes each (log entry 22). -/
def OSlot.image (o : OSlot) : List Byte := (List.range 1024).flatMap fun e => toBytes 2 (Map.get 0 o.data e)
def ASlot.image (a : ASlot) : List Byte := (List.range 256).flatMap fun e => toBytes 5 (Map.get 0 a.data e)

def slotMap (ns : List Nat) : Nat := ns.foldl (fun m n => m + 2 ^ n) 0

/-- Codes of RFMT (R274). -/
def MFmt.rcode : MFmt → Nat | .bf16 => 0 | .f16 => 1 | .f8 => 2 | .g8 => 3 | .k4 => 4
def MFmt.ofRcode (c : Nat) : MFmt := match c with | 1 => .f16 | 2 => .f8 | 3 => .g8 | 4 => .k4 | _ => .bf16

/-- The bytes of a PENDING entry (R275) for the quarter ops of one stopped MMA. -/
def pendingBytes (qs : List MEntry) : List Byte :=
  let q (n : Nat) : Nat :=
    match qs.find? (·.quarter == n) with
    | some e => match e.op with
      | .mma a b c _ _ f k => a + b * 2 ^ 7 + c * 2 ^ 14 + f.code * 2 ^ 19 + 2 ^ 21 + k * 2 ^ 22
      | _ => 0
    | none => 0
  toBytes 4 1 ++ (List.range 4).flatMap fun n => toBytes 3 (q n)

/-- The engine state of a core for a team (R274). A free engine's configuration is saved as the defaults. -/
def State.mstate (s : State) (team : Nat) (core : Nat) : List Byte :=
  let e := s.engine core
  let held := e.holder == some team
  let mine := e.queue.filter fun q => q.team == team && q.op.isMma
  let ids := mine.foldl (fun l q => if l.contains q.id then l else l ++ [q.id]) []
  let d : Engine := {}
  let meta_ (n : Nat) : Nat :=
    let o := Map.get {} e.oslots n
    if o.owner = some team then o.fmt.rcode + wrap 16 o.se * 2 ^ 16 else 0
  let pend := ids.flatMap fun n => pendingBytes (mine.filter (·.id == n))
  toBytes 4 held.toNat ++ toBytes 4 (if held then e.w0 else d.w0) ++ toBytes 4 (if held then e.w1 else d.w1) ++ toBytes 4 0
    ++ (List.range 5).flatMap (fun k => toBytes 8 (if held then e.counts.getD k 0 else 0)) ++ toBytes 8 0
    ++ (List.range 4).flatMap (fun k => toBytes 8 (if held then e.last.getD k 0 else 0)) ++ List.replicate 160 0
    ++ (List.range 128).flatMap (fun n => toBytes 4 (meta_ n)) ++ pend ++ List.replicate (256 - pend.length) 0

/-- The granules of a region with their dirtiness, and SLOTMAP. -/
def State.regionOf (s : State) (t : Team) (region core : Nat) : Nat × List (Bool × List Nat) :=
  match region with
  | 0 =>
    let n := t.csize / 256
    (0, ((granules ((List.range t.csize).map fun a => s.byte (s.cLoc t.uid a)) n).zipIdx).map fun (w, j) => (t.cdirty.contains j, w))
  | 1 => (slotMap (t.slots false core), (t.slots false core).flatMap fun n =>
      let o := Map.get {} (s.engine core).oslots n
      ((granules o.image 8).zipIdx).map fun (w, j) => (o.dirty.contains j, w))
  | 2 => (slotMap (t.slots true core), (t.slots true core).flatMap fun n =>
      let a := Map.get {} (s.engine core).aslots n
      ((granules a.image 5).zipIdx).map fun (w, j) => (a.dirty.contains j, w))
  | _ => (0, (granules (s.mstate t.uid core) 4).map fun w => (true, w))

/-! ### SVWIN, LDWIN (R169) -/

/-- Rows that SVWIN and LDWIN visit: from SPR up to the greatest window top. -/
def Group.windowRows (g : Group) : List Nat :=
  let top := g.entries.foldl (fun m e => max m (e.wb + 7)) 0
  rangeFrom g.spr (min (g.spr + g.ident.rows) top)

/-- A result is outstanding to a resident ring row. -/
def Group.rowsBusy (g : Group) : Bool := g.boundTo (rangeFrom g.spr (g.spr + g.ident.rows))

/-- How a pass over the rows ends: a fault with its cause and row, the stack limit at a row, a stall. -/
inductive RowStop where
  | bad (cause va : Nat)
  | limit (va : Nat)
  | stall
  deriving DecidableEq, Repr

/-- Stores or loads rows one by one; those before a stop stay done and clean (R169, R229). -/
def windowRun (store : Bool) (k : Nat) : List Nat → State → Option RowStop × State
  | [], s => (none, s)
  | r :: rs, s =>
    match s.group k with
    | none => (none, s)
    | some g =>
      if store && !g.dirty.contains r then windowRun store k rs s
      else if store && g.rowAddr (r + 1) > g.ident.bsl then (some (.limit (g.rowAddr r)), s)
      else match s.mapRange g.ident.ctx (g.rowAddr r) 1024 (if store then .write else .read) with
        | (.bad c _, s) => (some (.bad c (g.rowAddr r)), s)
        | (.stall, s) => (some .stall, s)
        | (.ok ps, s) =>
          let (g, s) := if store then (g, s.spillRows g [(r, ps)]) else s.fillRows g [(r, ps)]
          windowRun store k rs (s.setGroup k { g with dirty := g.dirty.filter (· != r) })

/-- SVWIN and LDWIN once no result is outstanding to a row. -/
def window (store : Bool) (h : Held) (i : Iss) (s : State) : Eff :=
  match s.group i.k with
  | none => .gone s
  | some g =>
    if g.rowsBusy then .hold s (.transfer h)
    else if !s.backingClear g then .hold s .issue
    else match windowRun store i.k g.windowRows s with
      | (some (.bad c va), s) => bobbin i s (if store then 0x30 else 0x31) c va
      | (some (.limit va), s) => .trap s 0x13 i.lanes va 0
      | (some .stall, s) => .hold s (.transfer h)
      | (none, s) => .park (s.updGroup i.k fun g => { g with dirty := [] }) (.completion .done)

def execSvwin (x : SysW) (s : State) : Host.Outcome State Fault Refusal :=
  withIssue x.ctl [] s fun i s => whenLanes i s (window true { instr := .svwin x, pc := i.sp.pc, lanes := i.lanes } i s)

def execLdwin (x : SysW) (s : State) : Host.Outcome State Fault Refusal :=
  withIssue x.ctl [] s fun i s => whenLanes i s (window false { instr := .ldwin x, pc := i.sp.pc, lanes := i.lanes } i s)

/-! ### SAVEREG, LOADREG (R165, R170, R171) -/

/-- Every group of the team has entered the save handler or exited, and its copies have completed (R165). -/
def State.teamSaved (s : State) (t : Team) : Bool :=
  (s.groups.all fun x => x.2.ident.team != t.uid || x.2.saved || x.2.phase == .exiting) && t.copies == 0

/-- The engine of a core has come to rest for a save (R273). -/
def State.engineRests (s : State) (core ctx : Nat) : Bool :=
  (s.engine core).queue.all fun q => q.ctx != ctx || q.op.isMma

/-- A range of an image in global memory: the check of R138 with alignment 16. -/
def imageTrap (s : State) (one : Lanes) (a n : Nat) : Option Eff :=
  if a + n > 2 ^ 52 then some (.trap s 0x41 one a 0)
  else if a % 16 ≠ 0 then some (.trap s 0x40 one a 0)
  else none

def execSavereg (x : SysW) (s : State) : Host.Outcome State Fault Refusal :=
  withIssue x.ctl [(x.a, 64), (x.b, 32)] s (d := .s 0) fun i s =>
    let one : Lanes := 1#32 <<< lowest i.lanes
    let region := x.arg.toNat % 16
    let idx := x.arg.toNat / 16 % 4
    let t := s.team i.g.ident.team
    let core := t.cores.getD idx 0
    let a := i.low x.a 64 x.imm
    whenLanes i s <|
      match imageTrap s one a 1 with
      | some e => e
      | none =>
        if !s.teamSaved t || (region != 0 && !s.engineRests core i.g.ident.ctx) || !(s.tileStores i.g).isEmpty then .hold s .issue
        else
          let (m, gs) := s.regionOf t region core
          let bs := encodeImage region (if region = 0 then 0 else idx) m gs
          if bs.length > i.low x.b 32 x.imm then .trap s 0xA5 one 0 0
          else match imageTrap s one a bs.length with
            | some e => e
            | none =>
              match s.mapRange i.g.ident.ctx a bs.length .write with
              | (.bad c va, s) => .fault s { cause := c, va, lanes := one.toNat } .reissue false
              | (.stall, s) => .stall s (.migrating { instr := .savereg x, pc := i.sp.pc }) false
              | (.ok ps, s) =>
                let s := storePieces s i.g.ident i.g.seen bs ps
                .park (s.landNow i.k ((lanesOf (destLanes x.d i.lanes)).flatMap fun l => destWrites i.sp.wb x.d 32 l bs.length))
                  (.completion .done)

/-- Granules back to bytes. -/
def granuleBytes (gs : List (List Nat)) : List Byte := gs.flatMap fun g => g.flatMap (toBytes 4)

def dirtyOf (gs : List (List Nat)) : List Nat := (gs.zipIdx.filter fun g => g.1.any (· != 0)).map (·.2)

/-- The ladder place of a level; none when it is not a level of the start format. -/
def levelOf (start f : MFmt) : Option Nat := if (ladder start).contains f then some ((ladder start).idxOf f) else none

/-- The quarter ops of a PENDING entry; none when R275 forbids a field. -/
def pendingOps (w0 w1 : Nat) (held : Bool → Nat → Bool) (x : Nat) : Option (List (Nat × MOp)) :=
  if bits x 1 31 ≠ 0 then none
  else
    ((List.range 4).mapM fun q =>
      let y := bits x (32 + 24 * q) 24
      let f : MFmt := .ofCode (bits y 19 2)
      if !bit y 21 then some none
      else if !held false (bits y 0 7) || !held false (bits y 7 7) || !held true (bits y 14 5) then none
      else if levelOf (.ofCode (bits w1 8 2)) f ≠ some (bits y 22 2) then none
      else some (some (q, .mma (bits y 0 7) (bits y 7 7) (bits y 14 5) w0 w1 f (bits y 22 2)))).map fun l => l.filterMap id

/-- LOADREG .mstate (R275, R276): none when the state fails its check. -/
def State.loadMstate (s : State) (t : Team) (core : Nat) (bs : List Byte) : Option State :=
  let f (off n : Nat) : Nat := ofBytes ((bs.drop off).take n)
  let resv := (s.engine core).holder == some t.uid
  let w0 := f 4 4
  let w1 := f 8 4
  let held (acc : Bool) (n : Nat) : Bool := (t.slots acc core).contains n
  let meta_ := (List.range 128).map fun n => f (0x100 + 4 * n) 4
  let raw := (List.range 16).map fun n => f (0x300 + 16 * n) 16
  let valid := raw.takeWhile (bit · 0)
  if f 0 4 ≠ resv.toNat ∨ !validGauge w0 w1 ∨ f 12 4 ≠ 0 ∨ f 0x38 8 ≠ 0 ∨ f 0x60 160 ≠ 0
      ∨ ((raw.drop valid.length).any (· != 0)) = true
      ∨ (meta_.zipIdx.any fun (w, n) => w != 0 && (!held false n || bits w 0 3 > 4 || bits w 3 13 != 0)) = true then none
  else
    (valid.mapM (pendingOps w0 w1 held)).map fun ops =>
      let s := s.updEngine core fun e =>
        let e := if resv then
            { e with w0, w1, counts := (List.range 5).map fun k => f (0x10 + 8 * k) 8, last := (List.range 4).map fun k => f (0x40 + 8 * k) 8 }
          else e
        { e with oslots := e.oslots.map fun (n, o) =>
            if o.owner = some t.uid then
              let w := meta_.getD n 0
              (n, { o with fmt := .ofRcode (w % 8), issued := .ofRcode (w % 8), se := sint 16 (w / 2 ^ 16) })
            else (n, o) }
      ops.foldl (fun (s : State) qs =>
        let (n, s) := s.freshId
        s.updEngine core fun e => { e with queue := e.queue ++ qs.map fun (q, op) =>
          ({ id := n, op, team := t.uid, ctx := t.ctx, quarter := q, stamp := s.order.next } : MEntry) }) s

/-- Writes the granules of a region that has passed its check. -/
def State.loadRegion (s : State) (t : Team) (region core : Nat) (gs : List (List Nat)) : Option State :=
  let bs := granuleBytes gs
  match region with
  | 0 =>
    let (n, s) := s.freshId
    let s := (s.cPieces t.uid 0 bs.length).foldl (fun (s : State) (loc, _, off, m) =>
      s.store (opAgent n) [] {} 0 loc ((bs.drop off).take m)) s
    some (s.updTeam t.uid fun t => { t with cdirty := dirtyOf gs })
  | 1 => some (((t.slots false core).zipIdx).foldl (fun (s : State) (n, j) =>
      let data := (List.range 1024).foldl (fun m e => Map.put 0 m e (ofBytes ((bs.drop (2048 * j + 2 * e)).take 2))) []
      (s.slotClean core false n).updOSlot core n fun o => { o with data, dirty := dirtyOf ((gs.drop (8 * j)).take 8) }) s)
  | 2 => some (((t.slots true core).zipIdx).foldl (fun (s : State) (n, j) =>
      let data := (List.range 256).foldl (fun m e => Map.put 0 m e (ofBytes ((bs.drop (1280 * j + 5 * e)).take 5))) []
      (s.slotClean core true n).updASlot core n fun a => { a with data, dirty := dirtyOf ((gs.drop (5 * j)).take 5) }) s)
  | _ => s.loadMstate t core bs

/-- LOADREG of a team region. R171 states no alignment for the image's address; here it is SAVEREG's of R170: 0x40 unless it is a multiple
of 16 (DEDUCED, log entry 47). -/
def execLoadreg (x : SysW) (s : State) : Host.Outcome State Fault Refusal :=
  withIssue x.ctl [(x.a, 64)] s (d := .s 0) fun i s =>
    let one : Lanes := 1#32 <<< lowest i.lanes
    let region := x.arg.toNat % 16
    let idx := x.arg.toNat / 16 % 4
    let t := s.team i.g.ident.team
    let core := t.cores.getD idx 0
    let a := i.low x.a 64 x.imm
    let ctx := i.g.ident.ctx
    let (m, gs) := s.regionOf t region core
    let n := gs.length
    let again (s : State) : Eff := .stall s (.migrating { instr := .loadreg x, pc := i.sp.pc }) false
    let flt (s : State) (c va : Nat) : Eff := .fault s { cause := c, va, lanes := one.toNat } .reissue false
    whenLanes i s <|
      match imageTrap s one a 32 with
      | some e => e
      | none =>
        match s.mapRange ctx a 32 .read with
        | (.bad c va, s) => flt s c va
        | (.stall, s) => again s
        | (.ok ps, s) =>
          let (head, w, s) := loadPieces s i.g.ident false (seenOf s i.k) ps
          let s := s.updGroup i.k fun g => { g with seen := w }
          let len := bits (ofBytes head) 32 32
          if len < 32 ∨ len > 48 + 257 * n + 32 ∨ a + len > 2 ^ 52 then .trap s 0xA6 one 0 0
          else match s.mapRange ctx a len .read with
            | (.bad c va, s) => flt s c va
            | (.stall, s) => again s
            | (.ok ps, s) =>
              match ps.findSome? fun (loc, _, _, n) => (s.readKills (some i.g.ident.core) ctx loc n).map fun c => (c, loc) with
              | some (c, loc) => .kill s c loc
              | none =>
                let (bs, w, s) := loadPieces s i.g.ident false (seenOf s i.k) ps
                let s := s.updGroup i.k fun g => { g with seen := w }
                match (decodeImage region idx m n bs).bind fun gs => s.loadRegion t region core gs with
                | none => .trap s 0xA6 one 0 0
                | some s => .park s (.completion .done)

/-! ### LOADREG.group (R167, R172): it leaves ICOUNT as the record gives it, less what will issue again (R419) -/

/-- The entries of a record with their places; none when the record fails its check. R172 lists no failure for an entry that is LIVE at a
place from 4 on, or not LIVE at a place below 4: here the live ones then take slots 0 to 3 in order, and the others the pending list
(DESIGN CHOICE, log entry 47). -/
def recordEnts (rows : Nat) (bs : List Byte) : Option (List (Nat × Split)) :=
  let raw := (List.range 32).map fun n => (n, recBits bs (0x500 + 16 * n) 16)
  let es := raw.filter fun x => bit x.2 120
  let spr := recBits bs 0x4A0 4
  let masks := es.map fun x => bits x.2 64 32
  let live := es.filter fun x => bit x.2 121
  let all : Nat := masks.foldl (fun a b => a ||| b) 0
  let disjoint : Bool := masks.foldl (fun a b => a + b) 0 == all
  let window : Bool := es.all fun x => let wb := bits x.2 96 24; spr ≤ wb && wb + 7 ≤ spr + rows
  let zero : Bool := (raw.all fun x => bits x.2 52 12 == 0 && bits x.2 125 3 == 0) && recBits bs 0x4C8 56 == 0 && recBits bs 0x700 256 == 0
  if all = 0 ∨ !disjoint ∨ !window ∨ !zero ∨ live.length > 4 then none
  else
    let slots := if live.all (·.1 < 4) then live.map (·.1) else List.range 4
    let lives := (live.zip slots).map fun (x, k) => (k, splitOf x.2)
    let pend := ((es.filter fun x => !bit x.2 121).zipIdx).map fun (x, k) => (4 + k, splitOf x.2)
    some (lives ++ pend)

/-- LOADREG.group once no result is outstanding to a row that its LDWIN loads. -/
def loadGroup (x : SysW) (h : Held) (i : Iss) (s : State) : Eff :=
  let one : Lanes := 1#32 <<< lowest h.lanes
  let ctx := i.g.ident.ctx
  let bob (s : State) (c va : Nat) : Eff := bobbin i s 0x31 c va
  let again (s : State) : Eff := .stall s (.migrating { instr := .loadregGroup x, pc := i.sp.pc }) false
  if i.g.rowsBusy then .hold s (.transfer h)
  else match s.mapRange ctx i.g.ident.bsl 2048 .read with
  | (.bad c va, s) => bob s c va
  | (.stall, s) => again s
  | (.ok ps, s) =>
    match ps.findSome? fun (loc, _, _, n) => (s.readKills (some i.g.ident.core) ctx loc n).map fun c => (c, loc) with
    | some (c, loc) => .kill s c loc
    | none =>
      let (bs, w, s) := loadPieces s i.g.ident true i.g.seen ps
      match recordEnts i.g.ident.rows bs with
      | none => .trap s 0xA6 one 0 0
      | some es =>
        let spr := recBits bs 0x4A0 4
        let top := es.foldl (fun m e => max m (e.2.wb + 7)) 0
        let rows := rangeFrom spr (min (spr + i.g.ident.rows) top)
        match mapRows s i.g .read rows [] with
        | (.error (some (c, va)), s) => bob s c va
        | (.error none, s) => again s
        | (.ok fl, s) =>
          let fmask : Lanes := BitVec.ofNat 32 (recBits bs 0x4BC 4)
          let g := ({ i.g with seen := w, spr }.reload bs).poisonIn s ps recordCells
          let (g, s) := s.fillRows g fl
          .hold (s.setGroup i.k { g with
              dirty := [], back := es, loaded := true, fmask,
              sr := { g.sr with trapmask := fmask, icount := (g.sr.icount + (2 ^ 64 - g.uncount)) % 2 ^ 64 } })
            (.completion .restored)

def execLoadregGroup (x : SysW) (s : State) : Host.Outcome State Fault Refusal :=
  withIssue x.ctl [] s fun i s =>
    whenLanes i s (loadGroup x { instr := .loadregGroup x, pc := i.sp.pc, lanes := i.lanes } i s)

/-- A restored group leaves the restore handler once every group of its team has executed LOADREG.group (R167): as ERET does,
each split resuming at its PC (R172). -/
def State.leaveRestore (s : State) (k : Nat) : State :=
  match s.group k with
  | none => s
  | some g =>
    if !(s.groups.all fun x => x.2.ident.team != g.ident.team || x.2.loaded || x.2.handler.isNone) then s
    else
      let es : Ents := g.back.map fun (n, e) => (n, { e with defer := false, quiet := true })
      let g := { g.setEnts es with handler := none, back := [], kept := [], outst := g.outst ++ g.kept, uncount := 0, rejects := g.rejKept, rejKept := [],
                                        seen := { g.seen with view := s.viewAll } }
      (s.setGroup k g).settle k

end Sys2Proof.Machine
end

