-- ==== Sys2Proof/Machine/Context.lean ====
section
/-! DEFINITION. Contexts (R155 to R162, R167): commands, drain, forced save, release, re-placement. -/
namespace Sys2Proof.Machine

/-! ### Commands (R156 to R158) -/

/-- The codes of CTXSTAT.STATE. -/
def CState.code : CState → Nat
  | .empty => 0 | .built => 1 | .resident => 2 | .running => 3 | .draining => 4 | .saving => 5 | .saved => 6 | .faulted => 7
  | .destroyed => 8

/-- What CTXSTAT reads as: STATE is that of context 0 before any command (log entry 18); PENDING while an ADMIT is in
progress. -/
def State.ctxstat (s : State) (port : Nat) : Nat :=
  let p := s.port port
  (s.ctx p.ctxlast).state.code + p.ctxres * 16 + p.entering.isSome.toNat * 64

/-- A command has completed with a RESULT. -/
def State.answer (s : State) (port : Bool) (ctx result : Nat) : State :=
  s.updPort port.toNat fun p => { p with ctxlast := ctx, ctxres := result, entering := none }

/-- RESULT of a command that no row of R158 matches. -/
def State.refuse (s : State) (port : Bool) (ctx : Nat) : State :=
  let busy := match (s.ctx ctx).state with | .running | .draining | .saving => true | _ => false
  s.answer port ctx (if busy then 1 else 2)

/-- A context of the other port. -/
def State.foreign (s : State) (port : Bool) (ctx : Nat) : Bool := (s.ctx ctx).state != .empty && (s.ctx ctx).port != port.toNat

/-- A context command of a port is in progress, and another is ignored (R157). -/
def State.ctxBusy (s : State) (port : Bool) : Bool := (s.port port.toNat).entering.isSome

/-- A context command completes with RESULT 2: the package is not READY (R401), or the context is the other port's (R157). -/
def State.barred (s : State) (port : Bool) (ctx : Nat) : Bool := s.boot != 4 || s.foreign port ctx

def CRec.ofBits (x : Nat) : CRec :=
  { ptroot := bits x 0 64, stbase := bits x 64 64, stcount := bits x 128 16, qcount := bits x 144 8, squota := bits x 160 32,
    qtbase := bits x 192 64, fqbase := bits x 256 64, fbbase := bits x 320 64, savepc := bits x 384 64, restpc := bits x 448 64,
    drainlim := bits x 512 32, penote := bit x 544 }

/-- A record passes R156. -/
def CRec.ok (x : Nat) : Bool :=
  let r := CRec.ofBits x
  bits x 152 8 == 0 && x / 2 ^ 545 == 0 && r.stcount ≤ 4096 && r.qcount ≤ 64 && r.savepc % 64 == 0 && r.restpc % 64 == 0
    && r.ptroot % 4096 == 0 && r.ptroot < 2 ^ 52 && r.ptroot + 65536 ≤ Config.gddr7

/-- The package has no working UCIe module: it holds every context FAULTED (R396). -/
def State.severed (s : State) : Bool := s.ucie.length ≥ 16

/-- BUILD: the record is RECORD × 128, in GDDR7 or in the host's memory, read plaintext; whether the host lets it be read is
free. The root assigns a free key id. -/
def execBuild (port : Bool) (ctx record : Nat) (host : Bool) (s : State) : Host.Outcome State Fault Refusal :=
  if s.ctxBusy port then .next s
  else if s.barred port ctx then .next (s.answer port ctx 2)
  else if (s.ctx ctx).state ≠ .empty then .next (s.refuse port ctx)
  else
    let a := 128 * record
    let (refused, s) := if host then s.pick 2 else (0, s)
    if refused = 1 ∨ (!host && a + 128 > Config.gddr7) = true then .next (s.answer port ctx 2)
    else
      let x := ofBytes (s.peek 0 (if host then hostBase port.toNat + a else a) 128)
      if !CRec.ok x then .next (s.answer port ctx 2)
      else
        let free := ((List.range 511).map (· + 1)).filter fun k => !(s.ctxs.any fun c => c.2.state != .empty && c.2.keyId == k)
        let (n, s) := s.pick free.length
        let (stamp, s) := s.freshId
        let c : Ctx := { state := .built, port := port.toNat, rc := CRec.ofBits x, keyId := free.getD n 0, stamp }
        let s := { s with ctxs := Map.set s.ctxs ctx c }
        .next ((if s.severed then s.contextFault ctx 0xB0 else s).answer port ctx 0)

/-- Contexts that are resident. -/
def State.residents (s : State) : Nat := (s.ctxs.filter fun c => c.2.state.isResident).length

/-- A queue descriptor passes R173. The rule does not say what becomes of an RBASE or a CPLBASE at or above 2^52: like a misaligned
one, it is a context fault at ADMIT (DEDUCED, log entry 39). -/
def queueOk (x : Nat) : Bool :=
  bits x 0 6 == 0 && bits x 0 64 < 2 ^ 52 && bits x 64 4 ≤ 12 && bits x 69 27 == 0 && bits x 227 29 == 0 && bits x 256 4 == 0
    && bits x 256 64 < 2 ^ 52 && x / 2 ^ 320 == 0

/-- Loads a queue at ADMIT: a packet of which teams are placed is kept with its descriptors (R198); any other is read again from the
ring that the descriptor names now (R173). -/
def loadQueue (old : Queue) (x : Nat) : Queue :=
  let head := bits x 128 32
  let seq := bits x 160 32
  { old with
    rbase := bits x 0 64, size := bits x 64 4, kapp := bit x 68, cplbase := bits x 256 64, tail := bits x 96 32, head, seq,
    placed := bits x 192 32, wait := none, bells := [], owes := false,
    state := qstateOf (bits x 224 3),
    due := match qstateOf (bits x 224 3) with | .stopped | .faulted => false | _ => true,
    cur := match old.cur with
      | some p => if 0 < p.placed ∧ p.slot = head ∧ p.seq = seq then some p else none
      | none => none }

/-- Loads the queues of a context; none when a descriptor cannot be loaded. -/
def loadQueues (s : State) (ctx : Nat) : List Nat → Except FRead Unit × State
  | [] => (.ok (), s)
  | q :: qs =>
    match s.frontRead ctx ((s.ctx ctx).rc.qtbase + 64 * q) 64 with
    | (.ok x, s) =>
      if !queueOk x then (.error (.bad 0 0), s)
      else
        let old := Map.get {} (s.ctx ctx).queues q
        loadQueues (s.updCtx ctx fun c => { c with queues := Map.set c.queues q (loadQueue old x) }) ctx qs
    | (r, s) => (.error r, s)

/-- ADMIT: the rings, the queues, the network barriers; what cannot be loaded is a context fault (R160). A page that is
MIGRATING leaves the command in progress. Each queue that is neither STOPPED nor FAULTED settles (R173). -/
def State.enterContext (s : State) (port : Bool) (ctx : Nat) : State :=
  let c := s.ctx ctx
  if s.barred port ctx then s.answer port ctx 2
  else if c.state ≠ .built ∧ c.state ≠ .saved then s.refuse port ctx
  else if s.residents ≥ 16 then s.answer port ctx 1
  else
    let fail (s : State) (cause : Nat := 0) : State := (s.contextFault ctx cause).answer port ctx 0
    if s.severed then fail s 0xB0 else
    if c.rc.stbase % 32 ≠ 0 ∨ c.rc.stbase ≥ 2 ^ 52 ∨ c.rc.qtbase ≥ 2 ^ 52 then fail s
    else
      let later (s : State) : State := s.updPort port.toNat fun p => { p with ctxlast := ctx, entering := some ctx }
      match s.readRing ctx c.rc.fqbase with
      | (.fault, s) => fail s
      | (.stall, s) => later s
      | (.ok _, s) =>
        match s.readRing ctx c.rc.fbbase with
        | (.fault, s) => fail s
        | (.stall, s) => later s
        | (.ok _, s) =>
          match loadQueues s ctx (List.range c.rc.qcount) with
          | (.error .stall, _) => later s
          | (.error _, s) => fail s
          | (.ok _, s) =>
            let nets := c.barSave.filter fun b => b.1 ≥ 32768
            let s := { s with bars := nets.foldl (fun (m : Map Bar) (b : Nat × Bar) => Map.set m b.1 b.2) s.bars }
            let s := s.updCtx ctx fun c => { c with state := .resident, barSave := c.barSave.filter fun b => b.1 < 32768 }
            ((List.range c.rc.qcount).foldl (fun (s : State) q => s.settleQueue ctx q) s).answer port ctx 0

def execAdmission (port : Bool) (ctx : Nat) (s : State) : Host.Outcome State Fault Refusal :=
  .next (if s.ctxBusy port then s else s.enterContext port ctx)

/-- An ADMIT in progress tries again (R360). -/
def State.enterAgain (s : State) (ctx : Nat) : State :=
  [false, true].foldl (fun (s : State) port => if (s.port port.toNat).entering = some ctx then s.enterContext port ctx else s) s

/-- A drain begins (R158): PREEMPT_NOTE goes to every group when the record asks for it; a DRAINLIM of 0 forces the save at
once (R156). -/
def State.beginDrain (s : State) (ctx : Nat) : State :=
  let note := (s.ctx ctx).rc.penote
  let s := s.updCtx ctx fun c => { c with state := .draining, drain := 0 }
  let s := if note then
      { s with groups := s.groups.map fun (k, g) => (k, if g.ident.ctx == ctx then { g with notes := g.notes ++ [(0xA2, 0)] } else g) }
    else s
  if (s.ctx ctx).rc.drainlim = 0 then s.beginSaving ctx else s.idle ctx

def execPreempt (port : Bool) (ctx : Nat) (s : State) : Host.Outcome State Fault Refusal :=
  if s.ctxBusy port then .next s
  else if s.barred port ctx then .next (s.answer port ctx 2)
  else match (s.ctx ctx).state with
    | .resident => .next (((s.beginSaving ctx).runEviction).answer port ctx 0)
    | .running => .next (((s.beginDrain ctx).runEviction).answer port ctx 0)
    | _ => .next (s.refuse port ctx)

/-- DRAIN_LIMIT_EXPIRED: the drain counter has passed DRAINLIM with teams resident; the forced save begins. -/
def execDrainLimitExpired (ctx : Nat) (s : State) : Host.Outcome State Fault Refusal :=
  let placed := s.teams.any fun x => x.2.ctx == ctx && !x.2.ended && !x.2.saved
  if (s.ctx ctx).state == .draining && placed then
    .next (((s.updCtx ctx fun c => { c with drain := c.rc.drainlim + 1 }).beginSaving ctx).runEviction)
  else .next s

/-! ### Forced save (R162) -/

/-- An ordered item of the group is not held or applied yet, or a contribution of it to a stream is not answered. -/
def State.itemsOpen (s : State) (ctx uid : Nat) : Bool :=
  ((s.ctx ctx).surfs.any fun f => f.2.items.any fun m => m.uid == uid && !m.held) || s.contribs.any fun c => c.uid == uid && !c.held

/-- A result is that of a held ordered item (R321). -/
def State.heldResult (s : State) (ctx uid seq : Nat) : Bool :=
  (s.ctx ctx).surfs.any fun f => f.2.items.any fun m => m.uid == uid && m.held && m.seqs.contains seq

/-- Nothing of a split's instruction is half done: its group may enter the save handler. A group parked on a fault enters at
once, also one of a REDS whose other lanes are answered; a stalled access is waited for (R162, R149, R360). -/
def Group.savable (g : Group) (n : Nat) (e : Split) : Bool :=
  match e.park with
  | some (.completion .done) | some (.completion .handlerEnd) | some (.completion .restored) => true
  | some (.completion (.reds _)) => e.fault
  | some (.completion _) => e.undone || g.finishing n
  | some (.tile _) => false
  | some (.migrating h) => h.ops.isEmpty
  | _ => true

/-- A split waits at an instruction that has counted and that issues again after a restore: BAR, BARW, SWAIT, and those that have done
nothing (R419). -/
def Split.reissues (e : Split) : Bool := e.undone || match e.park with | some (.barrier ..) | some (.syncWord ..) => true | _ => false

/-- What the record that a running handler stored at its entry counts and will issue again after the restore (R419): the waits of the
other splits, the instructions of their pending traps, the one that raised the handler. -/
def Group.countedTwice (g : Group) : Nat :=
  match g.handler with
  | none => 0
  | some h => (g.entries.filter fun e => !e.priv && e.reissues).length + (g.traps.filter fun t => t.pc != t.rpc).length + h.again.toNat

/-- The surface of a SALLOC or SFREE that waits on the fault of its write-back: the instruction will issue again (R162). -/
def State.owe (s : State) (g : Group) : State :=
  let stes := g.live.filterMap fun (n, e) =>
    if g.finishing n then match e.park with | some (.completion (.entry ste true _)) | some (.completion (.sfree ste)) => some ste | _ => none
    else none
  stes.foldl (fun s ste => s.updSurf g.ident.ctx ste fun f => { f with redo := some g.ident.uid }) s

/-- Withdraws the waiting arrivals of a group and its open records (R250): its map of barriers and the arrivals of its BARAs
stay, and what waits will count when it issues again (R419). -/
def State.withdraw (s : State) (k : Nat) : State :=
  match s.group k with
  | none => s
  | some g =>
    let keys := g.entries.filterMap fun e => match e.park with | some (.barrier key _ none _ _) => some key | _ => none
    let s := (keys.foldl insertNat []).foldl (fun (s : State) key =>
      match Map.find s.bars key with
      | some b =>
        if g.arrivals.any (·.key == key) then s
        else
          let now := b.now.filter fun x => x.1 != arrivalKey g.ident.uid false
          { s with bars := Map.set s.bars key { b with arrived := b.arrived - 1, now } }
      | none => s) s
    let n := (g.entries.filter (·.reissues)).length
    (s.owe g).updGroup k fun g => { g with arrivals := [], sr := { g.sr with icount := g.sr.icount - n } }

/-- FORCED_SAVE_ENTRY: when nothing of the group is in flight, its record is stored and the save handler starts. R239 gives TRAPADDR of a
0x30 for rows; for the record it is here the first address that cannot be stored to, in the order of the stored parts (DESIGN CHOICE, log
entry 47). -/
def execForcedSaveEntry (g : Nat) (s : State) : Host.Outcome State Fault Refusal :=
  match s.group g with
  | none => .next s
  | some gr =>
    let id := gr.ident
    let waits := (gr.outst.any fun o => !s.heldResult id.ctx id.uid o.seq) || s.itemsOpen id.ctx id.uid
      || gr.ents.any fun x => !gr.savable x.1 x.2
    let retried := match gr.fault with | some f => f.retry == .save | none => false
    if !gr.saving || gr.saved || gr.phase == .exiting || s.running g || waits || retried || !s.backingClear gr then .next s
    else
      let s' := s.withdraw g
      match s'.group g with
      | none => .next s
      | some gw =>
        match s'.storeParts gw id.bsl gw.saveFields with
        | .bad c va t => .next ((t.setGroup g { gw.asSaved with sr := { gw.asSaved.sr with trapaddr := va } }).bobbinFault g 4 0x30 va c .save)
        | .stall _ => .next s
        | .ok s =>
          let s := if gw.handler.isSome then s else s.poisonRecord gw
          let wb := gw.entries.foldl (fun m e => max m e.wb) 0
          let s := s.updGroup g fun x =>
            { x with seen := acquire id.core 1 (s.release id.core id.uid 1 x.seen), saved := true, traps := [], notes := [], fault := none,
                     swPark := false, rejects := [], rejKept := if gr.restoring then x.rejKept else if gr.handler.isSome then [] else gr.rejects,
                     uncount := if gr.restoring then x.uncount else gr.countedTwice, fmask := 0, dirty := if gr.restoring then [] else x.dirty, handler := some { cause := 0xA1 }, kept := x.outst, outst := [],
                     argsDue := x.argsDue || x.phase == .placing, phase := .active,
                     sr := { x.sr with trapcause := 0xA1 },
                     live := [(0, { pc := (s.ctx id.ctx).rc.savepc, mask := 0xFFFFFFFF, wb, priv := true })], pend := [] }
          .next (s.wake fun x => x.ident.ctx == id.ctx)

/-- The team as a SAVED context keeps it: what it held by core index. -/
def State.saveTeam (s : State) (t : Team) : Team :=
  let idx := t.cores.zipIdx
  { t with
    saved := true,
    resv := idx.filterMap fun (c, j) => if (s.engine c).holder = some t.uid then some j else none,
    claims := idx.flatMap fun (c, j) =>
      ((s.engine c).oslots.filterMap fun (n, o) => if o.owner = some t.uid then some (j, false, n) else none)
      ++ ((s.engine c).aslots.filterMap fun (n, a) => if a.owner = some t.uid then some (j, true, n) else none) }

/-- The walkers of a context's queues pay what they owe (R173). -/
def State.payQueues (s : State) (ctx : Nat) : State := ((s.ctx ctx).queues.map (·.1)).foldl (fun s q => s.payQueue ctx q) s

/-- CONTEXT_SAVED: every group has exited, every copy and engine operation has completed, every tile is evicted; the walkers
are written back, as stores of the front end that publish every store before them at .pkg. -/
def execContextSaved (ctx : Nat) (s : State) : Host.Outcome State Fault Refusal :=
  let c := s.ctx ctx
  let busy := (s.groups.any fun x => x.2.ident.ctx == ctx) || (s.copyq.any fun x => x.ctx == ctx)
    || (s.engines.any fun e => e.2.queue.any fun q => q.ctx == ctx && !q.op.isMma)
    || (s.demands.any fun d => d.ctx == ctx) || c.surfs.any fun f => f.2.charged 0 + f.2.charged 1 > 0
  if c.state ≠ .saving ∨ busy = true then .next s
  else
    let s := s.payQueues ctx
    if (s.ctx ctx).state ≠ .saving ∨ ((s.ctx ctx).queues.any fun q => q.2.owes) = true then .next s
    else
      let mine := s.teams.filter fun x => x.2.ctx == ctx && !x.2.ended
      let s := mine.foldl (fun (s : State) (n, t) =>
        let t' := if t.saved then t else s.saveTeam t
        let s := { s with teams := Map.set s.teams n t' }
        { (if t.saved then s else s.clearC t) with engines := s.engines.map fun (c, e) =>
            (c, { e.release n with queue := e.queue.filter (·.team != n) }) }) s
      let kept := s.bars.filter fun b => b.2.ctx == ctx
      let s := { s with bars := s.bars.filter fun b => b.2.ctx != ctx }
      .next ((s.updCtx ctx fun c => { c with state := .saved, barSave := c.barSave ++ kept }).unblock)

/-! ### Re-placement (R167, R250, R276) -/

/-- The key of a unit after its team has moved from one set of cores to another. -/
def movedKey (old new : List Nat) (key : Nat) (b : Bar) : Nat :=
  let j := old.idxOf b.core
  unitBase (new.getD j 0) b.scope + key % 16

/-- The cores give a saved team what it held: resources, slot numbers, engines, units. -/
def State.refits (s : State) (t : Team) (core : Nat) : Bool :=
  let at_ (m : Map Nat) (j : Nat) : Nat := Map.get 0 m (t.cores.getD j 0)
  let cs := coreSet t.kd core
  let units := (s.ctx t.ctx).barSave.filter fun b => b.2.team == some t.uid
  s.fits t.kd core (at_ t.ob) (at_ t.ab)
    && (t.resv.all fun j => (s.engine (cs.getD j 0)).holder.isNone)
    && units.all fun b => (Map.find s.bars (movedKey t.cores cs b.1 b.2)).isNone

/-- A restored group: the restore handler's split, with what its record does not hold (R167). -/
def restoredGroup (s : State) (g : Group) (core slot : Nat) : Group :=
  { ident := { g.ident with core, slot }, arrivals := g.arrivals, counted := g.counted, vert := g.vert,
    frag := g.frag, killed := g.killed, kept := g.kept, seq := g.seq, argsDue := g.argsDue, uncount := g.uncount, rejKept := g.rejKept,
    live := [(0, { pc := (s.ctx g.ident.ctx).rc.restpc, mask := 0xFFFFFFFF, priv := true })],
    handler := some { cause := 0xA3 }, seen := { view := s.viewAll, uid := g.ident.uid },
    sr := { trapcause := 0xA3 } }

/-- TEAM_REPLACED: the saved team that stands at place idx of the context's saved teams goes to the cores from `core` on, whose storage
wakes (R404). -/
def execTeamReplaced (ctx idx core : Nat) (s : State) : Host.Outcome State Fault Refusal :=
  let saved := (s.teams.map (·.2)).filter fun t => t.ctx == ctx && t.saved
  match saved[idx]? with
  | none => .next s
  | some t =>
    if !(s.ctx ctx).dispatching || !s.refits t core then .next s
    else
      let cs := coreSet t.kd core
      let move (m : Map Nat) : Map Nat := m.foldl (fun r (c, b) => Map.set r (cs.getD (t.cores.idxOf c) 0) b) []
      let cline := (s.cFree (quadOf core) (roundC t.kd.cspace / 512)).getD 0
      let t' : Team := { t with saved := false, cores := cs, cline, ob := move t.ob, ab := move t.ab, gsaved := [], resv := [], claims := [] }
      let mine := (s.ctx ctx).barSave.filter fun b => b.2.team == some t.uid
      let bars := mine.map fun (key, b) => (movedKey t.cores cs key b, { b with core := cs.getD (t.cores.idxOf b.core) 0 })
      let t' := { t' with barKey := match t.barKey with
        | some k => (mine.find? fun b => b.1 == k).map fun b => movedKey t.cores cs b.1 b.2
        | none => none }
      let s := { s with bars := bars.foldl (fun (m : Map Bar) (b : Nat × Bar) => Map.set m b.1 b.2) s.bars, teams := Map.set s.teams t.uid t' }
      let s := (s.clearC t').clearSlots t'
      let s := s.updCtx ctx fun c => { c with state := .running, barSave := c.barSave.filter fun b => b.2.team != some t.uid }
      let s := t.resv.foldl (fun (s : State) j => s.updEngine (cs.getD j 0) fun e => freshGauge e (some t.uid)) s
      let s := t.claims.foldl (fun (s : State) (j, acc, n) => s.updEngine (cs.getD j 0) fun e => setOwner
        (if acc then { e with aslots := Map.set e.aslots n {} } else { e with oslots := Map.set e.oslots n {} }) acc n 1 (some t.uid)) s
      .next (t.gsaved.foldl (fun (s : State) g =>
        let c := cs.getD (t.cores.idxOf g.ident.core) 0
        let slot := freeSlot (s.slotsOn c)
        s.setGroup (groupKey c slot) (restoredGroup s g c slot)) s).wakeUnits

/-! ### The end of a context -/

/-- One entry that DESTROY owes: written; kept for the page that is MIGRATING (R360); kept until RESUME with its fault reported (R365). -/
def State.payEntry (s : State) (ctx : Nat) (o : Owed) : Option Owed × State :=
  if o.wait.isSome then (some o, s)
  else match s.frontStore ctx ((s.ctx ctx).rc.stbase + 32 * o.ste) o.bytes .write with
    | (.ok _, s) => (none, s)
    | (.stall, s) => (some o, s)
    | (.bad c va, s) =>
      let (tok, s) := s.report ctx { cause := 0x3A, src := 5, va, sub := c }
      (some { o with wait := some tok }, s.updCtx ctx fun c => { c with state := .destroyed })

/-- The entries of freed surfaces are written back (R303). The spec does not say with which key the write-back is made that DESTROY still
owes; here the key goes once the last is made (DESIGN CHOICE, log entry 48). -/
def State.payEntries (s : State) (ctx : Nat) : State :=
  if (s.ctx ctx).state != .destroyed then s
  else
    let (os, s) := (s.ctx ctx).owed.foldl (fun (acc : List Owed × State) o =>
      let (r, s) := acc.2.payEntry ctx o
      (acc.1 ++ r.toList, s)) ([], s)
    s.updCtx ctx fun c => if os.isEmpty then { c with owed := [], stamp := 0, keyId := 0 } else { c with owed := os }

/-- DESTROY: its groups stop, its key is erased, its surfaces and quota are released. -/
def execDestroy (port : Bool) (ctx : Nat) (s : State) : Host.Outcome State Fault Refusal :=
  if s.ctxBusy port then .next s
  else if s.barred port ctx then .next (s.answer port ctx 2)
  else match (s.ctx ctx).state with
    | .built | .resident | .saved | .faulted =>
      let s := ((stopContext s ctx).unbindAll ctx).updCtx ctx fun c => { c with
        state := .destroyed, surfs := [], queues := [], barSave := [], held := [],
        owed := c.surfs.map fun (n, f) => { ste := n, bytes := toBytes 32 (entryBits { f with freed := true }) } }
      .next ((s.payEntries ctx).runEviction.answer port ctx 0)
    | _ => .next (s.refuse port ctx)

/-- CONTEXT_RELEASED: with the last entry written back, the context number is free. -/
def execContextReleased (ctx : Nat) (s : State) : Host.Outcome State Fault Refusal :=
  if (s.ctx ctx).state == .destroyed && (s.ctx ctx).owed.isEmpty then .next { s with ctxs := Map.erase s.ctxs ctx } else .next s

end Sys2Proof.Machine
end

