-- ==== Sys2Proof/Machine/Convert.lean ====
section
/-! DEFINITION. The conversion instructions (R38, R39, R104 to R107). -/
namespace Sys2Proof.Machine

/-- Bits of the value of a CVT code (R104). -/
def cvtElem (code : Nat) : Nat :=
  match code with
  | 2 | 3 | 13 => 64
  | 4 | 5 | 11 | 12 => 8
  | 6 | 7 | 9 | 10 => 16
  | _ => 32

def cvtFmt (code : Nat) : Fmt :=
  match code with
  | 8 => f32
  | 9 => f16
  | 10 => bf16
  | 11 => f8
  | 12 => g8
  | _ => a40

/-- The value of a source of a CVT code. -/
def cvtVal (code x : Nat) : FV :=
  let w := cvtElem code
  if code < 8 then FV.ofInt (if code % 2 = 0 then sint w x else (x % 2 ^ w : Nat))
  else if code = 13 then decodeA40 x
  else (cvtFmt code).decode (x % 2 ^ w)

/-- The result of a CVT: the register value and the flags (R38, R104). A signalling NaN raises NV in an IEEE destination
only: the row of a native one gives no flag (DEDUCED, log entry 11). -/
def cvtOut (dst : Nat) (rm : Rnd) (sat : Bool) (v : FV) : Nat × Nat :=
  if dst < 8 then
    let w := cvtElem dst
    let sg := dst % 2 = 0
    let (y, fl) := toIntV w sg rm sat v
    (if sg ∧ w < 32 then wrap 32 (sint w y) else y, fl)
  else
    let f := cvtFmt dst
    let (y, fl) := if sat then f.roundSat rm v else f.round rm v
    (y, fl ||| (if v.isSig && dst < 11 then fNV else 0))

/-- An integer to a narrower integer with SAT clear keeps the low bits (R26); every other conversion follows R38
(DEDUCED, log entry 11). -/
def cvt (x : Alu) (v : Nat) : LaneOut :=
  let src := x.sub.toNat
  let dst := x.ty.toNat
  let v := if x.negA || x.absA then modElem src (cvtElem src) x.negA x.absA (v % 2 ^ cvtElem src) else v
  if src < 8 && dst < 8 && !x.sat && cvtElem dst < cvtElem src then
    { d := if dst % 2 = 0 ∧ cvtElem dst < 32 then wrap 32 (sint (cvtElem dst) v) else v % 2 ^ cvtElem dst }
  else
    let r := cvtOut dst x.rnd x.sat (cvtVal src v)
    { d := r.1, fl := r.2 }

/-- CVT: its source is supplied in the source code's type (R52), and its modifiers act on that. IMM supplies an .a40 source
zero-extended (DEDUCED, log entry 11). -/
def execCvt (x : Alu) (s : State) : Host.Outcome State Fault Refusal :=
  let w := cvtWidth x.sub.toNat
  withIssue x.ctl [(x.a, w)] s (d := x.d) fun i s =>
    let outs := (lanesOf (destLanes x.d i.lanes)).map fun l =>
      (l, cvt x (i.g.operand i.sp.wb x.a w l (supplyCvt x.sub.toNat) (immTy x.sub.toNat (tailImm x.tail))))
    aluEff 0 (cvtClass x.ty.toNat) (fun l o => destWrites i.sp.wb x.d (cvtWidth x.ty.toNat) l o.d) outs i s

/-- KPACK (R105). -/
def kpack (rm : Rnd) (v : AluSrc) : LaneOut :=
  let c := sint 32 v.c
  let xs := ((List.range 4).map fun j => v.a / 2 ^ (32 * j) % 2 ^ 32) ++ ((List.range 4).map fun j => v.b / 2 ^ (32 * j) % 2 ^ 32)
  let vals := xs.map fun y => scaleV (f32.decode y) c
  let elt (j : Nat) : FV := (vals[j]?).getD .zero
  let packed := (List.range 4).map fun k => packPair rm (elt (2 * k)) (elt (2 * k + 1))
  let sat := packed.foldl (fun n p => n + p.2.1) 0
  let und := packed.foldl (fun n p => n + p.2.2) 0
  let back := packed.flatMap fun p => let q := k4Pair p.1; [q.1, q.2]
  let nx := (vals.zip back).any fun (a, b) => !a.isNan && a.cmp b != 0
  { d := joinElems 8 (packed.map (·.1)), p := sat == 0 && und == 0, fl := (if sat > 0 then fSAT else 0) ||| (if nx then fNX else 0) }

def execKpack (x : Alu) (s : State) : Host.Outcome State Fault Refusal := aluOp 0x51 0 2 8 0 (kpack x.rnd) x s

/-- KUNPK (R106): four elements of a K4 register, exactly. -/
def kunpk (ty h : Nat) (v : AluSrc) : LaneOut :=
  let es := (List.range 2).flatMap fun k => let q := k4Pair (v.a / 2 ^ (16 * h + 8 * k) % 256); [q.1, q.2]
  let fm := fmtOf ty
  { d := joinElems fm.width (es.map fun e => (fm.round .rne e).1) }

/-- TYPE is the form of D; A is one register, supplied as .n32 (DEDUCED, log entry 10). -/
def execKunpk (x : Alu) (s : State) : Host.Outcome State Fault Refusal :=
  aluOp3 0x52 0 0 1 1 1 (kunpk x.ty.toNat (x.sub.toNat % 2)) x s

def brev8 (x : Nat) : Nat := (List.range 8).foldl (fun y k => if bit x (7 - k) then y + 2 ^ k else y) 0

/-- BYTSEL (R107). -/
def bytsel (v : AluSrc) : LaneOut :=
  let src := v.b * 2 ^ 32 + v.a
  { d := joinElems 8 ((List.range 4).map fun i =>
      let c := v.c / 2 ^ (8 * i) % 256
      let b := src / 2 ^ (8 * (c % 8)) % 256
      match c / 8 % 4 with
      | 0 => b
      | 1 => 0
      | 2 => if bit b 7 then 0xFF else 0
      | _ => brev8 b) }

def execBytsel (x : Alu) (s : State) : Host.Outcome State Fault Refusal := aluOp1 0x53 0 0 bytsel x s

end Sys2Proof.Machine
end

