-- ==== Sys2Proof/Machine/CoreEvents.lean ====
section
/-! DEFINITION. Events of a core that are no instruction's: a result lands (R69 to R73), a port grants a run (R203, R206). -/
namespace Sys2Proof.Machine

/-- An earlier outstanding result of the group still has to write one of the registers (R72). -/
def landsBefore (o : Outst) (ws : List RegWrite) (p : Outst) : Bool :=
  p.seq < o.seq && p.writes.any fun w => ws.any fun v => v.key == w.key

/-- Takes the landed writes out of an outstanding result. -/
def Outst.without (o : Outst) (lanes : Lanes) : Outst := { o with writes := o.writes.filter fun w => !hasLane lanes w.lane }

/-- A port without a run has a group that is READY: its next run begins on the clock after its last one (R203), before anything passes
that clock. -/
def State.grantDue (s : State) : Bool :=
  s.groups.any fun x => (Map.find s.runs (portKey x.1)).isNone && x.2.choose.isSome

/-- RESULT_LANDS: the writes of some lanes of an outstanding result land. No port may still issue at a clock before the
result's minimum (R70); two results land in issue order in the same register (R72). -/
def execResultLands (g seq : Nat) (lanes : Lanes) (s : State) : Host.Outcome State Fault Refusal :=
  match s.group g with
  | none => .next s
  | some gr =>
    match gr.outst.find? (·.seq == seq) with
    | none => .next s
    | some o =>
      let ws := o.writes.filter fun w => hasLane lanes w.lane
      let due := o.issue + o.min
      if !o.ready || (gr.outst.any (landsBefore o ws)) || (s.runs.any fun r => r.2.clock < due && !s.blocked r.2)
          || (s.grantDue && s.clock + 1 < due) then .next s
      else
        let outst := (gr.outst.map fun p => if p.seq == seq then p.without lanes else p).filter fun p =>
          !(p.seq == seq && p.writes.isEmpty)
        let gr := { ws.foldl Group.land gr with outst, swPark := gr.swPark && !outst.isEmpty }
        .next (({ s with clock := max s.clock due }.setGroup g gr).settle g)

/-- Delivery kinds (R370, R371). -/
inductive Delivery where
  | handler | fault | kill | system
  deriving DecidableEq, Repr

/-- The kind of a cause's row in R371. -/
def deliveryOf (c : Nat) : Delivery :=
  if c = 0x11 ∨ c = 0x18 ∨ c = 0x19 ∨ c = 0xA1 ∨ c = 0xA3 ∨ c = 0xA6 then .system
  else if 0x20 ≤ c ∧ c ≤ 0x3F then .fault
  else if (0x96 ≤ c ∧ c ≤ 0x9F) ∨ 0xB0 ≤ c then .kill
  else .handler

/-- PREEMPT_NOTE or an injected cause, by its kind, for a split (R372, R386): a trap; a record with SRC 0 on which the group
waits; a kill; a context fault. A trap for a split that runs a handler is not one that the handler raises (R374): it stays pending
until the handler ends (DEDUCED, log entry 29). -/
def State.raiseNote (s : State) (k slot cause aux : Nat) : State :=
  match s.group k with
  | none => s
  | some g =>
    match deliveryOf cause with
    | .handler => s.setGroup k { g with traps := insertTrap { clock := s.clock, slot, cause, aux, whole := true } g.traps }
    | .kill => s.kill k cause 0
    | .system => s.contextFault g.ident.ctx cause
    | .fault =>
      (s.updGroup k fun g => g.updLive slot fun e => { e with fault := true, wait := 0 }).parkFault { k, g, slot } { cause } .reissue

/-- Asynchronous causes are raised at the group's next issue decision for the split that R206 chooses (R372): up to the first
that parks or ends the group. -/
def State.raiseNotes : List (Nat × Nat) → State → Nat → Nat → State
  | [], s, _, _ => s
  | n :: ns, s, k, slot =>
    let s := (s.updGroup k fun g => { g with notes := ns }).raiseNote k slot n.1 n.2
    match s.group k with
    | some g => if g.fault.isSome then s else State.raiseNotes ns s k slot
    | none => s

/-- The group that a port grants next (R203): the first that can issue, starting after the slot that ran last. -/
def State.nextReady (s : State) (core port : Nat) : Option (Nat × Nat) :=
  let base := groupKey core (16 * port)
  let after := Map.get 0 s.rr (4 * core + port)
  ((List.range 16).map fun j => base + (after + j) % 16).findSome? fun k =>
    match s.group k with
    | some g => g.choose.map fun slot => (k, slot)
    | none => none

/-- RUN_GRANT: a port with no run in progress grants one (R203) to the split that R206 chooses. -/
def execRunGrant (core port : Nat) (s : State) : Host.Outcome State Fault Refusal :=
  match Map.find s.runs (4 * core + port), s.nextReady core port with
  | none, some (k, slot) =>
    match s.group k with
    | none => .next s
    | some g =>
      if !g.notes.isEmpty then .next (s.raiseNotes g.notes k slot)
      else
        .next { s.setGroup k (g.chosen slot) with
          runs := Map.set s.runs (4 * core + port) { group := k, slot, count := 0, clock := s.clock + 1 } }
  | _, _ => .next s

end Sys2Proof.Machine
end

