-- ==== Sys2Proof/Machine/Debug.lean ====
section
/-! DEFINITION. Debug commands (R384 to R386). -/
namespace Sys2Proof.Machine

/-- A debug command has completed. -/
def State.dbgAnswer (s : State) (port : Bool) (result : Nat) : State := s.updPort port.toNat fun p => { p with dbgstat := result }

/-- A command for a context of the function's port acts; any other has RESULT 2. -/
def State.debug (s : State) (x : Dbg) (ok : Bool) (f : State → State) : Host.Outcome State Fault Refusal :=
  if s.foreign x.port x.ctx || (s.ctx x.ctx).state == .empty || !ok then .next (s.dbgAnswer x.port 2)
  else .next ((f s).dbgAnswer x.port 0)

def State.dbgarg (s : State) (x : Dbg) : Nat := (s.port x.port.toNat).dbgarg

def execSetbp (x : Dbg) (s : State) : Host.Outcome State Fault Refusal :=
  s.debug x (x.index < 8) fun s => s.updCtx x.ctx fun c => { c with bps := Map.set c.bps x.index (s.dbgarg x) }

/-- SETWP: a range of 2^WSIZE bytes from an aligned base, WKIND 1 to 3. -/
def execSetwp (x : Dbg) (s : State) : Host.Outcome State Fault Refusal :=
  let base := s.dbgarg x
  s.debug x (x.index < 8 && 1 ≤ x.wkind && x.wkind ≤ 3 && x.wsize ≤ 12 && base % 2 ^ x.wsize == 0) fun s =>
    s.updCtx x.ctx fun c => { c with wps := Map.set c.wps x.index (base, x.wsize, x.wkind) }

/-- CLEAR: breakpoint k and watchpoint k. -/
def execClear (x : Dbg) (s : State) : Host.Outcome State Fault Refusal :=
  s.debug x (x.index < 8) fun s => s.updCtx x.ctx fun c => { c with bps := Map.erase c.bps x.index, wps := Map.erase c.wps x.index }

def execStepon (x : Dbg) (s : State) : Host.Outcome State Fault Refusal :=
  s.debug x true fun s => s.updCtx x.ctx fun c => { c with stepping := true }

def execStepoff (x : Dbg) (s : State) : Host.Outcome State Fault Refusal :=
  s.debug x true fun s => s.updCtx x.ctx fun c => { c with stepping := false }

/-- INJECT (R386): the cause is raised at the group's next issue decision, by its kind, with TRAPAUX from DBGARG. -/
def execInject (x : Dbg) (s : State) : Host.Outcome State Fault Refusal :=
  let k := groupKey (128 * x.die + x.core) x.slot
  let ours := match s.group k with | some g => g.ident.ctx == x.ctx | none => false
  s.debug x (ours && x.cause ≤ 0xBF && x.cause != 0xA1 && x.cause != 0xA3) fun s =>
    s.updGroup k fun g => { g with notes := g.notes ++ [(x.cause, s.dbgarg x % 2 ^ 32)] }

end Sys2Proof.Machine
end

