-- ==== Sys2Proof/Machine/Transc.lean ====
section
/-! DEFINITION. The transcendentals (R100): exact cases, special operands, error bounds, flags. The bits that the spec
leaves open come from Config.sfu, kept only where the bound allows them. -/
namespace Sys2Proof.Machine

/-- Fixed point with 96 fraction bits. -/
def fxOne : Nat := 2 ^ 96
def fxLn2 : Nat := 54916777467707473351141471128
def fxPi : Nat := 248902613312231085230521944622

/-- Σ y^k / k! for k below n terms, from term t of index k. -/
def expSeries : Nat → Nat → Nat → Nat → Nat → Nat
  | 0, _, _, _, acc => acc
  | n + 1, y, k, t, acc => expSeries n y (k + 1) (t * y / fxOne / (k + 1)) (acc + t)

/-- 2^(num/den) for num/den in [0, 1), in fixed point. -/
def exp2Fix (num den : Nat) : Nat := expSeries 32 (num * fxOne / den * fxLn2 / fxOne) 0 fxOne 0

def atanhSeries : Nat → Nat → Nat → Nat → Nat → Nat
  | 0, _, _, _, acc => acc
  | n + 1, t2, k, p, acc => atanhSeries n t2 (k + 2) (p * t2 / fxOne) (acc + p / k)

/-- log2 of num/den in [1, 2), in fixed point. -/
def log2Fix (num den : Nat) : Nat :=
  let t := (num - den) * fxOne / (num + den)
  2 * atanhSeries 32 (t * t / fxOne) 1 t 0 * fxOne / fxLn2

def sinSeries : Nat → Nat → Nat → Nat → Int → Int
  | 0, _, _, _, acc => acc
  | n + 1, y2, k, t, acc =>
    sinSeries n y2 (k + 2) (t * y2 / fxOne / ((k + 1) * (k + 2))) (if k % 4 = 1 then acc + t else acc - t)

/-- sin(π num/den) for num/den in [0, 1/2], in fixed point. -/
def sinFix (num den : Nat) : Nat :=
  let y := num * fxPi / den
  (sinSeries 20 (y * y / fxOne) 1 y 0).toNat

/-- sin(π x) for x = num/den ≥ 0: sign and magnitude as a fraction over 2^96. -/
def sinPi (num den : Nat) : Bool × Nat :=
  let r := num % (2 * den)
  let (neg, r) := if r ≥ den then (true, r - den) else (false, r)
  let r := if 2 * r > den then den - r else r
  (neg, sinFix r den)

/-- |c − v| ≤ bn/bd for finite c. -/
def within (c : FV) (v : Int) (den : Nat) (bn bd : Nat) : Bool :=
  match c with
  | .fin _ _ _ => decide ((c.num * den - v * c.den).natAbs * bd ≤ bn * (c.den * den))
  | _ => false

/-- One unit in the last place of f at magnitude num/den, as a fraction. -/
def ulpQ (f : Fmt) (num den : Nat) : Nat × Nat :=
  let e := (max (log2q num den) (1 - f.bias)) - f.mb
  if 0 ≤ e then (2 ^ e.toNat, 1) else (1, 2 ^ (-e).toNat)

inductive TOp where
  | rcp | rsq | exp2 | log2 | sin | cos
  deriving DecidableEq, Repr

def TOp.code : TOp → Nat | .rcp => 0 | .rsq => 1 | .exp2 => 2 | .log2 => 3 | .sin => 4 | .cos => 5

/-- What the table of R100 fixes for an operand: a result and flags; or a value to round, in absolute or relative bound. -/
inductive TRes where
  | exact (x fl : Nat)
  | approx (v : Int) (den : Nat) (ulps : Nat) (absB : Option Nat)   -- absB: 2^absB is the bound's reciprocal

/-- The result of the correctly rounded or bounded function (R100). An exact case whose value the format does not hold is
rounded with its flags (DEDUCED, log entry 8). -/
def transcOf (op : TOp) (f : Fmt) (a : FV) : TRes :=
  let is16 := f.mb == 10
  let zero (n : Bool) := if n then f.signBit else 0
  let one (n : Bool) := f.bias * 2 ^ f.mb + zero n
  match a with
  | .nan s => .exact f.nan (if s then fNV else 0)
  | .inf n =>
    match op with
    | .rcp => .exact (zero n) 0
    | .rsq => if n then .exact f.nan fNV else .exact 0 0
    | .exp2 => if n then .exact 0 0 else .exact (f.infty false) 0
    | .log2 => if n then .exact f.nan fNV else .exact (f.infty false) 0
    | .sin | .cos => .exact f.nan fNV
  | .fin n num den =>
    match op with
    | .rcp =>
      if num = 0 then .exact (f.infty n) fDZ
      else
        let r := f.roundFin .rne false n den num
        if r.2 = 0 then .exact r.1 0
        else .approx (if n then -(den : Int) else den) num (if is16 then 0 else 1) none
    | .rsq =>
      if num = 0 then .exact (f.infty n) fDZ
      else if n then .exact f.nan fNV
      else
        let (p, q) := sqrtQ den num
        let r := f.roundFin .rne false false p q
        if r.2 = 0 then .exact r.1 0 else .approx p q (if is16 then 0 else 1) none
    | .exp2 =>
      if num = 0 then .exact (one false) 0
      else
        let x : Int := if n then -(num : Int) else num
        let i := (x / (den : Int))
        let fr := (x % (den : Int)).toNat
        let i := max (-400) (min 400 i)
        if fr = 0 then let r := f.round .rne (FV.scaled false 1 1 i); .exact r.1 r.2
        else
          match FV.scaled false (exp2Fix fr den) fxOne i with
          | .fin _ p q => .approx p q (if is16 then 1 else 2) none
          | _ => .exact 0 0
    | .log2 =>
      if num = 0 then .exact (f.infty true) fDZ
      else if n then .exact f.nan fNV
      else
        let k := log2q num den
        let (p, q) := if 0 ≤ k then (num, den * 2 ^ k.toNat) else (num * 2 ^ (-k).toNat, den)
        if p = q then let r := f.round .rne (FV.ofInt k); .exact r.1 r.2
        else
          let v : Int := k * fxOne + log2Fix p q
          let near := num * 2 ≥ den && num ≤ 2 * den
          .approx v fxOne (if is16 then 1 else 2) (if near then some (if is16 then 10 else 22) else none)
    | .sin =>
      if num = 0 then .exact (zero n) 0
      else if 2 * num % den = 0 then
        let h := 2 * num / den % 4
        if h % 2 = 0 then .exact 0 0 else .exact (one (n != (h == 3))) 0
      else
        let (s, m) := sinPi num den
        .approx (if s != n then -(m : Int) else m) fxOne 0 (some (if is16 then 10 else 22))
    | .cos =>
      if 2 * num % den = 0 then
        let h := 2 * num / den % 4
        if h % 2 = 1 then .exact 0 0 else .exact (one (h == 2)) 0
      else
        let (s, m) := sinPi (2 * num + den) (2 * den)
        .approx (if s then -(m : Int) else m) fxOne 0 (some (if is16 then 10 else 22))

/-- The bits and flags of a transcendental (R100). Outside the exact and special cases NX is raised, UF with a tiny
result and OF with an infinite one. -/
def transc (op : TOp) (f : Fmt) (x : Nat) : Nat × Nat :=
  match transcOf op f (f.decode x) with
  | .exact r fl => (r, fl)
  | .approx v den ulps absB =>
    let rounded := (f.roundFin .rne false (decide (v < 0)) v.natAbs den).1
    let (bn, bd) := match absB with
      | some k => (1, 2 ^ k)
      | none => let u := ulpQ f v.natAbs den; (ulps * u.1, u.2)
    let cand := Config.sfu op.code (f.mb == 10) x % 2 ^ f.width
    let r := if bn ≠ 0 ∧ within (f.decode cand) v den bn bd = true then cand else rounded
    let mag := r % f.signBit
    (r, fNX ||| (if mag < 2 ^ f.mb then fUF else 0) ||| (if mag ≥ (2 ^ f.eb - 1) * 2 ^ f.mb then fOF else 0))

end Sys2Proof.Machine
end

