-- ==== Sys2Proof/Machine/FloatOps.lean ====
section
/-! DEFINITION. The floating instructions (R98 to R103). -/
namespace Sys2Proof.Machine

/-- Applies a function of the elements' patterns to each element and ORs the flags (R85). -/
def floatEach (ty : Nat) (f : Fmt → Nat → Nat → Nat → Nat × Nat) (v : AluSrc) : LaneOut :=
  let fm := fmtOf ty
  let w := fm.width
  let rs := (elems w 32 v.a).zipWith (fun a (bc : Nat × Nat) => f fm a bc.1 bc.2) ((elems w 32 v.b).zip (elems w 32 v.c))
  { d := joinElems w (rs.map (·.1)), fl := rs.foldl (fun m r => m ||| r.2) 0 }

/-- One exact value, rounded once (R85). -/
def floatExact (ty : Nat) (rm : Rnd) (f : FV → FV → FV → FV × Nat) : AluSrc → LaneOut :=
  floatEach ty fun fm a b c => fm.result rm (f (fm.decode a) (fm.decode b) (fm.decode c))

def execFadd (x : Alu) (s : State) : Host.Outcome State Fault Refusal :=
  aluOp1 0x30 0 (fpClass x.ty.toNat) (floatExact x.ty.toNat x.rnd fun a b _ => addV x.rnd a b) x s

def execFsub (x : Alu) (s : State) : Host.Outcome State Fault Refusal :=
  aluOp1 0x31 0 (fpClass x.ty.toNat) (floatExact x.ty.toNat x.rnd fun a b _ => subV x.rnd a b) x s

def execFmul (x : Alu) (s : State) : Host.Outcome State Fault Refusal :=
  aluOp1 0x32 0 (fpClass x.ty.toNat) (floatExact x.ty.toNat x.rnd fun a b _ => mulV a b) x s

def execFfma (x : Alu) (s : State) : Host.Outcome State Fault Refusal :=
  aluOp1 0x33 0 (fpClass x.ty.toNat) (floatExact x.ty.toNat x.rnd (fmaV x.rnd)) x s

def execFmin (x : Alu) (s : State) : Host.Outcome State Fault Refusal :=
  aluOp1 0x34 0 (fpClass x.ty.toNat) (floatExact x.ty.toNat .rne fun a b _ => minmaxV false a b) x s

def execFmax (x : Alu) (s : State) : Host.Outcome State Fault Refusal :=
  aluOp1 0x35 0 (fpClass x.ty.toNat) (floatExact x.ty.toNat .rne fun a b _ => minmaxV true a b) x s

def execFdiv (x : Alu) (s : State) : Host.Outcome State Fault Refusal :=
  aluOp1 0x36 12 0 (floatExact x.ty.toNat x.rnd fun a b _ => divV a b) x s

def execFsqrt (x : Alu) (s : State) : Host.Outcome State Fault Refusal :=
  aluOp1 0x37 12 0 (floatExact x.ty.toNat x.rnd fun a _ _ => sqrtV a) x s

/-- A transcendental (R100), element by element. -/
def floatTransc (op : TOp) (ty : Nat) : AluSrc → LaneOut := floatEach ty fun fm a _ _ => transc op fm a

def execFrcp (x : Alu) (s : State) : Host.Outcome State Fault Refusal :=
  aluOp1 0x38 12 (fpClass x.ty.toNat) (floatTransc .rcp x.ty.toNat) x s

def execFrsq (x : Alu) (s : State) : Host.Outcome State Fault Refusal :=
  aluOp1 0x39 12 (fpClass x.ty.toNat) (floatTransc .rsq x.ty.toNat) x s

def execFexp2 (x : Alu) (s : State) : Host.Outcome State Fault Refusal :=
  aluOp1 0x3A 12 (fpClass x.ty.toNat) (floatTransc .exp2 x.ty.toNat) x s

def execFlog2 (x : Alu) (s : State) : Host.Outcome State Fault Refusal :=
  aluOp1 0x3B 12 (fpClass x.ty.toNat) (floatTransc .log2 x.ty.toNat) x s

def execFsin (x : Alu) (s : State) : Host.Outcome State Fault Refusal :=
  aluOp1 0x3C 12 (fpClass x.ty.toNat) (floatTransc .sin x.ty.toNat) x s

def execFcos (x : Alu) (s : State) : Host.Outcome State Fault Refusal :=
  aluOp1 0x3D 12 (fpClass x.ty.toNat) (floatTransc .cos x.ty.toNat) x s

/-- FRND (R101): NX when the value changes. -/
def frnd (rm : Rnd) (fm : Fmt) (a : Nat) : Nat × Nat :=
  let v := fm.decode a
  let r := v.rint rm
  let changed := !v.isNan && !v.isInf && v.cmp r != 0
  ((fm.round .rne r).1, (if v.isSig then fNV else 0) ||| (if changed then fNX else 0))

def execFrnd (x : Alu) (s : State) : Host.Outcome State Fault Refusal :=
  aluOp1 0x3E 0 (fpClass x.ty.toNat) (floatEach x.ty.toNat fun fm a _ _ => frnd x.rnd fm a) x s

def execFfrac (x : Alu) (s : State) : Host.Outcome State Fault Refusal :=
  aluOp1 0x3F 0 0 (floatEach x.ty.toNat fun fm a _ _ => ffrac x.rnd (fm.decode a)) x s

/-- FCLASS (R102): the mask, and whether it meets B. -/
def fclass (v : AluSrc) : LaneOut :=
  let m := 2 ^ fclassBit v.a
  { d := m, p := m &&& v.b != 0 }

def execFclass (x : Alu) (s : State) : Host.Outcome State Fault Refusal := aluOp 0x40 0 0 4 4 fclass x s

/-- FDOT2 (R103). -/
def fdot2 (ty : Nat) (rm : Rnd) (v : AluSrc) : LaneOut :=
  let fm := fmtOf ty
  let e (x k : Nat) : FV := fm.decode (x / 2 ^ (16 * k) % 2 ^ 16)
  let r := f32.result rm (dot2V rm (e v.a 0) (e v.b 0) (e v.a 1) (e v.b 1) (f32.decode v.c))
  { d := r.1, fl := r.2 }

def execFdot2 (x : Alu) (s : State) : Host.Outcome State Fault Refusal :=
  aluOp 0x41 0 0 x.ty.toNat 8 (fdot2 x.ty.toNat x.rnd) x s

def execFlerp (x : Alu) (s : State) : Host.Outcome State Fault Refusal :=
  aluOp1 0x42 0 (fpClass x.ty.toNat) (floatExact x.ty.toNat x.rnd (lerpV x.rnd)) x s

/-- FSCALE (R98): B is a 32-bit .i32, the same for every element. -/
def fscale (ty : Nat) (rm : Rnd) (v : AluSrc) : LaneOut :=
  floatEach ty (fun fm a _ _ =>
    let y := fm.decode a
    fm.result rm (if y.isNan then .nan false else scaleV y (sint 32 v.b), if y.isSig then fNV else 0)) v

def execFscale (x : Alu) (s : State) : Host.Outcome State Fault Refusal :=
  aluOp 0x43 0 (fpClass x.ty.toNat) 0 0 (fscale x.ty.toNat x.rnd) x s

end Sys2Proof.Machine
end

