-- ==== Sys2Proof/Machine/Link.lean ====
section
/-! DEFINITION. Hexolink ports, routes, the pairwise exchange and the bindings (R387 to R396), and what a remote package asks
of this one (R393). -/
namespace Sys2Proof.Machine

/-! ### Port states (R391) -/

/-- A link event is logged with its port as the location; the kind of such a record is not stated. -/
def State.logPort (s : State) (p cause : Nat) : State :=
  let (k, s) := s.pick 6
  s.log { cause, kind := k, die := p / 12, loc := p }

/-- An unacknowledged request fails (R391, R378): a load or an atomic kills the group that still waits for it; the rest is logged,
and its packet fails. -/
def State.requestFails (s : State) (w : Work) (cause : Nat) : State :=
  if w.posted then s.lost w cause
  else match w.group with
    | none => s
    | some (k, uid, seq) =>
      match s.group k with
      | some g =>
        let waits : Bool := match seq with | some n => g.outst.any (·.seq == n) | none => true
        if g.ident.uid == uid && waits then s.kill k cause w.loc else s
      | none => s

/-- What is left of a port that is DOWN: nothing but what it has sent. Its pairwise key is erased (R395). -/
def Link.off (l : Link) : Link := { sent := l.sent }

/-- The port enters DOWN: every unacknowledged request fails with a cause (R391); one that has not left finds the port DOWN. -/
def State.portDown (s : State) (p cause : Nat) : State :=
  let l := s.link p
  l.waiting.foldl (fun (s : State) r => s.requestFails r.1 0xB0)
    (l.reqs.foldl (fun (s : State) r => s.requestFails r.2 cause) (s.setLink p l.off))

/-- The exchange fails (R395). What requests were unacknowledged find their target unreachable. -/
def State.exchangeFails (s : State) (p : Nat) : State := (s.portDown p 0xB0).logPort p 0xB4

def Link.up (l : Link) : Bool := l.state == 2 || l.state == 3

/-- HELLO of this package for the exchange n: node id, nonce, chain. -/
def State.helloBody (s : State) (n : Nat) : List Byte := toBytes 2 s.node ++ Config.nonce n ++ Config.ownChain

/-- A management command has completed: RESULT, PENDING 0; or it is in progress. -/
def State.mgmtAnswer (s : State) (port : Bool) (result : Nat) : State := s.updPort port.toNat fun p => { p with mgmtstat := result }

/-- A command of the function is in progress: a write to MGMTCMD is ignored. -/
def State.mgmtBusy (s : State) (port : Bool) : Bool := bit (s.port port.toNat).mgmtstat 2

/-- RESULT where a port has no row for the event: the state stays (R8), and the result is not stated. -/
def State.mgmtFree (s : State) (port : Bool) : State := let (k, s) := s.pick 2; s.mgmtAnswer port (2 * k)

/-- A PORTCTL command: from port 0, for one of 24 ports. -/
def State.portctl (s : State) (port : Bool) (p : Nat) (act : Link → Option (State → State)) : State :=
  if s.mgmtBusy port then s
  else if port || p ≥ 24 then s.mgmtAnswer port 2
  else match act (s.link p) with
    | some f => (f s).mgmtAnswer port 0
    | none => s.mgmtFree port

/-- PORTCTL enable: DOWN becomes TRAINING, and the root sends HELLO. -/
def execPortctlEnable (port : Bool) (p : Nat) (s : State) : Host.Outcome State Fault Refusal :=
  .next (s.portctl port p fun l =>
    if l.state ≠ 0 then none
    else some fun s =>
      let (n, s) := s.freshId
      let body := s.helloBody n
      s.setLink p (({ state := 1, sent := l.sent, kx := { step := 1, n, xid := n, hello := body } } : Link).sendMsg 1 n body))

/-- PORTCTL disable: any state but DOWN becomes DOWN. -/
def execPortctlDisable (port : Bool) (p : Nat) (s : State) : Host.Outcome State Fault Refusal :=
  .next (s.portctl port p fun l => if l.state = 0 then none else some fun s => s.portDown p 0xB0)

/-- UP and DEGRADED become RETRAINING; the replay buffer stays. -/
def State.retrain (s : State) (p : Nat) : State := s.setLink p { s.link p with state := 4, nak := false, naks := 0 }

def execPortctlRetrain (port : Bool) (p : Nat) (s : State) : Host.Outcome State Fault Refusal :=
  .next (s.portctl port p fun l => if l.up then some fun s => s.retrain p else none)

def execLossOfLock (p : Nat) (s : State) : Host.Outcome State Fault Refusal :=
  if (s.link p).up then .next (s.retrain p) else .next s

/-- Good lanes of a set of five. -/
def goodLanes (m : Nat) : List Nat := (List.range 5).filter (bit m)

/-- The port after training with at least two good lanes: state, active lanes, weak lanes. -/
def Link.trained (l : Link) (m : Nat) : Link :=
  let weak := (List.range 5).filter fun n => !bit m n
  { l with state := if weak.isEmpty then 2 else 3, half := (goodLanes m).length < 4, weak,
           shadow := if weak.isEmpty then l.shadow else weak.headD l.shadow }

/-- TRAINING_END: `good` is the set of good lanes, `peer` the peer's node id. The rows of R391 are tried in their order (R8): two good
lanes train the port. Training does not end before both FINISH messages have checked. A retrained port resends its replay buffer;
a failed retraining fails the requests in it. -/
def execTrainingEnd (p good peer : Nat) (s : State) : Host.Outcome State Fault Refusal :=
  let l := s.link p
  let enough := (goodLanes good).length ≥ 2
  if l.state = 1 then
    if enough = false then .next ((s.portDown p 0xB0).logPort p 0xB0)
    else if l.kx.step ≠ 4 then .next s
    else .next (s.setLink p (({ l with seq := 0, last := 4095, nak := false, naks := 0, replay := [], reqs := [], waiting := [], asked := 0, shadow := 4, peer := some peer } : Link).trained good)).unbindWaiting
  else if l.state = 4 then
    if enough then .next (s.setLink p (l.trained good).resend) else .next (s.portDown p 0xB5)
  else .next s

/-- The peer's node id as its HELLO gives it, once it has arrived. -/
def Link.helloPeer (l : Link) : Option Nat := if l.kx.helloP.isEmpty then none else some (ofBytes (l.kx.helloP.take 2))

/-- TRAINING_TIMEOUT: 100 ms have passed. -/
def execTrainingTimeout (p good : Nat) (s : State) : Host.Outcome State Fault Refusal :=
  let l := s.link p
  let few := (goodLanes good).length < 2
  if l.state = 1 ∧ (few ∨ l.helloPeer = some s.node) then .next ((s.portDown p 0xB0).logPort p 0xB0)
  else if l.state = 4 ∧ few then .next (s.portDown p 0xB5)
  else .next s

/-- SHADOW_ROTATION (R390): 4, 0, 1, 2, 3, 4; a weak lane ends it. -/
def execShadowRotation (p : Nat) (s : State) : Host.Outcome State Fault Refusal :=
  let l := s.link p
  if l.state = 2 ∧ l.weak = [] then .next (s.setLink p { l with shadow := (l.shadow + 1) % 5 }) else .next s

/-- LANE_CALIBRATION: a lane is found weak. -/
def execLaneCalibration (p lane : Nat) (s : State) : Host.Outcome State Fault Refusal :=
  let l := s.link p
  if lane ≥ 5 ∨ l.weak.contains lane = true then .next s
  else if l.state = 2 then .next (s.setLink p { l with state := 3, weak := [lane], shadow := lane })
  else if l.state = 3 ∧ l.half = false then .next ((s.setLink p { l with weak := insertNat l.weak lane }).retrain p)
  else .next s

/-! ### Receiving (R389) -/

/-- The flits that an ACK covers leave the replay buffer. -/
def Link.acked (l : Link) (ack : Nat) : Link :=
  let covers (seq : Nat) : Bool := (ack + 4096 - seq) % 4096 < 2048
  { l with replay := l.replay.filter fun f => !covers f.1, reqs := l.reqs.filter fun r => !covers r.1 }

/-- A NAK: every unacknowledged flit goes out again; the eighth in a row for the same SEQ exhausts replay. -/
def Link.naked (l : Link) (ack : Nat) : Link :=
  let n := if l.nakSeq = ack then l.naks + 1 else 1
  if n ≥ 8 ∧ l.up = true then { l with state := 4, nakSeq := ack, naks := 0 } else ({ l with nakSeq := ack, naks := n } : Link).resend

/-- The header of a fragment follows R395; its message so far, or none when it does not. -/
def takeFragment (rx : Option MgmtMsg) (payload : List Byte) : Option MgmtMsg :=
  let h := ofBytes (payload.take 16)
  let code := bits h 0 8
  let frag := bits h 8 8
  let total := bits h 16 8
  let len := bits h 32 16
  let xid := bits h 64 64
  let part := (payload.drop 16).take len
  if code = 0 ∨ code > 6 ∨ total = 0 ∨ frag ≥ total ∨ bits h 24 8 ≠ 0 ∨ bits h 48 16 ≠ 0 ∨ len = 0 ∨ len > 208 then none
  else match rx with
    | none => if frag = 0 then some { code, xid, body := part, frag := 1, total } else none
    | some m =>
      if m.code = code ∧ m.xid = xid ∧ m.total = total ∧ m.frag = frag then some { m with body := m.body ++ part, frag := frag + 1 }
      else none

/-- A management flit has been accepted. -/
def State.mgmtFlit (s : State) (p : Nat) (payload : List Byte) : State :=
  let l := s.link p
  match takeFragment l.rx payload with
  | none => s.exchangeFails p
  | some m => s.setLink p (if m.frag = m.total then { l with rx := none, inbox := l.inbox ++ [m] } else { l with rx := some m })

/-- A flit that is not accepted: the first after an accepted one is answered with a NAK, in an idle flit. -/
def Link.discard (l : Link) : Link := if l.nak then l else { l.emit [buildFlit 0 l.last true 0 []] with nak := true }

/-- FLIT_RECEIVE: 256 bytes arrive on a port; they are corrected, checked, and accepted in order. -/
def execFlitReceive (p : Nat) (bytes : List Byte) (s : State) : Host.Outcome State Fault Refusal :=
  let l := s.link p
  if l.state = 0 ∨ p ≥ 24 then .next s
  else match openFlit bytes with
    | none => .next (s.setLink p l.discard)
    | some body =>
      let h := ofBytes (body.take 8)
      let seq := bits h 0 12
      let ack := bits h 12 12
      let type := bits h 25 3
      let l := l.acked ack
      let l := (if bit h 24 then l.naked ack else l).drain 512
      if type = 0 then .next (s.setLink p l)
      else if seq ≠ (l.last + 1) % 4096 then .next (s.setLink p l.discard)
      else
        let s := s.setLink p { l with last := seq, nak := false, asked := l.asked + if type = 1 then 1 else 0 }
        .next (if type = 3 then s.mgmtFlit p (body.drop 8) else s)

/-! ### Routes (R392) -/

/-- ROUTE_TABLE_WRITE: the entry of a node names a port, or 0xFF for none. Requests wait for those on the old port
(State.portFull). -/
def execRouteTableWrite (node port : Nat) (s : State) : Host.Outcome State Fault Refusal :=
  if node ≥ 1024 ∨ (port ≥ 24 ∧ port ≠ 255) then .next s
  else .next { s with routes := Map.put 0 s.routes node (if port = 255 then 0 else port + 1) }

/-! ### The exchange (R395) -/

/-- Takes a message that has arrived whole from a port's inbox: the oldest. -/
def State.takeMsg (s : State) (code : Nat) (x : Msg) : Option State :=
  let l := s.link x.port
  match l.inbox with
  | m :: ms => if m.code = code ∧ m.xid = x.xid ∧ m.body = x.body then some (s.setLink x.port { l with inbox := ms }) else none
  | [] => none

def helloNode (body : List Byte) : Nat := ofBytes (body.take 2)
def helloNonce (body : List Byte) : List Byte := (body.drop 2).take 48
def helloChain (body : List Byte) : List Byte := body.drop 50

/-- The two HELLO messages, that of the lower node id first; and any two things of this package and the peer so ordered. -/
def Exch.lowFirst (k : Exch) (own peer : List Byte) : List Byte :=
  if helloNode k.hello < helloNode k.helloP then own ++ peer else peer ++ own

def Exch.transcript (k : Exch) : List Byte :=
  Config.sha384 (k.lowFirst k.hello k.helloP ++ k.lowFirst (Config.ownPoint k.n) k.pointP)

/-- HELLO: the peer's chain is checked, and SHARE is sent. -/
def execHello (x : Msg) (s : State) : Host.Outcome State Fault Refusal :=
  match s.takeMsg 1 x with
  | none => .next s
  | some s =>
    let l := s.link x.port
    if l.state ≠ 1 ∨ l.kx.step ≠ 1 ∨ Config.chainOk (helloChain x.body) = false then .next (s.exchangeFails x.port)
    else
      let k := { l.kx with step := 2, helloP := x.body, peerXid := x.xid }
      let point := Config.ownPoint k.n
      let sig := Config.ownSign (Config.sha384 (k.lowFirst k.hello k.helloP ++ point))
      .next (s.setLink x.port (({ l with kx := k } : Link).sendMsg 2 x.xid (point ++ sig)))

/-- SHARE: the signature is checked, the keys are derived, FINISH is sent. -/
def execShare (x : Msg) (s : State) : Host.Outcome State Fault Refusal :=
  match s.takeMsg 2 x with
  | none => .next s
  | some s =>
    let l := s.link x.port
    let point := x.body.take 97
    let hash := Config.sha384 (l.kx.lowFirst l.kx.hello l.kx.helloP ++ point)
    if l.state ≠ 1 ∨ l.kx.step ≠ 2 ∨ x.xid ≠ l.kx.xid ∨ x.body.length ≠ 193
        ∨ Config.ecdsaOk (Config.leafKey (helloChain l.kx.helloP)) hash (x.body.drop 97) = false then .next (s.exchangeFails x.port)
    else
      let k := { l.kx with step := 3, pointP := point }
      let low := min (helloNode k.hello) (helloNode k.helloP)
      let high := max (helloNode k.hello) (helloNode k.helloP)
      let info : List Byte := [0x48, 0x58, 0x4C, 0x2D, 0x50, 0x41, 0x49, 0x52] ++ toBytes 2 low ++ toBytes 2 high
      let okm := Config.hkdf384 (k.lowFirst (helloNonce k.hello) (helloNonce k.helloP)) (Config.ecdh k.n point) info 64
      let k := { k with wrap := okm.take 32, conf := (okm.drop 32).take 32 }
      .next (s.setLink x.port (({ l with kx := k } : Link).sendMsg 3 k.peerXid (Config.hmac384 k.conf k.transcript)))

/-- FINISH: the confirmation is checked; training may end. -/
def execFinish (x : Msg) (s : State) : Host.Outcome State Fault Refusal :=
  match s.takeMsg 3 x with
  | none => .next s
  | some s =>
    let l := s.link x.port
    if l.state ≠ 1 ∨ l.kx.step ≠ 3 ∨ x.xid ≠ l.kx.xid ∨ x.body ≠ Config.hmac384 l.kx.conf l.kx.transcript then
      .next (s.exchangeFails x.port)
    else .next (s.setLink x.port { l with kx := { l.kx with step := 4 } })

/-! ### Bindings (R394, R395) -/

/-- PODBIND: binds a context to a node and a remote key id; BIND leaves on the port that joins the two packages. It stays in
progress until BINDACK. A binding already accepted stays in force meanwhile, and when the new BIND is refused (log entry 33). -/
def execPodbind (port : Bool) (ctx : Nat) (s : State) : Host.Outcome State Fault Refusal :=
  let arg := (s.port port.toNat).mgmtarg
  let node := bits arg 0 10
  let theirs := bits arg 10 9
  let c := s.ctx ctx
  if s.mgmtBusy port then .next s
  else if s.foreign port ctx || c.stamp == 0 then .next (s.mgmtAnswer port 2)
  else match s.portTo node with
    | none => .next (s.mgmtAnswer port 2)
    | some p =>
      let l := s.link p
      let (xid, s) := s.freshId
      let body := toBytes 2 c.keyId ++ toBytes 2 theirs ++ toBytes 8 xid ++ Config.keyWrap l.kx.wrap (Config.xtsKeys c.stamp)
      let old := s.bindings.find? fun b => b.ctx == ctx && b.node == node && b.theirs == theirs
      let b : Binding := { ctx, node, theirs, state := if old.any (·.state == 1) then 1 else 0, port := port.toNat, xid, keys := (old.map (·.keys)).getD [],
                           stamp := old.bind (·.stamp) }
      let s := { s with bindings := (s.bindings.filter fun (b : Binding) => !(b.ctx == ctx && b.node == node && b.theirs == theirs)) ++ [b] }
      .next (((s.sendMsg p 4 xid body).updPort port.toNat fun q => { q with podbind := some xid }).mgmtAnswer port 4)

/-- A message of a binding that arrives on a port whose packages share a key. -/
def State.bound (s : State) (code : Nat) (x : Msg) (f : State → Nat → Option State) : State :=
  match s.takeMsg code x with
  | none => s
  | some s =>
    let l := s.link x.port
    match if l.state ≠ 1 ∧ l.kx.step = 4 then l.peer else none with
    | none => s.exchangeFails x.port
    | some node => (f s node).getD (s.exchangeFails x.port)

/-- BIND: the key pair is unwrapped and held for the binding, and the answer is sent. -/
def execBind (x : Msg) (s : State) : Host.Outcome State Fault Refusal :=
  .next (s.bound 4 x fun s node =>
    let f (o n : Nat) : Nat := ofBytes ((x.body.drop o).take n)
    let l := s.link x.port
    if x.body.length ≠ 84 then none
    else match Config.keyUnwrap l.kx.wrap (x.body.drop 12) with
      | none => none
      | some keys =>
        let theirs := f 0 2
        let mine := f 2 2
        let num := f 4 8
        let ok := s.bindings.any fun b => b.node == node && b.theirs == theirs && (s.ctx b.ctx).keyId == mine
        let fresh := num > Map.get 0 s.bindSeen node
        let (stamp, s) := s.freshId
        let s := { s with
          bindSeen := if fresh then Map.set s.bindSeen node num else s.bindSeen,
          bindings := s.bindings.map fun (b : Binding) =>
            if fresh && b.node == node && b.theirs == theirs && (s.ctx b.ctx).keyId == mine then
              { b with keys, stamp := if b.keys = keys then b.stamp.orElse fun _ => some stamp else some stamp }
            else b }
        some (s.sendMsg x.port 5 x.xid (toBytes 2 theirs ++ toBytes 2 mine ++ [if ok && fresh then 0 else 1, 0, 0, 0])))

/-- BINDACK: the PODBIND of the BIND that it answers completes, though the binding may be gone by now (R394, R395). -/
def execBindack (x : Msg) (s : State) : Host.Outcome State Fault Refusal :=
  .next (s.bound 5 x fun s node =>
    match [false, true].find? fun (port : Bool) => (s.port port.toNat).podbind == some x.xid with
    | none => none
    | some port =>
      let ok := (x.body.getD 4 1) = 0
      let s := { s with bindings := s.bindings.map fun (b : Binding) =>
        if b.node == node && b.xid == x.xid && b.state != 1 then { b with state := if ok then 1 else 2 } else b }
      some ((s.updPort port.toNat fun q => { q with podbind := none }).mgmtAnswer port (if ok then 0 else 2)))

/-- UNBIND: the binding is erased. -/
def execUnbind (x : Msg) (s : State) : Host.Outcome State Fault Refusal :=
  .next (s.bound 6 x fun s node =>
    let theirs := ofBytes (x.body.take 2)
    let mine := ofBytes ((x.body.drop 2).take 2)
    some { s with bindings := s.bindings.filter fun b => !(b.node == node && b.theirs == theirs && (s.ctx b.ctx).keyId == mine) })

/-! ### UCIe (R396) -/

/-- UCIE_MODULE_RETIRE: with no working module every context is FAULTED and 0xB0 is reported. -/
def execUcieModuleRetire (m : Nat) (s : State) : Host.Outcome State Fault Refusal :=
  if m ≥ 16 ∨ s.ucie.contains m = true then .next s
  else
    let s := { s with ucie := insertNat s.ucie m }
    if s.ucie.length < 16 then .next s
    else
      let live := (s.ctxs.filter fun c => c.2.state != .empty && c.2.state != .destroyed).map (·.1)
      .next ((live.foldl (fun (s : State) c => s.contextFault c 0xB0) s).logPort 0 0xB0)

/-! ### Requests of other packages (R393) -/

/-- The releases that a served store or atomic brings (R127, R130): after a .pod release of its group, every store that its package
has made here. -/
def State.nodeRels (s : State) (x : RemReq) : Map Rel :=
  if x.pub then [(relKey (2 ^ 40 + x.node) 4, { core := nodeAgent x.node, scope := 4, view := ({} : View).upTo (nodeAgent x.node) s.order.next })] else []

/-- A frame of this package that a request names: in GDDR7, or in the near tier's units that are set aside (R358). -/
def State.frameLoc (s : State) (x : RemReq) (n : Nat) : Option Nat :=
  if x.near then
    let last := x.addr + n - 1
    let st := bits x.addr 36 6
    if last < 2 ^ 42 ∧ st < 2 ∧ bits last 36 6 = st ∧ bits last 26 10 < Map.get 0 s.near st then some (nearBase + x.addr) else none
  else if x.addr + n ≤ Config.gddr7 then some x.addr else none

/-- A response leaves for a node. Its payload has no layout in the spec: it is open. -/
def State.respond (s : State) (node : Nat) : State :=
  match Map.get 0 s.routes node with
  | 0 => s
  | p + 1 => let (bs, s) := s.freeBytes 224; s.setLink p ((s.link p).send 2 bs)

/-- The port on which a node's request has come: one that has a request to perform, the port to that node before any other. -/
def State.askedBy (s : State) (node : Nat) : Option Nat :=
  ((s.links.find? fun l => l.2.asked > 0 && l.2.peer == some node) <|> s.links.find? fun l => l.2.asked > 0).map (·.1)

/-- REMOTE_REQUEST_SERVE: a request that a request flit has brought, that names an accepted binding and a frame of this package, is
performed at its home slice, under the key pair that the binding brought. Any other is refused. Both are answered by a response. -/
def execRemoteRequestServe (x : RemReq) (s : State) : Host.Outcome State Fault Refusal :=
  let n := match x.write with | some bs => bs.length | none => match x.atomic with | some (_, w, _) => w | none => x.len
  match s.askedBy x.node with
  | none => .next s
  | some p =>
    let s := s.setLink p { s.link p with asked := (s.link p).asked - 1 }
    match (s.bindings.find? fun b => b.node == x.node && b.theirs == x.key && b.stamp.isSome), s.frameLoc x n with
    | some b, some loc =>
      let stamp := b.stamp.getD 0
      let s := match x.write with
        | some bs => s.store (nodeAgent x.node) (s.nodeRels x) {} stamp loc bs
        | none =>
          match x.atomic with
          | some (aop, w, v) =>
            let old := ofBytes (s.peek stamp loc w)
            let hit : Bool := match x.cmp with | some c => old == c % 2 ^ (8 * w) | none => true
            if hit then
              let new := if x.cmp.isSome then v % 2 ^ (8 * w) else atomicOp aop (8 * w) old (v % 2 ^ (8 * w))
              s.store (nodeAgent x.node) (joinRels (s.inherited loc w) (s.nodeRels x)) {} stamp loc (toBytes w new)
            else s
          | none => s
      .next (s.respond x.node)
    | _, _ => .next (s.respond x.node)

end Sys2Proof.Machine
end

