-- ==== Sys2Proof/Machine/Registers.lean ====
section
/-! DEFINITION. The registers of the PCIe functions (R157, R361, R384, R398, R399), NEARSET and IMAGE (R400, R402), boot
(R401), UCIe and ATS (R397), power gating (R404). -/
namespace Sys2Proof.Machine

/-! ### Register writes and reads (R399) -/

/-- A host write to a register with no behaviour of its own: a 64-bit register takes an aligned 8-byte write, a 32-bit
register a 4-byte write; reserved bits stay zero (R6). -/
def Port.write (p : Port) (offset size v : Nat) : Port :=
  let v8 := v % 2 ^ 64
  let v4 := v % 2 ^ 32
  if size = 8 then
    match offset with
    | 0x28 => { p with pgarg := bits v8 0 6 + bits v8 12 40 * 2 ^ 12 }
    | 0x48 => { p with dbgarg := v8 }
    | 0x60 => { p with logbase := v8 / 16 * 16 }
    | 0x88 => { p with mgmtarg := v8 }
    | _ => p
  else if size = 4 then
    if offset = 0x68 then { p with logctl := bits v4 0 5 + bits v4 16 16 * 2 ^ 16 }
    else if offset = 0x70 then { p with logrd := v4 }
    else if 0x1000 ≤ offset ∧ offset < 0x1400 ∧ offset % 4 = 0 then
      { p with vfmap := Map.put 0 p.vfmap ((offset - 0x1000) / 4) (v4 % 64) }
    else p
  else p

/-- PORTSTAT of a port. -/
def Link.portstat (l : Link) : Nat := l.state + l.half.toNat * 8 + (l.peer.getD 0) % 1024 * 2 ^ 16

/-- What a host reads in a register of its physical function; an offset that is not listed reads as zero. -/
def State.hostRead (s : State) (port offset : Nat) : Nat :=
  let p := s.port port
  if 0x400 ≤ offset ∧ offset < 0x460 ∧ offset % 4 = 0 then (s.link ((offset - 0x400) / 4)).portstat
  else if 0x1000 ≤ offset ∧ offset < 0x1400 ∧ offset % 4 = 0 then Map.get 0 p.vfmap ((offset - 0x1000) / 4)
  else match offset with
    | 0x08 => s.ctxstat port
    | 0x18 => p.now
    | 0x28 => p.pgarg
    | 0x30 => p.pgstat
    | 0x48 => p.dbgarg
    | 0x50 => p.dbgstat
    | 0x60 => p.logbase
    | 0x68 => p.logctl
    | 0x6C => p.logwr
    | 0x70 => p.logrd
    | 0x74 => p.loglost
    | 0x88 => p.mgmtarg
    | 0x90 => p.mgmtstat
    | 0x100 => s.boot
    | _ => 0

/-! ### Management commands (R400) -/

/-- NEARSET: what it sets aside wakes (R404). -/
def execNearset (port : Bool) (stack count : Nat) (s : State) : Host.Outcome State Fault Refusal :=
  if s.mgmtBusy port then .next s
  else if port || count > 96 || stack > 1 then .next (s.mgmtAnswer port 2)
  else if s.residents > 0 then .next (s.mgmtAnswer port 1)
  else .next ((({ s with near := Map.put 0 s.near stack count } : State).wakeUnits).mgmtAnswer port 0)

/-- The checks of R402 that an image fails, as BOOTSTAT names them (R401): 4 format, 1 RSA signature, 2 SLH-DSA signature, 3 rollback.
A key block whose digest is not fused verifies neither signature. -/
def imageErrors (bs : List Byte) : List Nat :=
  let h := ofBytes (bs.take 64)
  let kind := bits h 32 8
  let len := bits h 96 32
  let block := (bs.drop 64).take 512
  let msg := bs.take (576 + len)
  let fused : Bool := Config.sha384 block = Config.fusedDigest kind
  let format : Bool := bs.length = 17184 + len ∧ bits h 0 32 = 0x32584645 ∧ 1 ≤ kind ∧ kind ≤ 5 ∧ bits h 40 24 = 0 ∧ h / 2 ^ 128 = 0
      ∧ (block.headD 0).toNat ≥ 128 ∧ (block.drop 0x180).take 4 = [0, 1, 0, 1] ∧ ((block.drop 0x1B4).all (· == 0)) = true
  (if format then [] else [4])
    ++ (if fused && Config.rsaOk block msg ((bs.drop (576 + len)).take 384) then [] else [1])
    ++ (if fused && Config.slhOk block msg (bs.drop (960 + len)) then [] else [2])
    ++ (if bits h 64 32 ≥ Config.fusedVersion kind then [] else [3])

/-- KIND and VERSION of an image's header. -/
def imageName (bs : List Byte) : Nat × Nat := let h := ofBytes (bs.take 64); (bits h 32 8, bits h 64 32)

/-- The kind and version of an image that loads (R402); none when a check fails. -/
def imageOk (bs : List Byte) : Option (Nat × Nat) := if imageErrors bs = [] then some (imageName bs) else none

/-- IMAGE: `bytes` are those at the address in MGMTARG. The root image is not accepted. -/
def execImage (port : Bool) (bytes : List Byte) (s : State) : Host.Outcome State Fault Refusal :=
  if s.mgmtBusy port then .next s
  else if port then .next (s.mgmtAnswer port 2)
  else if s.residents > 0 then .next (s.mgmtAnswer port 1)
  else match imageOk bytes with
    | some (kind, version) =>
      if kind = 1 then .next (s.mgmtAnswer port 2)
      else .next (({ s with images := Map.set s.images kind version } : State).mgmtAnswer port 0)
    | none => .next (s.mgmtAnswer port 2)

/-- ATS_INVALIDATION: the cached translation of a bus page is gone. Every access that used it has been performed, since an access
completes in its step (R397). -/
def execAtsInvalidation (port : Bool) (addr : Nat) (s : State) : Host.Outcome State Fault Refusal :=
  .next { s with ats := s.ats.filter (· != (port.toNat, addr / 4096)) }

/-! ### Reset and boot (R401) -/

/-- PACKAGE_RESET: boot stage 0. What lies outside the device's own registers stays: GDDR7, hosts and remote packages, this
package's node id, the modules that cannot be repaired; and the model's own counters. -/
def execPackageReset (s : State) : Host.Outcome State Fault Refusal :=
  .next { State.reset with
    clock := s.clock, agenda := s.agenda, free := s.free, fresh := s.fresh, mem := s.mem, keyB := s.keyB, keyL := s.keyL,
    poison := s.poison, order := { next := s.order.next }, node := s.node, ucie := s.ucie, msix := s.msix }

/-- Verifies and starts the boot images of some kinds, in their order (R401, R402): the first that fails stops the start with its
ERROR and KIND; which of several failing checks is reported is open. An image of another kind than is due has the wrong format. -/
def startImages : List Nat → State → Option (Nat × Nat) × State
  | [], s => (none, s)
  | k :: ks, s =>
    let bs := Config.bootImage k
    match imageErrors bs ++ (if (imageName bs).1 = k then [] else [4]) with
    | [] => startImages ks { s with images := Map.set s.images k (imageName bs).2 }
    | es => let (n, s) := s.pick es.length; (some (es.getD n 4, k), s)

/-- The zero fill of stage 3: every SRAM of the package. -/
def State.zeroFill (s : State) : State :=
  let sram (a : Nat) : Bool := (nearBase ≤ a && a < hostBase 0) || cspaceBase ≤ a
  { s with mem := s.mem.filter fun m => !sram m.1, keyB := s.keyB.filter fun m => !sram m.1,
           keyL := s.keyL.filter fun m => !sram (128 * m.1), poison := s.poison.filter fun m => !sram (8 * m.1), badCore := [] }

/-- The next stage, or the stop of the start at this one, with ERROR and KIND. -/
def State.bootEnds (s : State) (r : Option (Nat × Nat)) : State :=
  match r with
  | none => { s with boot := s.boot + 1 }
  | some (e, k) => { s with boot := s.boot + e * 2 ^ 4 + k * 2 ^ 8 }

/-- BOOT_STAGE: the stage in progress ends. The images of stages 1 and 2 decide how; `error` says whether the memory training of stage 3
has failed (5). -/
def execBootStage (error _kind : Nat) (s : State) : Host.Outcome State Fault Refusal :=
  match s.boot with
  | 0 => .next (s.bootEnds none)
  | 1 => let (r, s) := startImages [1] s; .next (s.bootEnds r)
  | 2 => let (r, s) := startImages [2, 3, 4, 5] s; .next (s.bootEnds r)
  | 3 => .next (if error = 5 then s.bootEnds (some (5, 0)) else s.zeroFill.bootEnds none)
  | _ => .next s

/-! ### Power gating (R404) -/

/-- POWER_GATE: only storage that holds no live data is gated. -/
def execPowerGate (unit : Nat) (s : State) : Host.Outcome State Fault Refusal :=
  if s.live unit then .next s else .next { s with gated := insertNat s.gated unit }

/-- WAKE_COMPLETE. -/
def execWakeComplete (unit : Nat) (s : State) : Host.Outcome State Fault Refusal :=
  .next { s with gated := s.gated.filter (· != unit) }

end Sys2Proof.Machine
end

