-- ==== Sys2Proof/Machine/Ray.lean ====
section
/-! DEFINITION. Ray tests on integer geometry (R342 to R345, R348, R353). -/
namespace Sys2Proof.Machine

/-- The limit of a grid coordinate (R342). -/
def gridMax : Nat := 2 ^ 30

/-- One axis of RXSNAP (R343): the grid integer, and whether it is saturated. -/
def snapAxis (a b : FV) (e : Int) : Int × Bool :=
  match scaleV (subV .rne a b).1 (-e) with
  | .nan _ => (0, true)
  | .inf n => (if n then -(gridMax : Int) else gridMax, true)
  | .fin n x d =>
    let m := roundNat .rne n x d
    let v : Int := min m gridMax
    (if n then -v else v, decide (m > gridMax))

/-- The three snapped axes of a point in a frame, and the predicate. -/
def snapPoint (a b : Nat) : Nat × Bool :=
  let rs := (List.range 3).map fun i => snapAxis (f32.decode (bits a (32 * i) 32)) (f32.decode (bits b (32 * i) 32)) (sint 32 (b / 2 ^ 96))
  (joinElems 32 (rs.map fun r => wrap 32 r.1), rs.any (·.2))

/-- A ray (R342): origin, direction, tmin and tmax with their bits. -/
structure RayQ where
  o    : List Int := []
  d    : List Int := []
  tmin : FV := .zero
  tmax : FV := .zero
  low  : Nat := 0          -- bits of tmin
  deriving DecidableEq, Repr

def ints (x n : Nat) : List Int := (List.range n).map fun i => sint 32 (bits x (32 * i) 32)

def rayOf (a c : Nat) : RayQ :=
  { o := ints a 3, d := ints c 3, tmin := f32.decode (bits a 96 32), tmax := f32.decode (bits c 96 32), low := bits a 96 32 }

/-- A ray that hits nothing (R342). -/
def RayQ.empty (r : RayQ) : Bool :=
  r.tmin.isNan || r.tmax.isNan || decide (r.tmin.cmp r.tmax > 0) || r.d.all (· == 0)

def outOfGrid (xs : List Int) : Bool := xs.any fun x => x.natAbs > gridMax

/-- num ÷ den as an exact value, den ≠ 0. -/
def ratio (num den : Int) : FV := FV.mk2 (decide (num ≠ 0) && (decide (num < 0) != decide (den < 0))) num.natAbs den.natAbs

def maxF (a b : FV) : FV := if a.cmp b ≥ 0 then a else b
def minF (a b : FV) : FV := if a.cmp b ≤ 0 then a else b

/-- The interval of one axis of a box (R344); none when the box misses. -/
def slab (o d lo hi : Int) : Option (FV × FV) :=
  if d = 0 then (if lo ≤ o ∧ o ≤ hi then some (.inf true, .inf false) else none)
  else
    let x := ratio (lo - o) d
    let y := ratio (hi - o) d
    some (minF x y, maxF x y)

/-- hit(b) and the bits of d_b (R344). -/
def boxHit (r : RayQ) (lo hi : List Int) : Option Nat :=
  let at_ (l : List Int) (i : Nat) : Int := l.getD i 0
  if r.empty || (List.range 3).any fun i => at_ lo i > at_ hi i then none
  else
    match (List.range 3).mapM fun i => slab (at_ r.o i) (at_ r.d i) (at_ lo i) (at_ hi i) with
    | none => none
    | some ss =>
      let en := f32.round .rd (ss.foldl (fun m x => maxF m x.1) (.inf true))
      let ex := f32.round .ru (ss.foldl (fun m x => minF m x.2) (.inf false))
      let late := decide ((f32.decode en.1).cmp r.tmin < 0)
      let start := if late then r.tmin else f32.decode en.1
      if start.cmp (minF (f32.decode ex.1) r.tmax) ≤ 0 then some (if late then r.low else en.1) else none

/-- RXBOX on 48 bytes of a node (R344): d and the predicate. -/
def boxTest (r : RayQ) (node : Nat) : Nat × Bool :=
  let w := ints node 12
  let hit (b : Nat) : Option Nat := boxHit r ((w.drop (6 * b)).take 3) ((w.drop (6 * b + 3)).take 3)
  let d2 := (if (hit 0).isSome then 1 else 0) + (if (hit 1).isSome then 2 else 0)
  (joinElems 32 [(hit 0).getD 0x7F800000, (hit 1).getD 0x7F800000, d2, 0], d2 != 0)

/-- RXTRI on 36 bytes of a record (R345): d and the predicate. -/
def triTest (r : RayQ) (tri : Nat) : Nat × Bool :=
  let w := ints tri 9
  let miss : Nat × Bool := (0x7F800000, false)
  let at_ (l : List Int) (i : Nat) : Int := l.getD i 0
  let ad (i : Nat) : Nat := (at_ r.d i).natAbs
  let kz := if ad 0 ≥ ad 1 && ad 0 ≥ ad 2 then 0 else if ad 1 ≥ ad 2 then 1 else 2
  let kx := (kz + 1) % 3
  let ky := (kz + 2) % 3
  let s : Int := if at_ r.d kz < 0 then -1 else 1
  let v (k i : Nat) : Int := at_ w (3 * (k % 3) + i) - at_ r.o i
  let sx (k : Nat) : Int := v k kx * ad kz - v k kz * at_ r.d kx * s
  let sy (k : Nat) : Int := v k ky * ad kz - v k kz * at_ r.d ky * s
  let f0 (k : Nat) : Int := sx k * sy (k + 1) - sy k * sx (k + 1)
  let t0 := f0 0 + f0 1 + f0 2
  let sg : Int := if t0 < 0 then -1 else 1
  let f (k : Nat) : Int := sg * f0 k
  let t := sg * t0
  let inside (k : Nat) : Bool :=
    let ex := sg * (sx (k + 1) - sx k)
    let ey := sg * (sy (k + 1) - sy k)
    decide (f k > 0 ∨ (f k = 0 ∧ (ey < 0 ∨ (ey = 0 ∧ ex > 0))))
  if r.empty || t == 0 || !(inside 0 && inside 1 && inside 2) then miss
  else
    let q := ratio (f 0 * v 2 kz + f 1 * v 0 kz + f 2 * v 1 kz) (t * at_ r.d kz)
    if r.tmin.cmp q ≤ 0 ∧ q.cmp r.tmax ≤ 0 then
      (joinElems 32 [(f32.round .rne q).1, (f32.round .rne (ratio (f 2) t)).1, (f32.round .rne (ratio (f 0) t)).1, 1], true)
    else miss

/-! ### The instructions -/

def execRxsnap (x : RastW) (s : State) : Host.Outcome State Fault Refusal :=
  withIssue x.ctl [(x.a, 128), (x.b, 128)] s (d := x.d) fun i s =>
    .ok (s.outstanding i.k 10 true ((lanesOf (destLanes x.d i.lanes)).flatMap fun l =>
      let (v, p) := snapPoint (i.val x.a 128 l (tailImm x.tail)) (i.val x.b 128 l (tailImm x.tail))
      destWrites i.sp.wb x.d 128 l v ++ predWrites x.pd l p))

/-- A ray test: bytes that it reads and its function. -/
structure RayTest where
  n    : Nat := 48
  test : RayQ → Nat → Nat × Bool

/-- A read of a lane's record: its bytes or what its translation came to. -/
def rayReads (i : Iss) (n : Nat) : List LaneOp → State → List (LaneOp × RangeTr) → List (LaneOp × RangeTr) × State
  | [], s, acc => (acc.reverse, s)
  | o :: os, s, acc => let (t, s) := s.mapRange i.g.ident.ctx o.x n .read; rayReads i n os s ((o, t) :: acc)

/-- Reads the records of lanes, checks 0x78 on those that were read, then completes them; faulted lanes are recorded and
stalled lanes wait (R348). -/
def rayRun (x : RastW) (t : RayTest) (i : Iss) (s : State) (h : Held) : Eff :=
  let (ts, s) := rayReads i t.n h.ops s []
  let bad := ts.filterMap fun (o, r) => match r with | .bad c va => some (o, c, va) | _ => none
  let wait := ts.filterMap fun (o, r) => match r with | .stall => some o | _ => none
  match ts.findSome? fun (_, r) => match r with
      | .ok ps => ps.findSome? fun (loc, _, _, n) => (s.readKills (some i.g.ident.core) i.g.ident.ctx loc n).map fun c => (c, loc)
      | _ => none with
  | some (c, loc) => .kill s c loc
  | none =>
    let (rs, w, s) := ts.foldl (fun (acc : List (LaneOp × Nat) × Seen × State) (o, r) =>
      match r with
      | .ok ps =>
        let (bs, w, s) := loadPieces acc.2.2 i.g.ident false acc.2.1 ps
        (acc.1 ++ [(o, ofBytes bs)], w, s)
      | _ => acc) ([], seenOf s i.k, s)
    let s := s.updGroup i.k fun g => { g with seen := w }
    match (rs.filter fun (o, v) => outOfGrid ((rayOf o.b o.c).o ++ (rayOf o.b o.c).d ++ ints v (t.n / 4))).map (·.1.lane) with
    | l :: ls => .trap s 0x78 (maskOf (l :: ls)) 0 0
    | [] =>
      let s := s.outstanding i.k 10 true (rs.flatMap fun (o, v) =>
        let (d, p) := t.test (rayOf o.b o.c) v
        destWrites i.sp.wb x.d 128 o.lane d ++ predWrites x.pd o.lane p)
      lanesEff i h bad wait s

/-- The address checks of R138 on a record, aligned to 16 bytes. -/
def rayTrap (s : State) (n : Nat) (ops : List LaneOp) : Option Eff :=
  let pick (c : Nat) (p : LaneOp → Bool) : Option Eff :=
    match ops.filter p with
    | [] => none
    | o :: os => some (.trap s c (maskOf ((o :: os).map (·.lane))) o.x 0)
  (pick 0x41 fun o => o.x + n > 2 ^ 52) <|> (pick 0x40 fun o => o.x % 16 != 0)

def rayIssue (x : RastW) (t : RayTest) (instr : Instr) (s : State) : Host.Outcome State Fault Refusal :=
  let c := tailOperand x.tail
  withIssue x.ctl [(x.a, 128), (x.b, 64), (c, 128)] s (d := x.d) fun i s =>
    let ops := (lanesOf (destLanes x.d i.lanes)).map fun l =>
      ({ lane := l, x := i.val x.b 64 l 0, b := i.val x.a 128 l 0, c := i.val c 128 l 0 } : LaneOp)
    clearOfTiles i s false t.n (ops.map (·.x)) <|
    match rayTrap s t.n ops with
    | some e => e
    | none => rayRun x t i s { instr, pc := i.sp.pc, lanes := i.lanes, ops }

def boxRay : RayTest := { n := 48, test := boxTest }
def triRay : RayTest := { n := 36, test := triTest }

def execRxbox (x : RastW) (s : State) : Host.Outcome State Fault Refusal := rayIssue x boxRay (.rxbox x) s
def execRxtri (x : RastW) (s : State) : Host.Outcome State Fault Refusal := rayIssue x triRay (.rxtri x) s

end Sys2Proof.Machine
end

