-- ==== Sys2Proof/Machine/Surface.lean ====
section
/-! DEFINITION. The surface instructions (R304 to R310, R314 to R324): allocation, accesses of lanes, blends, ordered
streams, refills. -/
namespace Sys2Proof.Machine

/-! ### Blending (R307, R308) -/

/-- A blend word holds no reserved code. -/
def blendOk (w : Nat) : Bool :=
  bits w 0 4 ≤ 10 && bits w 4 4 ≤ 10 && bits w 8 3 ≤ 4 && bits w 11 4 ≤ 10 && bits w 15 4 ≤ 10 && bits w 19 3 ≤ 4

/-- A factor of R307 for channel values s and d. -/
def blendFactor (code : Nat) (alpha : Bool) (s d as ad : FV) : FV :=
  let one : FV := .fin false 1 1
  match code with
  | 0 => .zero
  | 1 => one
  | 2 => s
  | 3 => (subV .rne one s).1
  | 4 => d
  | 5 => (subV .rne one d).1
  | 6 => as
  | 7 => (subV .rne one as).1
  | 8 => ad
  | 9 => (subV .rne one ad).1
  | _ => if alpha then one
    else
      let x := (subV .rne one ad).1
      if as.isNan || x.isNan then .nan false else if as.cmp x ≤ 0 then as else x

/-- An equation of R307. -/
def blendEq (eq : Nat) (s fs d fd : FV) : FV :=
  let sf := (mulV s fs).1
  let df := (mulV d fd).1
  match eq with
  | 0 => (addV .rne sf df).1
  | 1 => (subV .rne sf df).1
  | 2 => (subV .rne df sf).1
  | 3 => if s.isNan || d.isNan then .nan false else (minmaxV false s d).1
  | _ => if s.isNan || d.isNan then .nan false else (minmaxV true s d).1

/-- A unorm source is clamped first; a NaN stays (log entry 21). -/
def clampSource (e : Enc) (v : FV) : FV :=
  match e with
  | .unorm _ => if v.isNan then v else clampV v 1
  | _ => v

/-- R308: a sample after the blend of a source quad. -/
def blendSample (fmt word wmask : Nat) (ben : Bool) (src : List FV) (old : Nat) : Nat :=
  let d := decodeSample fmt old
  let enc (c : Nat) : Enc := match (channels fmt)[c]? with | some (_, _, e) => e | none => .n8
  let first := enc 0
  let s (c : Nat) : FV := clampSource first (src.getD c .zero)
  let dv (c : Nat) : FV := d.getD c .zero
  (List.range (channels fmt).length).foldl (fun x c =>
    if !bit wmask c then x
    else
      let (f, g, e) := if c < 3 then (bits word 0 4, bits word 4 4, bits word 8 3) else (bits word 11 4, bits word 15 4, bits word 19 3)
      let r := if ben then
          blendEq e (s c) (blendFactor f (c == 3) (s c) (dv c) (s 3) (dv 3)) (dv c) (blendFactor g (c == 3) (s c) (dv c) (s 3) (dv 3))
        else s c
      putChannel fmt x c ((enc c).encode r)) old

/-- Four f32 values of a quad. -/
def quadValues (x : Nat) : List FV := (List.range 4).map fun j => f32.decode (bits x (32 * j) 32)

/-! ### Channel atomics (R321) -/

/-- The new bits of a channel and the value returned. -/
def channelAtomic (e : Enc) (w sop old v : Nat) : Nat × Nat :=
  let intOp : Nat × Nat :=
    let m := 2 ^ w - 1
    let k := min v m
    ((match sop with | 0 => min (old + v) m | 1 => min old k | 2 => max old k | _ => k), old)
  match e with
  | .unorm _ | .n8 => intOp
  | .flt _ =>
    let o := e.decode old
    let x := f32.decode v
    let r := match sop with
      | 0 => (addV .rne o x).1
      | 1 => (minmaxV false o x).1
      | 2 => (minmaxV true o x).1
      | _ => x
    (e.encode r, (f32.round .rne o).1)

/-! ### Lane accesses -/

/-- How a surface instruction acts on one resident sample: the register writes of its lane, and the state. It answers the
cause of a poisoned read through `reads`. -/
structure SurfAct where
  reads   : Bool := false
  width   : Nat := 32
  out     : Surf → Nat                                   -- the result outside the surface
  act     : Nat → Nat → Seen → Surf → LaneOp → Nat → State → Nat × Seen × State

/-- Core, context, what the group has seen, surface, operands, location. -/
def sldAct (x : SurfW) : SurfAct :=
  { reads := true, width := 128, out := fun _ => 0,
    act := fun core _ w f _ loc s =>
      let (bs, w, s) := s.load core w (fun _ _ => false) 0 loc (sampleBytes f.fmt)
      let v := ofBytes bs
      let q := if x.raw then v else joinElems 32 ((decodeSample f.fmt v).map fun c => (f32.round .rne c).1)
      (q, w, s) }

def sstAct (x : SurfW) : SurfAct :=
  { out := fun _ => 0,
    act := fun core _ w f o loc s =>
      if x.raw then (0, w, s.storeBy core w 0 loc (toBytes (sampleBytes f.fmt) o.c))
      else
        let vs := (quadValues o.c).zipIdx.filterMap fun (v, c) =>
          match (channels f.fmt)[c]? with
          | some (_, _, e) => if bit x.wmask.toNat c then some (c, e.encode v) else none
          | none => none
        (0, w, (channelStores f.fmt (s.sampleNow loc (sampleBytes f.fmt)) vs).foldl (fun s (off, bs) => s.storeBy core w 0 (loc + off) bs) s) }

/-- A Picot operation: one atomic read and write of a sample. -/
def picot (f : Surf) (core : Nat) (w : Seen) (loc : Nat) (s : State) (g : Nat → Nat) : Nat × Seen × State :=
  let n := sampleBytes f.fmt
  let (bs, w) := s.loadLatest w 0 loc n
  let old := ofBytes bs
  let poisoned := (s.poisonedAt loc n).isSome
  let s := (s.returnedLatest core w loc n).storeAtomic core w 0 loc (toBytes n (g old))
  (old, w, if poisoned then s.setPoison loc n 0x9F else s)

def satopAct (x : SurfW) : SurfAct :=
  let returns := x.d != .zero
  { reads := returns, width := 32, out := fun _ => 0,
    act := fun core _ w f o loc s =>
      match (channels f.fmt)[x.chan.toNat]? with
      | none => (0, w, s)
      | some (lo, cw, e) =>
        let (old, w, s) := picot f core w loc s fun old =>
          putChannel f.fmt old x.chan.toNat (channelAtomic e cw x.sop.toNat (bits old lo cw) o.c).1
        ((channelAtomic e cw x.sop.toNat (bits old lo cw) o.c).2, w, s) }

def sblendAct (x : SurfW) : SurfAct :=
  { out := fun _ => 0,
    act := fun core _ w f o loc s =>
      let (_, w, s) := picot f core w loc s fun old =>
        blendSample f.fmt (tailAux x.tail % 2 ^ 22) x.wmask.toNat true (quadValues o.c) old
      (0, w, s) }

/-- SQUERY reads the tile's state, not its bytes (R323). -/
def squeryWord (s : State) (ctx : Nat) (o : LaneOp) : Nat :=
  match s.surf? ctx (o.b % 4096) with
  | none => 0
  | some f =>
    let key := f.nextKey * 2 ^ 16
    if !f.inside o.x o.y then key
    else
      let (st, tile, _) := f.locate o.x o.y 0
      let pin := if f.pin then 8 else 0
      match f.tile st tile with
      | none => key + pin
      | some t => key + pin + t.cls + (if t.state ≥ 3 then 4 else 0)

/-- The action of an instruction on samples. -/
def surfAct : Instr → Option SurfAct
  | .sld x => some (sldAct x)
  | .sst x => some (sstAct x)
  | .satop x => some (satopAct x)
  | .sblend x => some (sblendAct x)
  | _ => none

/-- The guard and hints of an instruction on samples. -/
def surfCtl : Instr → Ctl
  | .sld x | .sst x | .satop x | .sblend x => x.ctl
  | _ => {}

/-- The destination of an instruction on samples. -/
def surfDest : Instr → Operand
  | .sld x => x.d
  | .satop x => x.d
  | _ => .zero

/-- R296: clocks until a result of a lane may land. -/
def surfLatency (core : Nat) (f : Surf) (o : LaneOp) : Nat :=
  if f.inside o.x o.y && (f.locate o.x o.y 0).1 != core / 128 then 96 else 36

/-- Results of lanes, by latency. -/
def State.surfResults (s : State) (k : Nat) (rs : List (Nat × List RegWrite)) : State :=
  [36, 96].foldl (fun s lat => s.outstanding k lat true ((rs.filter (·.1 == lat)).flatMap (·.2))) s

/-- The outcome of one lane: performed, stalled on its tile, or a poisoned read. -/
inductive LaneDone where
  | ok (v : Nat) (w : Seen) (s : State)
  | stall (s : State)
  | dead (cause loc : Nat)
  deriving DecidableEq, Repr

def surfLane (a : SurfAct) (core ctx : Nat) (w : Seen) (o : LaneOp) (s : State) : LaneDone :=
  match s.surf? ctx (o.b % 4096) with
  | none => .ok 0 w s
  | some f =>
    if !f.inside o.x o.y then .ok (a.out f) w s
    else
      let (st, tile, off) := f.locate o.x o.y (bits o.b 12 3)
      match s.arriveTile ctx (o.b % 4096) st tile with
      | (false, s) => .stall s
      | (true, s) =>
        match if a.reads then s.poisonedAt (f.loc st off) (sampleBytes f.fmt) else none with
        | some c => .dead c (f.loc st off)
        | none => let (v, w, s) := a.act core ctx w f o (f.loc st off) s; .ok v w s

/-- Performs lanes in ascending order; those that stall are left over. -/
def surfLanes (a : SurfAct) (i : Iss) (d : Operand) : List LaneOp → State → List (Nat × List RegWrite) → List LaneOp →
    (List (Nat × List RegWrite) × List LaneOp × State) ⊕ (Nat × Nat)
  | [], s, rs, left => .inl (rs.reverse, left.reverse, s)
  | o :: os, s, rs, left =>
    let core := i.g.ident.core
    match surfLane a core i.g.ident.ctx (seenOf s i.k) o s with
    | .dead c loc => .inr (c, loc)
    | .stall s => surfLanes a i d os s rs (o :: left)
    | .ok v w s =>
      let lat := match s.surf? i.g.ident.ctx (o.b % 4096) with | some f => surfLatency core f o | none => 36
      let s := s.updGroup i.k fun g => { g with seen := w }
      surfLanes a i d os s ((lat, destWrites i.sp.wb d a.width o.lane v) :: rs) left

/-- An access of lanes to surfaces: stalled lanes keep the split until their tiles are resident (R302). -/
def surfRun (a : SurfAct) (i : Iss) (s : State) (h : Held) : Eff :=
  match surfLanes a i (surfDest h.instr) h.ops s [] [] with
  | .inr (c, loc) => .kill s c loc
  | .inl (rs, left, s) =>
    let s := s.surfResults i.k rs
    if left.isEmpty then .ok s
    else
      let (n, s) := if h.seq = 0 then s.freshId else (h.seq, s)
      .stall s (.tile { h with ops := left, lanes := maskOf (left.map (·.lane)), seq := n }) true

/-! ### Checks (R316) -/

/-- The first failing cause of R316 and every lane that fails it. -/
def surfTrap (s : State) (ctx : Nat) (formatBad : Surf → Bool) (ops : List LaneOp) : Option Eff :=
  let surf (o : LaneOp) : Option Surf := s.liveSurf ctx (o.b % 4096)
  let pick (c : Nat) (p : LaneOp → Bool) : Option Eff :=
    match ops.filter p with
    | [] => none
    | os => some (.trap s c (maskOf (os.map (·.lane))) 0 0)
  pick 0x70 (fun o => bit o.b 15 || (surf o).isNone)
    <|> pick 0x72 (fun o => match surf o with | some f => bits o.b 12 3 ≥ f.count | none => false)
    <|> pick 0x73 (fun o => match surf o with | some f => formatBad f | none => false)

/-- A group's access follows its own tile stores to the surface (R264). -/
def surfOrder (i : Iss) (s : State) (ops : List LaneOp) (e : Eff) : Eff :=
  if (s.tileStores i.g).any fun t => ops.any fun o => t.op.ste == some (o.b % 4096) then .hold s .issue else e

def stampOps (s : State) (ctx : Nat) (ops : List LaneOp) : State := ops.foldl (fun s o => s.stampUse ctx (o.b % 4096)) s

/-- The operands of lanes: coordinate pair, surface operand, data of w bits. -/
def surfOps (i : Iss) (x : SurfW) (w : Nat) (lanes : Lanes) : List LaneOp :=
  (lanesOf lanes).map fun l =>
    let p := i.val x.a 64 l (tailImm x.tail)
    { lane := l, x := p % 2 ^ 32, y := p / 2 ^ 32, b := i.val x.b 32 l (tailImm x.tail),
      c := if w = 0 then 0 else i.val (tailOperand x.tail) w l (tailImm x.tail) }

/-- A surface access that is not ordered. -/
def surfIssue (instr : Instr) (formatBad : Surf → Bool) (i : Iss) (s : State) (ops : List LaneOp) : Eff :=
  match surfTrap s i.g.ident.ctx formatBad ops with
  | some t => t
  | none => surfOrder i s ops <|
    match surfAct instr with
    | some a => surfRun a i (stampOps s i.g.ident.ctx ops) { instr, pc := i.sp.pc, lanes := i.lanes, ops }
    | none => .ok s

/-! ### Ordered streams (R310) -/

/-- The result of an item's lane goes into the outstanding results of its group. -/
def putResult (seqs : List Nat) (wb : Nat) (d : Operand) (o : LaneOp) (v : Nat) (g : Group) : Group :=
  let ws := destWrites wb d 32 o.lane v
  let fill (p : Outst) : Outst :=
    if seqs.contains p.seq then
      { p with writes := p.writes.map fun w => match ws.find? fun x => x.key == w.key && x.lane == w.lane with | some x => x | none => w }
    else p
  { g with outst := g.outst.map fill, kept := g.kept.map fill }

/-- The results of an item are complete. -/
def readyResult (seqs : List Nat) (g : Group) : Group :=
  let on (p : Outst) : Outst := if seqs.contains p.seq then { p with ready := true } else p
  { g with outst := g.outst.map on, kept := g.kept.map on }

def State.groupOf (s : State) (uid : Nat) : Option Nat := (s.groups.find? fun g => g.2.ident.uid == uid).map (·.1)

/-- Applies a change to the group of a uid, placed or saved. -/
def State.updUid (s : State) (uid : Nat) (f : Group → Group) : State :=
  match s.groupOf uid with
  | some k => s.updGroup k f
  | none =>
    { s with teams := s.teams.map fun (n, t) =>
        (n, { t with gsaved := t.gsaved.map fun g => if g.ident.uid == uid then f g else g }) }

def State.updItem (s : State) (ctx ste id : Nat) (f : OrdItem → OrdItem) : State :=
  s.updSurf ctx ste fun g => { g with items := g.items.map fun m => if m.id == id then f m else m }

/-- Applies the lanes of an item in ascending order; true when none is left. -/
def applyItem : List LaneOp → State → Nat → Nat → OrdItem → SurfAct → Bool × State
  | [], s, _, _, _, _ => (true, s)
  | o :: os, s, ctx, ste, m, a =>
    match surfLane a m.core ctx m.seen o s with
    | .stall s => (false, s.updItem ctx ste m.id fun m => { m with ops := o :: os })
    | .dead c loc =>
      let s := match s.groupOf m.uid with | some k => s.kill k c loc | none => s
      match surfLane { a with reads := false } m.core ctx m.seen o s with
      | .ok _ w s => applyItem os s ctx ste { m with seen := w } a
      | _ => (true, s)
    | .ok v w s =>
      let s := s.updItem ctx ste m.id fun m => { m with seen := w }
      let s := s.updUid m.uid (putResult m.seqs m.wb (surfDest m.instr) o v)
      applyItem os s ctx ste { m with seen := w } a

/-- Applies the held items from NEXTKEY on. -/
def drainItems : Nat → State → Nat → Nat → State
  | 0, s, _, _ => s
  | n + 1, s, ctx, ste =>
    match s.surf? ctx ste with
    | none => s
    | some f =>
      match f.items.find? fun m => m.held && m.key == f.nextKey with
      | none => s
      | some m =>
        match surfAct m.instr with
        | none => s
        | some a =>
          match applyItem m.ops s ctx ste m a with
          | (false, s) => s
          | (true, s) =>
            let s := s.updSurf ctx ste fun f => { f with items := f.items.filter (·.id != m.id), nextKey := (f.nextKey + 1) % 2 ^ 16 }
            let s := s.updUid m.uid (readyResult m.seqs)
            drainItems n (s.wake fun g => g.ident.ctx == ctx) ctx ste

def State.drainSurface (s : State) (ctx ste : Nat) : State :=
  match s.surf? ctx ste with
  | some f => drainItems (f.items.length + 1) s ctx ste
  | none => s

/-- ORDERED_ITEM: an item reaches the Picot units of its surface: it is held, and what is due is applied. -/
def execOrderedItem (ctx ste key : Nat) (s : State) : Host.Outcome State Fault Refusal :=
  match s.surf? ctx ste with
  | none => .next s
  | some f =>
    match f.items.find? fun m => m.key == key && !m.held with
    | none => .next s
    | some m => .next ((s.updItem ctx ste m.id fun m => { m with held := true }).drainSurface ctx ste)

/-- An ordered operation issues: its key is checked, and its item is on its way. -/
def orderedIssue (instr : Instr) (formatBad : Surf → Bool) (i : Iss) (s : State) (ops : List LaneOp) : Eff :=
  let ctx := i.g.ident.ctx
  match surfTrap s ctx formatBad ops with
  | some t => t
  | none =>
    match ops with
    | [] => .ok s
    | o :: _ =>
      let ste := o.b % 4096
      match s.surf? ctx ste with
      | none => .ok s
      | some f =>
        let key := bits o.b 16 16
        let delta := (key + 2 ^ 16 - f.nextKey) % 2 ^ 16
        if (ops.any fun p => p.b % 4096 != ste) || delta ≥ 2 ^ 15 || f.items.any (·.key == key) then .trap s 0x74 (maskOf (ops.map (·.lane))) 0 0
        else if delta ≥ 64 then .hold s .issue
        else surfOrder i s ops <|
          let s := stampOps s ctx ops
          let d := surfDest instr
          let ws (lat : Nat) : List RegWrite :=
            (ops.filter fun p => surfLatency i.g.ident.core f p == lat).flatMap fun p => destWrites i.sp.wb d 32 p.lane 0
          let none_ := (ws 36 ++ ws 96).isEmpty
          let seqs := if none_ then [] else [i.g.seq, i.g.seq + 1]
          let s := if none_ then s else (s.outstanding i.k 36 false (ws 36)).outstanding i.k 96 false (ws 96)
          let (id, s) := s.freshId
          let m : OrdItem := { key, instr, ops, uid := i.g.ident.uid, core := i.g.ident.core, wb := i.sp.wb, seqs,
                               seen := seenOf s i.k, id }
          .park (s.updSurf ctx ste fun f => { f with items := f.items ++ [m] }) (.completion (.order ste key))

/-! ### SLD, SST, SATOP, SBLEND, SQUERY -/

def execSld (x : SurfW) (s : State) : Host.Outcome State Fault Refusal :=
  withIssue x.ctl [(x.a, 64), (x.b, 32)] s (d := x.d) fun i s =>
    whenLanes i s (surfIssue (.sld x) (fun _ => false) i s (surfOps i x 0 (destLanes x.d i.lanes)))

def execSst (x : SurfW) (s : State) : Host.Outcome State Fault Refusal :=
  withIssue x.ctl [(x.a, 64), (x.b, 32), (tailOperand x.tail, 128)] s fun i s =>
    whenLanes i s (surfIssue (.sst x) (fun _ => false) i s (surfOps i x 128 i.lanes))

/-- C of SATOP is supplied as .f32 for a float channel and as .n32 for an integer one (R52, R321). -/
def satopOps (i : Iss) (x : SurfW) (s : State) (lanes : Lanes) : List LaneOp :=
  (surfOps i x 0 lanes).map fun o =>
    let small : Nat → Nat := match (s.surf? i.g.ident.ctx (o.b % 4096)).bind fun f => (channels f.fmt)[x.chan.toNat]? with
      | some (_, _, .flt _) => supplyTy 8
      | _ => id
    { o with c := i.g.operand i.sp.wb (tailOperand x.tail) 32 o.lane small (tailImm x.tail) }

def execSatop (x : SurfW) (s : State) : Host.Outcome State Fault Refusal :=
  withIssue x.ctl [(x.a, 64), (x.b, 32), (tailOperand x.tail, 32)] s (d := x.d) fun i s =>
    let ops := satopOps i x s (destLanes x.d i.lanes)
    let lacks (f : Surf) : Bool := x.chan.toNat ≥ (channels f.fmt).length
    whenLanes i s <| if x.ord then orderedIssue (.satop x) lacks i s ops else surfIssue (.satop x) lacks i s ops

def execSblend (x : SurfW) (s : State) : Host.Outcome State Fault Refusal :=
  withIssue x.ctl [(x.a, 64), (x.b, 32), (tailOperand x.tail, 128)] s fun i s =>
    let ops := surfOps i x 128 i.lanes
    let bad (f : Surf) : Bool := (7 ≤ f.fmt && f.fmt ≤ 9) || !blendOk (tailAux x.tail % 2 ^ 22)
    whenLanes i s <| if x.ord then orderedIssue (.sblend x) bad i s ops else surfIssue (.sblend x) bad i s ops

def execSquery (x : SurfW) (s : State) : Host.Outcome State Fault Refusal :=
  withIssue x.ctl [(x.a, 64), (x.b, 32)] s (d := x.d) fun i s =>
    let ctx := i.g.ident.ctx
    let ops := surfOps i x 0 (destLanes x.d i.lanes)
    whenLanes i s <|
      match surfTrap s ctx (fun _ => false) ops with
      | some t => t
      | none => .ok (s.surfResults i.k (ops.map fun o =>
          ((match s.surf? ctx (o.b % 4096) with | some f => surfLatency i.g.ident.core f o | none => 36),
            destWrites i.sp.wb x.d 32 o.lane (squeryWord s ctx o))))

/-! ### SALLOC, SFREE, SPIN (R293, R303, R317, R318, R324) -/

/-- A surface from an entry of 256 bits; none when a field is out of range (R292). -/
def surfOfEntry (e : Nat) (uid : Nat) : Option Surf :=
  let w := bits e 0 16
  let h := bits e 16 16
  let back := bits e 128 64
  if w = 0 ∨ w > 32768 ∨ h = 0 ∨ h > 32768 ∨ bits e 32 4 > 10 ∨ bits e 38 3 > 4 ∨ bits e 44 20 ≠ 0 ∨ e / 2 ^ 192 ≠ 0
      ∨ back % 4096 ≠ 0 ∨ back ≥ 2 ^ 52 ∨ back = 0 then none
  else
    let f : Surf := { uid, width := w, height := h, fmt := bits e 32 4, samples := bits e 36 2, chk := bits e 38 3, flip := bit e 41,
                      pin := bit e 42, back, entry := e }
    some { f with spages := f.pages 0 + f.pages 1 }

/-- The write-back, as a store of the group published at .pkg; the cause and address of a fault. -/
def State.writeEntry (s : State) (k ste : Nat) (f : Surf) : Except (Option (Nat × Nat)) Unit × State :=
  match s.group k with
  | none => (.ok (), s)
  | some g =>
    let id := g.ident
    let va := (s.ctx id.ctx).rc.stbase + 32 * ste
    match s.mapRange id.ctx va 32 .write with
    | (.bad c va, s) => (.error (some (c, va)), s)
    | (.stall, s) => (.error none, s)
    | (.ok ps, s) =>
      let s := s.updGroup k fun g => { g with seen := s.release id.core id.uid 3 g.seen }
      let s := storePieces s id (seenOf s k) (toBytes 32 (entryBits f)) ps
      (.ok (), s.updGroup k fun g => { g with seen := s.release id.core id.uid 3 g.seen })

/-- The one lane that performs an instruction. -/
def Iss.one (i : Iss) : Lanes := 1#32 <<< lowest i.lanes

/-- The surface whose entry the group's SALLOC or SFREE still has to write back, since a forced save came before it (R162,
R293; log entry 46). -/
def State.owed (s : State) (ctx ste uid : Nat) : Option Surf :=
  match s.surf? ctx ste with
  | some f => if f.redo = some uid then some f else none
  | none => none

def execSalloc (x : SurfW) (s : State) : Host.Outcome State Fault Refusal :=
  withIssue x.ctl [(x.a, 32)] s (d := .s 0) fun i s =>
    let id := i.g.ident
    let ste := i.val x.a 32 (lowest i.lanes) (tailImm x.tail)
    let results (v : Nat) (p : Bool) : List RegWrite :=
      (lanesOf (destLanes x.d i.lanes)).flatMap fun l => destWrites i.sp.wb x.d 32 l v ++ predWrites x.pd l p
    whenLanes i s <|
      match s.owed id.ctx ste id.uid with
      | some f => .park (s.updSurf id.ctx ste fun f => { f with redo := none }) (.completion (.entry ste true (results f.spages true)))
      | none =>
      if ste ≥ (s.ctx id.ctx).rc.stcount ∨ (s.surf? id.ctx ste).isSome = true then .trap s 0x70 i.one 0 0
      else if s.demands.any (·.page.isNone) then .hold s .issue
      else match s.mapRange id.ctx ((s.ctx id.ctx).rc.stbase + 32 * ste) 32 .read with
        | (.bad c va, s) => .fault s { cause := c, va, lanes := i.one.toNat } .reissue false
        | (.stall, s) => .stall s (.migrating { pc := i.sp.pc }) false
        | (.ok ps, s) =>
          match ps.findSome? fun p => (s.readKills none id.ctx p.1 p.2.2.2).map fun c => (c, p.1) with
          | some (c, loc) => .kill s c loc
          | none =>
            let s := ps.foldl (fun (s : State) p => s.request { s.workOf id p.1 with posted := false }) s
            let (bs, s) := ps.foldl (fun (acc : List Byte × State) (loc, stamp, _, n) =>
              let (b, w) := acc.2.loadLatest (seenOf acc.2 i.k) stamp loc n
              (acc.1 ++ b, acc.2.updGroup i.k fun g => { g with seen := acquire id.core 3 w })) ([], s)
            let (uid, s) := s.freshId
            match surfOfEntry (ofBytes bs) uid with
            | none => .trap s 0x71 i.one 0 0
            | some f =>
              match s.canAlloc id.ctx ste f with
              | none => .park (s.landNow i.k (results 0xFFFFFFFF false)) (.completion .done)
              | some (q0, q1) =>
                let (base, s) := s.pick (2 ^ 32)
                let f := { f with used := s.clock, entry := f.entry % 2 ^ 64 + base * 2 ^ 64 + f.entry / 2 ^ 128 * 2 ^ 128 }
                let d : Demand := { ctx := id.ctx, ste, surf := f, q0, q1, group := i.k, uid := id.uid, slot := i.slot, fails := results 0xFFFFFFFF false }
                .park ({ s with demands := s.demands ++ [d] } : State).runEviction (.completion (.entry ste true (results f.spages true)))

def execSfree (x : SurfW) (s : State) : Host.Outcome State Fault Refusal :=
  withIssue x.ctl [(x.a, 32)] s (d := .s 0) fun i s =>
    let ctx := i.g.ident.ctx
    let ste := i.val x.a 32 (lowest i.lanes) (tailImm x.tail)
    whenLanes i s <|
      if (s.liveSurf ctx ste).isNone ∧ (s.owed ctx ste i.g.ident.uid).isNone = true then .trap s 0x70 i.one 0 0
      else .park (s.updSurf ctx ste fun f => { f with freeing := true, redo := none }) (.completion (.sfree ste))

def execSpin (x : SurfW) (s : State) : Host.Outcome State Fault Refusal :=
  withIssue x.ctl [(x.a, 32)] s (d := .s 0) fun i s =>
    let ctx := i.g.ident.ctx
    let ste := i.val x.a 32 (lowest i.lanes) (tailImm x.tail)
    let p (b : Bool) : List RegWrite := (lanesOf i.lanes).flatMap fun l => predWrites x.pd l b
    whenLanes i s <|
      match s.liveSurf ctx ste with
      | none => .trap s 0x70 i.one 0 0
      | some f =>
        if x.sop = 0 then .park (s.updSurf ctx ste fun f => { f with pin := false }) (.completion (.entry ste false (p true)))
        else if !s.pinFits ctx ste f then .park (s.landNow i.k (p false)) (.completion .done)
        else
          let s := s.updSurf ctx ste fun f => { f with pin := true }
          .park ((f.tiles.map (·.1)).foldl (fun s k => (s.arriveTile ctx ste (k / 2 ^ 32) (k % 2 ^ 32)).2) s) (.completion (.pin ste (p true)))

/-! ### Refills -/

/-- Splits whose lanes stall on tiles try again, in the order of their arrival. -/
def State.retryTiles (s : State) (ctx : Nat) : State :=
  let all : List (Nat × Nat × Nat) := s.groups.flatMap fun (k, g) =>
    if g.ident.ctx = ctx then g.live.filterMap fun (n, e) => match e.park with | some (.tile h) => some (h.seq, k, n) | _ => none else []
  let order := all.foldl (fun acc x => acc.takeWhile (fun y => y.1 ≤ x.1) ++ [x] ++ acc.dropWhile (fun y => y.1 ≤ x.1)) []
  order.foldl (fun s (_, k, n) =>
    match s.group k with
    | none => s
    | some g =>
      match Map.find g.live n with
      | none => s
      | some sp =>
        match sp.park with
        | some (.tile h) =>
          match surfAct h.instr with
          | none => s
          | some a => let i : Iss := { k, slot := n, g, sp, lanes := h.lanes, again := true }; (surfRun a i s h).close (surfCtl h.instr) i
        | _ => s) s

/-- TILE_REFILLED: the backing read of a tile is performed; what waits for the tile proceeds (R301, R302). Poison of the
backing goes into the tile (R380); what a failed read gives is open (R378). A tile that waits for its page asks again. -/
def execTileRefilled (ctx ste stack tile : Nat) (s : State) : Host.Outcome State Fault Refusal :=
  match s.surf? ctx ste with
  | none => .next s
  | some f =>
    match f.tile stack tile with
    | none => .next s
    | some t =>
      if t.state = 4 then .next s.runEviction
      else if t.state ≠ 3 ∨ t.wait.isSome = true then .next s
      else
        match s.mapRange ctx (f.slotAddr stack tile) (backingBytes f t.cls) .read with
        | (.bad sub va, s) => .next (s.tileFault ctx ste stack tile t 0x37 sub va)
        | (.stall, s) => .next s
        | (.ok ps, s) =>
          let bad (o n : Nat) : Bool := ps.any fun (l, _, off, len) => overlap off len o n && (s.poisonedAt (l + (o - off)) (min n len)).isSome
          let s := (List.range (f.tileBytes / 8)).foldl (fun (s : State) j =>
            if bad (if t.cls = 1 then 0 else 8 * j) 8 then s.setPoison (f.loc stack (tile * f.tileBytes) + 8 * j) 8 0x9F else s) s
          let (whole, s) := ps.foldl (fun (acc : Bool × State) p =>
            let (gone, s) := acc.2.goesOut { ctx, core := 128 * stack, loc := p.1 }
            (acc.1 && gone, s)) (true, s)
          let s := if whole then s
            else let (bs, s) := s.freeBytes f.tileBytes; s.putBytes 0 (f.loc stack (tile * f.tileBytes)) bs
          let s := s.eraseTile ctx ste stack tile
          .next (((s.retryTiles ctx).drainSurface ctx ste).runEviction)

end Sys2Proof.Machine
end

