-- ==== Sys2Proof/Machine/Texture.lean ====
section
/-! DEFINITION. Textures (R311 to R313, R325, R326). -/
namespace Sys2Proof.Machine

/-- A texture descriptor (R311). -/
structure Tex where
  base   : Nat := 0
  width  : Nat := 1
  height : Nat := 1
  levels : Nat := 1
  fmt    : Nat := 0
  filter : Nat := 0
  addru  : Nat := 0
  addrv  : Nat := 0
  deriving DecidableEq, Repr, Inhabited

/-- Reads a descriptor of 256 bits; none is invalid. -/
def texOf (d : Nat) : Option Tex :=
  let base := bits d 0 64
  let w := bits d 64 16
  let h := bits d 80 16
  let lv := bits d 96 4
  let fmt := bits d 100 4
  if base % 128 ≠ 0 ∨ base ≥ 2 ^ 52 ∨ w = 0 ∨ w > 32768 ∨ h = 0 ∨ h > 32768 ∨ lv = 0 ∨ !(fmt ≤ 6 || fmt == 10) ∨ bits d 104 2 = 3
      ∨ bits d 106 2 = 3 ∨ bits d 108 2 = 3 ∨ d / 2 ^ 110 ≠ 0 then none
  else some { base, width := w, height := h, levels := lv, fmt, filter := bits d 104 2, addru := bits d 106 2, addrv := bits d 108 2 }

def Tex.w (t : Tex) (n : Nat) : Nat := max 1 (t.width / 2 ^ n)
def Tex.h (t : Tex) (n : Nat) : Nat := max 1 (t.height / 2 ^ n)
def Tex.pitch (t : Tex) (n : Nat) : Nat := (t.w n * sampleBytes t.fmt + 127) / 128 * 128

/-- The offset of a level (R312). -/
def Tex.off (t : Tex) : Nat → Nat
  | 0 => 0
  | n + 1 => t.off n + t.pitch n * t.h n

/-- A coordinate resolved by an address mode. -/
def resolve (mode : Nat) (i : Int) (w : Nat) : Nat :=
  match mode with
  | 0 => (i % w).toNat
  | 1 => (max 0 (min i (w - 1))).toNat
  | _ =>
    let m := (i % (2 * w : Nat)).toNat
    if m < w then m else 2 * w - 1 - m

/-- The address of a texel. -/
def Tex.addr (t : Tex) (n : Nat) (i j : Int) : Nat :=
  t.base + t.off n + resolve t.addrv j (t.h n) * t.pitch n + resolve t.addru i (t.w n) * sampleBytes t.fmt

/-- A coordinate as an exact fraction; a NaN or an infinity is 0. -/
def coordQ (x : Nat) : Int × Nat :=
  match f32.decode x with
  | .fin n a d => (if n then -(a : Int) else a, d)
  | _ => (0, 1)

/-- Along one axis: the first texel and the weight of the second, of 256 (R313). -/
def bilAxis (u : Int × Nat) (w : Nat) : Int × Nat :=
  let p : Int := 2 * u.1 * w - u.2
  let q : Nat := 2 * u.2
  let i := p / q
  let a := roundNat .rne false ((p % q).toNat * 256) q
  if a = 256 then (i + 1, 0) else (i, a)

/-- The texels of bil(n): weight of 65,536, level, indices. -/
def bilTexels (t : Tex) (u v : Int × Nat) (n : Nat) : List (Nat × Nat × Int × Int) :=
  let (i, a) := bilAxis u (t.w n)
  let (j, b) := bilAxis v (t.h n)
  [((256 - a) * (256 - b), n, i, j), (a * (256 - b), n, i + 1, j), ((256 - a) * b, n, i, j + 1), (a * b, n, i + 1, j + 1)]

/-- The LOD as a fraction of den, clamped to [0, hi]; rounding to a level adds a half first. -/
def lodQ (x : Nat) (half : Bool) (hi : Nat) : Nat × Nat :=
  match f32.decode x with
  | .nan _ => (0, 1)
  | .inf n => (if n then 0 else hi, 1)
  | .fin n a d =>
    let p : Int := (if n then -(2 * a : Int) else 2 * a) + (if half then (d : Int) else 0)
    let q := 2 * d
    if p < 0 then (0, 1) else if p > hi * q then (hi, 1) else (p.toNat, q)

/-- The texels that a sample takes, with their weights and the sum of the weights (R313). -/
def sampleTexels (t : Tex) (u v lod : Nat) : List (Nat × Nat × Int × Int) × Nat :=
  let uq := coordQ u
  let vq := coordQ v
  let r : List (Nat × Nat × Int × Int) × Nat :=
    if t.filter = 2 then
      let (p, q) := lodQ lod false (t.levels - 1)
      let n0 := p / q
      let n1 := min (n0 + 1) (t.levels - 1)
      let wf := roundNat .rne false (p % q * 256) q
      ((bilTexels t uq vq n0).map (fun (w, r) => (w * (256 - wf), r)) ++ (bilTexels t uq vq n1).map (fun (w, r) => (w * wf, r)), 16777216)
    else
      let (p, q) := lodQ lod true (t.levels - 1)
      let n := min (p / q) (t.levels - 1)
      if t.filter = 0 then ([(1, n, uq.1 * (t.w n : Nat) / uq.2, vq.1 * (t.h n : Nat) / vq.2)], 1)
      else (bilTexels t uq vq n, 65536)
  (r.1.filter (·.1 != 0), r.2)

/-- The weighted sum of texels in one channel. -/
def weigh (total : Nat) (ts : List (Nat × FV)) : FV :=
  match ts.map fun (w, v) => (mulV (FV.mk2 false w total) v).1 with
  | [] => .zero
  | x :: xs => xs.foldl (fun a b => (addV .rne a b).1) x

/-- What one lane of TEX or TEXQ comes to. -/
inductive TexLane where
  | ok (v : Nat) (s : State)
  | invalid
  | far (addr : Nat)
  | bad (cause va : Nat) (s : State)
  | stall (s : State)
  | behind (s : State)                         -- a tile store of the group to its texels comes first (R264)
  | dead (cause loc : Nat)
  deriving DecidableEq, Repr

/-- A load of the group from a range of global memory. -/
inductive TexLoad where
  | ok (x : Nat) (s : State)
  | bad (cause va : Nat) (s : State)
  | stall (s : State)
  | dead (cause loc : Nat)
  deriving DecidableEq, Repr

def texLoad (i : Iss) (s : State) (va n : Nat) : TexLoad :=
  match s.mapRange i.g.ident.ctx va n .read with
  | (.bad c a, s) => .bad c a s
  | (.stall, s) => .stall s
  | (.ok ps, s) =>
    match ps.findSome? fun p => (s.readKills (some i.g.ident.core) i.g.ident.ctx p.1 p.2.2.2).map fun c => (c, p.1) with
    | some (c, loc) => .dead c loc
    | none =>
      let (bs, w, s) := loadPieces s i.g.ident false (seenOf s i.k) ps
      .ok (ofBytes bs) (s.updGroup i.k fun g => { g with seen := w })

/-- The texels of a lane, one after another. -/
def texTexels (i : Iss) (t : Tex) (total : Nat) : List (Nat × Nat × Int × Int) → State → List (Nat × List FV) → TexLane
  | [], s, acc => .ok (joinElems 32 ((List.range 4).map fun c =>
      (f32.round .rne (weigh total (acc.map fun (w, d) => (w, d.getD c .zero)))).1)) s
  | (w, n, x, y) :: r, s, acc =>
    match texLoad i s (t.addr n x y) (sampleBytes t.fmt) with
    | .bad c a s => .bad c a s
    | .stall s => .stall s
    | .dead c l => .dead c l
    | .ok v s => texTexels i t total r s (acc ++ [(w, decodeSample t.fmt v)])

/-- One lane: its descriptor, then its texels (TEX) or its description (TEXQ). -/
def texLane (query : Bool) (i : Iss) (s : State) (o : LaneOp) : TexLane :=
  match texLoad i s o.b 32 with
  | .bad c a s => .bad c a s
  | .stall s => .stall s
  | .dead c l => .dead c l
  | .ok d s =>
    match texOf d with
    | none => .invalid
    | some t =>
      if query then
        .ok (if o.x < t.levels then joinElems 32 [t.w o.x, t.h o.x, t.levels, t.off o.x % 2 ^ 32] else joinElems 32 [0, 0, t.levels, 0]) s
      else
        let (ts, total) := sampleTexels t o.x o.y o.c
        match ts.find? fun (_, n, x, y) => t.addr n x y + sampleBytes t.fmt > 2 ^ 52 with
        | some (_, n, x, y) => .far (t.addr n x y)
        | none =>
          if (s.tileStores i.g).any fun e => ts.any fun (_, n, x, y) => e.hits false (t.addr n x y) (sampleBytes t.fmt) then .behind s
          else texTexels i t total ts s []

/-- Lanes in ascending order, each from the state that the good ones before it left. -/
def texLanes (query : Bool) (i : Iss) : List LaneOp → State → List (LaneOp × TexLane) → List (LaneOp × TexLane) × State
  | [], s, acc => (acc.reverse, s)
  | o :: os, s, acc =>
    let r := texLane query i s o
    let s := match r with | .ok _ s => s | .bad _ _ s => s | .stall s => s | .behind s => s | _ => s
    texLanes query i os s ((o, r) :: acc)

/-- TEX and TEXQ (R325, R326): the checks of every lane, then the good lanes' results; faulted lanes wait for RESUME. -/
def texRun (query : Bool) (d : Operand) (i : Iss) (s : State) (h : Held) : Eff :=
  let (rs, s') := texLanes query i h.ops s []
  let lanes (p : TexLane → Bool) : List Nat := (rs.filter fun r => p r.2).map (·.1.lane)
  let far := lanes fun r => match r with | .far _ => true | _ => false
  let inv := lanes fun r => match r with | .invalid => true | _ => false
  match rs.findSome? fun r => match r.2 with | .far a => some a | _ => none with
  | some a => .trap s 0x41 (maskOf far) a 0
  | none =>
    if !inv.isEmpty then .trap s 0x75 (maskOf inv) 0 0
    else match rs.findSome? fun r => match r.2 with | .dead c l => some (c, l) | _ => none with
      | some (c, l) => .kill s c l
      | none =>
        let ws := rs.flatMap fun (o, r) => match r with | .ok v _ => destWrites i.sp.wb d 128 o.lane v | _ => []
        let s := s'.outstanding i.k 36 true ws
        let bad := rs.filterMap fun (o, r) => match r with | .bad c a _ => some (o, c, a) | _ => none
        let wait := rs.filterMap fun (o, r) => match r with | .stall _ | .behind _ => some o | _ => none
        lanesEff i h bad wait s

/-- The address checks of the descriptors (R138), the group's tile stores to what is read (R264), then the access. -/
def texIssue (query : Bool) (instr : Instr) (d : Operand) (i : Iss) (s : State) (ops : List LaneOp) : Eff :=
  let pick (c : Nat) (p : LaneOp → Bool) : Option Eff :=
    match ops.filter p with
    | [] => none
    | o :: os => some (.trap s c (maskOf ((o :: os).map (·.lane))) o.b 0)
  match pick 0x41 (fun o => o.b ≥ 2 ^ 52) <|> pick 0x40 (fun o => o.b % 32 ≠ 0) with
  | some t => t
  | none => clearOfTiles i s false 32 (ops.map (·.b)) <|
    if (texLanes query i ops s []).1.any fun r => (match r.2 with | .behind _ => true | _ => false) then .hold s .issue
    else texRun query d i s { instr, pc := i.sp.pc, lanes := i.lanes, ops }

def execTex (x : SurfW) (s : State) : Host.Outcome State Fault Refusal :=
  withIssue x.ctl ([(x.a, 64), (x.b, 64)] ++ tailSrc x.tail) s (d := x.d) fun i s =>
    whenLanes i s <| texIssue false (.tex x) x.d i s ((lanesOf (destLanes x.d i.lanes)).map fun l =>
      let p := i.g.operand i.sp.wb x.a 64 l (fun k => supplyTy 8 k) (tailImm x.tail)
      { lane := l, x := p % 2 ^ 32, y := p / 2 ^ 32, b := i.val x.b 64 l (tailImm x.tail),
        c := i.g.operand i.sp.wb (tailOperand x.tail) 32 l (fun k => supplyTy 8 k) (tailImm x.tail) })

def execTexq (x : SurfW) (s : State) : Host.Outcome State Fault Refusal :=
  withIssue x.ctl [(x.a, 32), (x.b, 64)] s (d := x.d) fun i s =>
    whenLanes i s <| texIssue true (.texq x) x.d i s ((lanesOf (destLanes x.d i.lanes)).map fun l =>
      { lane := l, x := i.val x.a 32 l (tailImm x.tail), b := i.val x.b 64 l (tailImm x.tail) })

end Sys2Proof.Machine
end

