-- ==== Sys2Proof/Machine/Resume.lean ====
section
/-! DEFINITION. What ends the waits of groups, engines and the front end: the ends of transfer waits (R227) and completion
parks (R201), RESUME and the page commands (R361, R365), the stall of R360, the full fault ring (R362). -/
namespace Sys2Proof.Machine

/-! ### Replays (R139, R360) -/

/-- What the lanes that an instruction has held do when they access again, and the guard and hints of its word; none when
the instruction issues again instead. -/
def replayOf (i : Iss) (s : State) (h : Held) : Option (Ctl × Eff) :=
  if h.ops.isEmpty then none
  else match h.instr with
    | .ld x => some (x.ctl, perform (loadAccess x) i s h)
    | .st x => some (x.ctl, perform (storeAccess x) i s h)
    | .ldp x => some (x.ctl, probe x i s h)
    | .at x => some (x.ctl, perform (atAccess x true) i s h)
    | .atc x => some (x.ctl, perform (atcAccess x) i s h)
    | .red x => some (x.ctl, perform (atAccess x false) i s h)
    | .reds x => some (x.ctl, redsWait x (perform (redsAccess x) i s h))
    | .cflush x => some (x.ctl, flushWait (perform (flushAccess x) i s h))
    | .tex x => some (x.ctl, texRun false x.d i s h)
    | .texq x => some (x.ctl, texRun true x.d i s h)
    | .rxbox x => some (x.ctl, rayRun x boxRay i s h)
    | .rxtri x => some (x.ctl, rayRun x triRay i s h)
    | _ => none

/-- The lanes of a split access again. -/
def State.replay (s : State) (k slot : Nat) (h : Held) : State :=
  match s.group k with
  | none => s
  | some g =>
    match Map.find g.live slot with
    | none => s
    | some sp =>
      match replayOf { k, slot, g, sp, lanes := h.lanes, again := true } s h with
      | some (ctl, e) => e.close ctl { k, slot, g, sp, lanes := h.lanes, again := true }
      | none => (s.updGroup k fun g => g.updLive slot fun e => { e with park := none }).settle k

/-- Stalled lanes of a group that waits on the fault of other lanes walk again (R360): those that are done leave; those that
fault now have a record of their own, whose token also releases the group, and join the lanes that will replay (R365). -/
def State.replayBeside (s : State) (k slot : Nat) (h : Held) : State :=
  let park (p : Option Park) (s : State) : State := s.updGroup k fun g => g.updLive slot fun e => { e with park := p }
  match s.group k with
  | none => s
  | some g =>
    match Map.find g.live slot with
    | none => s
    | some sp =>
      match replayOf { k, slot, g, sp, lanes := h.lanes, again := true } s h with
      | some (_, .ok t) | some (_, .wait t _) | some (_, .park t _) => park none t
      | some (_, .stall t p _) => park (some p) t
      | some (_, .fault t f (.replay m) _) => t.faultBeside k f m
      | some (_, .kill t c l) => t.kill k c l
      | _ => s

/-! ### Transfer wait (R227) -/

/-- TRANSFER_WAIT_END: the event that a split in transfer wait waits for has taken place: the instruction goes on with the
operands of its issue. A CALLI that still waits for its records is held as itself; with its records read it is held as a
CALL. -/
def execTransferWaitEnd (g slot : Nat) (s : State) : Host.Outcome State Fault Refusal :=
  match s.group g with
  | none => .next s
  | some gr =>
    match Map.find gr.live slot with
    | none => .next s
    | some sp =>
      match sp.park with
      | some (.transfer h) =>
        if gr.fault.isSome then .next s
        else
        let i : Iss := { k := g, slot, g := gr, sp, lanes := h.lanes }
        match h.instr with
        | .calli x => .next ((calli false i s x h).close x.ctl i)
        | .call x | .ret x => .next (if s.rowsMet i h then s else (slide i s h).close x.ctl i)
        | .svwin x => .next ((window true h i s).close x.ctl i)
        | .ldwin x => .next ((window false h i s).close x.ctl i)
        | .loadregGroup x => .next ((loadGroup x h i s).close x.ctl i)
        | _ => .next s
      | _ => .next s

/-! ### Completion parks (R201) -/

/-- A split leaves its park. -/
def State.unpark (s : State) (k slot : Nat) : State :=
  (s.updGroup k fun g => g.updLive slot fun e => { e with park := none }).settle k

/-- The write-back of a surface's entry by a parked instruction, then `next`; a fault parks the group and keeps the park
(R293). -/
def State.backEntry (s : State) (k slot ste : Nat) (f : Surf) (next : State → State) : State :=
  match s.writeEntry k ste f with
  | (.ok _, s) => next s
  | (.error none, s) => s
  | (.error (some (c, va)), s) =>
    match s.group k with
    | none => s
    | some g =>
      match Map.find g.live slot with
      | none => s
      | some sp =>
        s.parkFault { k, slot, g, sp } { cause := c, va, lanes := 2 ^ lowest sp.mask } (.finish { pc := sp.pc })

/-- An access to the surface that was issued before SFREE is not performed: an engine's, a lane's that waits for its tile, an
ordered item's on its way (R318). -/
def State.surfaceBusy (s : State) (ctx ste : Nat) : Bool :=
  let waits (e : Split) : Bool := match e.park with | some (.tile h) => h.ops.any fun o => o.b % 4096 == ste | _ => false
  (s.engines.any fun e => e.2.queue.any fun q => q.ctx == ctx && q.op.ste == some ste)
    || (s.groups.any fun g => g.2.ident.ctx == ctx && g.2.entries.any waits)
    || match s.surf? ctx ste with
      | some f => f.items.any fun m => !m.held
      | none => false

/-- The held ordered operations of a surface are discarded with their results (R303). -/
def State.discardItems (s : State) (ctx ste : Nat) : State :=
  match s.surf? ctx ste with
  | none => s
  | some f =>
    let s := f.items.foldl (fun (s : State) m => s.updUid m.uid fun g =>
      let outst := g.outst.filter fun o => !m.seqs.contains o.seq
      { g with outst, kept := g.kept.filter fun o => !m.seqs.contains o.seq, swPark := g.swPark && !outst.isEmpty }) s
    s.updSurf ctx ste fun f => { f with items := [] }

/-- SFREE acts (R303): its items and pages go, the entry is written back, the surface is FREE. -/
def State.freeSurface (s : State) (k slot ctx ste : Nat) : State :=
  let s := ((s.discardItems ctx ste).updSurf ctx ste fun f => { f with freed := true }).runEviction
  match s.surf? ctx ste with
  | none => s.unpark k slot
  | some f => s.backEntry k slot ste f fun s =>
      ((s.updCtx ctx fun c => { c with surfs := Map.erase c.surfs ste }).unpark k slot).wake fun g => g.ident.ctx == ctx

/-- What a completion park still has to do, when it can be done. A SALLOC or SPIN whose surface another group has freed
meanwhile has nothing left to write back (log entry 46). -/
def State.complete (s : State) (k slot : Nat) (g : Group) (sp : Split) (t : Todo) : State :=
  let ctx := g.ident.ctx
  let i : Iss := { k, slot, g, sp, lanes := sp.mask }
  match t with
  | .done => s.unpark k slot
  | .readFlags d lanes =>
    if g.outst.isEmpty then (s.landNow k (specialWrites i d lanes 0x22 g.sr.fpflags)).unpark k slot else s
  | .writeFlags x =>
    if g.outst.isEmpty then (s.updGroup k fun g => { g with sr := { g.sr with fpflags := x } }).unpark k slot else s
  | .handlerEnd => if g.outst.isEmpty then s.endHandler k slot else s
  | .reds x => if s.unanswered g slot then s else (redsEnd x { i with again := true } s).close {} { i with again := true }
  | .order ste key =>
    match s.surf? ctx ste with
    | some f => if f.items.any fun m => m.key == key && m.uid == g.ident.uid && !m.held then s else s.unpark k slot
    | none => s.unpark k slot
  | .entry ste _ ws =>
    match s.surf? ctx ste with
    | some f => s.backEntry k slot ste f fun s => ((s.landNow k ws).unpark k slot).wake fun g => g.ident.ctx == ctx
    | none => if s.demands.any fun d => d.ctx == ctx && d.ste == ste && d.page.isNone then s.runEviction else (s.landNow k ws).unpark k slot
  | .sfree ste => if s.surfaceBusy ctx ste then s else s.freeSurface k slot ctx ste
  | .pin ste ws =>
    match s.surf? ctx ste with
    | some f => if f.tiles.isEmpty then s.backEntry k slot ste f fun s => (s.landNow k ws).unpark k slot else s
    | none => (s.landNow k ws).unpark k slot
  | .restored =>
    let s' := s.leaveRestore k
    match s'.group k with
    | some g => if g.handler.isNone && g.argsDue then (s'.setGroup k { g with argsDue := false, phase := .placing }).readArgs k else s'
    | none => s'

/-- COMPLETION_PARK_END: the instruction of a split in a completion park completes. -/
def execCompletionParkEnd (g slot : Nat) (s : State) : Host.Outcome State Fault Refusal :=
  match s.group g with
  | none => .next s
  | some gr =>
    match Map.find gr.live slot with
    | none => .next s
    | some sp =>
      match sp.park with
      | some (.completion t) => if gr.fault.isSome then .next s else .next (s.complete g slot gr sp t)
      | _ => .next s

/-! ### RESUME (R365) -/

/-- The group that waits on a fault goes on. -/
def State.resumeGroup (s : State) (k : Nat) : State :=
  match s.group k with
  | none => s
  | some g =>
    match g.fault with
    | none => s
    | some f =>
      let s := s.setGroup k ({ g with fault := none }.updLive f.slot fun e => { e with fault := false })
      match f.retry with
      | .replay h =>
        match (Map.find g.live f.slot).bind (·.park) with
        | some (.migrating m) => s.replay k f.slot (h.join m)
        | _ => s.replay k f.slot h
      | .args => s.readArgs k
      | .reissue | .entry | .save | .finish _ => s.settle k

/-- A token of the wait satisfies a predicate; 0 names none. -/
def FaultWait.waits (f : FaultWait) (p : Option Nat → Bool) : Bool := (f.token :: f.also).any fun t => t != 0 && p (some t)

/-- A token that names a waiting agent of the context. -/
def State.waitsOn (s : State) (ctx tok : Nat) : Bool :=
  let c := s.ctx ctx
  tok != 0 &&
    ((s.groups.any fun g => g.2.ident.ctx == ctx && g.2.fault.any fun f => f.waits (· == some tok))
      || (s.copyq.any fun x => x.ctx == ctx && x.wait == some tok)
      || (s.engines.any fun e => e.2.queue.any fun q => q.ctx == ctx && q.wait == some tok)
      || (c.surfs.any fun f => f.2.tiles.any fun t => t.2.wait == some tok)
      || (c.owed.any fun o => o.wait == some tok)
      || c.queues.any fun q => q.2.wait == some tok || q.2.open_.any fun p => p.wait == some tok)

/-- The waiting walkers of a context that a predicate on tokens releases go on. -/
def State.resumeWalkers (s : State) (ctx : Nat) (p : Option Nat → Bool) : State :=
  let qs := ((s.ctx ctx).queues.filter fun q => q.2.wait.isSome && p q.2.wait).map (·.1)
  qs.foldl (fun (s : State) q => (s.updQueue ctx q fun qu => { qu with wait := none }).walkerGoesOn ctx q) s

/-- Releases every agent of a context whose token satisfies a predicate: groups, copies, matrix operations, tiles, walkers,
completion records, the write-backs of DESTROY. -/
def State.release_ (s : State) (ctx : Nat) (p : Option Nat → Bool) : State :=
  let free (w : Option Nat) : Option Nat := if w.isSome && p w then none else w
  let ks := (s.groups.filter fun g => g.2.ident.ctx == ctx && g.2.fault.any (·.waits p)).map (·.1)
  let s := { s with
    copyq := s.copyq.map fun (c : Copy) => if c.ctx == ctx then { c with wait := free c.wait } else c,
    engines := s.engines.map fun (x : Nat × Engine) => (x.1, { x.2 with queue := x.2.queue.map fun (q : MEntry) => if q.ctx == ctx then { q with wait := free q.wait } else q }) }
  let s := s.updCtx ctx fun c =>
    { c with
      surfs := c.surfs.map fun (x : Nat × Surf) => (x.1, { x.2 with tiles := x.2.tiles.map fun (t : Nat × Tile) => (t.1, { t.2 with wait := free t.2.wait }) }),
      owed := c.owed.map fun (o : Owed) => { o with wait := free o.wait },
      queues := c.queues.map fun (x : Nat × Queue) => (x.1, { x.2 with open_ := x.2.open_.map fun (r : Packet) => { r with wait := free r.wait } }) }
  ((ks.foldl State.resumeGroup s).resumeWalkers ctx p).payEntries ctx

/-! ### The stall of R360 and the full ring -/

/-- Splits of a context that stall on a MIGRATING page, with what they hold. -/
def State.stalled (s : State) (ctx : Nat) : List (Nat × Nat × Held) :=
  s.groups.flatMap fun (k, g) =>
    if g.ident.ctx = ctx then
      g.live.filterMap fun (n, e) => match e.park with | some (.migrating h) => some (k, n, h) | _ => none
    else []

/-- Every stalled access of a context walks again: lanes, argument words, walkers, the write-backs of DESTROY. -/
def State.rewalk (s : State) (ctx : Nat) : State :=
  let s := (s.stalled ctx).foldl (fun (s : State) (k, n, h) =>
    match s.group k with
    | some g => if g.fault.isSome then s.replayBeside k n h else s.replay k n h
    | none => s) s
  let placing := (s.groups.filter fun g => g.2.ident.ctx == ctx && g.2.phase == .placing).map (·.1)
  (((placing.foldl State.readArgs s).settleQueues ctx).enterAgain ctx).payEntries ctx

/-- What every page command that names a context does besides: stalled accesses walk again, and held records are written
(R360, R362). -/
def State.pageNews (s : State) (ctx : Nat) : State := flushFaults ((s.ctx ctx).held.length + 1) (s.rewalk ctx) ctx

/-- MIGRATING_REWALK: at least every 4,096 front-end clocks. -/
def execMigratingRewalk (ctx : Nat) (s : State) : Host.Outcome State Fault Refusal := .next (s.rewalk ctx)

/-- FAULT_RING_RETRY: the device reads GET again for the records that a full ring holds back. -/
def execFaultRingRetry (ctx : Nat) (s : State) : Host.Outcome State Fault Refusal :=
  .next (flushFaults ((s.ctx ctx).held.length + 1) s ctx)

/-! ### Page commands (R361) -/

/-- A page command has completed: RESULT, PENDING 0. -/
def State.pageAnswer (s : State) (port : Bool) (result : Nat) : State := s.updPort port.toNat fun p => { p with pgstat := result }

/-- RESUME: the agent that the token names goes on; a token that names none has no effect. -/
def execResume (port : Bool) (ctx token : Nat) (s : State) : Host.Outcome State Fault Refusal :=
  if s.foreign port ctx then .next ((s.pageNews ctx).pageAnswer port 2)
  else
    let (ok, s) := if s.waitsOn ctx token then (true, s.release_ ctx (· == some token)) else (false, s)
    .next ((s.pageNews ctx).pageAnswer port (if ok then 0 else 2))

def execResumeall (port : Bool) (ctx : Nat) (s : State) : Host.Outcome State Fault Refusal :=
  if s.foreign port ctx then .next ((s.pageNews ctx).pageAnswer port 2)
  else .next (((s.release_ ctx fun _ => true).pageNews ctx).pageAnswer port 0)

/-- No cached translation of a range is left: entries of the range are read from memory from now on (R359). Completion is an
acquire at .pkg of the host's stores: they were performed before. -/
def State.invalidate (s : State) (ctx lo hi : Nat) : State :=
  s.updCtx ctx fun c => { c with inval := (lo, hi, s.order.next) :: c.inval.filter fun x => !(lo ≤ x.1 && x.2.1 ≤ hi) }

/-- INVAL of the pages that PGARG gives. -/
def execInval (port : Bool) (ctx : Nat) (s : State) : Host.Outcome State Fault Refusal :=
  let arg := (s.port port.toNat).pgarg
  let span := bits arg 0 6
  let vpn := bits arg 12 40
  if s.foreign port ctx || span > 40 || vpn % 2 ^ span != 0 then .next ((s.pageNews ctx).pageAnswer port 2)
  else .next (((s.invalidate ctx (vpn * 4096) ((vpn + 2 ^ span) * 4096)).pageNews ctx).pageAnswer port 0)

def execInvalall (port : Bool) (ctx : Nat) (s : State) : Host.Outcome State Fault Refusal :=
  if s.foreign port ctx then .next ((s.pageNews ctx).pageAnswer port 2)
  else .next (((s.invalidate ctx 0 (2 ^ 52)).pageNews ctx).pageAnswer port 0)

end Sys2Proof.Machine
end

