-- ==== Sys2Proof/Machine/HostWrite.lean ====
section
/-! DEFINITION. A host write to a register of a PCIe function (R398, R399): a write to a command register is the command that
its fields name (R157, R175, R182, R361, R384, R400), and any other write sets the register. -/
namespace Sys2Proof.Machine

/-- CTXCMD (R157). -/
def State.ctxCommand (s : State) (port : Bool) (v : Nat) : Host.Outcome State Fault Refusal :=
  let ctx := bits v 8 8
  match bits v 0 8 with
  | 1 => execBuild port ctx (bits v 16 47) (bit v 63) s
  | 2 => execAdmission port ctx s
  | 3 => execPreempt port ctx s
  | 4 => execDestroy port ctx s
  | _ => .next (if s.ctxBusy port then s else s.answer port ctx 2)

/-- DOORBELL of the physical function (R175). -/
def State.doorbell (s : State) (port : Bool) (v : Nat) : Host.Outcome State Fault Refusal :=
  match bits v 14 2 with
  | 0 => execDoorbellRing port 0 (bits v 0 8) (bits v 8 6) s
  | 1 => execDoorbellStart port (bits v 0 8) (bits v 8 6) s
  | 2 => execDoorbellReset port (bits v 0 8) (bits v 8 6) s
  | _ => .next s

/-- PGCMD (R361). -/
def State.pageCommand (s : State) (port : Bool) (v : Nat) : Host.Outcome State Fault Refusal :=
  let ctx := bits v 8 8
  match bits v 0 8 with
  | 1 => execResume port ctx (bits v 16 32) s
  | 2 => execResumeall port ctx s
  | 3 => execInval port ctx s
  | 4 => execInvalall port ctx s
  | _ => .next ((s.pageNews ctx).pageAnswer port 2)

/-- DBGCMD (R384). -/
def State.debugCommand (s : State) (port : Bool) (v : Nat) : Host.Outcome State Fault Refusal :=
  let x : Dbg := { port, ctx := bits v 8 8, index := bits v 16 3, wkind := bits v 19 2, wsize := bits v 21 6, cause := bits v 27 8,
                   die := bits v 35 1, core := bits v 36 7, slot := bits v 43 6 }
  match bits v 0 8 with
  | 1 => execSetbp x s
  | 2 => execSetwp x s
  | 3 => execClear x s
  | 4 => execStepon x s
  | 5 => execStepoff x s
  | 6 => execInject x s
  | _ => .next (s.dbgAnswer port 2)

/-- The bytes of the image at an address of the memory of port 0's host, its length as its header gives it. -/
def State.imageAt (s : State) (a : Nat) : List Byte :=
  s.peek 0 (hostBase 0 + a % 2 ^ 54) (17184 + bits (ofBytes (s.peek 0 (hostBase 0 + a % 2 ^ 54) 16)) 96 32)

/-- MGMTCMD (R400). -/
def State.mgmtCommand (s : State) (port : Bool) (v : Nat) : Host.Outcome State Fault Refusal :=
  let refused : State := if s.mgmtBusy port then s else s.mgmtAnswer port 2
  match bits v 0 8 with
  | 1 => execNearset port (bits v 8 1) (bits v 9 7) s
  | 2 =>
    match bits v 21 2 with
    | 0 => execPortctlDisable port (bits v 16 5) s
    | 1 => execPortctlEnable port (bits v 16 5) s
    | 2 => execPortctlRetrain port (bits v 16 5) s
    | _ => .next refused
  | 3 => execPodbind port (bits v 24 8) s
  | 4 => execImage port (s.imageAt (s.port port.toNat).mgmtarg) s
  | _ => .next refused

/-- REGISTER_WRITE. -/
def execRegisterWrite (port : Bool) (offset size value : Nat) (s : State) : Host.Outcome State Fault Refusal :=
  let v := value % 2 ^ 64
  if size = 8 then
    match offset with
    | 0x00 => s.ctxCommand port v
    | 0x18 => execNowWrite port (BitVec.ofNat 64 v) s
    | 0x20 => s.pageCommand port v
    | 0x40 => s.debugCommand port v
    | 0x80 => s.mgmtCommand port v
    | _ => .next (s.updPort port.toNat fun p => p.write offset 8 v)
  else if offset = 0x10 ∧ size = 4 then s.doorbell port (v % 2 ^ 32)
  else .next (s.updPort port.toNat fun p => p.write offset size v)

end Sys2Proof.Machine
end

