-- ==== Sys2Proof/Machine/Integer.lean ====
section
/-! DEFINITION. The integer instructions (R84, R89 to R93). -/
namespace Sys2Proof.Machine

/-- The value of a w-bit pattern in an integer type (R26, R57). -/
def intVal (ty w x : Nat) : Int := if isSignedTy ty then sint w x else (x % 2 ^ w : Nat)

def intMin (ty w : Nat) : Int := if isSignedTy ty then -(2 ^ (w - 1)) else 0
def intMax (ty w : Nat) : Int := if isSignedTy ty then 2 ^ (w - 1) - 1 else 2 ^ w - 1

/-- R84: an exact result modulo 2^w, or clamped with FPFLAGS.SAT when the clamp changed it. -/
def intReduce (ty w : Nat) (sat : Bool) (x : Int) : Nat × Nat :=
  if sat then
    let y := max (intMin ty w) (min (intMax ty w) x)
    (wrap w y, if y = x then 0 else fSAT)
  else (wrap w x, 0)

/-- Applies an exact function to each element and reduces it. -/
def intEach (ty : Nat) (sat : Bool) (f : Int → Int → Int → Int) (v : AluSrc) : LaneOut :=
  let w := elemW ty
  let n := typeW ty
  let rs := (elems w n v.a).zipWith (fun a (bc : Nat × Nat) => intReduce ty w sat (f (intVal ty w a) (intVal ty w bc.1) (intVal ty w bc.2)))
    ((elems w n v.b).zip (elems w n v.c))
  { d := joinElems w (rs.map (·.1)), fl := rs.foldl (fun m r => m ||| r.2) 0 }

/-- The predicate of ADD and SUB (R90), from the exact result: carry or borrow of a natural type, overflow of a signed one. -/
def addFlag (ty : Nat) (x : Int) : Bool := let w := elemW ty; decide (x < intMin ty w) || decide (intMax ty w < x)

def sumOut (ty : Nat) (sat : Bool) (f : Int → Int → Int) (v : AluSrc) : LaneOut :=
  let w := elemW ty
  { intEach ty sat (fun a b _ => f a b) v with p := addFlag ty (f (intVal ty w v.a) (intVal ty w v.b)) }

def execAdd (x : Alu) (s : State) : Host.Outcome State Fault Refusal :=
  aluOp1 0x10 0 0 (sumOut x.ty.toNat x.sat (· + ·)) x s

def execSub (x : Alu) (s : State) : Host.Outcome State Fault Refusal :=
  aluOp1 0x11 0 0 (sumOut x.ty.toNat x.sat (· - ·)) x s

/-- R90: ADDC and SUBB. -/
def carryOut (ty : Nat) (sub : Bool) (v : AluSrc) : LaneOut :=
  let w := elemW ty
  let c : Int := if v.c = 0 then 0 else 1
  let r : Int := if sub then (v.a : Int) - v.b - c else v.a + v.b + c
  { d := wrap w r, p := if sub then decide (r < 0) else decide (2 ^ w ≤ r) }

def execAddc (x : Alu) (s : State) : Host.Outcome State Fault Refusal := aluOp1 0x12 0 0 (carryOut x.ty.toNat false) x s

def execSubb (x : Alu) (s : State) : Host.Outcome State Fault Refusal := aluOp1 0x13 0 0 (carryOut x.ty.toNat true) x s

def execMul (x : Alu) (s : State) : Host.Outcome State Fault Refusal :=
  aluOp1 0x14 0 0 (intEach x.ty.toNat x.sat fun a b _ => a * b) x s

def execMulh (x : Alu) (s : State) : Host.Outcome State Fault Refusal :=
  aluOp1 0x15 0 0 (intEach x.ty.toNat false fun a b _ => a * b / 2 ^ typeW x.ty.toNat) x s

def execMad (x : Alu) (s : State) : Host.Outcome State Fault Refusal :=
  aluOp1 0x16 0 0 (intEach x.ty.toNat x.sat fun a b c => a * b + c) x s

/-- R91: A and B are 32-bit, C and D pairs of the same signedness. -/
def madw (ty : Nat) (v : AluSrc) : LaneOut :=
  { d := wrap 64 (intVal ty 32 v.a * intVal ty 32 v.b + intVal ty 64 v.c) }

def execMadw (x : Alu) (s : State) : Host.Outcome State Fault Refusal :=
  aluOp 0x17 0 0 x.ty.toNat (if x.ty = 0 then 2 else 3) (madw x.ty.toNat) x s

/-- R92: DIV and REM in exact integers, toward zero. -/
def divOut (ty : Nat) (rem : Bool) (v : AluSrc) : LaneOut :=
  let w := elemW ty
  let a := intVal ty w v.a
  let b := intVal ty w v.b
  if b = 0 then { d := if rem then v.a else 2 ^ w - 1, dz := true }
  else
    let q := a.tdiv b
    { d := wrap w (if rem then a - q * b else q) }

def execDiv (x : Alu) (s : State) : Host.Outcome State Fault Refusal := aluOp1 0x18 12 0 (divOut x.ty.toNat false) x s

def execRem (x : Alu) (s : State) : Host.Outcome State Fault Refusal := aluOp1 0x19 12 0 (divOut x.ty.toNat true) x s

def execMin (x : Alu) (s : State) : Host.Outcome State Fault Refusal :=
  aluOp1 0x1A 0 0 (intEach x.ty.toNat false fun a b _ => min a b) x s

def execMax (x : Alu) (s : State) : Host.Outcome State Fault Refusal :=
  aluOp1 0x1B 0 0 (intEach x.ty.toNat false fun a b _ => max a b) x s

def execAbs (x : Alu) (s : State) : Host.Outcome State Fault Refusal :=
  aluOp1 0x1C 0 0 (intEach x.ty.toNat x.sat fun a _ _ => (a.natAbs : Int)) x s

def execNeg (x : Alu) (s : State) : Host.Outcome State Fault Refusal :=
  aluOp1 0x1D 0 0 (intEach x.ty.toNat x.sat fun a _ _ => -a) x s

/-- R93: the shift is SUB; B is 32 bits, extended by the type. -/
def lea (ty sub : Nat) (v : AluSrc) : LaneOut :=
  { d := wrap 64 ((v.a : Int) + intVal ty 32 v.b * 2 ^ sub) }

def execLea (x : Alu) (s : State) : Host.Outcome State Fault Refusal :=
  aluOp 0x1E 0 0 (if x.ty = 2 then 0 else 1) x.ty.toNat (lea x.ty.toNat x.sub.toNat) x s

def execSad (x : Alu) (s : State) : Host.Outcome State Fault Refusal :=
  aluOp1 0x1F 0 0 (intEach x.ty.toNat x.sat fun a b c => ((a - b).natAbs : Int) + c) x s

end Sys2Proof.Machine
end

