-- ==== Sys2Proof/Machine/Lane.lean ====
section
/-! DEFINITION. Lane exchange and reductions (R112 to R116). -/
namespace Sys2Proof.Machine

/-- SHFL: the source lane of a lane, and ok (R113). `b` is signed in .rel. -/
def shflSource (mode w l : Nat) (b : Nat) (part : Lanes) : Nat × Bool :=
  let base := l - l % w
  let rel : Int := l + sint 32 b
  let j := match mode with
    | 0 => base + b % w
    | 1 => rel.toNat
    | 2 => base + (l - base + b) % w
    | _ => l ^^^ b % w
  let ok := if mode = 1 then decide ((base : Int) ≤ rel) && decide (rel < base + w) else true
  (j, ok && hasLane part j)

/-- SHFL. With a scalar destination the lowest executing lane writes (R54); every executing lane takes part. -/
def execShfl (x : Alu) (s : State) : Host.Outcome State Fault Refusal :=
  let w := typeW x.ty.toNat
  withIssue x.ctl [(x.a, w), (x.b, 32)] s fun i s =>
    let a (l : Nat) := i.g.operand i.sp.wb x.a w l id (immTy x.ty.toNat (tailImm x.tail))
    let outs := (lanesOf (destLanes x.d i.lanes)).map fun l =>
      let b := i.g.operand i.sp.wb x.b 32 l id (tailImm x.tail)
      let (j, ok) := shflSource (x.sub.toNat % 4) (32 / 2 ^ (x.sub.toNat / 4)) l b i.lanes
      (l, ({ d := if ok then a j else a l, p := ok } : LaneOut))
    aluEff 6 0 (fun l o => destWrites i.sp.wb x.d w l o.d ++ predWrites x.pd l o.p) outs i s

/-- VOTE (R114). -/
def execVote (x : Alu) (s : State) : Host.Outcome State Fault Refusal :=
  withIssue x.ctl [(x.a, 32)] s fun i s =>
    let ls := lanesOf i.lanes
    let on := ls.filter fun l => i.g.operand i.sp.wb x.a 32 l id 0 != 0
    let p := match x.sub.toNat with
      | 0 => on.length == ls.length
      | 1 => !on.isEmpty
      | _ => on.isEmpty || on.length == ls.length
    let o : LaneOut := { d := (maskOf on).toNat, p }
    aluEff 6 0 (fun l o => if x.sub = 3 then destWrites i.sp.wb x.d 32 l o.d else predWrites x.pd l o.p)
      ((lanesOf (destLanes x.d i.lanes)).map fun l => (l, o)) i s

/-- The integer operations of REDUX and SCAN (R115, R116) on patterns. -/
def combineOp (op ty : Nat) (x y : Nat) : Nat :=
  let w := typeW ty
  match op with
  | 0 => (x + y) % 2 ^ w
  | 1 => if intVal ty w x ≤ intVal ty w y then x else y
  | 2 => if intVal ty w x ≥ intVal ty w y then x else y
  | 3 => x &&& y
  | 4 => x ||| y
  | _ => x ^^^ y

/-- The fixed tree of .f32 addition over all 32 positions (R115). -/
def treeStep (rm : Rnd) (xs : List Nat) : List Nat × Nat :=
  let pairs := (List.range (xs.length / 2)).map fun i => ((xs[2 * i]?).getD 0, (xs[2 * i + 1]?).getD 0)
  let rs := pairs.map fun (a, b) => f32.result rm (addV rm (f32.decode a) (f32.decode b))
  (rs.map (·.1), rs.foldl (fun m r => m ||| r.2) 0)

def treeSum (rm : Rnd) (xs : List Nat) : Nat × Nat :=
  (List.range 5).foldl (fun acc _ => let (ys, fl) := treeStep rm acc.1; (ys, acc.2 ||| fl)) (xs, 0) |> fun r => (r.1.headD 0, r.2)

/-- The least or greatest under R99, in lane order; one lane is compared with itself (DEDUCED, log entry 45). -/
def fminmaxAll (isMax : Bool) (xs : List Nat) : Nat × Nat :=
  match xs with
  | [] => (0, 0)
  | [x] =>
    let v := f32.decode x
    f32.result .rne (minmaxV isMax v v)
  | x :: xs => xs.foldl (fun (acc : Nat × Nat) y =>
      let r := f32.result .rne (minmaxV isMax (f32.decode acc.1) (f32.decode y))
      (r.1, acc.2 ||| r.2)) (x, 0)

/-- REDUX: the result and the flags (R115). -/
def reduxOut (x : Alu) (part : Lanes) (a : Nat → Nat) : Nat × Nat :=
  let ls := lanesOf part
  let op := x.sub.toNat
  if x.ty = 8 then
    if op = 0 then treeSum x.rnd ((List.range 32).map fun l => if hasLane part l then a l else 0x80000000)
    else fminmaxAll (op == 2) (ls.map a)
  else
    match ls with
    | [] => (0, 0)
    | l :: ls => (ls.foldl (fun acc l => combineOp op x.ty.toNat acc (a l)) (a l), 0)

/-- REDUX. A trap names every lane that takes part (R115). -/
def execRedux (x : Alu) (s : State) : Host.Outcome State Fault Refusal :=
  let w := typeW x.ty.toNat
  withIssue x.ctl [(x.a, w)] s fun i s =>
    let a (l : Nat) := i.g.operand i.sp.wb x.a w l (supplyTy x.ty.toNat) (immTy x.ty.toNat (tailImm x.tail))
    let (d, fl) := reduxOut x i.lanes a
    aluEff 6 0 (fun l o => if hasLane (destLanes x.d i.lanes) l then destWrites i.sp.wb x.d w l o.d else [])
      ((lanesOf i.lanes).map fun l => (l, ({ d, fl } : LaneOut))) i s

/-- The identity of an operation of SCAN (R116). -/
def scanIdentity (op ty : Nat) : Nat :=
  let w := typeW ty
  match op with
  | 1 => wrap w (intMax ty w)
  | 2 => wrap w (intMin ty w)
  | 3 => 2 ^ w - 1
  | _ => 0

def execScan (x : Alu) (s : State) : Host.Outcome State Fault Refusal :=
  let w := typeW x.ty.toNat
  let op := x.sub.toNat % 8
  withIssue x.ctl [(x.a, w)] s fun i s =>
    let a (l : Nat) := i.g.operand i.sp.wb x.a w l id (immTy x.ty.toNat (tailImm x.tail))
    let outs := ((lanesOf i.lanes).foldl (fun (acc : Nat × List (Nat × LaneOut)) l =>
      let r := combineOp op x.ty.toNat acc.1 (a l)
      (r, acc.2 ++ [(l, { d := if x.sub.toNat ≥ 8 then acc.1 else r })])) (scanIdentity op x.ty.toNat, [])).2
    aluEff 6 0 (fun l o => destWrites i.sp.wb x.d w l o.d) outs i s

end Sys2Proof.Machine
end

