-- ==== Sys2Proof/Machine/Logic.lean ====
section
/-! DEFINITION. The logic instructions (R94 to R97). -/
namespace Sys2Proof.Machine

/-- A number of w bits from its bits. -/
def fromBits (w : Nat) (f : Nat → Bool) : Nat := (List.range w).foldl (fun x i => if f i then x + 2 ^ i else x) 0

def execAnd (x : Alu) (s : State) : Host.Outcome State Fault Refusal := aluOp1 0x20 0 0 (fun v => { d := v.a &&& v.b }) x s

def execOr (x : Alu) (s : State) : Host.Outcome State Fault Refusal := aluOp1 0x21 0 0 (fun v => { d := v.a ||| v.b }) x s

def execXor (x : Alu) (s : State) : Host.Outcome State Fault Refusal := aluOp1 0x22 0 0 (fun v => { d := v.a ^^^ v.b }) x s

def execNot (x : Alu) (s : State) : Host.Outcome State Fault Refusal :=
  aluOp1 0x23 0 0 (fun v => { d := v.a ^^^ (2 ^ typeW x.ty.toNat - 1) }) x s

/-- R95: bit i of the result is the table's bit for the inputs' bits. -/
def lut3 (w lut : Nat) (v : AluSrc) : LaneOut :=
  { d := fromBits w fun i => bit lut ((bit v.a i).toNat + 2 * (bit v.b i).toNat + 4 * (bit v.c i).toNat) }

def execLut3 (x : Alu) (s : State) : Host.Outcome State Fault Refusal :=
  aluOp1 0x24 0 0 (lut3 (typeW x.ty.toNat) (tailAux x.tail % 256)) x s

def shl (w a n : Nat) : Nat := if n ≥ w then 0 else a * 2 ^ n % 2 ^ w
def shr (w a n : Nat) : Nat := if n ≥ w then 0 else a % 2 ^ w / 2 ^ n
def sar (w a n : Nat) : Nat := wrap w (sint w a / 2 ^ min n w)
def rotl (w a n : Nat) : Nat := let k := n % w; (a * 2 ^ k + a % 2 ^ w / 2 ^ (w - k)) % 2 ^ w

def execShl (x : Alu) (s : State) : Host.Outcome State Fault Refusal :=
  aluOp 0x25 0 0 1 1 (fun v => { d := shl (typeW x.ty.toNat) v.a v.b }) x s

def execShr (x : Alu) (s : State) : Host.Outcome State Fault Refusal :=
  aluOp 0x26 0 0 1 1 (fun v => { d := shr (typeW x.ty.toNat) v.a v.b }) x s

def execSar (x : Alu) (s : State) : Host.Outcome State Fault Refusal :=
  aluOp 0x27 0 0 1 1 (fun v => { d := sar (typeW x.ty.toNat) v.a v.b }) x s

def execRot (x : Alu) (s : State) : Host.Outcome State Fault Refusal :=
  aluOp 0x28 0 0 1 1 (fun v => { d := rotl (typeW x.ty.toNat) v.a v.b }) x s

/-- R96. -/
def funsh (left : Bool) (v : AluSrc) : LaneOut :=
  let n := min v.c 32
  let y := v.b * 2 ^ 32 + v.a % 2 ^ 32
  { d := if left then y * 2 ^ n / 2 ^ 32 % 2 ^ 32 else y / 2 ^ n % 2 ^ 32 }

def execFunsh (x : Alu) (s : State) : Host.Outcome State Fault Refusal := aluOp1 0x29 0 0 (funsh (bit x.sub.toNat 0)) x s

/-- R97: bits of A above its width are its sign for signed types and zero otherwise. -/
def bfe (ty : Nat) (v : AluSrc) : LaneOut :=
  let w := typeW ty
  let pos := bits v.b 0 8
  let len := bits v.b 8 8
  let a : Int := if isSignedTy ty then sint w v.a else (v.a % 2 ^ w : Nat)
  if len = 0 then { d := 0 }
  else
    let f := wrap len (a / 2 ^ pos)
    { d := wrap w (if isSignedTy ty then sint len f else f) }

def execBfe (x : Alu) (s : State) : Host.Outcome State Fault Refusal := aluOp 0x2A 0 0 1 1 (bfe x.ty.toNat) x s

def bfi (ty : Nat) (v : AluSrc) : LaneOut :=
  let w := typeW ty
  let pos := bits v.b 0 8
  let len := bits v.b 8 8
  { d := fromBits w fun i => if pos ≤ i ∧ i < pos + len then bit v.a (i - pos) else bit v.c i }

def execBfi (x : Alu) (s : State) : Host.Outcome State Fault Refusal := aluOp 0x2B 0 0 1 x.ty.toNat (bfi x.ty.toNat) x s

def popCount (w a : Nat) : Nat := ((List.range w).filter (bit a)).length
def leadZeros (w a : Nat) : Nat := if a % 2 ^ w = 0 then w else w - 1 - Nat.log2 (a % 2 ^ w)
def trailZeros (w a : Nat) : Nat := ((List.range w).find? (bit a)).getD w

def execPopc (x : Alu) (s : State) : Host.Outcome State Fault Refusal :=
  aluOp1 0x2C 0 0 (fun v => { d := popCount (typeW x.ty.toNat) v.a }) x s

def execClz (x : Alu) (s : State) : Host.Outcome State Fault Refusal :=
  aluOp1 0x2D 0 0 (fun v => { d := leadZeros (typeW x.ty.toNat) v.a }) x s

def execCtz (x : Alu) (s : State) : Host.Outcome State Fault Refusal :=
  aluOp1 0x2E 0 0 (fun v => { d := trailZeros (typeW x.ty.toNat) v.a }) x s

def execBrev (x : Alu) (s : State) : Host.Outcome State Fault Refusal :=
  aluOp1 0x2F 0 0 (fun v => { d := fromBits (typeW x.ty.toNat) fun i => bit v.a (typeW x.ty.toNat - 1 - i) }) x s

end Sys2Proof.Machine
end

