-- ==== Sys2Proof/Machine/Move.lean ====
section
/-! DEFINITION. The move and predicate instructions (R108 to R111). -/
namespace Sys2Proof.Machine

def execMov (x : Alu) (s : State) : Host.Outcome State Fault Refusal := aluOp1 0x60 0 0 (fun v => { d := v.a }) x s

/-- MOVI: IMM, extended by the type (R55). -/
def execMovi (x : Alu) (s : State) : Host.Outcome State Fault Refusal :=
  aluOp1 0x61 0 0 (fun _ => { d := immTy x.ty.toNat (tailImm x.tail) }) x s

/-- MOVH writes only the odd register of the pair (R108). -/
def execMovh (x : Alu) (s : State) : Host.Outcome State Fault Refusal :=
  withIssue x.ctl [] s (d := x.d) fun i s =>
    let outs := (lanesOf (destLanes x.d i.lanes)).map fun l => (l, ({ d := tailImm x.tail } : LaneOut))
    aluEff 0 0 (fun l o => (destWrites i.sp.wb x.d 64 l (2 ^ 32 * o.d)).drop 1) outs i s

def execSel (x : Alu) (s : State) : Host.Outcome State Fault Refusal :=
  aluOp1 0x63 0 0 (fun v => { d := if v.c = 0 then v.b else v.a }) x s

/-- The conditions of R109 on the sign of a − b. -/
def condition (cc : Nat) (c : Int) : Bool :=
  match cc with
  | 0 => c == 0
  | 1 => c != 0
  | 2 => decide (c < 0)
  | 3 => decide (c ≤ 0)
  | 4 => decide (c > 0)
  | _ => decide (c ≥ 0)

def icmp (ty cc : Nat) (v : AluSrc) : LaneOut :=
  let w := elemW ty
  let r := condition cc (intVal ty w v.a - intVal ty w v.b)
  { d := if r then 0xFFFFFFFF else 0, p := r }

def execIcmp (x : Alu) (s : State) : Host.Outcome State Fault Refusal :=
  aluOp1 0x64 0 0 (icmp x.ty.toNat x.sub.toNat) x s

/-- One comparison of FCMP: the result and the flags (R109). -/
def fcmpOne (cc : Nat) (a b : FV) : Bool × Nat :=
  let un := a.isNan || b.isNan
  let nv := if 2 ≤ cc ∧ cc ≤ 5 then un else a.isSig || b.isSig
  (match cc with
   | 6 => un || a.cmp b != 0
   | 7 => un
   | _ => !un && condition cc (a.cmp b),
   if nv then fNV else 0)

def fcmp (ty cc : Nat) (v : AluSrc) : LaneOut :=
  let r := floatEach ty (fun fm a b _ =>
    let (t, fl) := fcmpOne cc (fm.decode a) (fm.decode b)
    (if t then 2 ^ fm.width - 1 else 0, fl)) v
  { r with p := r.d != 0 }

def execFcmp (x : Alu) (s : State) : Host.Outcome State Fault Refusal :=
  aluOp1 0x65 0 (fpClass x.ty.toNat) (fcmp x.ty.toNat x.sub.toNat) x s

/-- PLOP (R110): the table of R95 on three predicates. -/
def execPlop (x : Alu) (s : State) : Host.Outcome State Fault Refusal :=
  aluOp1 0x66 0 0 (lut3 1 (tailAux x.tail % 256)) x s

/-- PMOV (R111): SUB 0 to a register, SUB 1 from a register under the mask in IMM. -/
def execPmov (x : Alu) (s : State) : Host.Outcome State Fault Refusal :=
  let from_ := x.sub = 1
  let reads : List (Operand × Nat) := if from_ then [(x.a, 32)] else (List.range 8).map fun p => (.p (Fin.ofNat 8 p), 32)
  withIssue x.ctl reads s (d := x.d) fun i s =>
    let outs := (lanesOf (destLanes x.d i.lanes)).map fun l =>
      (l, ({ d := if from_ then i.g.operand i.sp.wb x.a 32 l id (tailImm x.tail)
                  else fromBits 8 fun p => i.g.readPred p l } : LaneOut))
    aluEff 0 0 (fun l o =>
      if from_ then
        (((List.range 8).filter fun p => p ≠ 0 ∧ bit (tailImm x.tail) p = true).map fun p =>
          ({ key := predKey p l, lane := l, val := if bit o.d p then 1 else 0 } : RegWrite))
      else destWrites i.sp.wb x.d 32 l o.d) outs i s

end Sys2Proof.Machine
end

