-- ==== Sys2Proof/Machine/Raster.lean ====
section
/-! DEFINITION. The raster pipeline (R327 to R341, R349 to R352): assembly, clipping, coverage, fragment groups, the steps
of a fragment. -/
namespace Sys2Proof.Machine

/-! ### The record's fields (R327) -/

def Draw.field (d : Draw) (lo w : Nat) : Nat := bits d.record lo w
def Draw.nattr (d : Draw) : Nat := d.field 135 4
def Draw.ntgt (d : Draw) : Nat := d.field 139 3
def Draw.latez (d : Draw) : Bool := bit d.record 134
def Draw.view (d : Draw) (i : Nat) : FV := f32.decode (d.field (448 + 32 * i) 32)
def Draw.prims (d : Draw) : Nat := primCount (d.field 128 3) d.vcount

def mul' (a b : FV) : FV := (mulV a b).1
def add' (a b : FV) : FV := (addV .rne a b).1
def sub' (a b : FV) : FV := (subV .rne a b).1
def div' (a b : FV) : FV := (divV a b).1
def toF32 (v : FV) : FV := f32.decode (f32.round .rne v).1

/-! ### Vertices and primitives (R331, R332) -/

/-- The components of a vertex: position, then NATTR quads. -/
def recordComps (nattr : Nat) (m : Map Word) : List Nat := (List.range (4 * nattr + 4)).map fun i => (Map.get 0 m i).toNat

/-- A vertex that is final: its components, or lost with its lane; none while its lane runs. -/
def State.vertex (s : State) (uid : Nat) (d : Draw) (n : Nat) : Option (Option (List Nat)) :=
  if d.dead.contains n then some none
  else match Map.find d.verts n with
    | some m => some (some (recordComps d.nattr m))
    | none =>
      (s.groups.findSome? fun (_, g) =>
        let l := n % d.vcount % 32
        if g.ident.draw == some uid && g.ident.kind == 1 && g.ident.y == n / d.vcount && g.ident.x == n % d.vcount / 32
            && !g.saving && g.phase == .active && g.handler.isNone && !hasLane g.lanes l then
          some (some (recordComps d.nattr ((g.vert.filter fun x => x.1 / 1024 == l).map fun x => (x.1 % 1024, x.2))))
        else none)

/-- Vertices of primitive p (R332). -/
def primVerts (topo p : Nat) : List Nat :=
  match topo with
  | 0 => [3 * p, 3 * p + 1, 3 * p + 2]
  | 1 => if p % 2 = 0 then [p, p + 1, p + 2] else [p + 1, p, p + 2]
  | 2 => [2 * p, 2 * p + 1]
  | _ => [p]

/-! ### Clipping (R333) -/

/-- The distances of a vertex to the five planes. -/
def Draw.plane (d : Draw) (n : Nat) (v : List FV) : FV :=
  let x := v.getD 0 .zero
  let y := v.getD 1 .zero
  let w := v.getD 3 .zero
  let lim := FV.ofInt (2 ^ 20)
  let xs := mul' (d.view 0) x
  let ys := mul' (d.view 2) y
  match n with
  | 0 => v.getD 2 .zero
  | 1 => add' xs (mul' (add' (d.view 1) lim) w)
  | 2 => sub' (mul' (sub' lim (d.view 1)) w) xs
  | 3 => add' ys (mul' (add' (d.view 3) lim) w)
  | _ => sub' (mul' (sub' lim (d.view 3)) w) ys

def FV.inside (d : FV) : Bool := !d.isNan && decide (d.cmp .zero ≥ 0)

/-- The new vertex on an edge. -/
def crossing (da db : FV) (a b : List FV) : List FV :=
  let t := toF32 (div' da (sub' da db))
  (a.zip b).map fun (x, y) => toF32 (lerpV .rne x y t).1

/-- One plane: each inside vertex, and after it the crossing of its edge. `next` are the ends of the edges. -/
def clipEdges (dist : List FV → FV) : List (List FV) → List (List FV) → List (List FV)
  | [], _ => []
  | a :: as, [] => (if (dist a).inside then [a] else []) ++ clipEdges dist as []
  | a :: as, b :: bs =>
    (if (dist a).inside then [a] else []) ++ (if (dist a).inside != (dist b).inside then [crossing (dist a) (dist b) a b] else [])
      ++ clipEdges dist as bs

/-- Clips against every plane; the last edge of a polygon returns to its first vertex. -/
def Draw.clip (d : Draw) (open_ : Bool) (vs : List (List FV)) : List (List FV) :=
  (List.range 5).foldl (fun vs n => clipEdges (d.plane n) vs (if open_ then vs.drop 1 else vs.drop 1 ++ vs.take 1)) vs

/-- A polygon with w ≤ 0 or a component that is not finite is discarded. -/
def drawable (vs : List (List FV)) : Bool :=
  vs.all fun v => (v.all fun c => !c.isNan && !c.isInf) && decide ((v.getD 3 .zero).cmp .zero > 0)

/-! ### Snapping (R334), expansion (R335) -/

/-- A screen coordinate as 16.8 fixed point; the spec states none for NaN (a free value). -/
def snapScreen (open_ : Int) (v : FV) : Int :=
  match v with
  | .nan _ => open_
  | .inf n => if n then -(2 ^ 28 : Int) else 2 ^ 28
  | .fin n a d => let m : Int := min (roundNat .rne n (256 * a) d) (2 ^ 28); if n then -m else m

def Draw.snap (d : Draw) (open_ : Int) (v : List FV) : RVert :=
  let w := v.getD 3 .zero
  let scr (i : Nat) : FV := toF32 (add' (mul' (toF32 (div' (v.getD i .zero) w)) (d.view (2 * i))) (d.view (2 * i + 1)))
  { x := snapScreen open_ (scr 0), y := snapScreen open_ (scr 1), z := (f32.round .rne (scr 2)).1, w := (f32.round .rne w).1,
    attrs := (v.drop 4).map fun c => (f32.round .rne c).1 }

def RVert.shift (v : RVert) (dx dy : Int) : RVert := { v with x := v.x + dx, y := v.y + dy }

/-- The triangles of a clipped and snapped primitive. -/
def expand (topo : Nat) (vs : List RVert) : List (List RVert) :=
  match topo, vs with
  | 3, v :: _ =>
    let c (dx dy : Int) : RVert := v.shift dx dy
    [[c (-128) (-128), c 128 (-128), c 128 128], [c (-128) (-128), c 128 128, c (-128) 128]]
  | 2, p :: q :: _ =>
    let o : Int × Int := if (q.x - p.x).natAbs ≥ (q.y - p.y).natAbs then (0, 128) else (128, 0)
    let lo (v : RVert) : RVert := v.shift (-o.1) (-o.2)
    let hi (v : RVert) : RVert := v.shift o.1 o.2
    [[lo p, lo q, hi q], [lo p, hi q, hi p]]
  | _, v :: w :: us => (us.zip (w :: us)).map fun (b, a) => [v, a, b]
  | _, _ => []

/-! ### Coverage (R336, R337) -/

/-- The edge function from a to b at a point. -/
def edgeAt (a b : RVert) (px py : Int) : Int := (b.x - a.x) * (py - a.y) - (b.y - a.y) * (px - a.x)

def insideEdge (a b : RVert) (px py : Int) : Bool :=
  let e := edgeAt a b px py
  decide (e > 0 ∨ (e = 0 ∧ (b.y < a.y ∨ (b.y = a.y ∧ b.x > a.x))))

def Tri.at (t : Tri) (k : Nat) : RVert := t.v.getD k {}

def area (t : List RVert) : Int :=
  let v (k : Nat) : RVert := t.getD k {}
  ((v 1).x - (v 0).x) * ((v 2).y - (v 0).y) - ((v 1).y - (v 0).y) * ((v 2).x - (v 0).x)

def Tri.covers (t : Tri) (px py : Int) : Bool :=
  insideEdge (t.at 0) (t.at 1) px py && insideEdge (t.at 1) (t.at 2) px py && insideEdge (t.at 2) (t.at 0) px py

/-- Faces, culling and exchange; none is discarded. `face` is the side of a line or point, which has none of its own. -/
def Draw.tri (d : Draw) (prim : Nat) (prov : List Nat) (face : Option Bool) (vs : List RVert) : Option Tri :=
  let a := area vs
  let front := if bit d.record 133 then decide (a < 0) else decide (a > 0)
  let cull := d.field 131 2
  if a = 0 then none
  else if face.isNone && ((cull == 1 && !front) || (cull == 2 && front)) then none
  else some { prim, front := face.getD front, prov,
              v := if a < 0 then [vs.getD 0 {}, vs.getD 2 {}, vs.getD 1 {}] else vs }

def sampleAt (count s : Nat) : Nat × Nat :=
  let t : List (Nat × Nat) := match count with
    | 1 => [(128, 128)]
    | 2 => [(80, 176), (176, 80)]
    | 4 => [(40, 104), (104, 216), (152, 40), (216, 152)]
    | _ => [(24, 56), (56, 184), (88, 120), (120, 248), (136, 8), (168, 136), (200, 72), (232, 200)]
  t.getD s (128, 128)

/-- The render area (R329): first x and y, ends. -/
def Draw.renderArea (d : Draw) (f : Option Surf) : Nat × Nat × Nat × Nat :=
  let (w, h) := match f with | some f => (f.width, f.height) | none => (65536, 65536)
  (d.field 640 16, d.field 656 16, min w (d.field 672 16), min h (d.field 688 16))

/-! ### Interpolation (R338, R350) -/

/-- b_k at a point, of a triangle with A > 0. -/
def Tri.bary (t : Tri) (px py : Int) (k : Nat) : FV :=
  let e := edgeAt (t.at ((k + 1) % 3)) (t.at ((k + 2) % 3)) px py
  FV.mk2 (decide (e < 0)) e.natAbs (area t.v).natAbs

def sum3 (f : Nat → FV) : FV := add' (add' (f 0) (f 1)) (f 2)

/-- A depth clamped to [0, 1]; NaN stays NaN. -/
def clampZ (v : FV) : Nat := if v.isNan then f32.nan else (f32.round .rne (clampV v 1)).1

/-- zf at a point, as f32 bits. -/
def Tri.depth (t : Tri) (px py : Int) : Nat :=
  clampZ (toF32 (sum3 fun k => mul' (t.bary px py k) (f32.decode (t.at k).z)))

/-- What FATTR gives a lane at its pixel centre: words by SEL × 64 + slot × 4 + component. -/
def attrWords (nattr : Nat) (t : Tri) (f : Frag) : Map Word :=
  let px : Int := 256 * f.x + 128
  let py : Int := 256 * f.y + 128
  let b (k : Nat) : FV := t.bary px py k
  let w (k : Nat) : FV := f32.decode (t.at k).w
  let den := sum3 fun k => div' (b k) (w k)
  let half (n : Nat) : Nat := (f32.round .rne (.fin false (2 * n + 1) 2)).1
  let slot0 : List Nat := [half f.x, half f.y, t.depth px py, (f32.round .rne den).1]
  let attr (k c : Nat) : FV := f32.decode ((t.at k).attrs.getD c 0)
  let persp (c : Nat) : Nat :=
    if den.cmp .zero ≤ 0 then 0 else (f32.round .rne (div' (sum3 fun k => div' (mul' (b k) (attr k c)) (w k)) den)).1
  let lin (c : Nat) : Nat := (f32.round .rne (sum3 fun k => mul' (b k) (attr k c))).1
  let row (sel : Nat) (g : Nat → Nat) : Map Word :=
    (slot0 ++ (List.range (4 * nattr)).map g).zipIdx.map fun (v, j) => (64 * sel + j, BitVec.ofNat 32 v)
  row 0 persp ++ row 1 lin ++ row 2 (fun c => t.prov.getD c 0)
    ++ ([f.cover, t.front.toNat, t.prim, f.x + 65536 * f.y].zipIdx.map fun (v, j) => (192 + j, BitVec.ofNat 32 v))

/-! ### Quads (R339) -/

/-- The fragment of a pixel: its covered samples and their depths. -/
def Tri.frag (t : Tri) (count : Nat) (ar : Nat × Nat × Nat × Nat) (early : Bool) (x y : Nat) : Frag :=
  let p (s : Nat) : Int × Int := let (sx, sy) := sampleAt count s; (256 * x + sx, 256 * y + sy)
  let on := if ar.1 ≤ x ∧ ar.2.1 ≤ y ∧ x < ar.2.2.1 ∧ y < ar.2.2.2 then (List.range count).filter fun s => t.covers (p s).1 (p s).2 else []
  let cover := on.foldl (fun m s => m + 2 ^ s) 0
  { x, y, cover, early := if early then cover else 0,
    z := if cover = 0 then [] else (List.range count).map fun s => if on.contains s then t.depth (p s).1 (p s).2 else 0 }

def inRange (lo hi : Nat) : List Nat := (List.range (hi - lo)).map (lo + ·)

/-- Quads of a triangle with a covered sample, by checker block, in raster order within each. -/
def Draw.quadsOf (d : Draw) (f : Option Surf) (t : Tri) : List Quad :=
  let side := match f with | some f => f.side | none => 8
  let count := match f with | some f => f.count | none => 1
  let ar := d.renderArea f
  let lo (g : RVert → Int) : Nat := (min (g (t.at 0)) (min (g (t.at 1)) (g (t.at 2))) / 256).toNat
  let hi (g : RVert → Int) : Nat := (max (g (t.at 0)) (max (g (t.at 1)) (g (t.at 2))) / 256 + 1).toNat
  let x0 := max ar.1 (lo RVert.x)
  let x1 := min ar.2.2.1 (hi RVert.x)
  let y0 := max ar.2.1 (lo RVert.y)
  let y1 := min ar.2.2.2 (hi RVert.y)
  if x0 ≥ x1 ∨ y0 ≥ y1 then []
  else
    (inRange (y0 / side) ((y1 - 1) / side + 1)).flatMap fun by_ =>
      (inRange (x0 / side) ((x1 - 1) / side + 1)).flatMap fun bx =>
        (inRange (max y0 (by_ * side) / 2) ((min y1 (by_ * side + side) + 1) / 2)).flatMap fun qy =>
          (inRange (max x0 (bx * side) / 2) ((min x1 (bx * side + side) + 1) / 2)).filterMap fun qx =>
            let fs := (List.range 4).map fun p => t.frag count ar (!d.latez) (2 * qx + p % 2) (2 * qy + p / 2)
            if fs.all fun f => f.cover == 0 then none
            else some { x := 2 * qx, y := 2 * qy, tri := t, frags := fs, state := if d.latez then 1 else 0 }

/-- Numbers quads in the order of application. -/
def Draw.append (d : Draw) (qs : List Quad) : Draw :=
  { d with quads := d.quads ++ qs.zipIdx.map (fun (q, j) => { q with id := d.nextQuad + j }), nextQuad := d.nextQuad + qs.length }

/-- The packet of a draw completes with STATUS 3. -/
def State.failDraw (s : State) (d : Draw) : State := updPackets s d.ctx d.queue d.seq fun p => { p with failed := true }

/-- PRIMITIVE_ASSEMBLE: once the lanes of its vertices have exited, the next primitive of a draw is assembled, clipped,
snapped, expanded and covered. -/
def execPrimitiveAssemble (draw : Nat) (s : State) : Host.Outcome State Fault Refusal :=
  match Map.find s.draws draw with
  | none => .next s
  | some d =>
    if d.nextPrim ≥ d.insts * d.prims || !(s.ctx d.ctx).active then .next s
    else
      let topo := d.field 128 3
      let at_ (n : Nat) : Option (Option (List Nat)) := s.vertex draw d (d.nextPrim / d.prims * d.vcount + n)
      let vs := (primVerts topo (d.nextPrim % d.prims)).map at_
      let d' := { d with nextPrim := d.nextPrim + 1 }
      if vs.any (·.isNone) then .next s
      else match vs.mapM (·.join) with
        | none => .next ({ s with draws := Map.set s.draws draw d' }.failDraw d)
        | some vs =>
          let (free, s) := s.pick (2 ^ 29 + 1)
          let (face, s) := if topo < 2 then (none, s) else let (n, s) := s.pick 2; (some (n == 1), s)
          let prov := (vs.headD []).drop 4
          let poly := d.clip (topo == 2) (vs.map fun v => v.map f32.decode)
          let poly := if (topo = 2 ∧ poly.length < 2) ∨ (topo < 2 ∧ poly.length < 3) ∨ !drawable poly then [] else poly
          let tris := (expand topo (poly.map (d.snap ((free : Int) - 2 ^ 28)))).filterMap
            (d.tri ((d.base + d.nextPrim) % 2 ^ 32) prov face)
          .next { s with draws := Map.set s.draws draw (d'.append (tris.flatMap (d.quadsOf d.shape))) }

/-! ### Fragment groups (R339, R330) -/

/-- The quads that the next group holds: waiting, of one triangle, in one checker block, at most 8. -/
def Draw.nextQuads (d : Draw) : List Quad :=
  let side := match d.shape with | some f => f.side | none => 8
  match d.quads.filter (·.state == 1) with
  | [] => []
  | q :: qs => (q :: qs.takeWhile fun r => r.tri == q.tri && r.x / side == q.x / side && r.y / side == q.y / side).take 8

/-- FRAGMENT_GROUP_LAUNCH: a team of one group, on a core of the stack that owns the checker block. Its quads run and its packet counts it
before its arguments are read, since that read may end the team. -/
def execFragmentGroupLaunch (draw core : Nat) (s : State) : Host.Outcome State Fault Refusal :=
  match Map.find s.draws draw with
  | none => .next s
  | some d =>
    match d.nextQuads with
    | [] => .next s
    | q :: qs =>
      let die := d.quadOwner q
      let bid : Bid := { ctx := d.ctx, queue := d.queue, deadline := d.deadline, kd := d.fk, die := some die, starved := d.starved }
      if core / 128 ≠ die ∨ !s.dispatching d.ctx ∨ !s.fitAt d.fk core ∨ !s.mayPlace bid then .next s
      else
        let r : TeamReq :=
          { ctx := d.ctx, queue := d.queue, seq := d.seq, kd := d.fk, launch := d.queue * 2 ^ 26 + d.seq % 2 ^ 26, args := d.args,
            back := d.field 64 64, draw := some draw, born := d.born, mask := BitVec.ofNat 32 (2 ^ (4 * (q :: qs).length) - 1) }
        let ids := (q :: qs).map (·.id)
        let s := { s with draws := Map.upd s.draws draw fun d =>
          { d with starved := false, quads := d.quads.map fun u => if ids.contains u.id then { u with state := 2, group := s.fresh } else u } }
        let s := updPackets s d.ctx d.queue d.seq fun p => { p with left := p.left + 1 }
        let (ks, _, s) := s.placeTeam r core (fun _ => s.lowSlots false core d.fk.oslots) (fun _ => s.lowSlots true core d.fk.aslots)
        let words : Map Word := ((q :: qs).zipIdx.flatMap fun (u, j) => u.frags.zipIdx.flatMap fun (f, p) =>
          (attrWords d.nattr u.tri f).map fun (n, w) => (1024 * (4 * j + p) + n, w))
        .next (ks.foldl (fun (s : State) k => s.updGroup k fun g => { g with frag := words }) s)

/-! ### The steps of a fragment (R305, R306, R309) -/

/-- A function of R305 on an order: less −1, equal 0, greater 1; none when an operand is NaN. -/
def compareFn (code : Nat) (c : Option Int) : Bool :=
  match code, c with
  | 0, _ => false
  | 7, _ => true
  | _, none => false
  | 1, some c => c < 0
  | 2, some c => c == 0
  | 3, some c => c ≤ 0
  | 4, some c => c > 0
  | 5, some c => c != 0
  | _, some c => c ≥ 0

def intOrder (a b : Nat) : Int := (a : Int) - b

/-- A stencil operation of R306. -/
def stencilOp (code s ref : Nat) : Nat :=
  match code with
  | 0 => s
  | 1 => 0
  | 2 => ref
  | 3 => min (s + 1) 255
  | 4 => s - 1
  | 5 => 255 - s
  | 6 => (s + 1) % 256
  | _ => (s + 255) % 256

/-- A surface of the draw that is still LIVE. -/
def State.bound? (s : State) (d : Draw) (on : Bool) (ste : Nat) : Option (Nat × Surf) :=
  if on then (s.liveSurf d.ctx ste).map fun f => (ste, f) else none

/-- Replaces a sample as the draw's Picot unit; poison stays (R380). -/
def State.picotPut (s : State) (agent : Nat) (f : Surf) (loc v : Nat) : State :=
  let n := sampleBytes f.fmt
  let bad := (s.poisonedAt loc n).isSome
  let s := s.store agent [] {} 0 loc (toBytes n v)
  if bad then s.setPoison loc n 0x9F else s

/-- Steps 1 to 3 on a sample: whether it passes. -/
def depthStencil (agent : Nat) (d : Draw) (zf x y smp : Nat) (s : State) : Bool × State :=
  let ds := d.field 192 64
  let dep := if bit ds 4 then s.bound? d (bit d.record 142) (d.field 144 12) else none
  let ste := if bit ds 17 then s.bound? d (bit d.record 143) (d.field 156 12) else none
  let stVal : Nat := match ste with | some (_, f) => s.sampleNow (f.pixelLoc x y smp) 1 | none => 0
  let ref := bits ds 18 8
  let rmask := bits ds 26 8
  let wmask := bits ds 34 8
  let stPut (op : Nat) (s : State) : State :=
    match ste with
    | some (_, f) => s.picotPut agent f (f.pixelLoc x y smp) ((stVal &&& (255 - wmask)) ||| (stencilOp op stVal ref &&& wmask))
    | none => s
  if ste.isSome && !compareFn (bits ds 5 3) (some (intOrder (ref &&& rmask) (stVal &&& rmask))) then (false, stPut (bits ds 8 3) s)
  else
    let pass := match dep with
      | none => true
      | some (_, f) =>
        let old := s.sampleNow (f.pixelLoc x y smp) (sampleBytes f.fmt)
        let z := f32.decode zf
        let o := f32.decode old
        compareFn (bits ds 0 3)
          (if z.isNan || (f.fmt == 7 && o.isNan) then none
           else if f.fmt = 7 then some (z.cmp o) else some (intOrder ((Enc.unorm 16).encode z) old))
    if !pass then (false, stPut (bits ds 11 3) s)
    else
      let s := match dep with
        | some (_, f) =>
          if bit ds 3 then
            s.picotPut agent f (f.pixelLoc x y smp) (if f.fmt = 7 then zf else (Enc.unorm 16).encode (f32.decode zf))
          else s
        | none => s
      (true, stPut (bits ds 14 3) s)

/-- Step 4 on a sample: each colour target that its lane wrote. -/
def colourStep (agent : Nat) (d : Draw) (f : Frag) (smp : Nat) (s : State) : State :=
  (List.range d.ntgt).foldl (fun s t =>
    match Map.find f.colour t, s.liveSurf d.ctx (d.field (256 + 12 * t) 12) with
    | some q, some g =>
      let w := d.field (320 + 32 * t) 32
      let loc := g.pixelLoc f.x f.y smp
      s.picotPut agent g loc (blendSample g.fmt w (bits w 22 4) (bit w 26) (quadValues q) (s.sampleNow loc (sampleBytes g.fmt)))
    | _, _ => s) s

/-- The surfaces of a pixel: all resident there, or their refills begin. One that is no longer LIVE is skipped, and the
draw completes with STATUS 3 (R341). -/
def State.pixelReady (s : State) (d : Draw) (x y : Nat) : Bool × State :=
  let (ts, s) := d.bound.foldl (fun (acc : List (Nat × Nat × Nat) × State) n =>
    match acc.2.liveSurf d.ctx n with
    | none => (acc.1, acc.2.failDraw d)
    | some f =>
      let (st, tile, _) := f.locate x y 0
      (acc.1 ++ [(n, st, tile)], acc.2.stampUse d.ctx n)) ([], s)
  s.arriveTiles d.ctx ts

/-- An earlier draw of the queue may still change a pixel (R180). -/
def State.earlierDraw (s : State) (uid : Nat) (d : Draw) (x y : Nat) : Bool :=
  s.draws.any fun (u, e) => u < uid && e.ctx == d.ctx && e.queue == d.queue &&
    (e.nextPrim < e.insts * e.prims || e.quads.any fun q => q.frags.any fun f => f.x == x && f.y == y && f.cover != 0)

/-- A fragment of a draw of another queue at the pixel has begun and has samples left: it is applied whole (R180). -/
def State.pixelTaken (s : State) (uid : Nat) (d : Draw) (x y : Nat) : Bool :=
  s.draws.any fun (u, e) => u != uid && e.ctx == d.ctx && e.queue != d.queue && (e.bound.any d.bound.contains)
    && e.quads.any fun q => q.frags.any fun f => f.x == x && f.y == y && f.begun

/-- The lowest set bit. -/
def lowBit (m : Nat) : Nat := ((List.range 8).find? fun s => bit m s).getD 0

def Draw.updFrag (d : Draw) (id x y : Nat) (g : Frag → Frag) : Draw :=
  { d with quads := d.quads.map fun q =>
      if q.id == id then { q with frags := q.frags.map fun f => if f.x == x && f.y == y then g f else f } else q }

/-- A quad whose early steps are over waits for a group, or is gone when nothing of it is left. -/
def Draw.sweep (d : Draw) : Draw :=
  { d with quads := (d.quads.map fun q =>
      if q.state == 0 && q.frags.all (fun f => f.early == 0) then { q with state := 1 } else q).filter fun q =>
        !((q.state == 1 || q.state == 3) && q.frags.all fun f => f.cover == 0) }

/-- EARLY_DEPTH_STENCIL: with LATEZ 0, steps 1 to 3 of the next sample in primitive order, before shading (R340). -/
def execEarlyDepthStencil (draw : Nat) (s : State) : Host.Outcome State Fault Refusal :=
  match Map.find s.draws draw with
  | none => .next s
  | some d =>
    match d.quads.find? (·.state == 0) with
    | none => .next s
    | some q =>
      match q.frags.find? fun f => f.early != 0 with
      | none => .next { s with draws := Map.set s.draws draw d.sweep }
      | some f =>
        if s.earlierDraw draw d f.x f.y || s.pixelTaken draw d f.x f.y || !(s.ctx d.ctx).active then .next s
        else match s.pixelReady d f.x f.y with
          | (false, s) => .next s
          | (true, s) =>
            let smp := lowBit f.early
            let (pass, s) := depthStencil (opAgent draw) d (f.z.getD smp 0) f.x f.y smp s
            let upd (f : Frag) : Frag :=
              { f with early := f.early - 2 ^ smp, cover := if pass then f.cover else f.cover - 2 ^ smp, begun := f.early != 2 ^ smp }
            .next { s with draws := Map.upd s.draws draw fun d => (d.updFrag q.id f.x f.y upd).sweep }

/-- A shaded fragment may be applied to its lowest sample: no earlier quad of the draw still has that sample. -/
def Draw.turn (d : Draw) (q : Quad) (f : Frag) : Bool :=
  q.state == 3 && f.cover != 0 &&
    (d.quads.takeWhile (·.id != q.id)).all fun r => r.frags.all fun e => !(e.x == f.x && e.y == f.y && bit e.cover (lowBit f.cover))

/-- FRAGMENT_APPLY: the steps of one sample of the first fragment whose turn it is (R309, R340). -/
def execFragmentApply (draw : Nat) (s : State) : Host.Outcome State Fault Refusal :=
  match Map.find s.draws draw with
  | none => .next s
  | some d =>
    let ready (q : Quad) : Option (Quad × Frag) :=
      (q.frags.find? fun f => d.turn q f && !s.earlierDraw draw d f.x f.y && !s.pixelTaken draw d f.x f.y).map fun f => (q, f)
    match d.quads.findSome? ready with
    | none => .next s
    | some (q, f) =>
      if !(s.ctx d.ctx).active then .next s
      else match s.pixelReady d f.x f.y with
        | (false, s) => .next s
        | (true, s) =>
          let smp := lowBit f.cover
          let (pass, s) := if d.latez then depthStencil (opAgent draw) d (f.z.getD smp 0) f.x f.y smp s else (true, s)
          let s := if pass then colourStep (opAgent draw) d f smp s else s
          let upd (f : Frag) : Frag := { f with cover := f.cover - 2 ^ smp, begun := f.cover != 2 ^ smp }
          .next { s with draws := Map.upd s.draws draw fun d => (d.updFrag q.id f.x f.y upd).sweep }

/-! ### The instructions (R346 to R352) -/

/-- The draw of a group. -/
def State.drawOf (s : State) (g : Group) : Draw := match g.ident.draw with | some d => Map.get {} s.draws d | none => {}

/-- RAST_KIND, then RAST_SLOT on the lanes that fail it (R348). -/
def rastTrap (i : Iss) (s : State) (kind : Nat) (bad : Nat → Bool) : Option Eff :=
  if i.g.ident.kind ≠ kind then some (.trap s 0x76 i.lanes 0 0)
  else match (lanesOf i.lanes).filter bad with
    | [] => none
    | ls => some (.trap s 0x77 (maskOf ls) 0 0)

/-- The 32-bit words of a quad. -/
def quadWords (x : Nat) : List Word := (List.range 4).map fun j => BitVec.ofNat 32 (x / 2 ^ (32 * j))

/-- VEMIT (R349). -/
def execVemit (x : RastW) (s : State) : Host.Outcome State Fault Refusal :=
  withIssue x.ctl [(x.a, 32), (x.b, 128)] s fun i s =>
    let imm := tailImm x.tail
    let slot (l : Nat) : Nat := i.val x.a 32 l imm
    whenLanes i s <|
      match rastTrap i s 1 fun l => slot l > (s.drawOf i.g).nattr with
      | some e => e
      | none =>
        .ok (s.updGroup i.k fun g => { g with vert := (lanesOf i.lanes).foldl (fun m l =>
          (quadWords (i.val x.b 128 l imm)).zipIdx.foldl (fun m (w, c) => Map.put 0 m (1024 * l + 4 * slot l + c) w) m) g.vert })

/-- FATTR (R350): the values were fixed when the group was launched. -/
def execFattr (x : RastW) (s : State) : Host.Outcome State Fault Refusal :=
  withIssue x.ctl [(x.a, 32)] s (d := x.d) fun i s =>
    let slot (l : Nat) : Nat := if x.sel = 3 then 0 else i.val x.a 32 l (tailImm x.tail)
    whenLanes i s <|
      match rastTrap { i with lanes := destLanes x.d i.lanes } s 2 fun l => slot l > (s.drawOf i.g).nattr with
      | some e => e
      | none =>
        .ok (s.outstanding i.k 36 true ((lanesOf (destLanes x.d i.lanes)).flatMap fun l =>
          destWrites i.sp.wb x.d 128 l (joinElems 32 ((List.range 4).map fun c =>
            (Map.get 0 i.g.frag (1024 * l + 64 * x.sel.toNat + 4 * slot l + c)).toNat))))

/-- FEMIT (R351): a colour for a target, or the depth of the pixel, clamped (R341). -/
def execFemit (x : RastW) (s : State) : Host.Outcome State Fault Refusal :=
  let n := x.sel.toNat
  withIssue x.ctl [(x.a, if n = 4 then 32 else 128)] s fun i s =>
    let v (l : Nat) : Nat := i.g.operand i.sp.wb x.a (if n = 4 then 32 else 128) l (supplyTy 8) (tailImm x.tail)
    let words (l : Nat) : List (Nat × Word) :=
      if n = 4 then [(288, BitVec.ofNat 32 (clampZ (f32.decode (v l)))), (289, 1)]
      else (quadWords (v l)).zipIdx.map (fun (w, c) => (256 + 8 * n + c, w)) ++ [(260 + 8 * n, 1)]
    whenLanes i s <|
      match rastTrap i s 2 fun _ => if n = 4 then !i.g.ident.depthW else n ≥ (s.drawOf i.g).ntgt with
      | some e => e
      | none =>
        .ok (s.updGroup i.k fun g => { g with frag := (lanesOf i.lanes).foldl (fun m l =>
          (words l).foldl (fun m w => Map.put 0 m (1024 * l + w.1) w.2) m) g.frag })

/-- FKILL (R352). -/
def execFkill (x : RastW) (s : State) : Host.Outcome State Fault Refusal :=
  withIssue x.ctl [] s fun i s =>
    whenLanes i s <|
      match rastTrap i s 2 fun _ => false with
      | some e => e
      | none => .ok (s.updGroup i.k fun g => { g with killed := g.killed ||| i.lanes })

end Sys2Proof.Machine
end

