-- ==== Sys2Proof/Machine/Reliab.lean ====
section
/-! DEFINITION. ECC errors (R380), failed accesses of remote packages and hosts (R378, R393). -/
namespace Sys2Proof.Machine

/-- The cause of a structure; an agent's poison is no ECC error of its own. -/
def EccUnit.cause : EccUnit → Option Nat
  | .vreg => some 0x96 | .sreg => some 0x97 | .l1 => some 0x98 | .scratch => some 0x99 | .slots => some 0x9A | .cache => some 0x9B
  | .surface => some 0x9C | .gddr7 => some 0x9D | .fetch => some 0x9E | .carried => none

/-- The record of an error (R383): for a register file it names the group in the slot. -/
def EccAt.record (x : EccAt) (s : State) (cause kind : Nat) : LogRec :=
  let gid := match x.unit with
    | .vreg | .sreg => match s.group (groupKey x.core x.slot) with | some g => g.ident.gid | none => 0
    | _ => 0
  { cause, kind, ctx := x.ctx, die := x.core / 128, core := x.core % 128, slot := x.slot, gid, loc := x.loc }

/-- ECC_CORRECTED: the right value is returned; the error is logged. -/
def execEccCorrected (x : EccAt) (s : State) : Host.Outcome State Fault Refusal :=
  match EccUnit.cause x.unit with
  | some c => .next (s.log (EccAt.record x s c 0))
  | none => .next s

/-- Poisons the granule: a register of a group, a granule of a slot (its key), the 8 bytes of a location in the L1 or the instruction
cache of a core, or the 8 bytes of a location. -/
def State.poisonAt (s : State) (x : EccAt) (cause : Nat) : State :=
  match x.unit with
  | .vreg | .sreg => s.updGroup (groupKey x.core x.slot) fun g => { g with bad := Map.set g.bad (ringKey g.ident.rows x.loc) cause }
  | .slots => { s with badSlot := Map.set s.badSlot x.loc cause }
  | .l1 => { s with badCore := Map.set s.badCore (coreGranule x.core false (x.loc / 8)) cause }
  | .fetch => { s with badCore := Map.set s.badCore (coreGranule x.core true (x.loc / 8)) cause }
  | _ => s.setPoison x.loc 1 cause

/-- ECC_UNCORRECTABLE: the granule is poisoned in place and the error is logged. -/
def execEccUncorrectable (x : EccAt) (s : State) : Host.Outcome State Fault Refusal :=
  match EccUnit.cause x.unit with
  | some c => .next ((s.poisonAt x c).log (EccAt.record x s c 4))
  | none => .next s

/-- An access has failed at its target with a kind (R378): a load or an atomic kills its group; a posted store or an engine
access is logged, and the packet of that work completes with STATUS 3. -/
def State.accessFails (s : State) (x : RemFail) (kind : Nat) : State :=
  let cause := 0xB0 + 8 * x.host.toNat + kind
  if kind > 7 then s
  else if x.posted then
    match x.group.bind fun k => (s.group k).map (·.ident) with
    | some id => s.lostStore id cause x.loc
    | none =>
      let s := s.log { cause, kind := 5, ctx := x.ctx, die := x.core / 128, core := x.core % 128, loc := x.loc }
      match x.packet, x.ctx with
      | some (q, seq), some c => updPackets s c q seq fun p => { p with failed := true }
      | _, _ => s
  else match x.group with
    | some k => s.kill k cause x.loc
    | none => s

def execRemoteAccessFailure (x : RemFail) (s : State) : Host.Outcome State Fault Refusal := .next (s.accessFails x x.kind)

/-- REMOTE_REQUEST_TIMEOUT: a tier-4 request without a response fails with 0xB1. -/
def execRemoteRequestTimeout (x : RemFail) (s : State) : Host.Outcome State Fault Refusal :=
  .next (s.accessFails { x with host := false } 1)

end Sys2Proof.Machine
end

