-- ==== Sys2Proof/Machine/Dispatch.lean ====
section
/-! DEFINITION. The dispatch: one arm per constructor, each one direct call of its meaning. -/
namespace Sys2Proof.Machine

/-- What an instruction word or an event does. -/
def exec (i : Instr) (s : State) : Host.Outcome State Fault Refusal :=
  match i with
  | .nop x => Sys2Proof.Machine.execNop x s
  | .bra x => Sys2Proof.Machine.execBra x s
  | .brx x => Sys2Proof.Machine.execBrx x s
  | .call x => Sys2Proof.Machine.execCall x s
  | .calli x => Sys2Proof.Machine.execCalli x s
  | .ret x => Sys2Proof.Machine.execRet x s
  | .merge x => Sys2Proof.Machine.execMerge x s
  | .exit x => Sys2Proof.Machine.execExit x s
  | .trap x => Sys2Proof.Machine.execTrap x s
  | .eret x => Sys2Proof.Machine.execEret x s
  | .yield x => Sys2Proof.Machine.execYield x s
  | .add x => Sys2Proof.Machine.execAdd x s
  | .sub x => Sys2Proof.Machine.execSub x s
  | .addc x => Sys2Proof.Machine.execAddc x s
  | .subb x => Sys2Proof.Machine.execSubb x s
  | .mul x => Sys2Proof.Machine.execMul x s
  | .mulh x => Sys2Proof.Machine.execMulh x s
  | .mad x => Sys2Proof.Machine.execMad x s
  | .madw x => Sys2Proof.Machine.execMadw x s
  | .div x => Sys2Proof.Machine.execDiv x s
  | .rem x => Sys2Proof.Machine.execRem x s
  | .min x => Sys2Proof.Machine.execMin x s
  | .max x => Sys2Proof.Machine.execMax x s
  | .abs x => Sys2Proof.Machine.execAbs x s
  | .neg x => Sys2Proof.Machine.execNeg x s
  | .lea x => Sys2Proof.Machine.execLea x s
  | .sad x => Sys2Proof.Machine.execSad x s
  | .and x => Sys2Proof.Machine.execAnd x s
  | .or x => Sys2Proof.Machine.execOr x s
  | .xor x => Sys2Proof.Machine.execXor x s
  | .not x => Sys2Proof.Machine.execNot x s
  | .lut3 x => Sys2Proof.Machine.execLut3 x s
  | .shl x => Sys2Proof.Machine.execShl x s
  | .shr x => Sys2Proof.Machine.execShr x s
  | .sar x => Sys2Proof.Machine.execSar x s
  | .rot x => Sys2Proof.Machine.execRot x s
  | .funsh x => Sys2Proof.Machine.execFunsh x s
  | .bfe x => Sys2Proof.Machine.execBfe x s
  | .bfi x => Sys2Proof.Machine.execBfi x s
  | .popc x => Sys2Proof.Machine.execPopc x s
  | .clz x => Sys2Proof.Machine.execClz x s
  | .ctz x => Sys2Proof.Machine.execCtz x s
  | .brev x => Sys2Proof.Machine.execBrev x s
  | .fadd x => Sys2Proof.Machine.execFadd x s
  | .fsub x => Sys2Proof.Machine.execFsub x s
  | .fmul x => Sys2Proof.Machine.execFmul x s
  | .ffma x => Sys2Proof.Machine.execFfma x s
  | .fmin x => Sys2Proof.Machine.execFmin x s
  | .fmax x => Sys2Proof.Machine.execFmax x s
  | .fdiv x => Sys2Proof.Machine.execFdiv x s
  | .fsqrt x => Sys2Proof.Machine.execFsqrt x s
  | .frcp x => Sys2Proof.Machine.execFrcp x s
  | .frsq x => Sys2Proof.Machine.execFrsq x s
  | .fexp2 x => Sys2Proof.Machine.execFexp2 x s
  | .flog2 x => Sys2Proof.Machine.execFlog2 x s
  | .fsin x => Sys2Proof.Machine.execFsin x s
  | .fcos x => Sys2Proof.Machine.execFcos x s
  | .frnd x => Sys2Proof.Machine.execFrnd x s
  | .ffrac x => Sys2Proof.Machine.execFfrac x s
  | .fclass x => Sys2Proof.Machine.execFclass x s
  | .fdot2 x => Sys2Proof.Machine.execFdot2 x s
  | .flerp x => Sys2Proof.Machine.execFlerp x s
  | .fscale x => Sys2Proof.Machine.execFscale x s
  | .cvt x => Sys2Proof.Machine.execCvt x s
  | .kpack x => Sys2Proof.Machine.execKpack x s
  | .kunpk x => Sys2Proof.Machine.execKunpk x s
  | .bytsel x => Sys2Proof.Machine.execBytsel x s
  | .mov x => Sys2Proof.Machine.execMov x s
  | .movi x => Sys2Proof.Machine.execMovi x s
  | .movh x => Sys2Proof.Machine.execMovh x s
  | .sel x => Sys2Proof.Machine.execSel x s
  | .icmp x => Sys2Proof.Machine.execIcmp x s
  | .fcmp x => Sys2Proof.Machine.execFcmp x s
  | .plop x => Sys2Proof.Machine.execPlop x s
  | .pmov x => Sys2Proof.Machine.execPmov x s
  | .shfl x => Sys2Proof.Machine.execShfl x s
  | .vote x => Sys2Proof.Machine.execVote x s
  | .redux x => Sys2Proof.Machine.execRedux x s
  | .scan x => Sys2Proof.Machine.execScan x s
  | .ld x => Sys2Proof.Machine.execLd x s
  | .st x => Sys2Proof.Machine.execSt x s
  | .ldp x => Sys2Proof.Machine.execLdp x s
  | .at x => Sys2Proof.Machine.execAt x s
  | .atc x => Sys2Proof.Machine.execAtc x s
  | .red x => Sys2Proof.Machine.execRed x s
  | .reds x => Sys2Proof.Machine.execReds x s
  | .pub x => Sys2Proof.Machine.execPub x s
  | .ref x => Sys2Proof.Machine.execRef x s
  | .phase x => Sys2Proof.Machine.execPhase x s
  | .cflush x => Sys2Proof.Machine.execCflush x s
  | .pref x => Sys2Proof.Machine.execPref x s
  | .copy x => Sys2Proof.Machine.execCopy x s
  | .copy2 x => Sys2Proof.Machine.execCopy2 x s
  | .bar x => Sys2Proof.Machine.execBar x s
  | .bara x => Sys2Proof.Machine.execBara x s
  | .barw x => Sys2Proof.Machine.execBarw x s
  | .barnAlloc x => Sys2Proof.Machine.execBarnAlloc x s
  | .barnFree x => Sys2Proof.Machine.execBarnFree x s
  | .barnGen x => Sys2Proof.Machine.execBarnGen x s
  | .swinit x => Sys2Proof.Machine.execSwinit x s
  | .swadd x => Sys2Proof.Machine.execSwadd x s
  | .swait x => Sys2Proof.Machine.execSwait x s
  | .swtest x => Sys2Proof.Machine.execSwtest x s
  | .mresv x => Sys2Proof.Machine.execMresv x s
  | .mfree x => Sys2Proof.Machine.execMfree x s
  | .mclaim x => Sys2Proof.Machine.execMclaim x s
  | .mrel x => Sys2Proof.Machine.execMrel x s
  | .mld x => Sys2Proof.Machine.execMld x s
  | .mlds x => Sys2Proof.Machine.execMlds x s
  | .mzero x => Sys2Proof.Machine.execMzero x s
  | .mma x => Sys2Proof.Machine.execMma x s
  | .mst x => Sys2Proof.Machine.execMst x s
  | .msts x => Sys2Proof.Machine.execMsts x s
  | .mmov x => Sys2Proof.Machine.execMmov x s
  | .mstat x => Sys2Proof.Machine.execMstat x s
  | .mcfg x => Sys2Proof.Machine.execMcfg x s
  | .salloc x => Sys2Proof.Machine.execSalloc x s
  | .sfree x => Sys2Proof.Machine.execSfree x s
  | .sld x => Sys2Proof.Machine.execSld x s
  | .sst x => Sys2Proof.Machine.execSst x s
  | .satop x => Sys2Proof.Machine.execSatop x s
  | .sblend x => Sys2Proof.Machine.execSblend x s
  | .squery x => Sys2Proof.Machine.execSquery x s
  | .spin x => Sys2Proof.Machine.execSpin x s
  | .tex x => Sys2Proof.Machine.execTex x s
  | .texq x => Sys2Proof.Machine.execTexq x s
  | .vemit x => Sys2Proof.Machine.execVemit x s
  | .fattr x => Sys2Proof.Machine.execFattr x s
  | .femit x => Sys2Proof.Machine.execFemit x s
  | .fkill x => Sys2Proof.Machine.execFkill x s
  | .rxsnap x => Sys2Proof.Machine.execRxsnap x s
  | .rxbox x => Sys2Proof.Machine.execRxbox x s
  | .rxtri x => Sys2Proof.Machine.execRxtri x s
  | .sread x => Sys2Proof.Machine.execSread x s
  | .swrite x => Sys2Proof.Machine.execSwrite x s
  | .qappend x => Sys2Proof.Machine.execQappend x s
  | .svwin x => Sys2Proof.Machine.execSvwin x s
  | .ldwin x => Sys2Proof.Machine.execLdwin x s
  | .savereg x => Sys2Proof.Machine.execSavereg x s
  | .loadreg x => Sys2Proof.Machine.execLoadreg x s
  | .loadregGroup x => Sys2Proof.Machine.execLoadregGroup x s
  | .brk x => Sys2Proof.Machine.execBrk x s
  | .resultLands g seq lanes => Sys2Proof.Machine.execResultLands g seq lanes s
  | .runGrant core port => Sys2Proof.Machine.execRunGrant core port s
  | .transferWaitEnd g slot => Sys2Proof.Machine.execTransferWaitEnd g slot s
  | .handlerEntry g => Sys2Proof.Machine.execHandlerEntry g s
  | .eccCorrected x => Sys2Proof.Machine.execEccCorrected x s
  | .eccUncorrectable x => Sys2Proof.Machine.execEccUncorrectable x s
  | .remoteAccessFailure x => Sys2Proof.Machine.execRemoteAccessFailure x s
  | .remoteRequestTimeout x => Sys2Proof.Machine.execRemoteRequestTimeout x s
  | .remoteRequestServe x => Sys2Proof.Machine.execRemoteRequestServe x s
  | .redsContribution id => Sys2Proof.Machine.execRedsContribution id s
  | .orderedItem ctx ste key => Sys2Proof.Machine.execOrderedItem ctx ste key s
  | .copyEngineLine quad => Sys2Proof.Machine.execCopyEngineLine quad s
  | .mmaPass core idx quarter => Sys2Proof.Machine.execMmaPass core idx quarter s
  | .matrixFillStoreDone core idx => Sys2Proof.Machine.execMatrixFillStoreDone core idx s
  | .tileEvicted ctx ste stack tile => Sys2Proof.Machine.execTileEvicted ctx ste stack tile s
  | .tileRefilled ctx ste stack tile => Sys2Proof.Machine.execTileRefilled ctx ste stack tile s
  | .launchPacket ctx q => Sys2Proof.Machine.execLaunchPacket ctx q s
  | .drawPacket ctx q => Sys2Proof.Machine.execDrawPacket ctx q s
  | .copyPacket ctx q ranges => Sys2Proof.Machine.execCopyPacket ctx q ranges s
  | .waitswPacket ctx q => Sys2Proof.Machine.execWaitswPacket ctx q s
  | .waitswReread ctx q => Sys2Proof.Machine.execWaitswReread ctx q s
  | .signalPacket ctx q => Sys2Proof.Machine.execSignalPacket ctx q s
  | .condPacket ctx q => Sys2Proof.Machine.execCondPacket ctx q s
  | .loopPacket ctx q => Sys2Proof.Machine.execLoopPacket ctx q s
  | .jumpPacket ctx q => Sys2Proof.Machine.execJumpPacket ctx q s
  | .stopPacket ctx q => Sys2Proof.Machine.execStopPacket ctx q s
  | .packetComplete ctx q seq => Sys2Proof.Machine.execPacketComplete ctx q seq s
  | .teamPlace ctx q core ob ab => Sys2Proof.Machine.execTeamPlace ctx q core ob ab s
  | .placementStarvation ctx q => Sys2Proof.Machine.execPlacementStarvation ctx q s
  | .groupFreed g => Sys2Proof.Machine.execGroupFreed g s
  | .teamReplaced ctx idx core => Sys2Proof.Machine.execTeamReplaced ctx idx core s
  | .primitiveAssemble draw => Sys2Proof.Machine.execPrimitiveAssemble draw s
  | .fragmentGroupLaunch draw core => Sys2Proof.Machine.execFragmentGroupLaunch draw core s
  | .earlyDepthStencil draw => Sys2Proof.Machine.execEarlyDepthStencil draw s
  | .fragmentApply draw => Sys2Proof.Machine.execFragmentApply draw s
  | .build port ctx record host => Sys2Proof.Machine.execBuild port ctx record host s
  | .admission port ctx => Sys2Proof.Machine.execAdmission port ctx s
  | .preempt port ctx => Sys2Proof.Machine.execPreempt port ctx s
  | .destroy port ctx => Sys2Proof.Machine.execDestroy port ctx s
  | .drainLimitExpired ctx => Sys2Proof.Machine.execDrainLimitExpired ctx s
  | .forcedSaveEntry g => Sys2Proof.Machine.execForcedSaveEntry g s
  | .contextSaved ctx => Sys2Proof.Machine.execContextSaved ctx s
  | .contextReleased ctx => Sys2Proof.Machine.execContextReleased ctx s
  | .doorbellRing port vf ctx q => Sys2Proof.Machine.execDoorbellRing port vf ctx q s
  | .doorbellStart port ctx q => Sys2Proof.Machine.execDoorbellStart port ctx q s
  | .doorbellReset port ctx q => Sys2Proof.Machine.execDoorbellReset port ctx q s
  | .nowWrite port value => Sys2Proof.Machine.execNowWrite port value s
  | .resume port ctx token => Sys2Proof.Machine.execResume port ctx token s
  | .resumeall port ctx => Sys2Proof.Machine.execResumeall port ctx s
  | .inval port ctx => Sys2Proof.Machine.execInval port ctx s
  | .invalall port ctx => Sys2Proof.Machine.execInvalall port ctx s
  | .migratingRewalk ctx => Sys2Proof.Machine.execMigratingRewalk ctx s
  | .faultRingRetry ctx => Sys2Proof.Machine.execFaultRingRetry ctx s
  | .setbp x => Sys2Proof.Machine.execSetbp x s
  | .setwp x => Sys2Proof.Machine.execSetwp x s
  | .clear x => Sys2Proof.Machine.execClear x s
  | .stepon x => Sys2Proof.Machine.execStepon x s
  | .stepoff x => Sys2Proof.Machine.execStepoff x s
  | .inject x => Sys2Proof.Machine.execInject x s
  | .nearset port stack count => Sys2Proof.Machine.execNearset port stack count s
  | .portctlEnable port p => Sys2Proof.Machine.execPortctlEnable port p s
  | .portctlDisable port p => Sys2Proof.Machine.execPortctlDisable port p s
  | .portctlRetrain port p => Sys2Proof.Machine.execPortctlRetrain port p s
  | .podbind port ctx => Sys2Proof.Machine.execPodbind port ctx s
  | .image port bytes => Sys2Proof.Machine.execImage port bytes s
  | .registerWrite port offset size value => Sys2Proof.Machine.execRegisterWrite port offset size value s
  | .flitReceive p bytes => Sys2Proof.Machine.execFlitReceive p bytes s
  | .shadowRotation p => Sys2Proof.Machine.execShadowRotation p s
  | .laneCalibration p lane => Sys2Proof.Machine.execLaneCalibration p lane s
  | .lossOfLock p => Sys2Proof.Machine.execLossOfLock p s
  | .trainingEnd p good peer => Sys2Proof.Machine.execTrainingEnd p good peer s
  | .trainingTimeout p good => Sys2Proof.Machine.execTrainingTimeout p good s
  | .routeTableWrite node port => Sys2Proof.Machine.execRouteTableWrite node port s
  | .hello x => Sys2Proof.Machine.execHello x s
  | .share x => Sys2Proof.Machine.execShare x s
  | .finish x => Sys2Proof.Machine.execFinish x s
  | .bind x => Sys2Proof.Machine.execBind x s
  | .bindack x => Sys2Proof.Machine.execBindack x s
  | .unbind x => Sys2Proof.Machine.execUnbind x s
  | .ucieModuleRetire m => Sys2Proof.Machine.execUcieModuleRetire m s
  | .atsInvalidation port addr => Sys2Proof.Machine.execAtsInvalidation port addr s
  | .packageReset => Sys2Proof.Machine.execPackageReset s
  | .bootStage error kind => Sys2Proof.Machine.execBootStage error kind s
  | .powerGate unit => Sys2Proof.Machine.execPowerGate unit s
  | .wakeComplete unit => Sys2Proof.Machine.execWakeComplete unit s
  | .completionParkEnd g slot => Sys2Proof.Machine.execCompletionParkEnd g slot s

end Sys2Proof.Machine
end

