-- ==== Sys2Proof/Machine/Fetch.lean ====
section
/-! DEFINITION. Fetch and decode of the word that issues (R47, R49, R61 to R64), with the checks that come before it:
STEP and breakpoints (R385), FETCH_LIMIT (R371). -/
namespace Sys2Proof.Machine

/-- One 4-byte part of a fetched word: any store since the group's launch started may or may not be in it, whole (R49). -/
def State.fetchPart (s : State) (born stamp loc n : Nat) : List Byte × State :=
  let v := (s.order.writes.filter fun r => overlap r.loc r.old.length loc n).foldl
    (fun (v : View) r => v.upTo r.agent born) {}
  let (bs, _, s) := s.load 999 { view := v } (fun _ _ => false) stamp loc n (fun _ => true)
  (bs, s)

/-- The bytes of a word from its translated lines, in 4-byte parts. -/
def State.fetchBytes (s : State) (born : Nat) (ps : List (Nat × Nat × Nat × Nat)) : List Byte × State :=
  ps.foldl (fun (acc : List Byte × State) (loc, stamp, _, len) =>
    (List.range (len / 4)).foldl (fun (acc : List Byte × State) j =>
      let (bs, s) := acc.2.fetchPart born stamp (loc + 4 * j) 4
      (acc.1 ++ bs, s)) acc) ([], s)

/-- The breakpoint that a PC matches, the lowest (R385). -/
def breakAt (c : Ctx) (pc : Nat) : Option Nat := (c.bps.find? fun b => b.2 == pc).map (·.1)

/-- What the decoder knows of the split that issues (R62, R64, R171). -/
def State.decCtx (s : State) (i : Iss) : DecCtx :=
  { priv := i.sp.priv, restore := (i.g.handler.map (·.cause)) == some 0xA3, cores := (s.team i.g.ident.team).cores.length }

/-- The word at a split's PC, or what its fetch comes to. The spec does not say what becomes of a word of which bytes lie beyond 2^52 - 1;
here their addresses are taken modulo 2^52 (DESIGN CHOICE, log entry 47). -/
def fetchWord (i : Iss) (s : State) : Except Eff (Nat × State) :=
  let pc := i.sp.pc
  match s.mapRange i.g.ident.ctx pc 12 .fetch with
  | (.bad c va, s) => .error (.fault s { cause := 0x38, va, lanes := i.sp.mask.toNat, sub := c } .reissue false)
  | (.stall, s) => .error (.stall s (.migrating { pc }) false)
  | (.ok ps, s) =>
    let dead (p : Nat × Nat × Nat × Nat) : Option (Nat × Nat) :=
      if (s.poisonedAt p.1 p.2.2.2 <|> s.poisonedOn i.g.ident.core true p.1 p.2.2.2).isSome then some (0x9E, p.1)
      else (s.remoteFail i.g.ident.ctx p.1).map fun c => (c, p.1)
    match ps.findSome? dead with
    | some (cause, loc) => .error (.kill s cause loc)
    | none =>
      let s := ps.foldl (fun (s : State) p => s.request { s.workOf i.g.ident p.1 with posted := false }) s
      let (bs, s) := s.fetchBytes i.g.ident.born ps
      .ok (ofBytes bs, s)

/-- The instruction that a split issues next, or what comes of it instead. -/
def fetchInstr (i : Iss) (s : State) : Except Eff (Instr × State) :=
  let pc := i.sp.pc
  let c := s.ctx i.g.ident.ctx
  let trap (cause addr aux : Nat) : Except Eff (Instr × State) := .error (.trap s cause i.sp.mask addr aux)
  if !i.sp.priv && c.stepping && !i.sp.stepped then
    .error (.trap (s.updGroup i.k fun g => g.updLive i.slot fun e => { e with stepped := true }) 0x1A i.sp.mask 0 0)
  else if pc ≥ 2 ^ 52 then trap 0x17 pc 0
  else match if i.sp.priv || i.sp.quiet then none else breakAt c pc with
    | some k => trap (0x08 + k) 0 k
    | none =>
      if pc % 4 ≠ 0 then trap 0x00 pc 0
      else match fetchWord i s with
        | .error e => .error e
        | .ok (w, s) =>
          match decodeWord (s.decCtx i) w with
          | .error cause => .error (.trap s cause i.sp.mask 0 (w % 256))
          | .ok ins => .ok (ins, s.updGroup i.k fun g => g.updLive i.slot fun e => { e with stepped := false })

/-- The run that issues next: of those that do not stand still the least clock, then the lowest port. -/
def State.nextRun (s : State) : Option (Nat × Run) :=
  match s.runs.filter fun r => !s.blocked r.2 with
  | [] => none
  | r :: rs => some (rs.foldl (fun a b => if b.2.clock < a.2.clock then b else a) r)

/-- The split of a run, as the one that issues. -/
def State.issuer (s : State) (r : Run) : Option Iss :=
  match s.group r.group with
  | none => none
  | some g => (Map.find g.live r.slot).map fun sp => { k := r.group, slot := r.slot, g, sp, lanes := sp.mask }

end Sys2Proof.Machine
end

