-- ==== Sys2Proof/Machine/Schedule.lean ====
section
/-! DEFINITION. What a step does: the agenda, the next issue of a run in progress, and the default order of events (log entry
2); how an instruction is put where the next step fetches it. -/
namespace Sys2Proof.Machine

/-! ### One issue -/

/-- The first mismatch that is to come on a port for lanes of a mask; it and what comes before it on the port are taken. -/
def takeCheck (port : Nat) (m : Lanes) : List Check → Option Check × List Check
  | [] => (none, [])
  | c :: cs =>
    if c.port ≠ port then let (r, cs) := takeCheck port m cs; (r, c :: cs)
    else if c.lanes &&& m = 0 then takeCheck port m cs
    else (some c, cs)

/-- A checker's mismatch goes to the reliability log (R379, R383). -/
def State.logCheck (s : State) (i : Iss) (c : Check) (kind : Nat) : State :=
  let id := i.g.ident
  s.log { cause := 0x90 + c.kind, kind, ctx := some id.ctx, die := id.core / 128, core := id.core % 128, slot := id.slot, gid := id.gid }

/-- A word of the common class, whose units the checkers of R379 watch, and its guard and hints (log entry 46). -/
def checkedWord (ins : Instr) : Option Ctl :=
  match Instr.raw ins with
  | some r => if 0x10 ≤ r.opc ∧ r.opc ≤ 0x6B then some r.ctl else none
  | none => none

/-- The word issues, with the checkers' mismatches (R379): the first writes nothing back, and the word issues once more; a second
one traps precisely. -/
def State.issueWord (s : State) (port : Nat) (r : Run) (i : Iss) (ins : Instr) : Host.Outcome State Fault Refusal :=
  let go (s : State) : Host.Outcome State Fault Refusal := exec ins { s with issue := some (r.group, r.slot) }
  match checkedWord ins with
  | none => go s
  | some ctl =>
    let m := execLanes ctl i.g i.sp
    match takeCheck port m s.checks with
    | (none, cs) => go { s with checks := cs }
    | (some c, cs) =>
      let s := { s with checks := cs, clock := s.clock + 1, runs := Map.upd s.runs port fun r => { r with clock := s.clock + 1 } }
      let s := s.logCheck i c 1
      match takeCheck port m cs with
      | (none, cs) => go { s with checks := cs }
      | (some d, cs) =>
        let bad := d.lanes &&& m
        .next ((Eff.trap (({ s with checks := cs } : State).logCheck i d 2) (0x90 + d.kind) bad 0 (lowest bad + port % 4 * 32)).retire ctl i)

/-- The next issue of a run (R67, R203): fetch, decode, meaning. A run whose split is gone, or whose split or group is parked,
ends. -/
def State.issueRun (s : State) (port : Nat) (r : Run) : Host.Outcome State Fault Refusal :=
  match s.issuer r with
  | none => .next (s.dropRuns (· == r.group))
  | some i =>
    if i.g.parked || i.sp.park.isSome then .next (s.endRun i.k)
    else
      let s := { s with clock := max s.clock r.clock }
      match fetchInstr i s with
      | .error e => .next (e.retire {} i)
      | .ok (ins, s) => s.issueWord port r i ins

/-! ### Events that can take place -/

/-- Events of the groups: handler entry, the ends of parks, forced save, the end. -/
def State.groupEvents (s : State) : List Instr :=
  s.groups.flatMap fun (k, g) =>
    (if g.traps.isEmpty then [] else [.handlerEntry k])
      ++ (g.live.filterMap fun (n, e) => match e.park with
        | some (.completion _) => some (.completionParkEnd k n)
        | some (.transfer _) => some (.transferWaitEnd k n)
        | _ => none)
      ++ (if g.saving && !g.saved then [.forcedSaveEntry k] else [])
      ++ (if g.phase == .exiting then [.groupFreed k] else [])

/-- Results that may land: those whose latency has passed, or all. -/
def State.landings (s : State) (all : Bool) : List Instr :=
  s.groups.flatMap fun (k, g) =>
    (g.outst.filter fun o => o.ready && (all || o.issue + o.min ≤ s.clock)).map fun o => .resultLands k o.seq 0xFFFFFFFF

/-- Events of the engines: reductions, ordered items, copies, matrix engines, tiles. -/
def State.engineEvents (s : State) : List Instr :=
  ((s.contribs.filter fun c => !c.held).map fun c => .redsContribution c.id)
    ++ (s.ctxs.flatMap fun (c, x) => x.surfs.flatMap fun (n, f) =>
        (f.items.filter fun m => !m.held).map (fun m => .orderedItem c n m.key)
          ++ f.tiles.flatMap fun (k, t) =>
            if t.wait.isSome then []
            else if t.state = 1 then [.tileEvicted c n (k / 2 ^ 32) (k % 2 ^ 32)]
            else if t.state = 3 ∨ t.state = 4 then [.tileRefilled c n (k / 2 ^ 32) (k % 2 ^ 32)] else [])
    ++ ([0, 1].filterMap fun st => (if s.evicting st then none else s.nextVictim st).map fun (c, n, t) => .tileEvicted c n st t)
    ++ (((s.copyq.filter fun c => c.wait.isNone).map fun c => quadOf c.core).foldl insertNat []).map .copyEngineLine
    ++ s.engines.flatMap fun (core, e) => (List.range e.instrs.length).flatMap fun n =>
        .matrixFillStoreDone core n :: (List.range 4).map (.mmaPass core n)

/-- The slots of a descriptor on the cores of a set, as the digits of TEAM_PLACE. -/
def State.digits (s : State) (acc : Bool) (kd : KDesc) (core : Nat) : Nat :=
  (List.range kd.width).foldl (fun x j =>
    x + s.lowSlots acc (core + j) (if acc then kd.aslots else kd.oslots) * (if acc then 32 else 128) ^ j) 0

/-- The event of a packet at the head of its queue. -/
def State.packetEvents (s : State) (ctx q : Nat) (p : Packet) : List Instr :=
  match p.kind with
  | 1 | 2 =>
    let kd := p.kd.headD {}
    (if p.kind = 1 then .launchPacket ctx q else .drawPacket ctx q) ::
      (match s.firstFit kd none with
       | some core => [.teamPlace ctx q core (s.digits false kd core) (s.digits true kd core)]
       | none => [])
  | 3 => [.copyPacket ctx q (if p.body 256 64 = 0 then [] else [(0, lineCount (p.body 128 64) (p.body 256 64))])]
  | 4 => [.waitswPacket ctx q, .waitswReread ctx q]
  | 5 => [.signalPacket ctx q]
  | 6 => [.condPacket ctx q]
  | 7 => [.loopPacket ctx q]
  | 8 => [.jumpPacket ctx q]
  | _ => [.stopPacket ctx q]

/-- Events of the front end, the raster pipeline and the contexts. -/
def State.frontEvents (s : State) : List Instr :=
  (s.ctxs.flatMap fun (c, x) =>
      x.queues.flatMap fun (q, qu) =>
        (match qu.cur with | some p => s.packetEvents c q p | none => []) ++ qu.open_.map fun p => .packetComplete c q p.seq)
    ++ (s.draws.flatMap fun (n, d) =>
        [.primitiveAssemble n, .earlyDepthStencil n, .fragmentApply n]
          ++ match d.quads.find? (·.state == 1) with
            | some q => ((s.firstFit d.fk (some (d.quadOwner q))).map fun core => Instr.fragmentGroupLaunch n core).toList
            | none => [])
    ++ s.ctxs.flatMap fun (c, x) =>
        (if x.state == .saving then [.contextSaved c] else [])
          ++ (if x.state == .destroyed then [.contextReleased c] else [])
          ++ (if x.held.isEmpty then [] else [.faultRingRetry c])
          ++ (((s.teams.map (·.2)).filter fun t => t.ctx == c && t.saved).zipIdx.filterMap fun (t, n) =>
                ((List.range Config.cores).find? (s.refits t)).map fun core => .teamReplaced c n core)
          ++ (if x.dispatching || x.state == .draining || x.state == .saving || s.port0.entering == some c || s.port1.entering == some c
                || x.queues.any (·.2.owes) || !x.owed.isEmpty then [.migratingRewalk c] else [])

/-- Ports that hold a group, each once, beginning after the port that ran last. -/
def State.grants (s : State) : List Instr :=
  let ports := (s.groups.map fun g => portKey g.1).foldl insertNat []
  let after := ports.filter (· ≥ s.turn / 2) ++ ports.filter (· < s.turn / 2)
  after.map fun p => .runGrant (p / 4) (p % 4)

/-- The same state but for the counters of the model's own. -/
def State.sameAs (s t : State) : Bool := { t with free := s.free, turn := s.turn, fresh := s.fresh, clock := s.clock } == s

/-- The first event of a list that changes the state, carried out. -/
def State.firstOf (s : State) : List Instr → Option (Host.Outcome State Fault Refusal)
  | [] => none
  | e :: es =>
    match exec e s with
    | .next t => if s.sameAs t then s.firstOf es else some (.next t)
    | o => some o

/-- The port of a grant, by which the next choice begins after it. -/
def State.passTurn (s : State) (front : Bool) : State :=
  { s with turn := 2 * (match s.runs with | r :: _ => r.1 + 1 | [] => s.turn / 2) + (!front).toNat }

/-- With no run in progress, or one to grant: an event of a group or an engine; else a packet or a run, by turns; else a result that has
still to land; else nothing is left to do until something comes from outside. -/
def State.nextEvent (s : State) : Host.Outcome State Fault Refusal :=
  let front := s.turn % 2 == 0
  let pass (o : Host.Outcome State Fault Refusal) : Host.Outcome State Fault Refusal :=
    match o with
    | .next t => .next (t.passTurn front)
    | o => o
  match s.firstOf (s.groupEvents ++ s.landings false ++ s.engineEvents) with
  | some o => o
  | none =>
    match s.firstOf (if front then s.frontEvents ++ s.grants else s.grants ++ s.frontEvents) with
    | some o => pass o
    | none =>
      match s.firstOf (s.landings true) with
      | some o => o
      | none => .next s

/-- What the machine does when nothing is prescribed: the next issue of the runs in progress; an event when there is none, or when a port
has a run to grant, which no other port's issue passes (R203). -/
def State.auto (s : State) : Host.Outcome State Fault Refusal :=
  match s.nextRun with
  | some (p, r) => if s.grantDue then s.nextEvent else s.issueRun p r
  | none => s.nextEvent

/-- What the head of the agenda prescribes. -/
def State.perform (s : State) : Input → Host.Outcome State Fault Refusal
  | .auto => s.auto
  | .event e => if (Instr.raw e).isSome then .fault .wordOnAgenda else exec e s
  | .store loc stamp bytes agent => .next (s.store agent [] {} stamp loc bytes)
  | .mismatch c => if c.kind > 5 then .next s else .next { s with checks := s.checks ++ [c] }

/-! ### Putting an instruction where it is fetched (log entry 30) -/

/-- The location of the next fetch of the run that issues next. -/
def State.fetchLoc (s : State) : Option (Nat × Nat) :=
  match s.nextRun with
  | none => none
  | some (_, r) =>
    match s.issuer r with
    | none => none
    | some i =>
      match (s.mapRange i.g.ident.ctx i.sp.pc 12 .fetch).1 with
      | .ok ((loc, stamp, _, 12) :: _) => some (loc, stamp)
      | _ => none

/-- A package that is READY, with one context of port 0 whose pages lie in GDDR7: a table at 0x10000, one page of 64 KiB at
0x1000_0000 with every permission for the address 0x1000_0000. -/
def bootTables : List (Nat × Nat) :=
  [(0x10000, 1 + 0x20000), (0x20000, 1 + 0x30000), (0x30000 + 8 * 128, 1 + 0x40000)]
    ++ (List.range 16).map fun n => (0x40000 + 8 * n, 3 + 0xF0 + 0x10000000 + 2 ^ 54 + 2 ^ 63)

/-- The group that runs there: 32 lanes at 0x1000_0000, 8 rows, backing behind the code, a team with a C-space of one unit,
a stretch of slots, on core 0; a run of it is in progress. -/
def State.booted (s : State) : State :=
  let s := bootTables.foldl (fun (s : State) e => s.putBytes 0 e.1 (toBytes 8 e.2)) s
  let kd : KDesc := { entry := 0x10000000, oslots := 4, aslots := 4, cspace := 4096, backkb := 8 }
  let c : Ctx := { state := .running, keyId := 1, stamp := 1,
                   rc := { ptroot := 0x10000, stbase := 0x10008000, stcount := 4, squota := 1024, fqbase := 0x1000F000, fbbase := 0x1000F040,
                           savepc := 0x10000000, restpc := 0x10000000 } }
  let t : Team := { uid := 2, ctx := 1, kd, cores := [0], csize := 4096, ob := [(0, 0)], ab := [(0, 0)], left := 1 }
  let g : Group := { ident := { uid := 3, ctx := 1, team := 2, bsp := 0x1000A000, bsl := 0x1000C000, born := s.order.next },
                     live := [(0, { pc := 0x10000000, mask := 0xFFFFFFFF })] }
  { s with
    boot := 4, fresh := max s.fresh 4, agenda := [],
    ctxs := [(1, c)], teams := [(2, t)], groups := [(0, g)],
    runs := [(0, { group := 0, slot := 0, count := 0, clock := s.clock + 1 })] }

/-- Writes the bytes of an instruction where the next step fetches it. A state in which no run is about to fetch is first
given one. -/
def State.placeWord (s : State) (bs : List Byte) : State :=
  let s := { s with agenda := [] }
  let s := if s.fetchLoc.isSome && !s.grantDue then s else s.booted
  match s.fetchLoc with
  | some (loc, stamp) =>
    let s := s.putBytes stamp loc bs
    { s with order := { s.order with writes := s.order.writes.filter fun r => !overlap r.loc r.old.length loc 12 },
             poison := s.poison.filter fun p => !overlap (8 * p.1) 8 loc 12,
             badCore := s.badCore.filter fun p => !overlap (p.1 / 512 * 8) 8 loc 12 }
  | none => s

end Sys2Proof.Machine
end

