-- ==== Sys2Proof/Machine/Step.lean ====
section
/-! DEFINITION. One step of the package. -/
namespace Sys2Proof.Machine

/-- One step: what the head of the agenda prescribes, or the default order. -/
def step (s : State) : Host.Outcome State Fault Refusal :=
  match s.agenda with
  | a :: rest => State.perform { s with agenda := rest } a
  | [] => s.auto

/-- The state with an instruction stored where step fetches its next one. -/
def State.withFetchWord (s : State) (nbits w : Nat) : State := s.placeWord (wordBytes (w % 2 ^ nbits))

end Sys2Proof.Machine
end

