-- ==== Sys2Proof/WellFormed.lean ====
section
/-! DEFINITION. Well-formed instructions: words whose fields hold what their encoding can hold and that pass the checks of
R62, and events whose numbers name something the package has. -/
namespace Sys2Proof

/-! ### Numbers that name a part of the package -/

/-- DIEID × 128 + COREID (R13). -/
def isCore (n : Nat) : Bool := n < 256
def isQuad (n : Nat) : Bool := n < 64
/-- 64 × core + slot (R13, R203). -/
def isGroup (n : Nat) : Bool := n < 16384
/-- A live slot (R204). -/
def isSplit (n : Nat) : Bool := n < 4
/-- A quarter of a core: its port and its group slots (R203). -/
def isQuarter (n : Nat) : Bool := n < 4
def isCtx (n : Nat) : Bool := n < 256
def isQueue (n : Nat) : Bool := n < 64
def isStack (n : Nat) : Bool := n < 2
/-- A Hexolink port (R387). -/
def isPort (n : Nat) : Bool := n < 24
def isNode (n : Nat) : Bool := n < 1024
/-- RECORD of CTXCMD (R157). -/
def isRecord (n : Nat) : Bool := n < 2 ^ 47
/-- An offset in the register space of a function (R398). -/
def isOffset (n : Nat) : Bool := n < 0x2000
/-- ERROR and KIND of BOOTSTAT (R401). -/
def isError (n : Nat) : Bool := n ≤ 5
def isKind (n : Nat) : Bool := n ≤ 5
def isToken (n : Nat) : Bool := n < 2 ^ 32
/-- A lane of a port (R387). -/
def isLane4 (n : Nat) : Bool := n ≤ 4

def EccAt.ok (x : EccAt) : Bool := isCore x.core && (x.ctx.map isCtx).getD true

def RemFail.ok (x : RemFail) : Bool := x.kind < 8 && (x.group.map isGroup).getD true && (x.ctx.map isCtx).getD true

/-- A request of another package is a read, a store or an atomic, not two of them. -/
def RemReq.ok (x : RemReq) : Bool :=
  isNode x.node && !(x.write.isSome && x.atomic.isSome) && (x.cmp.isNone || x.atomic.isSome)

/-- The fields of DBGCMD (R384). -/
def Dbg.ok (x : Dbg) : Bool :=
  isCtx x.ctx && x.index < 8 && x.wkind < 4 && x.wsize < 64 && x.cause < 256 && x.die < 2 && x.core < 128 && x.slot < 64

def Msg.ok (x : Msg) : Bool := isPort x.port && x.xid < 2 ^ 64

/-! ### Words -/

/-- The fields of a control or system word that its class does not hold are zero (R168, R186, R210, R217). -/
def SysW.shape (x : SysW) (opc : Nat) : Bool :=
  match clsOf opc with
  | .ctx => x.arg.toNat < 64
  | .sreg => x.pd == {}
  | _ => x.pd == {} && x.arg.toNat < 8

/-- The fields of an instruction hold what its encoding, or its event, can hold. -/
def Instr.fits : Instr → Bool
  | .nop x => x.shape 0x00
  | .bra x => x.shape 0x01
  | .brx x => x.shape 0x02
  | .call x => x.shape 0x03
  | .calli x => x.shape 0x04
  | .ret x => x.shape 0x05
  | .merge x => x.shape 0x06
  | .exit x => x.shape 0x07
  | .trap x => x.shape 0x08
  | .eret x => x.shape 0x09
  | .yield x => x.shape 0x0A
  | .add _ => true
  | .sub _ => true
  | .addc _ => true
  | .subb _ => true
  | .mul _ => true
  | .mulh _ => true
  | .mad _ => true
  | .madw _ => true
  | .div _ => true
  | .rem _ => true
  | .min _ => true
  | .max _ => true
  | .abs _ => true
  | .neg _ => true
  | .lea _ => true
  | .sad _ => true
  | .and _ => true
  | .or _ => true
  | .xor _ => true
  | .not _ => true
  | .lut3 _ => true
  | .shl _ => true
  | .shr _ => true
  | .sar _ => true
  | .rot _ => true
  | .funsh _ => true
  | .bfe _ => true
  | .bfi _ => true
  | .popc _ => true
  | .clz _ => true
  | .ctz _ => true
  | .brev _ => true
  | .fadd _ => true
  | .fsub _ => true
  | .fmul _ => true
  | .ffma _ => true
  | .fmin _ => true
  | .fmax _ => true
  | .fdiv _ => true
  | .fsqrt _ => true
  | .frcp _ => true
  | .frsq _ => true
  | .fexp2 _ => true
  | .flog2 _ => true
  | .fsin _ => true
  | .fcos _ => true
  | .frnd _ => true
  | .ffrac _ => true
  | .fclass _ => true
  | .fdot2 _ => true
  | .flerp _ => true
  | .fscale _ => true
  | .cvt _ => true
  | .kpack _ => true
  | .kunpk _ => true
  | .bytsel _ => true
  | .mov _ => true
  | .movi _ => true
  | .movh _ => true
  | .sel _ => true
  | .icmp _ => true
  | .fcmp _ => true
  | .plop _ => true
  | .pmov _ => true
  | .shfl _ => true
  | .vote _ => true
  | .redux _ => true
  | .scan _ => true
  | .ld _ => true
  | .st _ => true
  | .ldp _ => true
  | .at _ => true
  | .atc _ => true
  | .red _ => true
  | .reds _ => true
  | .pub _ => true
  | .ref _ => true
  | .phase _ => true
  | .cflush _ => true
  | .pref _ => true
  | .copy _ => true
  | .copy2 _ => true
  | .bar _ => true
  | .bara _ => true
  | .barw _ => true
  | .barnAlloc _ => true
  | .barnFree _ => true
  | .barnGen _ => true
  | .swinit _ => true
  | .swadd _ => true
  | .swait _ => true
  | .swtest _ => true
  | .mresv _ => true
  | .mfree _ => true
  | .mclaim _ => true
  | .mrel _ => true
  | .mld _ => true
  | .mlds _ => true
  | .mzero _ => true
  | .mma _ => true
  | .mst _ => true
  | .msts _ => true
  | .mmov _ => true
  | .mstat _ => true
  | .mcfg _ => true
  | .salloc _ => true
  | .sfree _ => true
  | .sld _ => true
  | .sst _ => true
  | .satop _ => true
  | .sblend _ => true
  | .squery _ => true
  | .spin _ => true
  | .tex _ => true
  | .texq _ => true
  | .vemit _ => true
  | .fattr _ => true
  | .femit _ => true
  | .fkill _ => true
  | .rxsnap _ => true
  | .rxbox _ => true
  | .rxtri _ => true
  | .sread x => x.shape 0xE0
  | .swrite x => x.shape 0xE1
  | .qappend x => x.shape 0xE2
  | .svwin x => x.shape 0xE3
  | .ldwin x => x.shape 0xE4
  | .savereg x => x.shape 0xE5
  | .loadreg x => x.shape 0xE6 && x.arg.toNat % 16 != 4
  | .loadregGroup x => x.shape 0xE6 && x.arg.toNat % 16 == 4
  | .brk x => x.shape 0xE7
  | .resultLands g _ _ => isGroup g
  | .runGrant core port => isCore core && isQuarter port
  | .transferWaitEnd g slot => isGroup g && isSplit slot
  | .handlerEntry g => isGroup g
  | .eccCorrected x => EccAt.ok x
  | .eccUncorrectable x => EccAt.ok x
  | .remoteAccessFailure x => RemFail.ok x
  | .remoteRequestTimeout x => RemFail.ok x
  | .remoteRequestServe x => RemReq.ok x
  | .redsContribution _ => true
  | .orderedItem ctx _ _ => isCtx ctx
  | .copyEngineLine quad => isQuad quad
  | .mmaPass core _ quarter => isCore core && isQuarter quarter
  | .matrixFillStoreDone core _ => isCore core
  | .tileEvicted ctx _ stack _ => isCtx ctx && isStack stack
  | .tileRefilled ctx _ stack _ => isCtx ctx && isStack stack
  | .launchPacket ctx q => isCtx ctx && isQueue q
  | .drawPacket ctx q => isCtx ctx && isQueue q
  | .copyPacket ctx q _ => isCtx ctx && isQueue q
  | .waitswPacket ctx q => isCtx ctx && isQueue q
  | .waitswReread ctx q => isCtx ctx && isQueue q
  | .signalPacket ctx q => isCtx ctx && isQueue q
  | .condPacket ctx q => isCtx ctx && isQueue q
  | .loopPacket ctx q => isCtx ctx && isQueue q
  | .jumpPacket ctx q => isCtx ctx && isQueue q
  | .stopPacket ctx q => isCtx ctx && isQueue q
  | .packetComplete ctx q _ => isCtx ctx && isQueue q
  | .teamPlace ctx q core _ _ => isCtx ctx && isQueue q && isCore core
  | .placementStarvation ctx q => isCtx ctx && isQueue q
  | .groupFreed g => isGroup g
  | .teamReplaced ctx _ core => isCtx ctx && isCore core
  | .primitiveAssemble _ => true
  | .fragmentGroupLaunch _ core => isCore core
  | .earlyDepthStencil _ => true
  | .fragmentApply _ => true
  | .build _ ctx record _ => isCtx ctx && isRecord record
  | .admission _ ctx => isCtx ctx
  | .preempt _ ctx => isCtx ctx
  | .destroy _ ctx => isCtx ctx
  | .drainLimitExpired ctx => isCtx ctx
  | .forcedSaveEntry g => isGroup g
  | .contextSaved ctx => isCtx ctx
  | .contextReleased ctx => isCtx ctx
  | .doorbellRing _ _ ctx q => isCtx ctx && isQueue q
  | .doorbellStart _ ctx q => isCtx ctx && isQueue q
  | .doorbellReset _ ctx q => isCtx ctx && isQueue q
  | .nowWrite _ _ => true
  | .resume _ ctx token => isCtx ctx && isToken token
  | .resumeall _ ctx => isCtx ctx
  | .inval _ ctx => isCtx ctx
  | .invalall _ ctx => isCtx ctx
  | .migratingRewalk ctx => isCtx ctx
  | .faultRingRetry ctx => isCtx ctx
  | .setbp x => Dbg.ok x
  | .setwp x => Dbg.ok x
  | .clear x => Dbg.ok x
  | .stepon x => Dbg.ok x
  | .stepoff x => Dbg.ok x
  | .inject x => Dbg.ok x
  | .nearset _ stack _ => isStack stack
  | .portctlEnable _ p => isPort p
  | .portctlDisable _ p => isPort p
  | .portctlRetrain _ p => isPort p
  | .podbind _ ctx => isCtx ctx
  | .image _ _ => true
  | .registerWrite _ offset _ _ => isOffset offset
  | .flitReceive p _ => isPort p
  | .shadowRotation p => isPort p
  | .laneCalibration p lane => isPort p && isLane4 lane
  | .lossOfLock p => isPort p
  | .trainingEnd p _ _ => isPort p
  | .trainingTimeout p _ => isPort p
  | .routeTableWrite node port => isNode node && (isPort port || port == 255)
  | .hello x => Msg.ok x
  | .share x => Msg.ok x
  | .finish x => Msg.ok x
  | .bind x => Msg.ok x
  | .bindack x => Msg.ok x
  | .unbind x => Msg.ok x
  | .ucieModuleRetire _ => true
  | .atsInvalidation _ _ => true
  | .packageReset => true
  | .bootStage error kind => isError error && isKind kind
  | .powerGate _ => true
  | .wakeComplete _ => true
  | .completionParkEnd g slot => isGroup g && isSplit slot

/-- A word is well formed when its fields fit and it passes every check of R62; an event when its numbers do. -/
def Instr.wf (i : Instr) : Bool :=
  i.fits && match i.raw with
    | some r => (r.check .all).isNone
    | none => true

end Sys2Proof
end

