-- ==== Sys2Proof/Safety.lean ====
section
/-! DEFINITION. The terms of the claims: a word that issues, what an instruction of the common class comes to, what a run may
rely on. -/
namespace Sys2Proof.Machine

/-- A word with this guard issues from the split of i, and no register of its group is poisoned (R380). -/
def Issues (s : State) (ctl : Ctl) (i : Iss) : Prop := s.issuing ctl = some i ∧ i.g.bad = []

/-- The same, and at least one lane executes (R50). -/
def Executes (s : State) (ctl : Ctl) (i : Iss) : Prop := Issues s ctl i ∧ i.lanes ≠ 0

/-- What each lane of a word of the common class computes: `opc` names its row, `ta`, `tb` and `tc` are the types in which its
sources are supplied. -/
def aluOuts (x : Alu) (opc ta tb tc : Nat) (f : AluSrc → LaneOut) (i : Iss) : List (Nat × LaneOut) :=
  (lanesOf (destLanes x.d i.lanes)).map fun l => (l, f (aluVals x (Alu.row x opc) i.g i.sp.wb l ta tb tc))

/-- A word of the common class comes to the results of its lanes: it commits the flags and the writes (R82, R87), or, where an
enabled flag or a division by zero traps, it commits nothing and traps (R86, R92). -/
def Commits (ins : Instr) (ctl : Ctl) (lat cls : Nat) (outs : List (Nat × LaneOut)) (wr : Nat → LaneOut → List RegWrite)
    (i : Iss) (s : State) : Prop :=
  (arithTrap i.g.sr.fpctl cls outs = none →
    exec ins s = .next ((Eff.ok (((i.start s).raiseFlags i.k (allFlags outs)).writeResult i.k lat
      (outs.flatMap fun o => wr o.1 o.2))).retire ctl i))
  ∧ ∀ c m aux, arithTrap i.g.sr.fpctl cls outs = some (c, m, aux) →
    exec ins s = .next ((Eff.trap (i.start s) c m 0 aux).retire ctl i)

/-- An instruction in which every lane computes alone: its row, its latency, its class of flags, the types of its sources, its
function. -/
def LaneLaw (ins : Alu → Instr) (opc lat : Nat) (cls ta tb tc : Alu → Nat) (f : Alu → AluSrc → LaneOut) : Prop :=
  ∀ x s i, Issues s x.ctl i →
    Commits (ins x) x.ctl lat (cls x) (aluOuts x opc (ta x) (tb x) (tc x) (f x) i) (aluWrites x (Alu.row x opc) i.sp.wb) i s

/-- The same with the function given by what holds of its results: P says it from the word, the source values and the result. -/
def LaneRule (ins : Alu → Instr) (opc lat : Nat) (cls ta tb tc : Alu → Nat) (P : Alu → AluSrc → LaneOut → Prop) : Prop :=
  ∀ x s i, Issues s x.ctl i → ∃ f : AluSrc → LaneOut,
    Commits (ins x) x.ctl lat (cls x) (aluOuts x opc (ta x) (tb x) (tc x) f i) (aluWrites x (Alu.row x opc) i.sp.wb) i s
    ∧ ∀ v, P x v (f v)

/-- The type of the word. -/
def tyOf (x : Alu) : Nat := x.ty.toNat

/-- Element j of a pattern of elements of w bits. -/
def elemAt (w x j : Nat) : Nat := x / 2 ^ (w * j) % 2 ^ w

/-- What an integer instruction computes from one element of each source, exactly. -/
def exactElem (ty : Nat) (op : Int → Int → Int → Int) (v : AluSrc) (j : Nat) : Int :=
  let val (x : Nat) : Int := intVal ty (elemW ty) (elemAt (elemW ty) x j)
  op (val v.a) (val v.b) (val v.c)

/-- R84: the exact result of every element modulo 2^w, or clamped to the type with SAT; FPFLAGS.SAT when a clamp changed a value. -/
def IntElems (ty : Nat) (sat : Bool) (op : Int → Int → Int → Int) (v : AluSrc) (o : LaneOut) : Prop :=
  let w := elemW ty
  let n := typeW ty / w
  let r := exactElem ty op v
  o.d < 2 ^ typeW ty ∧ o.dz = false
    ∧ (∀ j, j < n → elemAt w o.d j = wrap w (if sat then max (intMin ty w) (min (intMax ty w) (r j)) else r j))
    ∧ (o.fl = fSAT ∧ sat = true ∧ (∃ j, j < n ∧ (r j < intMin ty w ∨ intMax ty w < r j))
      ∨ o.fl = 0 ∧ (sat = true → ∀ j, j < n → intMin ty w ≤ r j ∧ r j ≤ intMax ty w))

/-- R85: the function of the patterns of every element of a floating type; the flags of all elements together. -/
def FloatElems (ty : Nat) (f : Fmt → Nat → Nat → Nat → Nat × Nat) (v : AluSrc) (o : LaneOut) : Prop :=
  let fm := fmtOf ty
  let w := fm.width
  let r (j : Nat) : Nat × Nat := f fm (elemAt w v.a j) (elemAt w v.b j) (elemAt w v.c j)
  o.dz = false ∧ (∀ j, j < 32 / w → elemAt w o.d j = (r j).1 % 2 ^ w)
    ∧ ∀ n, bit o.fl n = true ↔ ∃ j, j < 32 / w ∧ bit (r j).2 n = true

/-- The sign and size of a finite value, as the numerator over its denominator. -/
def FV.IsFinite (x : FV) (num : Int) (den : Nat) : Prop := (∃ n a, x = .fin n a den) ∧ x.num = num ∧ 0 < den

/-- An instruction that raises no flag and divides by nothing. -/
def Quiet (o : LaneOut) : Prop := o.fl = 0 ∧ o.dz = false

/-- R94 to R97: the w low bits of the result, bit by bit; no flag. -/
def BitRule (w : Nat) (o : LaneOut) (f : Nat → Bool) : Prop := Quiet o ∧ ∀ n, n < w → bit o.d n = f n

/-- The register of a group that a specifier names in a lane, as a number of w bits. -/
def Group.value (g : Group) (wb : Nat) (o : Operand) (w lane : Nat) : Nat := g.operand wb o w lane id 0

/-- Every byte outside the ranges of a list (first address, length) reads in t as in s. -/
def SameOutside (s t : State) (rs : List (Nat × Nat)) : Prop :=
  ∀ a, (∀ r ∈ rs, ¬ (r.1 ≤ a ∧ a < r.1 + r.2)) → t.byte a = s.byte a

/-- No byte of memory differs. -/
def SameMemory (s t : State) : Prop := ∀ a, t.byte a = s.byte a

/-- A split of the group waits at a barrier, where a departure writes its predicate and BARSTAT (R249). -/
def Group.awaits (g : Group) : Bool :=
  g.entries.any fun e => match e.park with
    | some (.barrier ..) => true
    | _ => false

/-- What the end of a run, a trap that is raised and the departures from a barrier leave: memory, and of every group that is
still there its registers and special registers, but for the predicates and BARSTAT of one that waits at a barrier. -/
def Calm (s t : State) : Prop :=
  SameMemory s t ∧ ∀ k g', t.group k = some g' → ∃ g, s.group k = some g ∧ g'.ident = g.ident
    ∧ (∀ key, (g.awaits = true → key < 256 ∨ 512 ≤ key) → g'.readReg key = g.readReg key)
    ∧ (∃ b, g'.sr = { g.sr with barstat := b } ∧ (g.awaits = false → b = g.sr.barstat))
    ∧ (g.awaits = false → g'.awaits = false)

/-- Nothing but groups, barriers, runs and the round-robin pointers differs: not the engines with their accumulators, not
contexts, surfaces, teams, links, the registers of the ports or the log. -/
def Still (s t : State) : Prop := t = { s with groups := t.groups, bars := t.bars, runs := t.runs, rr := t.rr }

/-- Nothing but groups and barriers differs. -/
def Settles (s t : State) : Prop := t = { s with groups := t.groups, bars := t.bars }

/-- The frame of an instruction that writes no special register but FPFLAGS and ICOUNT: the keys `dest` of the issuing group
may change. -/
def KeptBut (s t : State) (i : Iss) (dest : List Nat) : Prop :=
  SameMemory s t ∧ (i.sp.priv = false → Still { s with issue := none } t)
    ∧ ∀ k g', t.group k = some g' → ∃ g, s.group k = some g ∧ g'.ident = g.ident
      ∧ (∀ key, (k = i.k → ∀ d ∈ dest, ringKey g.ident.rows d ≠ ringKey g.ident.rows key)
          → (g.awaits = true → key < 256 ∨ 512 ≤ key) → g'.readReg key = g.readReg key)
      ∧ ∃ b c f, g'.sr = { g.sr with barstat := b, icount := c, fpflags := f }
          ∧ (k ≠ i.k → c = g.sr.icount ∧ f = g.sr.fpflags) ∧ (g.awaits = false → b = g.sr.barstat)

/-- The registers that a word of the common class writes: its destination in each executing lane, and its predicate. -/
def aluDest (x : Alu) (opc : Nat) (i : Iss) : List Nat :=
  (lanesOf i.lanes).flatMap fun l =>
    (match roleW (Alu.row x opc).d with
      | some w => operandKeys i.sp.wb x.d w l
      | none => [])
    ++ (if x.pd.valid then [predKey x.pd.reg.val l] else [])

/-- The state of a group between the issue of an instruction that commits and the accounting of its run: ICOUNT one more
(R419), a switch marker that parks it (R68). -/
def Committed (ctl : Ctl) (i : Iss) (g g' : Group) : Prop :=
  g'.sr = { g.sr with icount := if i.again then g.sr.icount else (g.sr.icount + 1) % 2 ^ 64 }
    ∧ g'.swPark = (g.swPark || (ctl.sw && !g.outst.isEmpty)) ∧ g'.regs = g.regs

/-! ### Splits -/

/-- The parts of a split (R207): each holds the lanes whose next PC and window base f gives, all lanes of the split are in some
part, and the parts stand in the order of their lowest lanes. -/
def Divides (i : Iss) (f : Nat → Nat × Nat) (ps : List Part) : Prop :=
  (∀ p ∈ ps, p.mask ≠ 0 ∧ ∀ l, hasLane p.mask l = true ↔ hasLane i.sp.mask l = true ∧ f l = (p.pc, p.wb))
    ∧ (∀ l, hasLane i.sp.mask l = true → ∃ p ∈ ps, f l = (p.pc, p.wb))
    ∧ ps.Pairwise fun p q => lowest p.mask < lowest q.mask

/-- Lanes that go on at the next word while the lanes `go` go where f says. -/
def lanesGo (i : Iss) (go : Lanes) (f : Nat → Nat × Nat) (l : Nat) : Nat × Nat := if hasLane go l then f l else (i.sp.pc + 12, i.sp.wb)

/-- The lowest lane of a mask that satisfies a predicate, and the mask of all that do: what a trap on some lanes names. -/
def Fails (m : Lanes) (p : Nat → Bool) (bad : Lanes) (l : Nat) : Prop :=
  (∀ n, hasLane bad n = true ↔ hasLane m n = true ∧ p n = true) ∧ hasLane bad l = true ∧ ∀ n, hasLane bad n = true → l ≤ n

/-- What a slide that transfers no row does (R223, R225, R233): span wait, or the new SPR, the links, and the parts of the split
(`f` gives each lane's next PC and window base, `wr` the writes of its link). -/
def Slides (ins : Instr) (ctl : Ctl) (i : Iss) (s : State) (f : Nat → Nat × Nat) (wr : List RegWrite) : Prop :=
  ∀ (u : State) (ps : List Part), Divides i f ps →
    let others := (i.g.ents.filter (·.1 != i.slot)).map (·.2.wb)
    let fit := adjust i.g.spr i.g.ident.rows (ps.map (·.wb) ++ others)
    (fit = .defer → u = i.start s → exec ins s = .next ((Eff.hold u .span).retire ctl i))
      ∧ ∀ spr dropped, fit = .commit [] [] spr dropped →
          u = (i.start s).updGroup i.k (fun g => ({ g with spr, dirty := g.dirty.filter fun k => !dropped.contains k } : Group).writeAll wr) →
          exec ins s = .next ((Eff.move u ps true).retire ctl i)

/-! ### Translation -/

/-- The table of level l that a walk of va reaches through valid table entries of memory (R354, R356). -/
def tableAt (s : State) (c : Ctx) (va : Nat) : Nat → Option Nat
  | 0 => some c.rc.ptroot
  | l + 1 =>
    match tableAt s c va l with
    | none => none
    | some t =>
      let e := ofBytes (s.peek 0 (t + 8 * levelIndex va l) 8)
      if bit e 0 = true ∧ bit e 1 = false ∧ l < 3 ∧ e = 1 + bits e 12 30 * 4096 ∧ bits e 12 30 * 4096 + 4096 ≤ Config.gddr7 then
        some (bits e 12 30 * 4096)
      else none

/-! ### Accesses of lanes -/

/-- A lane's access at its place: the translated location, the key stamp, and the entry that gave them. -/
structure Place where
  op    : LaneOp := {}
  loc   : Nat := 0
  stamp : Nat := 0
  pte   : Nat := 0
  level : Nat := 0
  size  : Nat := 0
  deriving DecidableEq, Repr, Inhabited

def Place.tr (p : Place) : LaneOp × Tr := (p.op, .ok p.loc p.stamp p.pte p.level p.size)

/-- Every lane's access is legal (R138), meets no watchpoint (R385) and no tile store of its group (R264), and finds its page
(R356): `ps` are the places, u the state after the walks. None reads poison or fails to reach its package. -/
def Passes (a : Access) (rd wr : Bool) (i : Iss) (s : State) (ops : List LaneOp) (ps : List Place) (u : State) : Prop :=
  (∀ t ∈ s.tileStores i.g, ∀ o ∈ ops, t.hits a.inC o.x a.width = false)
    ∧ accessTrap i s a.inC a.width ops = none ∧ watchTrap i s a.inC rd wr a.width ops = none
    ∧ placeLanes i a ops s [] = (ps.map Place.tr, u)
    ∧ ∀ p ∈ ps, u.remoteFail i.g.ident.ctx p.loc = none ∧ (a.reads = true → u.poisonedAt p.loc a.width = none
        ∧ (a.kind = .read → u.poisonedOn i.g.ident.core false p.loc a.width = none))

/-- The accesses of the lanes, in order, each after the request that a remote one sends: the register writes together, and the state
after them. -/
def performed (a : Access) (i : Iss) (ps : List Place) (u : State) : List RegWrite × State :=
  ps.foldl (fun acc p =>
    let u := if a.kind = .read ∧ a.reads = false then acc.2 else acc.2.request (a.work i acc.2 p.loc)
    (acc.1 ++ (a.act i p.op p.loc p.stamp u).1, (a.act i p.op p.loc p.stamp u).2)) ([], u)

/-- The lanes and addresses of a load or prefetch. -/
def addressOps (i : Iss) (x : MemW) (lanes : Lanes) : List LaneOp := (lanesOf lanes).map fun l => { lane := l, x := effAddr i x l }

/-- Those of a store, with the data of each lane. -/
def storeOps (i : Iss) (x : MemW) : List LaneOp :=
  (lanesOf i.lanes).map fun l =>
    { lane := l, x := effAddr i x l, b := i.g.operand i.sp.wb x.b (dataWidth x.width) l id (tailImm x.tail) }

/-- What LDP does in each lane at what its page gives (R146, R366): the loaded value and true, or zero and false, with feedback for the
leaf of a page that is mapped and not resident; and whether a feedback ring's page was away. -/
def probed (x : MemW) (i : Iss) (ts : List (LaneOp × Tr)) (u : State) : List RegWrite × Bool × State :=
  ts.foldl (fun (acc : List RegWrite × Bool × State) (t : LaneOp × Tr) =>
    let absent := acc.1 ++ destWrites i.sp.wb x.d (dataWidth x.width) t.1.lane 0 ++ predWrites x.pd t.1.lane false
    match t.2 with
    | .ok loc stamp _ _ _ =>
      let r := (loadAccess x).act i t.1 loc stamp (acc.2.2.request ((loadAccess x).work i acc.2.2 loc))
      (acc.1 ++ r.1 ++ predWrites x.pd t.1.lane true, acc.2.1, r.2)
    | .bad _ none => (absent, acc.2)
    | .bad _ (some leaf) =>
      let r := acc.2.2.feedback i.g.ident.ctx t.1.x leaf
      (absent, acc.2.1 || decide (r.1 = .stall), r.2)
    | .stall => acc) ([], false, u)

/-- The pieces of a translated range lie in this package or in host memory: no request to another package is needed. -/
def Local (ps : List (Nat × Nat × Nat × Nat)) : Prop := ∀ p ∈ ps, nodeOf p.1 = none

/-- The engine of a core has no operation of the group that has seen `w`, which a load of that group would limit (R129). -/
def NoEngineLoads (s : State) (core : Nat) (w : Seen) : Prop := ∀ e ∈ (s.engine core).queue, e.uid ≠ w.uid

/-- The bytes of a range, one after the other, are those of a list. -/
def HoldsBytes (s : State) (loc : Nat) (bs : List Byte) : Prop := s.bytes loc bs.length = bs

/-- What a run may rely on: memory in canonical form. -/
def State.Safe (s : State) : Prop := s.memWf = true

end Sys2Proof.Machine
end

