-- ==== Sys2Proof/Certificates/Slice0/Obligations.lean ====
section
/-! DEFINITION. The statements for the provers. Each says which rules of the spec it formalises. -/

open Sys2Proof Sys2Proof.Machine

/-! ### The step, encoding and decoding -/

/-- R47, R49, R61 to R64, R67: with nothing prescribed, no mismatch of a checker to come (R379) and no port with a run to grant, a step of
the run whose turn it is runs the instruction whose word is at the split's PC, as that split, when the group and the split are not parked; before it only the
clock, the walk of the fetch and the split's STEP mark change. A word that decodes to nothing traps with its cause. -/
def Claims.StepRunsDecodedInstruction : Prop :=
  ∀ (s : State) (port : Nat) (r : Run) (i : Iss) (ps : List (Nat × Nat × Nat × Nat)) (u : State),
    s.agenda = [] → s.grantDue = false → s.nextRun = some (port, r) → s.issuer r = some i → i.g.parked = false → i.sp.park = none →
    s.checks = [] →
    let c := s.ctx i.g.ident.ctx
    let pc := i.sp.pc
    pc % 4 = 0 → pc < 2 ^ 52 →
    (i.sp.priv = true ∨ (c.stepping = true → i.sp.stepped = true) ∧ (i.sp.quiet = true ∨ ∀ b ∈ c.bps, b.2 ≠ pc)) →
    State.mapRange { s with clock := max s.clock r.clock } i.g.ident.ctx pc 12 .fetch = (.ok ps, u) → Local ps →
    (∀ p ∈ ps, u.poisonedAt p.1 p.2.2.2 = none ∧ u.poisonedOn i.g.ident.core true p.1 p.2.2.2 = none) → (∀ w ∈ u.order.writes, w.id < i.g.ident.born) →
    let word := ofBytes (ps.flatMap fun p => u.peek p.2.1 p.1 p.2.2.2)
    (∀ ins, decodeWord (u.decCtx i) word = .ok ins →
        step s = exec ins { u.updGroup i.k (fun g => g.updLive i.slot fun e => { e with stepped := false }) with
          issue := some (i.k, i.slot) })
      ∧ ∀ cause, decodeWord (u.decCtx i) word = .error cause →
          step s = .next ((Eff.trap u cause i.sp.mask 0 (word % 256)).retire {} i)

/-- The model's choice (log entry 2): the head of the agenda, when there is one, says what the step does; an event there is carried
out as the event's rules say, and a store from outside writes its bytes. -/
def Claims.StepFollowsTheAgenda : Prop :=
  ∀ (s : State) (rest : List Input),
    (∀ e, s.agenda = .event e :: rest → encode e = none → step s = exec e { s with agenda := rest })
      ∧ ∀ loc stamp bs agent, s.agenda = .store loc stamp bs agent :: rest →
          ∃ t, step s = .next t ∧ t.bytes loc bs.length = bs ∧ SameOutside s t [(loc, bs.length)]

/-- R379, R383: a checker's mismatch in an executing lane of a word of the common class is logged with KIND 1 and writes nothing back:
the word issues once more at the next clock. A second mismatch traps precisely with the lanes of that mismatch, and is logged with
KIND 2. (That mismatches come from outside, and which units checkers watch, is the model's choice: log entries 32 and 46.) -/
def Claims.CheckersReissue : Prop :=
  ∀ (s u : State) (port : Nat) (r : Run) (i : Iss) (ins : Instr) (ctl : Ctl) (c : Check) (cs : List Check),
    s.agenda = [] → s.grantDue = false → s.nextRun = some (port, r) → s.issuer r = some i → i.g.parked = false → i.sp.park = none →
    fetchInstr i { s with clock := max s.clock r.clock } = .ok (ins, u) → checkedWord ins = some ctl →
    u.checks = c :: cs → c.port = port →
    let m := execLanes ctl i.g i.sp
    c.lanes &&& m ≠ 0 →
    let v : State := { u with checks := cs, clock := u.clock + 1, runs := Map.upd u.runs port fun r => { r with clock := u.clock + 1 } }
    let id := i.g.ident
    let rec_ (c : Check) (kind : Nat) : LogRec :=
      { cause := 0x90 + c.kind, kind, ctx := some id.ctx, die := id.core / 128, core := id.core % 128, slot := id.slot, gid := id.gid }
    ((∀ d ∈ cs, d.port ≠ port) → step s = exec ins { v.log (rec_ c 1) with issue := some (r.group, r.slot) })
      ∧ ∀ d ds, cs = d :: ds → d.port = port → d.lanes &&& m ≠ 0 →
          step s = .next ((Eff.trap (({ v.log (rec_ c 1) with checks := ds } : State).log (rec_ d 2)) (0x90 + d.kind) (d.lanes &&& m) 0
            (lowest (d.lanes &&& m) + port % 4 * 32)).retire ctl i)

/-- A step runs the decoded instruction, or what the agenda prescribes: `Claims.StepRunsDecodedInstruction` and `Claims.StepFollowsTheAgenda` and `Claims.CheckersReissue`. -/
def Obligations.StepRunsWhatIsFetched : Prop :=
  Claims.StepRunsDecodedInstruction ∧ Claims.StepFollowsTheAgenda ∧ Claims.CheckersReissue

/-- R46, R47, R51 to R60, R65: the word of every well-formed instruction decodes to that instruction, with every operand, hint and
modifier; the bytes after its twelve are left alone. -/
def Obligations.EncodeThenDecode : Prop :=
  ∀ (i : Instr) (w : Nat) (rest : List Byte), i.wf = true → encode i = some w →
    w < 2 ^ 96 ∧ decodeBytes .all (wordBytes w ++ rest) = .ok (i, rest)

/-- R60 to R65: a word that decodes is the word of the instruction that it decodes to, which is well formed: no bit is dropped, and
no two words decode alike. -/
def Obligations.DecodeThenEncode : Prop :=
  ∀ (w : Nat) (i : Instr), w < 2 ^ 96 → decodeWord .all w = .ok i → i.wf = true ∧ encode i = some w

/-- R46, R51, R55 to R57, R141, R210, R217, R234, R376: words written out field by field from their layouts, among them the
spec's own examples, decode to the instructions they stand for. -/
def Obligations.SpecWordsDecode : Prop :=
  -- add.i32 v3, v1, v2 under !p2 with the switch hint
  decodeWord .all (0x10 + 2 * 2 ^ 8 + 2 ^ 11 + 3 * 2 ^ 12 + 1 * 2 ^ 20 + 2 * 2 ^ 28 + 2 ^ 56)
      = .ok (.add { ctl := { pred := 2, neg := true, sw := true }, d := .v 3, a := .v 1, b := .v 2 })
    -- ffma.f32.rz s4, s5, zero, v9 (C is a register)
    ∧ decodeWord .all (0x33 + 0x44 * 2 ^ 12 + 0x45 * 2 ^ 20 + 0x68 * 2 ^ 28 + 8 * 2 ^ 36 + 1 * 2 ^ 40 + 2 ^ 47 + 9 * 2 ^ 64)
      = .ok (.ffma { d := .s 4, a := .s 5, b := .zero, ty := 8, rnd := .rz, tail := .reg (.v 9) 0 })
    -- sread v12:v13, now (R219's example)
    ∧ decodeWord .all (0x0000C0E0 + 0x00000400 * 2 ^ 32) = .ok (.sread { d := .v 12, arg := 0x40 })
    -- (p1) bra with offset 5 (R216's example)
    ∧ decodeWord .all (0x00000101 + 5 * 2 ^ 64) = .ok (.bra { ctl := { pred := 1 }, imm := 5 })
    -- call.s5 inc (R234's example)
    ∧ decodeWord .all (3 + 0x50 * 2 ^ 32 + 3 * 2 ^ 64) = .ok (.call { arg := 5, imm := 3 })
    -- trap 3, 0x55 (R376's example)
    ∧ decodeWord .all (0x08 + 0x30 * 2 ^ 32 + 0x55 * 2 ^ 64) = .ok (.trap { arg := 3, imm := 0x55 })

/-- R61, R62: every word whose opcode is 0xF0 or more is refused with 0x07, every other whose opcode no instruction has with
0x01; without privilege SAVEREG, LOADREG and the privileged special registers are refused with 0x06; then a hint bit that is set
is refused with 0x05, whatever else is wrong with the word. -/
def Claims.DecodeRefusals : Prop :=
  ∀ (x : DecCtx) (w : Nat),
    let opc := w % 256
    let assigned : Bool := opc ≤ 0x0A || (0x10 ≤ opc && opc ≤ 0x43) || (0x50 ≤ opc && opc ≤ 0x53) || (0x60 ≤ opc && opc ≤ 0x6B)
      || (0x70 ≤ opc && opc ≤ 0x7D) || (0x90 ≤ opc && opc ≤ 0x97) || (0xA0 ≤ opc && opc ≤ 0xAC) || (0xC0 ≤ opc && opc ≤ 0xC9)
      || (0xD0 ≤ opc && opc ≤ 0xD6) || (0xE0 ≤ opc && opc ≤ 0xE7)
    let special : Bool := (opc == 0xE0 || opc == 0xE1) && ((0x30 ≤ bits w 36 8 && bits w 36 8 ≤ 0x34) || bits w 36 8 == 0x50)
    let restricted : Bool := opc == 0xE5 || opc == 0xE6 || special
    (0xF0 ≤ opc → decodeWord x w = .error 0x07)
      ∧ (opc < 0xF0 → assigned = false → decodeWord x w = .error 0x01)
      ∧ (x.priv = false → restricted = true → decodeWord x w = .error 0x06)
      ∧ (assigned = true → (x.priv = true ∨ restricted = false) → bits w 58 6 ≠ 0 → decodeWord x w = .error 0x05)

/-- R61, R360, R371, R380, R385: what stops a fetch, in this order: STEP, a PC at or above 2^52 (0x17), a breakpoint (0x08 to 0x0F), a
PC that is no multiple of 4 (0x00), then the page (0x38 and its fault record, or the wait for a page that migrates), then poison
in any part of the word, in memory or in the core's instruction cache (a kill with 0x9E). A run whose group or split is parked ends (R67, R200). -/
def Claims.FetchStops : Prop :=
  ∀ (s : State) (port : Nat) (r : Run) (i : Iss),
    s.agenda = [] → s.grantDue = false → s.nextRun = some (port, r) → s.issuer r = some i →
    (i.g.parked = true ∨ i.sp.park ≠ none → step s = .next (s.endRun i.k)) ∧
    (i.g.parked = false → i.sp.park = none →
    let c := s.ctx i.g.ident.ctx
    let pc := i.sp.pc
    let s0 : State := { s with clock := max s.clock r.clock }
    let stepped : Prop := i.sp.priv = false ∧ c.stepping = true ∧ i.sp.stepped = false
    let broken (k : Nat) : Prop := i.sp.priv = false ∧ i.sp.quiet = false ∧ breakAt c pc = some k
    (stepped → step s = .next ((Eff.trap (s0.updGroup i.k fun g => g.updLive i.slot fun e => { e with stepped := true })
        0x1A i.sp.mask 0 0).retire {} i))
      ∧ (¬ stepped → 2 ^ 52 ≤ pc → step s = .next ((Eff.trap s0 0x17 i.sp.mask pc 0).retire {} i))
      ∧ (∀ k, ¬ stepped → pc < 2 ^ 52 → broken k → step s = .next ((Eff.trap s0 (0x08 + k) i.sp.mask 0 k).retire {} i))
      ∧ (¬ stepped → pc < 2 ^ 52 → (∀ k, ¬ broken k) →
          (pc % 4 ≠ 0 → step s = .next ((Eff.trap s0 0x00 i.sp.mask pc 0).retire {} i))
          ∧ (∀ cause va u, pc % 4 = 0 → s0.mapRange i.g.ident.ctx pc 12 .fetch = (.bad cause va, u) →
              step s = .next ((Eff.fault u { cause := 0x38, va, lanes := i.sp.mask.toNat, sub := cause } .reissue false).retire {} i))
          ∧ (∀ u, pc % 4 = 0 → s0.mapRange i.g.ident.ctx pc 12 .fetch = (.stall, u) →
              step s = .next ((Eff.stall u (.migrating { pc }) false).retire {} i))
          ∧ (∀ before p after u, pc % 4 = 0 → s0.mapRange i.g.ident.ctx pc 12 .fetch = (.ok (before ++ p :: after), u) →
              let bad (q : Nat × Nat × Nat × Nat) : Prop :=
                u.poisonedAt q.1 q.2.2.2 ≠ none ∨ u.poisonedOn i.g.ident.core true q.1 q.2.2.2 ≠ none
              Local before → (∀ q ∈ before, ¬ bad q) → bad p → step s = .next ((Eff.kill u 0x9E p.1).retire {} i))))

/-- Which words decoding refuses, and what stops a fetch: `Claims.DecodeRefusals` and `Claims.FetchStops`. -/
def Obligations.RefusedWordsAndFetches : Prop :=
  Claims.DecodeRefusals ∧ Claims.FetchStops

/-- Memory keeps its canonical form (strictly rising addresses, no entry that reads as an unlisted one): every step that answers a
next state keeps it. -/
def Obligations.MemoryFormKept : Prop :=
  ∀ (s t : State), s.memWf = true → step s = .next t → t.memWf = true

/-- R398, R401: after reset no context, group, team or engine state exists, BOOTSTAT is stage 0, and every register of both
functions is zero. Memory with every byte zero, and the model's own counters, are the model's choice (log entries 3 and 4). -/
def Obligations.ResetState : Prop :=
  State.reset.ctxs = [] ∧ State.reset.groups = [] ∧ State.reset.teams = [] ∧ State.reset.boot = 0
    ∧ State.reset.port0 = {} ∧ State.reset.port1 = {} ∧ State.reset.bars = [] ∧ State.reset.runs = []
    ∧ (∀ a, State.reset.byte a = 0) ∧ State.reset.memWf = true

/-! ### The instructions of the common class -/

/-- R84, R89, R90: ADD, SUB, MUL, MULH, MAD, MIN, MAX, ABS, NEG, SAD compute each element exactly, reduce or clamp it, and commit;
ADD and SUB give carry, borrow or overflow of the exact result before the clamp.
Completes, with the conclusion exec i s = .next t under conditions on s and the operands alone: .add, .sub, .mul, .mulh, .mad, .min, .max, .abs, .neg,
.sad. -/
def Claims.IntegerElementwiseResults : Prop :=
  let law (ins : Alu → Instr) (opc : Nat) (sat : Alu → Bool) (op : Alu → Int → Int → Int → Int) : Prop :=
    LaneRule ins opc 0 (fun _ => 0) tyOf tyOf tyOf fun x v o => IntElems (tyOf x) (sat x) (op x) v o
  let sum (ins : Alu → Instr) (opc : Nat) (op : Int → Int → Int → Int) : Prop :=
    LaneRule ins opc 0 (fun _ => 0) tyOf tyOf tyOf fun x v o =>
      IntElems (tyOf x) x.sat op v o
        ∧ (o.p = true ↔ exactElem (tyOf x) op v 0 < intMin (tyOf x) (elemW (tyOf x))
            ∨ intMax (tyOf x) (elemW (tyOf x)) < exactElem (tyOf x) op v 0)
  let plain : Alu → Bool := fun _ => false
  sum .add 0x10 (fun a b _ => a + b) ∧ sum .sub 0x11 (fun a b _ => a - b)
    ∧ law .mul 0x14 Alu.sat (fun _ a b _ => a * b)
    ∧ law .mulh 0x15 plain (fun x a b _ => a * b / 2 ^ typeW (tyOf x))
    ∧ law .mad 0x16 Alu.sat (fun _ a b c => a * b + c)
    ∧ law .min 0x1A plain (fun _ a b _ => if a ≤ b then a else b)
    ∧ law .max 0x1B plain (fun _ a b _ => if a ≤ b then b else a)
    ∧ law .abs 0x1C Alu.sat (fun _ a _ _ => if 0 ≤ a then a else -a)
    ∧ law .neg 0x1D Alu.sat (fun _ a _ _ => -a)
    ∧ law .sad 0x1F Alu.sat (fun _ a b c => (if b ≤ a then a - b else b - a) + c)

/-- R90, R91, R93: ADDC and SUBB with their carry and borrow, MADW in 64 bits, LEA with its shift; none raises a flag.
Completes, with the conclusion exec i s = .next t under conditions on s and the operands alone: .addc, .subb, .madw, .lea. -/
def Claims.WideIntegerResults : Prop :=
  (LaneRule .addc 0x12 0 (fun _ => 0) tyOf tyOf tyOf fun x v o =>
      let r : Int := v.a + v.b + (if v.c = 0 then 0 else 1)
      Quiet o ∧ (o.d : Int) = r % 2 ^ elemW (tyOf x) ∧ (o.p = true ↔ 2 ^ elemW (tyOf x) ≤ r))
    ∧ (LaneRule .subb 0x13 0 (fun _ => 0) tyOf tyOf tyOf fun x v o =>
      let r : Int := v.a - v.b - (if v.c = 0 then 0 else 1)
      Quiet o ∧ (o.d : Int) = r % 2 ^ elemW (tyOf x) ∧ (o.p = true ↔ r < 0))
    ∧ (LaneRule .madw 0x17 0 (fun _ => 0) tyOf tyOf (fun x => if x.ty = 0 then 2 else 3) fun x v o =>
      Quiet o ∧ (o.d : Int) = (intVal (tyOf x) 32 v.a * intVal (tyOf x) 32 v.b + intVal (tyOf x) 64 v.c) % 2 ^ 64)
    ∧ (LaneRule .lea 0x1E 0 (fun _ => 0) tyOf (fun x => if x.ty = 2 then 0 else 1) tyOf fun x v o =>
      Quiet o ∧ (o.d : Int) = (v.a + intVal (tyOf x) 32 v.b * 2 ^ x.sub.toNat) % 2 ^ 64)

/-- Results of the integer instructions: `Claims.IntegerElementwiseResults` and `Claims.WideIntegerResults`. -/
def Obligations.IntegerResults : Prop :=
  Claims.IntegerElementwiseResults ∧ Claims.WideIntegerResults

/-- R92: DIV and REM: quotient toward zero and remainder with the sign of the dividend; a zero divisor gives all ones and the
dividend. Their results land at least 12 clocks later (R69).
Completes, with the conclusion exec i s = .next t under conditions on s and the operands alone: .div, .rem. -/
def Claims.DivisionResults : Prop :=
  let rule (x : Alu) (v : AluSrc) (o : LaneOut) (rem : Bool) : Prop :=
    let w := elemW (tyOf x)
    let a := intVal (tyOf x) w v.a
    let b := intVal (tyOf x) w v.b
    o.fl = 0 ∧ (o.dz = true ↔ b = 0)
      ∧ (b = 0 → o.d = if rem then v.a else 2 ^ w - 1)
      ∧ (b ≠ 0 → ∃ q r : Int, a = q * b + r ∧ r.natAbs < b.natAbs ∧ (0 ≤ a → 0 ≤ r) ∧ (a ≤ 0 → r ≤ 0)
          ∧ o.d = wrap w (if rem then r else q))
  (LaneRule .div 0x18 12 (fun _ => 0) tyOf tyOf tyOf fun x v o => rule x v o false)
    ∧ (LaneRule .rem 0x19 12 (fun _ => 0) tyOf tyOf tyOf fun x v o => rule x v o true)

/-- R86, R92, R377: a trap is taken exactly when an executing lane raises an enabled flag, or divides an integer by zero with
that enable set; it names the lowest enabled flag, and its mask holds the lanes. -/
def Claims.ArithmeticTrapSelection : Prop :=
  ∀ (fpctl cls : Nat) (outs : List (Nat × LaneOut)), (∀ o ∈ outs, o.1 < 32) →
    let raises (o : Nat × LaneOut) : Prop := ∃ n, n < 5 ∧ bit fpctl n = true ∧ bit o.2.fl n = true
    let zero (o : Nat × LaneOut) : Prop := bit fpctl 5 = true ∧ o.2.dz = true
    (arithTrap fpctl cls outs = none ↔ ∀ o ∈ outs, ¬ raises o ∧ ¬ zero o)
      ∧ ∀ c m aux, arithTrap fpctl cls outs = some (c, m, aux) →
        ((∃ o ∈ outs, raises o) →
          (∃ n, n < 5 ∧ c = 0x50 + 5 * cls + n ∧ (∃ o ∈ outs, bit fpctl n = true ∧ bit o.2.fl n = true)
              ∧ ∀ k, k < n → ∀ o ∈ outs, bit fpctl k = true → bit o.2.fl k = false)
            ∧ ∀ l, hasLane m l = true ↔ ∃ o ∈ outs, o.1 = l ∧ raises o)
        ∧ ((∀ o ∈ outs, ¬ raises o) → c = 0x5F ∧ ∀ l, hasLane m l = true ↔ ∃ o ∈ outs, o.1 = l ∧ zero o)

/-- Division, and when arithmetic traps: `Claims.DivisionResults` and `Claims.ArithmeticTrapSelection`. -/
def Obligations.DivisionAndArithmeticTraps : Prop :=
  Claims.DivisionResults ∧ Claims.ArithmeticTrapSelection

/-- R94 to R97: the logic instructions, bit by bit.
Completes, with the conclusion exec i s = .next t under conditions on s and the operands alone: .and, .or, .xor, .not, .lut3, .shl, .shr, .sar, .rot,
.bfe, .bfi, .brev. -/
def Claims.LogicResultsByBit : Prop :=
  let law (ins : Alu → Instr) (opc : Nat) (tb tc : Alu → Nat) (f : Alu → AluSrc → Nat → Bool) : Prop :=
    LaneRule ins opc 0 (fun _ => 0) tyOf tb tc fun x v o => BitRule (typeW (tyOf x)) o (f x v)
  let n32 : Alu → Nat := fun _ => 1
  let w (x : Alu) : Nat := typeW (tyOf x)
  let sign (x : Alu) (a : Nat) : Bool := bit a (w x - 1)
  law .and 0x20 tyOf tyOf (fun _ v n => bit v.a n && bit v.b n)
    ∧ law .or 0x21 tyOf tyOf (fun _ v n => bit v.a n || bit v.b n)
    ∧ law .xor 0x22 tyOf tyOf (fun _ v n => bit v.a n != bit v.b n)
    ∧ law .not 0x23 tyOf tyOf (fun _ v n => !bit v.a n)
    ∧ law .lut3 0x24 tyOf tyOf (fun x v n =>
        bit (tailAux x.tail % 256) (4 * (bit v.c n).toNat + 2 * (bit v.b n).toNat + (bit v.a n).toNat))
    ∧ law .shl 0x25 n32 n32 (fun _ v n => decide (v.b ≤ n) && bit v.a (n - v.b))
    ∧ law .shr 0x26 n32 n32 (fun x v n => decide (n + v.b < w x) && bit v.a (n + v.b))
    ∧ law .sar 0x27 n32 n32 (fun x v n => if n + v.b < w x then bit v.a (n + v.b) else sign x v.a)
    ∧ law .rot 0x28 n32 n32 (fun x v n => bit v.a ((n + (w x - v.b % w x)) % w x))
    ∧ law .bfe 0x2A n32 n32 (fun x v n =>
        let pos := v.b % 256
        let len := v.b / 256 % 256
        let above (j : Nat) : Bool := if j < w x then bit v.a j else isSignedTy (tyOf x) && sign x v.a
        if len = 0 then false else if n < len then above (pos + n) else isSignedTy (tyOf x) && above (pos + len - 1))
    ∧ law .bfi 0x2B n32 tyOf (fun _ v n =>
        let pos := v.b % 256
        if pos ≤ n ∧ n < pos + v.b / 256 % 256 then bit v.a (n - pos) else bit v.c n)
    ∧ law .brev 0x2F tyOf tyOf (fun x v n => bit v.a (w x - 1 - n))

/-- R94, R96: FUNSH over the 64-bit value, and the counts of POPC, CLZ and CTZ.
Completes, with the conclusion exec i s = .next t under conditions on s and the operands alone: .funsh, .popc, .clz, .ctz. -/
def Claims.ShiftPairAndBitCounts : Prop :=
  let law (ins : Alu → Instr) (opc : Nat) (P : Alu → AluSrc → Nat → Prop) : Prop :=
    LaneRule ins opc 0 (fun _ => 0) tyOf tyOf tyOf fun x v o => Quiet o ∧ P x v o.d
  let w (x : Alu) : Nat := typeW (tyOf x)
  (law .funsh 0x29 fun x v d =>
      let y := v.b * 2 ^ 32 + v.a % 2 ^ 32
      let n := if v.c < 32 then v.c else 32
      d = if x.sub.toNat % 2 = 1 then y * 2 ^ n / 2 ^ 32 % 2 ^ 32 else y / 2 ^ n % 2 ^ 32)
    ∧ (law .popc 0x2C fun x v d => d = ((List.range (w x)).map fun n => (bit v.a n).toNat).sum)
    ∧ (law .clz 0x2D fun x v d => (d = w x ∨ d < w x ∧ bit v.a (w x - 1 - d) = true)
        ∧ ∀ n, n < w x → w x - 1 - d < n ∨ d = w x → bit v.a n = false)
    ∧ (law .ctz 0x2E fun x v d => (d = w x ∨ d < w x ∧ bit v.a d = true) ∧ ∀ n, n < d → n < w x → bit v.a n = false)

/-- Results of the logic instructions, bit by bit: `Claims.LogicResultsByBit` and `Claims.ShiftPairAndBitCounts`. -/
def Obligations.LogicAndBitResults : Prop :=
  Claims.LogicResultsByBit ∧ Claims.ShiftPairAndBitCounts

/-- R85, R98, R99, R101, R103: each element is the exact value of its expression rounded once, with the flags of all elements;
FCLASS gives the class.
Completes, with the conclusion exec i s = .next t under conditions on s and the operands alone: .fadd, .fsub, .fmul, .ffma, .fmin, .fmax, .fdiv,
.fsqrt, .frnd, .ffrac, .fclass, .fdot2, .flerp, .fscale. -/
def Claims.FloatingResults : Prop :=
  let law (ins : Alu → Instr) (opc lat : Nat) (tb tc : Alu → Nat) (f : Alu → Fmt → Nat → Nat → Nat → Nat × Nat) : Prop :=
    LaneRule ins opc lat (fun x => fpClass (tyOf x)) tyOf tb tc fun x v o => FloatElems (tyOf x) (f x) v o
  let value (ins : Alu → Instr) (opc : Nat) (f : Alu → FV → FV → FV → FV × Nat) : Prop :=
    law ins opc 0 tyOf tyOf fun x fm a b c => fm.result x.rnd (f x (fm.decode a) (fm.decode b) (fm.decode c))
  let single (ins : Alu → Instr) (opc lat : Nat) (f : Alu → FV → FV → FV × Nat) : Prop :=
    LaneRule ins opc lat (fun _ => 0) tyOf tyOf tyOf fun x v o =>
      FloatElems (tyOf x) (fun fm a b _ => fm.result x.rnd (f x (fm.decode a) (fm.decode b))) v o
  value .fadd 0x30 (fun x a b _ => addV x.rnd a b) ∧ value .fsub 0x31 (fun x a b _ => addV x.rnd a b.negate)
    ∧ value .fmul 0x32 (fun _ a b _ => mulV a b)
    ∧ value .ffma 0x33 (fun x a b c => ((addV x.rnd (mulV a b).1 c).1, (mulV a b).2 ||| (addV x.rnd (mulV a b).1 c).2))
    ∧ (law .fmin 0x34 0 tyOf tyOf fun _ fm a b _ => fm.result .rne (minmaxV false (fm.decode a) (fm.decode b)))
    ∧ (law .fmax 0x35 0 tyOf tyOf fun _ fm a b _ => fm.result .rne (minmaxV true (fm.decode a) (fm.decode b)))
    ∧ single .fdiv 0x36 12 (fun _ a b => divV a b) ∧ single .fsqrt 0x37 12 (fun _ a _ => sqrtV a)
    ∧ (law .frnd 0x3E 0 tyOf tyOf fun x fm a _ _ => frnd x.rnd fm a)
    ∧ (LaneRule .ffrac 0x3F 0 (fun _ => 0) tyOf tyOf tyOf fun x v o =>
        FloatElems (tyOf x) (fun fm a _ _ => ffrac x.rnd (fm.decode a)) v o)
    ∧ (LaneRule .fclass 0x40 0 (fun _ => 0) tyOf (fun _ => 4) (fun _ => 4) fun _ v o =>
        Quiet o ∧ (∀ n, bit o.d n = true ↔ n = fclassBit v.a) ∧ (o.p = true ↔ bit v.b (fclassBit v.a) = true))
    ∧ (LaneRule .fdot2 0x41 0 (fun _ => 0) tyOf tyOf (fun _ => 8) fun x v o =>
        let e (y k : Nat) : FV := (fmtOf (tyOf x)).decode (elemAt 16 y k)
        let r := f32.result x.rnd (dot2V x.rnd (e v.a 0) (e v.b 0) (e v.a 1) (e v.b 1) (f32.decode v.c))
        o.dz = false ∧ o.d = r.1 ∧ o.fl = r.2)
    ∧ value .flerp 0x42 (fun x a b c => lerpV x.rnd a b c)
    ∧ (LaneRule .fscale 0x43 0 (fun x => fpClass (tyOf x)) tyOf (fun _ => 0) (fun _ => 0) fun x v o =>
        FloatElems (tyOf x) (fun fm a _ _ =>
          let y := fm.decode a
          fm.result x.rnd (if y.isNan then .nan false else scaleV y (sint 32 v.b), if y.isSig then fNV else 0)) v o)

/-- R85: on finite operands sums, differences, products, quotients and fused products are the exact values, with no flag; an
invalid operation gives NaN with NV, a finite nonzero value over zero an infinity with DZ. -/
def Claims.FloatingExactBeforeRounding : Prop :=
  (∀ (rm : Rnd) (a b : FV) (x y : Int) (d e : Nat), a.IsFinite x d → b.IsFinite y e →
    (∃ p q, (addV rm a b).1.IsFinite p q ∧ p * (d * e) = (x * e + y * d) * q ∧ (addV rm a b).2 = 0)
      ∧ (∃ p q, (subV rm a b).1.IsFinite p q ∧ p * (d * e) = (x * e - y * d) * q ∧ (subV rm a b).2 = 0)
      ∧ (∃ p q, (mulV a b).1.IsFinite p q ∧ p * (d * e) = x * y * q ∧ (mulV a b).2 = 0)
      ∧ (y ≠ 0 → ∃ p q, (divV a b).1.IsFinite p q ∧ p * (y * d) = x * e * q ∧ (divV a b).2 = 0)
      ∧ (y = 0 → x ≠ 0 → ∃ n, divV a b = (.inf n, fDZ)) ∧ (y = 0 → x = 0 → divV a b = (.nan false, fNV))
      ∧ ∀ (c : FV) (z : Int) (f : Nat), c.IsFinite z f →
          (∃ p q, (fmaV rm a b c).1.IsFinite p q ∧ p * (d * e * f) = (x * y * f + z * (d * e)) * q ∧ (fmaV rm a b c).2 = 0)
          ∧ ∃ p q, (lerpV rm a b c).1.IsFinite p q
              ∧ p * (d * e * f) = (x * e * f + z * (y * d - x * e)) * q ∧ (lerpV rm a b c).2 = 0)
    ∧ (∀ (rm : Rnd) (n : Bool), addV rm (.inf n) (.inf !n) = (.nan false, fNV) ∧ divV (.inf n) (.inf n) = (.nan false, fNV))
    ∧ (∀ (n : Bool) (b : FV) (e : Nat), b.IsFinite 0 e → mulV (.inf n) b = (.nan false, fNV) ∧ mulV b (.inf n) = (.nan false, fNV)
        ∧ ∀ rm c, (fmaV rm (.inf n) b c).1 = .nan false ∧ bit (fmaV rm (.inf n) b c).2 0 = true)

/-- R37: RNE takes the nearest integer, and at a tie the even one; RZ goes toward zero, RD down, RU up. -/
def Claims.RoundingOfMagnitudes : Prop :=
  ∀ (neg : Bool) (num den : Nat), 0 < den →
    (∀ rm, roundNat rm neg num den = num / den ∨ num % den ≠ 0 ∧ roundNat rm neg num den = num / den + 1)
      ∧ (let r := roundNat .rne neg num den
         2 * num ≤ 2 * r * den + den ∧ 2 * r * den ≤ 2 * num + den ∧ ((2 * num = 2 * r * den + den ∨ 2 * r * den = 2 * num + den) → r % 2 = 0))
      ∧ roundNat .rz neg num den * den ≤ num
      ∧ (neg = true → num ≤ roundNat .rd neg num den * den ∧ roundNat .ru neg num den * den ≤ num)
      ∧ (neg = false → num ≤ roundNat .ru neg num den * den ∧ roundNat .rd neg num den * den ≤ num)

/-- The floating-point instructions commit their rounded expressions; exact values before rounding, and the four roundings: `Claims.FloatingResults` and `Claims.FloatingExactBeforeRounding` and `Claims.RoundingOfMagnitudes`. -/
def Obligations.FloatingPointResults : Prop :=
  Claims.FloatingResults ∧ Claims.FloatingExactBeforeRounding ∧ Claims.RoundingOfMagnitudes

/-- R69, R100: the transcendentals give what the unit gives, element by element, at least 12 clocks later; the unit keeps the
special operands of the table of R100 and the exact cases, and is a function of operation, format and operand.
Completes, with the conclusion exec i s = .next t under conditions on s and the operands alone: .frcp, .frsq, .fexp2, .flog2, .fsin, .fcos. -/
def Claims.TranscendentalResults : Prop :=
  let law (ins : Alu → Instr) (opc : Nat) (op : TOp) : Prop :=
    LaneRule ins opc 12 (fun x => fpClass (tyOf x)) tyOf tyOf tyOf fun x v o => FloatElems (tyOf x) (fun fm a _ _ => transc op fm a) v o
  law .frcp 0x38 .rcp ∧ law .frsq 0x39 .rsq ∧ law .fexp2 0x3A .exp2 ∧ law .flog2 0x3B .log2 ∧ law .fsin 0x3C .sin
    ∧ law .fcos 0x3D .cos
    ∧ ∀ fm ∈ [f32, f16], ∀ n : Bool,
        let z := if n then fm.signBit else 0
        let inf := fm.infty n
        let one := fm.bias * 2 ^ fm.mb
        transc .rcp fm z = (inf, fDZ) ∧ transc .rcp fm inf = (z, 0) ∧ transc .rcp fm (one + z) = (one + z, 0)
          ∧ transc .rsq fm z = (inf, fDZ) ∧ transc .rsq fm (fm.infty false) = (0, 0) ∧ transc .rsq fm one = (one, 0)
          ∧ transc .rsq fm (one + fm.signBit) = (fm.nan, fNV)
          ∧ transc .exp2 fm (fm.infty true) = (0, 0) ∧ transc .exp2 fm (fm.infty false) = (fm.infty false, 0)
          ∧ transc .exp2 fm z = (one, 0)
          ∧ transc .log2 fm z = (fm.infty true, fDZ) ∧ transc .log2 fm (one + fm.signBit) = (fm.nan, fNV)
          ∧ transc .log2 fm (fm.infty false) = (fm.infty false, 0) ∧ transc .log2 fm one = (0, 0)
          ∧ transc .sin fm inf = (fm.nan, fNV) ∧ transc .cos fm inf = (fm.nan, fNV) ∧ transc .sin fm z = (z, 0)
          ∧ transc .sin fm (one + z) = (0, 0) ∧ transc .cos fm (one + z) = (one + fm.signBit, 0)

/-- R104 to R107: CVT, KPACK, KUNPK, BYTSEL. R106 gives A of KUNPK no type: that it is supplied as .n32 is the model's choice (log entry 10).
Completes, with the conclusion exec i s = .next t under conditions on s and the operands alone: .cvt, .kpack, .kunpk, .bytsel. -/
def Claims.ConversionResults : Prop :=
  (∀ (x : Alu) (s : State) (i : Iss), Issues s x.ctl i →
    Commits (.cvt x) x.ctl 0 (cvtClass (tyOf x))
      ((lanesOf (destLanes x.d i.lanes)).map fun l =>
        (l, cvt x (i.g.operand i.sp.wb x.a (cvtWidth x.sub.toNat) l (supplyCvt x.sub.toNat) (immTy x.sub.toNat (tailImm x.tail)))))
      (fun l o => destWrites i.sp.wb x.d (cvtWidth (tyOf x)) l o.d) i s)
    ∧ (LaneRule .kpack 0x51 0 (fun _ => 2) tyOf (fun _ => 8) (fun _ => 0) fun x v o =>
        let elt (j : Nat) : FV := scaleV (f32.decode (elemAt 32 (if j < 4 then v.a else v.b) (j % 4))) (sint 32 v.c)
        let pair (k : Nat) : Nat × Nat × Nat := packPair x.rnd (elt (2 * k)) (elt (2 * k + 1))
        let decoded (j : Nat) : FV := if j % 2 = 0 then (k4Pair (pair (j / 2)).1).1 else (k4Pair (pair (j / 2)).1).2
        let lost : Prop := ∃ j, j < 8 ∧ (elt j).isNan = false ∧ (elt j).cmp (decoded j) ≠ 0
        o.dz = false ∧ (∀ k, k < 4 → elemAt 8 o.d k = (pair k).1 % 256)
          ∧ (o.p = true ↔ ∀ k, k < 4 → (pair k).2.1 = 0 ∧ (pair k).2.2 = 0)
          ∧ (bit o.fl 5 = true ↔ ∃ k, k < 4 ∧ 0 < (pair k).2.1) ∧ (bit o.fl 4 = true ↔ lost)
          ∧ ∀ n, n ≠ 4 → n ≠ 5 → bit o.fl n = false)
    ∧ (LaneRule .kunpk 0x52 0 (fun _ => 0) (fun _ => 1) (fun _ => 1) (fun _ => 1) fun x v o =>
        let fm := fmtOf (tyOf x)
        let byte (j : Nat) : Nat := elemAt 8 v.a (2 * (x.sub.toNat % 2) + j / 2)
        let elt (j : Nat) : FV := if j % 2 = 0 then (k4Pair (byte j)).1 else (k4Pair (byte j)).2
        Quiet o ∧ ∀ j, j < 4 → elemAt fm.width o.d j = (fm.round .rne (elt j)).1 % 2 ^ fm.width)
    ∧ (LaneRule .bytsel 0x53 0 (fun _ => 0) tyOf tyOf tyOf fun _ v o =>
        Quiet o ∧ ∀ j n, j < 4 → n < 8 →
          let c := elemAt 8 v.c j
          let src (k : Nat) : Bool := bit (v.b * 2 ^ 32 + v.a) (8 * (c % 8) + k)
          bit (elemAt 8 o.d j) n =
            if c / 8 % 4 = 0 then src n else if c / 8 % 4 = 1 then false else if c / 8 % 4 = 2 then src 7 else src (7 - n))

/-- Results of the transcendentals and conversions: `Claims.TranscendentalResults` and `Claims.ConversionResults`. -/
def Obligations.TranscendentalAndConversion : Prop :=
  Claims.TranscendentalResults ∧ Claims.ConversionResults

/-- R108 to R110: MOV, MOVI, MOVH, SEL, ICMP, FCMP, PLOP. MOVH writes only the odd register of its pair.
Completes, with the conclusion exec i s = .next t under conditions on s and the operands alone: .mov, .movi, .movh, .sel, .icmp, .fcmp, .plop. -/
def Claims.MoveAndCompareResults : Prop :=
  (LaneRule .mov 0x60 0 (fun _ => 0) tyOf tyOf tyOf fun _ v o => Quiet o ∧ o.d = v.a)
    ∧ (LaneRule .movi 0x61 0 (fun _ => 0) tyOf tyOf tyOf fun x _ o =>
        Quiet o ∧ o.d = if tyOf x = 2 then wrap 64 (sint 32 (tailImm x.tail)) else tailImm x.tail)
    ∧ (∀ (x : Alu) (s : State) (i : Iss), Issues s x.ctl i →
        Commits (.movh x) x.ctl 0 0 ((lanesOf (destLanes x.d i.lanes)).map fun l => (l, { d := tailImm x.tail }))
          (fun l o => (destWrites i.sp.wb x.d 64 l (2 ^ 32 * o.d)).drop 1) i s)
    ∧ (LaneRule .sel 0x63 0 (fun _ => 0) tyOf tyOf tyOf fun _ v o => Quiet o ∧ o.d = if v.c = 0 then v.b else v.a)
    ∧ (LaneRule .icmp 0x64 0 (fun _ => 0) tyOf tyOf tyOf fun x v o =>
        let a := intVal (tyOf x) (elemW (tyOf x)) v.a
        let b := intVal (tyOf x) (elemW (tyOf x)) v.b
        let holds : Bool := match x.sub.toNat with
          | 0 => decide (a = b)
          | 1 => decide (a ≠ b)
          | 2 => decide (a < b)
          | 3 => decide (a ≤ b)
          | 4 => decide (a > b)
          | _ => decide (a ≥ b)
        Quiet o ∧ o.p = holds ∧ o.d = if holds then 0xFFFFFFFF else 0)
    ∧ (LaneRule .fcmp 0x65 0 (fun x => fpClass (tyOf x)) tyOf tyOf tyOf fun x v o =>
        FloatElems (tyOf x) (fun fm a b _ =>
          let a := fm.decode a
          let b := fm.decode b
          let un := a.isNan || b.isNan
          let holds : Bool := match x.sub.toNat with
            | 0 => !un && a.cmp b == 0
            | 1 => !un && a.cmp b != 0
            | 2 => !un && decide (a.cmp b < 0)
            | 3 => !un && decide (a.cmp b ≤ 0)
            | 4 => !un && decide (a.cmp b > 0)
            | 6 => un || a.cmp b != 0
            | 7 => un
            | _ => !un && decide (a.cmp b ≥ 0)
          let invalid : Bool := if 2 ≤ x.sub.toNat ∧ x.sub.toNat ≤ 5 then un else a.isSig || b.isSig
          (if holds then 2 ^ fm.width - 1 else 0, if invalid then fNV else 0)) v o ∧ o.p = (o.d != 0))
    ∧ (LaneRule .plop 0x66 0 (fun _ => 0) tyOf tyOf tyOf fun x v o =>
        Quiet o ∧ bit o.d 0 = bit (tailAux x.tail % 256) (4 * (bit v.c 0).toNat + 2 * (bit v.b 0).toNat + (bit v.a 0).toNat))

/-- R111: PMOV writes the predicates of the lane to a register, or the predicates that its mask names from a register.
Completes, with the conclusion exec i s = .next t under conditions on s and the operands alone: .pmov. -/
def Claims.PredicateMoves : Prop :=
  ∀ (x : Alu) (s : State) (i : Iss), Issues s x.ctl i → ∃ f : Nat → LaneOut,
    Commits (.pmov x) x.ctl 0 0 ((lanesOf (destLanes x.d i.lanes)).map fun l => (l, f l))
      (fun l o =>
        if x.sub = 1 then
          ((List.range 8).filter fun p => p ≠ 0 ∧ bit (tailImm x.tail) p = true).map fun p =>
            { key := predKey p l, lane := l, val := if bit o.d p then 1 else 0 }
        else destWrites i.sp.wb x.d 32 l o.d) i s
    ∧ ∀ l, Quiet (f l) ∧ (x.sub = 1 → (f l).d = i.g.operand i.sp.wb x.a 32 l id (tailImm x.tail))
        ∧ (x.sub ≠ 1 → (f l).d < 256 ∧ ∀ p, p < 8 → bit (f l).d p = i.g.readPred p l)

/-- Results of moves, compares and predicate moves: `Claims.MoveAndCompareResults` and `Claims.PredicateMoves`. -/
def Obligations.MovesComparesPredicates : Prop :=
  Claims.MoveAndCompareResults ∧ Claims.PredicateMoves

/-- R112 to R114: SHFL and VOTE among the executing lanes; the results land at least 6 clocks later.
Completes, with the conclusion exec i s = .next t under conditions on s and the operands alone: .shfl, .vote. -/
def Claims.LaneExchangeResults : Prop :=
  (∀ (x : Alu) (s : State) (i : Iss), Issues s x.ctl i → ∃ f : Nat → LaneOut,
    Commits (.shfl x) x.ctl 6 0 ((lanesOf (destLanes x.d i.lanes)).map fun l => (l, f l))
      (fun l o => destWrites i.sp.wb x.d (typeW (tyOf x)) l o.d ++ predWrites x.pd l o.p) i s
    ∧ ∀ l, l < 32 →
        let a (j : Nat) : Nat := i.g.operand i.sp.wb x.a (typeW (tyOf x)) j id (immTy (tyOf x) (tailImm x.tail))
        let b := i.g.operand i.sp.wb x.b 32 l id (tailImm x.tail)
        let w := 32 / 2 ^ (x.sub.toNat / 4)
        let base := l / w * w
        let j : Int := match x.sub.toNat % 4 with
          | 0 => base + b % w
          | 1 => l + sint 32 b
          | 2 => base + (l - base + b) % w
          | _ => (l ^^^ b % w : Nat)
        let ok : Prop := (x.sub.toNat % 4 = 1 → base ≤ j ∧ j < base + w) ∧ hasLane i.lanes j.toNat = true
        Quiet (f l) ∧ ((f l).p = true ↔ ok) ∧ (ok → (f l).d = a j.toNat) ∧ (¬ ok → (f l).d = a l))
    ∧ ∀ (x : Alu) (s : State) (i : Iss), Issues s x.ctl i → ∃ o : LaneOut,
      Commits (.vote x) x.ctl 6 0 ((lanesOf (destLanes x.d i.lanes)).map fun l => (l, o))
        (fun l o => if x.sub = 3 then destWrites i.sp.wb x.d 32 l o.d else predWrites x.pd l o.p) i s
      ∧ (let on (l : Nat) : Bool := i.g.value i.sp.wb x.a 32 l != 0
         Quiet o ∧ (∀ l, l < 32 → bit o.d l = (hasLane i.lanes l && on l))
          ∧ (x.sub = 0 → (o.p = true ↔ ∀ l, l ∈ lanesOf i.lanes → on l = true))
          ∧ (x.sub = 1 → (o.p = true ↔ ∃ l, l ∈ lanesOf i.lanes ∧ on l = true))
          ∧ (x.sub = 2 → (o.p = true ↔ ∀ l m, l ∈ lanesOf i.lanes → m ∈ lanesOf i.lanes → on l = on m)))

/-- R115, R116: REDUX gives one result to every lane that takes part, the sum, least, greatest or bitwise combination of
their values, f32 sums by the fixed tree; SCAN gives each lane the combination of the lanes up to it or below it.
Completes, with the conclusion exec i s = .next t under conditions on s and the operands alone: .redux, .scan. -/
def Claims.ReductionResults : Prop :=
  let value (x : Alu) (i : Iss) (l : Nat) : Nat :=
    i.g.operand i.sp.wb x.a (typeW (tyOf x)) l (supplyTy (tyOf x)) (immTy (tyOf x) (tailImm x.tail))
  let plain (x : Alu) (i : Iss) (l : Nat) : Nat :=
    i.g.operand i.sp.wb x.a (typeW (tyOf x)) l id (immTy (tyOf x) (tailImm x.tail))
  let fold (op ty : Nat) (vs : List Nat) : Nat := vs.tail.foldl (combineOp op ty) (vs.headD 0)
  (∀ (x : Alu) (s : State) (i : Iss), Issues s x.ctl i → ∃ d fl : Nat,
    Commits (.redux x) x.ctl 6 0 ((lanesOf i.lanes).map fun l => (l, { d, fl }))
      (fun l o => if hasLane (destLanes x.d i.lanes) l then destWrites i.sp.wb x.d (typeW (tyOf x)) l o.d else []) i s
    ∧ (tyOf x ≠ 8 → fl = 0 ∧ d = fold x.sub.toNat (tyOf x) ((lanesOf i.lanes).map (value x i)))
    ∧ (tyOf x = 8 → x.sub = 0 →
        (d, fl) = treeSum x.rnd ((List.range 32).map fun l => if hasLane i.lanes l then value x i l else 0x80000000))
    ∧ (tyOf x = 8 → x.sub ≠ 0 → (d, fl) = fminmaxAll (x.sub == 2) ((lanesOf i.lanes).map (value x i))))
    ∧ ∀ (x : Alu) (s : State) (i : Iss), Issues s x.ctl i → ∃ f : Nat → LaneOut,
      Commits (.scan x) x.ctl 6 0 ((lanesOf i.lanes).map fun l => (l, f l))
        (fun l o => destWrites i.sp.wb x.d (typeW (tyOf x)) l o.d) i s
      ∧ ∀ l, l ∈ lanesOf i.lanes →
          let before := (lanesOf i.lanes).filter (· < l)
          let upTo := if x.sub.toNat < 8 then before ++ [l] else before
          Quiet (f l) ∧ (f l).d = (upTo.map (plain x i)).foldl (combineOp (x.sub.toNat % 8) (tyOf x))
            (scanIdentity (x.sub.toNat % 8) (tyOf x))

/-- Results of the lane exchange and of the reductions: `Claims.LaneExchangeResults` and `Claims.ReductionResults`. -/
def Obligations.LaneExchangeAndReductions : Prop :=
  Claims.LaneExchangeResults ∧ Claims.ReductionResults

/-- R82, R87, R71: no word of the common class changes a register but its destinations in executing lanes, a special register
but FPFLAGS and ICOUNT, any byte of memory, or anything else of the machine but barriers and runs; a variable-latency result
changes no register before it lands (R69, R72). -/
def Claims.CommonClassFrame : Prop :=
  let fixed : List ((Alu → Instr) × Nat) :=
    [(.add, 0x10), (.sub, 0x11), (.addc, 0x12), (.subb, 0x13), (.mul, 0x14), (.mulh, 0x15), (.mad, 0x16), (.madw, 0x17),
     (.min, 0x1A), (.max, 0x1B), (.abs, 0x1C), (.neg, 0x1D), (.lea, 0x1E), (.sad, 0x1F),
     (.and, 0x20), (.or, 0x21), (.xor, 0x22), (.not, 0x23), (.lut3, 0x24), (.shl, 0x25), (.shr, 0x26), (.sar, 0x27),
     (.rot, 0x28), (.funsh, 0x29), (.bfe, 0x2A), (.bfi, 0x2B), (.popc, 0x2C), (.clz, 0x2D), (.ctz, 0x2E), (.brev, 0x2F),
     (.fadd, 0x30), (.fsub, 0x31), (.fmul, 0x32), (.ffma, 0x33), (.fmin, 0x34), (.fmax, 0x35), (.frnd, 0x3E), (.ffrac, 0x3F),
     (.fclass, 0x40), (.fdot2, 0x41), (.flerp, 0x42), (.fscale, 0x43), (.kpack, 0x51), (.kunpk, 0x52),
     (.bytsel, 0x53), (.mov, 0x60), (.movi, 0x61), (.sel, 0x63), (.icmp, 0x64), (.fcmp, 0x65), (.plop, 0x66)]
  let late : List (Alu → Instr) :=
    [.div, .rem, .fdiv, .fsqrt, .frcp, .frsq, .fexp2, .flog2, .fsin, .fcos, .shfl, .vote, .redux, .scan]
  let conv (x : Alu) (i : Iss) : List Nat := (lanesOf i.lanes).flatMap fun l => operandKeys i.sp.wb x.d (cvtWidth (tyOf x)) l
  let high (x : Alu) (i : Iss) : List Nat := (lanesOf i.lanes).flatMap fun l => (operandKeys i.sp.wb x.d 64 l).drop 1
  let preds (x : Alu) (i : Iss) : List Nat := (lanesOf i.lanes).flatMap fun l =>
    if x.sub = 1 then ((List.range 8).filter fun p => bit (tailImm x.tail) p).map fun p => predKey p l
    else operandKeys i.sp.wb x.d 32 l
  (∀ e ∈ fixed, ∀ x s i t, Issues s x.ctl i → exec (e.1 x) s = .next t → KeptBut s t i (aluDest x e.2 i))
    ∧ (∀ e ∈ late, ∀ x s i t, Issues s x.ctl i → exec (e x) s = .next t → KeptBut s t i [])
    ∧ (∀ x s i t, Issues s x.ctl i → exec (.cvt x) s = .next t → KeptBut s t i (conv x i))
    ∧ (∀ x s i t, Issues s x.ctl i → exec (.movh x) s = .next t → KeptBut s t i (high x i))
    ∧ ∀ x s i t, Issues s x.ctl i → exec (.pmov x) s = .next t → KeptBut s t i (preds x i)

/-- R51, R220, R50: a register that is written reads as what was written, in its lane, by every name of the row that holds it; p0
discards writes and reads true; other registers keep their values. -/
def Claims.RegisterWriteThenRead : Prop :=
  ∀ (g : Group) (key : Nat) (v : Word), 0 < g.ident.rows →
    (¬ (256 ≤ key ∧ key < 288) → (g.writeReg key v).readReg key = v)
      ∧ (∀ k, ringKey g.ident.rows k ≠ ringKey g.ident.rows key → (g.writeReg key v).readReg k = g.readReg k)
      ∧ (∀ n l l' wb, n < 64 → l < 32 → l' < 32 → vecKey wb n l = vecKey wb n l' → l = l')
      ∧ (∀ l, (g.writeReg (predKey 0 l) v).readPred 0 l = true)
      ∧ ∀ row n l, n < 8 → l < 32 → ¬ (256 ≤ key ∧ key < 288) → key = rowKey row n l →
          (g.writeReg key v).readReg (rowKey (row + g.ident.rows) n l) = v

/-- The frame of the common class; a written register reads as written: `Claims.CommonClassFrame` and `Claims.RegisterWriteThenRead`. -/
def Obligations.CommonFrameAndRegisters : Prop :=
  Claims.CommonClassFrame ∧ Claims.RegisterWriteThenRead

/-- R67, R68, R202, R203, R419: an instruction that commits counts once and leaves the split at the next word; the run goes on at
the next clock, or ends at its 24th instruction, at a hint or at a taken branch, and the port's pointer moves past its slot. -/
def Claims.CommitAndRunAccounting : Prop :=
  (∀ (ctl : Ctl) (i : Iss) (u : State) (g : Group) (e : Split), u.group i.k = some g → Map.find g.live i.slot = some e →
    ∃ t g', (Eff.ok u).retire ctl i = State.account t i.k (ctl.sw || ctl.rb) ∧ Still u t ∧ t.runs = u.runs ∧ t.rr = u.rr
      ∧ t.bars = u.bars ∧ t.group i.k = some g' ∧ Committed ctl i g g'
      ∧ (∀ k, k ≠ i.k → t.group k = u.group k)
      ∧ Map.find g'.live i.slot = some { e with pc := i.sp.pc + 12, park := none, quiet := false, defer := false, fault := false }
      ∧ ∀ n, n ≠ i.slot → Map.find g'.live n = Map.find g.live n)
    ∧ ∀ (s : State) (k : Nat) (ends : Bool) (r : Run), Map.find s.runs (portKey k) = some r → r.group = k →
        (ends = false → r.count + 1 < 24 → s.account k ends
            = { s with runs := Map.set s.runs (portKey k) { r with count := r.count + 1, clock := r.clock + 1 } })
        ∧ (ends = true ∨ 24 ≤ r.count + 1 →
            Map.find (s.account k ends).runs (portKey k) = none ∧ Map.find (s.account k ends).rr (portKey k) = some (k % 16 + 1))

/-- R54, R112, R419: with no executing lane a word of the common class changes no register and no byte, raises no trap, and
counts. -/
def Claims.GuardedOffWordsOnlyCount : Prop :=
  ∀ ins ∈ ([.add, .sub, .addc, .mul, .mad, .div, .lea, .and, .lut3, .shl, .bfi, .popc, .fadd, .ffma, .fdiv, .fsin, .fclass, .cvt,
      .kpack, .bytsel, .mov, .movh, .sel, .icmp, .fcmp, .plop, .pmov, .shfl, .vote, .redux, .scan] : List (Alu → Instr)),
    ∀ x s i, Issues s x.ctl i → i.lanes = 0 →
      exec (ins x) s = .next ((Eff.ok (i.start s)).retire x.ctl i)

/-- A commit counts and advances; a word without lanes only counts: `Claims.CommitAndRunAccounting` and `Claims.GuardedOffWordsOnlyCount`. -/
def Obligations.CommitAndGuard : Prop :=
  Claims.CommitAndRunAccounting ∧ Claims.GuardedOffWordsOnlyCount

/-! ### Memory -/

/-- R138, R144, R145, R147, R148: a load, store or atomic whose lanes are all legal and find their pages performs every lane's
access in ascending order and commits; the results of loads land 28 clocks later or more, those of atomics 40 (R69).
Completes, with the conclusion exec i s = .next t under conditions on s and the operands alone: .ld, .st, .at, .atc, .red. -/
def Obligations.LaneAccessesComplete : Prop :=
  let completes (ins : Instr) (ctl : Ctl) (a : Access) (rd wr : Bool) (ops : Iss → List LaneOp) (s : State) (i : Iss) : Prop :=
    ∀ ps u, Passes a rd wr i (i.start s) (ops i) ps u →
      exec ins s = .next ((Eff.ok ((performed a i ps u).2.writeResult i.k a.lat (performed a i ps u).1)).retire ctl i)
  ∀ (x : MemW) (s : State) (i : Iss), Issues s x.ctl i →
    completes (.ld x) x.ctl (loadAccess x) true false (fun i => addressOps i x (destLanes x.d i.lanes)) s i
      ∧ completes (.st x) x.ctl (storeAccess x) false true (fun i => storeOps i x) s i
      ∧ ((x.pub = true → (i.start s).tileStores i.g = []) →
          completes (.at x) x.ctl (atAccess x true) true true (fun i => atomicOps i x (destLanes x.d i.lanes)) s i
            ∧ completes (.red x) x.ctl (atAccess x false) true true (fun i => atomicOps i x i.lanes) s i
            ∧ completes (.atc x) x.ctl (atcAccess x) true true (fun i => atomicOps i x (destLanes x.d i.lanes)) s i)

/-- R138: the address checks in their order over all lanes; the mask holds the lanes that fail the first failing check, the
address that of the lowest. -/
def Claims.AddressChecksInOrder : Prop :=
  ∀ (i : Iss) (s : State) (inC : Bool) (n : Nat) (ops : List LaneOp), (∀ o ∈ ops, o.lane < 32) →
    let size := (s.team i.g.ident.team).csize
    let far (o : LaneOp) : Prop := inC = false ∧ 2 ^ 52 ≤ o.x
    let out (o : LaneOp) : Prop := inC = true ∧ size ≤ o.x
    let odd (o : LaneOp) : Prop := o.x % n ≠ 0
    let names (p : LaneOp → Prop) (m : Lanes) (a : Nat) : Prop :=
      (∀ l, hasLane m l = true ↔ ∃ o ∈ ops, o.lane = l ∧ p o)
        ∧ ∃ before after o, ops = before ++ o :: after ∧ p o ∧ (∀ q ∈ before, ¬ p q) ∧ a = o.x
    (accessTrap i s inC n ops = none ↔ ∀ o ∈ ops, ¬ far o ∧ ¬ out o ∧ ¬ odd o)
      ∧ ∀ c m a, accessTrap i s inC n ops = some (c, m, a) →
          ((∃ o ∈ ops, far o) → c = 0x41 ∧ names far m a)
          ∧ ((∀ o ∈ ops, ¬ far o) → (∃ o ∈ ops, out o) → c = 0x42 ∧ names out m a)
          ∧ ((∀ o ∈ ops, ¬ far o ∧ ¬ out o) → c = 0x40 ∧ names odd m a)

/-- R138, R374: a load, store, probe or atomic with a failing check traps precisely, and changes no byte and no register; of an unprivileged
split it changes no other group; of a privileged split it is a context fault. -/
def Claims.AddressTrapIsPrecise : Prop :=
  ∀ (x : MemW) (s : State) (i : Iss), Issues s x.ctl i → (i.start s).tileStores i.g = [] →
    let traps (ins : Instr) (inC : Bool) (ops : List LaneOp) : Prop :=
      ∀ c m a, accessTrap i (i.start s) inC (memBytes x.width) ops = some (c, m, a) →
        let t := (Eff.trap (i.start s) c m a 0).retire x.ctl i
        exec ins s = .next t ∧ KeptBut s t i []
          ∧ (i.sp.priv = false → ∀ k, k ≠ i.k → t.group k = s.group k)
          ∧ (i.sp.priv = true → Map.find s.ctxs i.g.ident.ctx ≠ none → (t.ctx i.g.ident.ctx).state = .faulted)
    let loads := addressOps i x (destLanes x.d i.lanes)
    traps (.ld x) x.inC loads ∧ traps (.st x) x.inC (storeOps i x) ∧ traps (.ldp x) false loads
      ∧ traps (.at x) x.inC (atomicOps i x (destLanes x.d i.lanes)) ∧ traps (.red x) x.inC (atomicOps i x i.lanes)
      ∧ traps (.atc x) x.inC (atomicOps i x (destLanes x.d i.lanes))

/-- The address checks in their order, and the precise trap: `Claims.AddressChecksInOrder` and `Claims.AddressTrapIsPrecise`. -/
def Obligations.AddressChecks : Prop :=
  Claims.AddressChecksInOrder ∧ Claims.AddressTrapIsPrecise

/-- R128, R144: where no recorded write meets the loaded range, a load gives the bytes of memory, extended to its register, and
changes no byte; in every state each byte of a load is what its location holds or held before a recorded write; a load whose
newest write happens before it returns that write. -/
def Obligations.LoadedValues : Prop :=
  (∀ (x : MemW) (i : Iss) (o : LaneOp) (loc stamp : Nat) (u : State), x.width.toNat ≤ 4 →
    (∀ r ∈ u.order.writes, overlap r.loc r.old.length loc (memBytes x.width) = false) →
    let n := memBytes x.width
    let v := ofBytes (u.peek stamp loc n)
    let value := if x.sx = true ∧ n < 4 ∧ bit v (8 * n - 1) = true then v + (2 ^ 32 - 2 ^ (8 * n)) else v
    ((loadAccess x).act i o loc stamp u).1 = destWrites i.sp.wb x.d (dataWidth x.width) o.lane value
      ∧ SameMemory u ((loadAccess x).act i o loc stamp u).2)
    ∧ ∀ (u : State) (core : Nat) (w : Seen) (stamp loc n : Nat),
        let out := (u.load core w (fun _ _ => false) stamp loc n).1
        let here := u.order.writes.filter fun r => overlap r.loc r.old.length loc n
        out.length = n
          ∧ (∀ j, j < n → ∃ b, out[j]? = some (u.decrypt stamp (loc + j) b)
              ∧ (b = u.byte (loc + j)
                  ∨ ∃ r ∈ here, r.loc ≤ loc + j ∧ loc + j < r.loc + r.old.length ∧ r.old[loc + j - r.loc]? = some b))
          ∧ ∀ j, j < n → ∀ r, here.find? (fun r => r.covers (loc + j)) = some r →
              mayMiss (u.viewOf core w.view) w (loc + j) r = false →
              out[j]? = some (u.decrypt stamp (loc + j) (u.byte (loc + j)))

/-- R123, R145: a store writes the low bytes of its data at its address and nothing else, lane by lane; of two lanes that meet, the
higher one's byte stays. Every byte outside the lanes' ranges stays (the frame of ST). -/
def Claims.StoresWriteTheirBytesOnly : Prop :=
  ∀ (x : MemW) (s : State) (i : Iss) (ps : List Place) (u : State), Issues s x.ctl i →
    Passes (storeAccess x) false true i (i.start s) (storeOps i x) ps u →
    ∃ t, exec (.st x) s = .next t
      ∧ SameOutside s t (ps.map fun p => (p.loc, memBytes x.width))
      ∧ (∀ a p, (ps.filter fun p => p.loc ≤ a && a < p.loc + memBytes x.width).getLast? = some p →
          t.byte a = BitVec.ofNat 8 (p.op.b / 2 ^ (8 * (a - p.loc))))
      ∧ (∀ a, (∀ p ∈ ps, ¬ (p.loc ≤ a ∧ a < p.loc + memBytes x.width)) → t.byte a = s.byte a)

/-- R132, R147, R148: one lane of an atomic reads the newest value, writes the value of its operation, and gives the old one; ATC
writes only when the old value equals its compare value. No other byte changes. -/
def Claims.AtomicEffects : Prop :=
  ∀ (x : MemW) (i : Iss) (o : LaneOp) (loc stamp : Nat) (u : State),
    let n := memBytes x.width
    let w := 8 * n
    let old := ofBytes (u.peek stamp loc n)
    let b := o.b % 2 ^ w
    let new : Nat := match x.aop.toNat with
      | 0 => (old + b) % 2 ^ w
      | 1 => if sint w old ≤ sint w b then old else b
      | 2 => min old b
      | 3 => if sint w b ≤ sint w old then old else b
      | 4 => max old b
      | 5 => old &&& b
      | 6 => old ||| b
      | 7 => old ^^^ b
      | 9 => (f32.round .rne (addV .rne (f32.decode old) (f32.decode b)).1).1
      | _ => b
    let stored (v : State) (y : Nat) : Prop :=
      ∀ a, v.byte a = if loc ≤ a ∧ a < loc + n then BitVec.ofNat 8 (y / 2 ^ (8 * (a - loc))) else u.byte a
    (∀ ret, ((atAccess x ret).act i o loc stamp u).1 = (if ret then destWrites i.sp.wb x.d w o.lane old else [])
        ∧ stored ((atAccess x ret).act i o loc stamp u).2 new)
      ∧ ((atcAccess x).act i o loc stamp u).1 = destWrites i.sp.wb x.d w o.lane old ++ predWrites x.pd o.lane (decide (old = o.b))
      ∧ (old = o.b → stored ((atcAccess x).act i o loc stamp u).2 o.c)
      ∧ (old ≠ o.b → SameMemory u ((atcAccess x).act i o loc stamp u).2)

/-- A store writes its bytes and no others; atomics read the newest value and write their operation: `Claims.StoresWriteTheirBytesOnly` and `Claims.AtomicEffects`. -/
def Obligations.StoresAndAtomics : Prop :=
  Claims.StoresWriteTheirBytesOnly ∧ Claims.AtomicEffects

/-- R146: LDP raises no translation fault: a lane whose page lets it load gives the value and true, any other zero and false; the
results land 28 clocks later or more.
Completes, with the conclusion exec i s = .next t under conditions on s and the operands alone: .ldp. -/
def Claims.ProbesComplete : Prop :=
  ∀ (x : MemW) (s : State) (i : Iss) (ts : List (LaneOp × Tr)) (u : State), Issues s x.ctl i →
    (i.start s).tileStores i.g = [] →
    accessTrap i (i.start s) false (memBytes x.width) (addressOps i x (destLanes x.d i.lanes)) = none →
    watchTrap i (i.start s) false true false (memBytes x.width) (addressOps i x (destLanes x.d i.lanes)) = none →
    placeLanes i (loadAccess x) (addressOps i x (destLanes x.d i.lanes)) (i.start s) [] = (ts, u) →
    (∀ t ∈ ts, t.2 ≠ .stall) →
    (∀ t ∈ ts, ∀ loc stamp p l z, t.2 = .ok loc stamp p l z → u.readKills (some i.g.ident.core) i.g.ident.ctx loc (memBytes x.width) = none) →
    (probed x i ts u).2.1 = false →
    exec (.ldp x) s = .next ((Eff.ok ((probed x i ts u).2.2.outstanding i.k 28 true (probed x i ts u).1)).retire x.ctl i)

/-- R130, R150 to R152, R264: PUB, REF and PHASE release and acquire at their scope and park until complete; CFLUSH does so for the
lines that its lanes name; PREF changes nothing. PUB, PHASE and CFLUSH wait for the group's tile stores.
Completes, with the conclusion exec i s = .next t under conditions on s and the operands alone: .pub, .ref, .phase, .cflush, .pref. -/
def Claims.FencesComplete : Prop :=
  ∀ (x : MemW) (s : State) (i : Iss), Executes s x.ctl i →
    let s0 := i.start s
    let done (ins : Instr) (u : State) : Prop := exec ins s = .next ((Eff.park u (.completion .done)).retire x.ctl i)
    let pub (u : State) : State := u.updGroup i.k fun g => { g with seen := u.release g.ident.core g.ident.uid x.scope.code g.seen }
    let ref (u : State) : State := u.updGroup i.k fun g => { g with seen := acquire g.ident.core x.scope.code g.seen }
    (s0.tileStores i.g ≠ [] → ∀ ins ∈ [Instr.pub x, .phase x, .cflush x], exec ins s = .next ((Eff.hold s0 .issue).retire x.ctl i))
      ∧ (s0.tileStores i.g = [] → done (.pub x) (pub s0) ∧ done (.phase x) (ref (pub s0)))
      ∧ done (.ref x) (ref s0)
      ∧ exec (.pref x) s = .next ((Eff.ok s0).retire x.ctl i)
      ∧ ∀ (ps : List Place) (u : State), s0.tileStores i.g = [] → accessTrap i s0 false 1 (addressOps i x i.lanes) = none →
          placeLanes i (flushAccess x) (addressOps i x i.lanes) s0 [] = (ps.map Place.tr, u) →
          (∀ p ∈ ps, u.remoteFail i.g.ident.ctx p.loc = none) →
          ∃ v, done (.cflush x) v ∧ SameMemory s v ∧ v.order = u.order
            ∧ v = (ps.foldl (fun v p => v.updGroup i.k fun g =>
                { g with seen := v.flushLines g.ident.core g.ident.uid x.scope.code [p.loc / 128] g.seen }) u).landNow i.k []

/-- Probes, fences, flushes and prefetches complete: `Claims.ProbesComplete` and `Claims.FencesComplete`. -/
def Obligations.ProbesAndFences : Prop :=
  Claims.ProbesComplete ∧ Claims.FencesComplete

/-- R149: REDS gives one contribution a lane, in ascending lane order, and parks until all are answered.
Completes, with the conclusion exec i s = .next t under conditions on s and the operands alone: .reds. -/
def Claims.SequencedReductionsSend : Prop :=
  ∀ (x : MemW) (s : State) (i : Iss) (ps : List Place) (u : State), Executes s x.ctl i →
    (x.pub = true → (i.start s).tileStores i.g = []) →
    Passes (redsAccess x) true true i (i.start s) (redsOps i x) ps u →
    ∃ v, exec (.reds x) s = .next ((Eff.wait v (.completion (.reds x))).retire x.ctl i)
      ∧ SameMemory s v
      ∧ (v.contribs.map fun c : Contrib => { c with rels := [] }) = (u.contribs.map fun c : Contrib => { c with rels := [] })
          ++ (ps.zipIdx.map fun (p, n) =>
            ({ id := u.fresh + n, word := x, ctx := i.g.ident.ctx, addr := p.op.x, value := p.op.b, index := p.op.c, group := i.k,
               uid := i.g.ident.uid, slot := i.slot, lane := p.op.lane } : Contrib))

/-- R123, R149: a contribution whose turn among the lanes of its REDS has come and whose record is found at a location is
rejected with 0x86 (record or index wrong) or 0x85 (index used or held), waits beyond the window of 64, is held when its turn in
the stream has not come, and is applied when it has: VALUE and NEXT change together. One behind a lower lane waits.
Completes, with the conclusion exec i s = .next t under conditions on s and the operands alone: .redsContribution. -/
def Claims.SequencedReductionSlice : Prop :=
  ∀ (s : State) (c : Contrib), (s.contribs.find? fun d => d.id == c.id && !d.held) = some c →
    ∀ loc stamp pte level size u, s.placeHeld.translate c.ctx c.addr .atomic = (.ok loc stamp pte level size, u) →
      (u.behind c loc = true → exec (.redsContribution c.id) s = .next s)
      ∧ (u.behind c loc = false → (∀ w ∈ u.order.writes, w.id < u.order.next) →
        let r := ofBytes (u.peek stamp loc 64)
        let next := bits r 64 32
        let twice : Bool := u.contribs.any fun d => d.held && d.loc == some loc && d.index == c.index
        let without (s : State) : State := { s with contribs := s.contribs.filter (·.id != c.id) }
        (streamBad r c.a40 c.index = true → exec (.redsContribution c.id) s = .next (without (u.reject c 0x86)))
          ∧ (streamBad r c.a40 c.index = false → c.index < next ∨ twice = true →
              exec (.redsContribution c.id) s = .next (without (u.reject c 0x85)))
          ∧ (streamBad r c.a40 c.index = false → twice = false → next + 64 ≤ c.index → exec (.redsContribution c.id) s = .next u)
          ∧ (streamBad r c.a40 c.index = false → twice = false → next < c.index → c.index < next + 64 →
              (∀ d ∈ u.contribs, d.held = true → d.loc = some loc → d.index ≠ next) → (∀ d ∈ u.contribs, d.id = c.id → d = c) →
              exec (.redsContribution c.id) s
                = .next { u with contribs := u.contribs.map fun d => if d.id = c.id then { d with held := true, loc := some loc } else d })
          ∧ (streamBad r c.a40 c.index = false → twice = false → c.index = next →
              (∀ d ∈ u.contribs, d.held = false) → (∀ d ∈ u.contribs, d.id = c.id → d = c) → c ∈ u.contribs → next + 1 < 2 ^ 32 →
              ∃ t, exec (.redsContribution c.id) s = .next t ∧ t.contribs = u.contribs.filter (·.id != c.id)
                ∧ SameOutside u t [(loc, 12)]
                ∧ t.bytes loc 12 = toBytes 8 (if c.a40 then addA40 (decodeA40 (bits r 0 64)) (decodeA40 c.value)
                    else (f32.round .rne (addV .rne (f32.decode (bits r 0 32)) (f32.decode c.value)).1).1) ++ toBytes 4 (next + 1)))

/-- Sequenced reductions are sent and applied in order: `Claims.SequencedReductionsSend` and `Claims.SequencedReductionSlice`. -/
def Obligations.SequencedReductions : Prop :=
  Claims.SequencedReductionsSend ∧ Claims.SequencedReductionSlice

/-! ### Control, windows, special registers and traps -/

/-- R211 to R216: NOP changes nothing; BRA and BRX divide their split, or trap on a target that is no address; MERGE parks at
itself; EXIT takes its lanes out of the split, which goes on if lanes remain, and ends the handler when it takes its last lane (R374);
YIELD ends the run.
Completes, with the conclusion exec i s = .next t under conditions on s and the operands alone: .nop, .bra, .brx, .merge, .exit, .yield. -/
def Obligations.ControlTransfers : Prop :=
  ∀ (x : SysW) (s : State) (i : Iss), Issues s x.ctl i →
    let s0 := i.start s
    let goes (ins : Instr) (e : Eff) : Prop := exec ins s = .next (e.retire x.ctl i)
    let target : Int := i.sp.pc + 12 * x.imm.toInt
    let far (l : Nat) : Bool := 2 ^ 52 ≤ i.g.value i.sp.wb x.a 64 l
    let odd (l : Nat) : Bool := i.g.value i.sp.wb x.a 64 l % 4 != 0
    goes (.nop x) (.ok s0)
      ∧ (i.lanes = 0 → goes (.bra x) (.ok s0) ∧ goes (.brx x) (.ok s0) ∧ goes (.merge x) (.ok s0) ∧ goes (.exit x) (.ok s0)
          ∧ goes (.yield x) (.ok s0))
      ∧ (i.lanes ≠ 0 →
          (0 ≤ target → target < 2 ^ 52 →
            ∃ ps, Divides i (lanesGo i i.lanes fun _ => (target.toNat, i.sp.wb)) ps ∧ goes (.bra x) (.move s0 ps true))
          ∧ (target < 0 ∨ 2 ^ 52 ≤ target → goes (.bra x) (.trap s0 0x41 i.lanes (target % 2 ^ 64).toNat 0))
          ∧ ((∀ l, hasLane i.lanes l = true → far l = false ∧ odd l = false) →
              ∃ ps, Divides i (lanesGo i i.lanes fun l => (i.g.value i.sp.wb x.a 64 l, i.sp.wb)) ps ∧ goes (.brx x) (.move s0 ps true))
          ∧ (∀ bad l, Fails i.lanes far bad l → goes (.brx x) (.trap s0 0x41 bad (i.g.value i.sp.wb x.a 64 l) 0))
          ∧ (∀ bad l, (∀ l, hasLane i.lanes l = true → far l = false) → Fails i.lanes odd bad l →
              goes (.brx x) (.trap s0 0x00 bad (i.g.value i.sp.wb x.a 64 l) 0))
          ∧ goes (.merge x) (.wait s0 .merge)
          ∧ (i.sp.mask &&& ~~~ i.lanes = 0 → i.sp.priv = true →
              (∃ h, i.g.handler = some h ∧ h.cause ≠ 0xA1 ∧ h.cause ≠ 0xA3) →
              goes (.exit x) (.park ((s0.arriveAtExit i.k (i.g.lanes &&& ~~~ i.lanes)).updGroup i.k fun g =>
                g.updLive i.slot fun e => { e with mask := 0 }) (.completion .handlerEnd)))
          ∧ (¬ (i.sp.mask &&& ~~~ i.lanes = 0 ∧ i.sp.priv = true ∧ ∃ h, i.g.handler = some h ∧ h.cause ≠ 0xA1 ∧ h.cause ≠ 0xA3) →
              goes (.exit x) (.move (s0.arriveAtExit i.k (i.g.lanes &&& ~~~ i.lanes))
              [{ pc := i.sp.pc + 12, wb := i.sp.wb, mask := i.sp.mask &&& ~~~ i.lanes }] (i.sp.mask &&& ~~~ i.lanes == 0)))
          ∧ goes (.yield x) (.endRun (s0.updGroup i.k fun g => g.updLive i.slot fun e => { e with yielded := true })))

/-- R207: the first part of a divided split keeps its slot, the next take the free live slots in ascending order, the rest enter
the pending list at its tail; every part has clear flags and a wait count of 0, and the other entries stay. -/
def Claims.DivisionPlaces : Prop :=
  ∀ (g : Group) (slot : Nat) (e : Split) (p : Part) (ps : List Part), Map.find g.live slot = some e → slot < 4 →
    let mk (p : Part) : Split := { pc := p.pc, wb := p.wb, mask := p.mask, priv := e.priv }
    let free := (List.range 4).filter fun n => (Map.find g.live n).isNone
    let g' := g.divide slot (p :: ps)
    Map.find g'.live slot = some (mk p)
      ∧ (∀ (j n : Nat) (q : Part), free[j]? = some n → ps[j]? = some q → Map.find g'.live n = some (mk q))
      ∧ (∀ n, n ≠ slot → (∀ j, free[j]? = some n → ps.length ≤ j) → Map.find g'.live n = Map.find g.live n)
      ∧ g'.pend = g.pend ++ (ps.drop free.length).map mk
      ∧ g'.regs = g.regs ∧ g'.sr = g.sr

/-- R204, R205: settling changes no register, no window and no lane of a group: its lanes stay, and no lane is in two entries when
none was. -/
def Claims.SettlingKeepsLanes : Prop :=
  ∀ (g : Group) (l : Nat), (∀ e ∈ g.live, e.1 < 4) → (g.live.map (·.1)).Nodup →
    g.settle.regs = g.regs ∧ g.settle.sr = g.sr ∧ g.settle.spr = g.spr ∧ g.settle.ident = g.ident
      ∧ (hasLane g.settle.lanes l = hasLane g.lanes l)
      ∧ (∀ wb, (∃ e ∈ g.settle.entries, hasLane e.mask l = true ∧ e.wb = wb) → ∃ e ∈ g.entries, hasLane e.mask l = true ∧ e.wb = wb)
      ∧ ((g.entries.filter fun e => hasLane e.mask l).length ≤ 1 → (g.settle.entries.filter fun e => hasLane e.mask l).length ≤ 1)

/-- R211 to R216, R372: no control word changes a register or a byte of memory, a special register but ICOUNT (and FPFLAGS in no
way), or anything but groups, barriers and runs. -/
def Claims.ControlFrame : Prop :=
  ∀ ins ∈ ([.nop, .bra, .brx, .merge, .exit, .yield, .trap, .brk, .eret] : List (SysW → Instr)),
    ∀ (x : SysW) (s : State) (i : Iss) (t : State), Issues s x.ctl i → exec (ins x) s = .next t → KeptBut s t i []

/-- Where the parts of a divided split go; settling keeps the lanes; what the control words leave unchanged: `Claims.DivisionPlaces` and `Claims.SettlingKeepsLanes` and `Claims.ControlFrame`. -/
def Obligations.DivisionSettlingControlFrame : Prop :=
  Claims.DivisionPlaces ∧ Claims.SettlingKeepsLanes ∧ Claims.ControlFrame

/-- R221, R225: after a slide that commits every window of the group is resident; a slide is deferred exactly when the windows span
more rows than the ring; the spilled rows are those that leave at the bottom, the filled ones those that enter there. -/
def Claims.RingHoldsEveryWindow : Prop :=
  ∀ (spr rows w : Nat) (ws : List Nat),
    (adjust spr rows (w :: ws) = .defer ↔ ∃ a ∈ w :: ws, ∃ b ∈ w :: ws, rows + b < a + 7)
      ∧ ∀ spills fills spr' dropped, adjust spr rows (w :: ws) = .commit spills fills spr' dropped →
        (∀ a ∈ w :: ws, spr' ≤ a ∧ a + 7 ≤ spr' + rows)
          ∧ (∀ k, k ∈ spills ↔ spr ≤ k ∧ k < spr') ∧ (∀ k, k ∈ fills ↔ spr' ≤ k ∧ k < spr)
          ∧ (∀ k, k ∈ dropped ↔ spr' + rows ≤ k ∧ k < spr + rows)
          ∧ spills.Pairwise (· < ·) ∧ fills.Pairwise (· < ·)

/-- R228, R230, R231: a slide that spills stores, and one that fills loads, every row of 1,024 bytes at BSP + 1,024 k: memory
outside the spilled rows is unchanged, a spilled row holds the registers lane by lane, and a filled row's registers are what its
backing in this package holds. -/
def Claims.SpillsAndFills : Prop :=
  (∀ (s : State) (g : Group) (rows : List (Nat × List (Nat × Nat × Nat × Nat))),
      SameOutside s (s.spillRows g rows) (rows.flatMap fun r => r.2.map fun p => (p.1, min p.2.2.2 (1024 - p.2.2.1)))
      ∧ ∀ k loc stamp, rows = [(k, [(loc, stamp, 0, 1024)])] → nodeOf loc = none → ∀ l j, l < 32 → j < 8 →
          (s.spillRows g rows).bytes (loc + 32 * l + 4 * j) 4 = toBytes 4 (g.readReg (rowKey k j l)).toNat)
    ∧ ∀ (s : State) (g : Group) (k loc stamp : Nat), s.order.writes = [] → 0 < g.ident.rows → nodeOf loc = none →
        NoEngineLoads s g.ident.core g.seen →
        let g' := (s.fillRows g [(k, [(loc, stamp, 0, 1024)])]).1
        (s.fillRows g [(k, [(loc, stamp, 0, 1024)])]).2 = s
          ∧ (∀ l j, l < 32 → j < 8 → g'.readReg (rowKey k j l) = BitVec.ofNat 32 (ofBytes (s.peek stamp (loc + 32 * l + 4 * j) 4)))
          ∧ ∀ key, (∀ l j, l < 32 → j < 8 → ringKey g.ident.rows key ≠ ringKey g.ident.rows (rowKey k j l)) → g'.readReg key = g.readReg key

/-- The window ring, its spills and fills: `Claims.RingHoldsEveryWindow` and `Claims.SpillsAndFills`. -/
def Obligations.RegisterWindows : Prop :=
  Claims.RingHoldsEveryWindow ∧ Claims.SpillsAndFills

/-- R169: SVWIN stores the dirty rows from SPR to the top of the windows and leaves every row clean; LDWIN loads them all. Both wait for
the results of the rows, then for the group's tile stores to its backing (the model's choice, log entry 46); a fault or the end of the backing stops them at its row, with
the rows before it done. Each row is 1,024 bytes at BSP + 1,024 k; a clean row is not stored. SVWIN and LDWIN complete, `exec ins s = .next t`, where no row is
to be stored or the rows' backing is mapped.
Completes, with the conclusion exec i s = .next t under conditions on s and the operands alone: .svwin, .ldwin. -/
def Obligations.SaveWindowsComplete : Prop :=
  (∀ (x : SysW) (s : State) (i : Iss), Executes s x.ctl i → i.g.rowsBusy = false → (i.start s).backingClear i.g = true →
      ((∀ r ∈ i.g.windowRows, i.g.dirty.contains r = false) → exec (.svwin x) s = .next
          ((Eff.park ((i.start s).updGroup i.k fun g => { g with dirty := [] }) (.completion .done)).retire x.ctl i))
      ∧ (∀ r, i.g.dirty = [r] → r ∈ i.g.windowRows → i.g.windowRows.Nodup → i.g.ident.bsp + 1024 * (r + 1) ≤ i.g.ident.bsl →
          ∀ ps, (i.start s).mapRange i.g.ident.ctx (i.g.ident.bsp + 1024 * r) 1024 .write = (.ok ps, i.start s) →
          ∃ u, exec (.svwin x) s = .next ((Eff.park u (.completion .done)).retire x.ctl i) ∧ SameOutside s u (ps.map fun p => (p.1, p.2.2.2)))
      ∧ (s.order.writes = [] → (∀ r ∈ i.g.windowRows, ∃ ps, Local ps ∧ ∀ (g : Map Group) (e : Map Engine),
            State.mapRange { i.start s with groups := g, engines := e } i.g.ident.ctx (i.g.ident.bsp + 1024 * r) 1024 .read
              = (.ok ps, { i.start s with groups := g, engines := e })) →
          ∃ u, exec (.ldwin x) s = .next ((Eff.park u (.completion .done)).retire x.ctl i) ∧ SameMemory s u))
  ∧ (∀ (x : SysW) (s : State) (i : Iss) (save : Bool), Executes s x.ctl i →
    let ins : Instr := if save then .svwin x else .ldwin x
    let s0 := i.start s
    let h : Held := { instr := ins, pc := i.sp.pc, lanes := i.lanes }
    let goes (e : Eff) : Prop := exec ins s = .next (e.retire x.ctl i)
    (i.g.rowsBusy = true → goes (.hold s0 (.transfer h)))
      ∧ (i.g.rowsBusy = false → s0.backingClear i.g = false → goes (.hold s0 .issue))
      ∧ (i.g.rowsBusy = false → s0.backingClear i.g = true → ∀ r u, windowRun save i.k i.g.windowRows s0 = (r, u) → goes (match r with
          | none => .park (u.updGroup i.k fun g => { g with dirty := [] }) (.completion .done)
          | some (.bad c va) => .fault (u.updGroup i.k fun g => { g with sr := { g.sr with trapaddr := va } })
              { cause := if save then 0x30 else 0x31, src := 1, va, sub := c } .reissue false
          | some (.limit va) => .trap u 0x13 i.lanes va 0
          | some .stall => .hold u (.transfer h))))
    ∧ ∀ (s : State) (k r : Nat) (g : Group) (ps : List (Nat × Nat × Nat × Nat)), s.group k = some g →
        let clean : Group := { g with dirty := g.dirty.filter (· != r) }
        (g.dirty.contains r = false → windowRun true k [r] s = (none, s))
          ∧ (g.dirty.contains r = true → g.ident.bsl < g.ident.bsp + 1024 * (r + 1) →
              windowRun true k [r] s = (some (.limit (g.ident.bsp + 1024 * r)), s))
          ∧ (g.dirty.contains r = true → g.ident.bsp + 1024 * (r + 1) ≤ g.ident.bsl →
              s.mapRange g.ident.ctx (g.ident.bsp + 1024 * r) 1024 .write = (.ok ps, s) →
              ps.Pairwise (fun p q => p.1 + p.2.2.2 ≤ q.1 ∨ q.1 + q.2.2.2 ≤ p.1) → Local ps →
              ∃ t, windowRun true k [r] s = (none, t) ∧ t.group k = some clean ∧ SameOutside s t (ps.map fun p => (p.1, p.2.2.2))
                ∧ ∀ p ∈ ps, t.bytes p.1 p.2.2.2 = ((g.rowBytes r).drop p.2.2.1).take p.2.2.2)
          ∧ (s.mapRange g.ident.ctx (g.ident.bsp + 1024 * r) 1024 .read = (.ok ps, s) → s.order.writes = [] → Local ps → 0 < g.ident.rows →
              ∃ t g', windowRun false k [r] s = (none, t) ∧ SameMemory s t ∧ t.group k = some g' ∧ g'.dirty = clean.dirty ∧ g'.sr = g.sr
                ∧ (∀ l j, l < 32 → j < 8 → g'.readReg (rowKey r j l) = BitVec.ofNat 32
                    (ofBytes (((ps.flatMap fun p => s.peek p.2.1 p.1 p.2.2.2).drop (32 * l + 4 * j)).take 4)))
                ∧ ∀ key, (∀ l j, l < 32 → j < 8 → ringKey g.ident.rows key ≠ ringKey g.ident.rows (rowKey r j l)) → g'.readReg key = g.readReg key)

/-- R223, R224, R233, R235, R237, R238: CALL, RET and CALLI with no row to transfer: the checks in their order, then the slide with the link
in v14:v15 of the callee's window.
Completes, with the conclusion exec i s = .next t under conditions on s and the operands alone: .call, .ret. -/
def Claims.WindowSlides : Prop :=
  ∀ (x : SysW) (s : State) (i : Iss), Executes s x.ctl i →
    let s0 := i.start s
    let goes (ins : Instr) (e : Eff) : Prop := exec ins s = .next (e.retire x.ctl i)
    let wb := i.sp.wb
    let n := x.arg.toNat % 8
    let target : Int := i.sp.pc + 12 * x.imm.toInt
    let link (n : Nat) : Nat := (i.sp.pc + 12) % 2 ^ 52 + n * 2 ^ 60
    let linkWrites (l n : Nat) : List RegWrite :=
      [{ key := rowKey (wb + n) 6 l, lane := l, val := BitVec.ofNat 32 (link n) },
       { key := rowKey (wb + n) 7 l, lane := l, val := BitVec.ofNat 32 (link n / 2 ^ 32) }]
    let back (l : Nat) : Nat := i.g.value wb (.v 14) 64 l
    let invalid (l : Nat) : Bool :=
      bits (back l) 52 8 != 0 || bits (back l) 60 4 == 0 || bits (back l) 60 4 > 7 || bits (back l) 60 4 > wb || back l % 4 != 0
    (i.sp.priv = true → goes (.call x) (.trap s0 0x11 i.lanes 0 0) ∧ goes (.ret x) (.trap s0 0x11 i.lanes 0 0)
        ∧ goes (.calli x) (.trap s0 0x11 i.lanes 0 0))
      ∧ (i.sp.priv = false →
          (target < 0 ∨ 2 ^ 52 ≤ target → goes (.call x) (.trap s0 0x41 i.lanes (target % 2 ^ 64).toNat 0))
          ∧ (0 ≤ target → target < 2 ^ 52 →
              Slides (.call x) x.ctl i s (lanesGo i i.lanes fun _ => (target.toNat, wb + n)) ((lanesOf i.lanes).flatMap fun l => linkWrites l n))
          ∧ (∀ bad l, Fails i.lanes invalid bad l → goes (.ret x) (.trap s0 0x15 bad (back l) 0))
          ∧ ((∀ l, hasLane i.lanes l = true → invalid l = false) →
              Slides (.ret x) x.ctl i s (lanesGo i i.lanes fun l => (back l % 2 ^ 52, wb - bits (back l) 60 4)) []))

/-- R236, R237: CALLI reads each executing lane's record of the shader table. An index at or above STABN raises 0x14. With every
record present and well formed, the lanes whose ENTRY is not null go there with their slide, their link and, with PARAMW, their
parameter; the others go on.
Completes, with the conclusion exec i s = .next t under conditions on s and the operands alone: .calli. -/
def Claims.IndirectCalls : Prop :=
  ∀ (x : SysW) (s : State) (i : Iss) (at_ : Nat → Nat × Nat), Executes s x.ctl i → i.sp.priv = false →
    let s0 := i.start s
    let wb := i.sp.wb
    let idx (l : Nat) : Nat := i.g.operand wb x.a 32 l id x.imm.toNat
    let beyond (l : Nat) : Bool := i.g.sr.stabn ≤ idx l
    let va (l : Nat) : Nat := i.g.sr.stab + idx l * i.g.sr.stabs
    let record (l : Nat) : Nat := ofBytes (s0.peek (at_ l).2 (at_ l).1 16)
    let wrong (r : Nat) : Prop :=
      bits r 0 64 ≠ 0 ∧ (bits r 0 64 % 4 ≠ 0 ∨ 2 ^ 52 ≤ bits r 0 64 ∨ bits r 64 8 = 0 ∨ 7 < bits r 64 8 ∨ bits r 73 7 ≠ 0 ∨ bits r 112 16 ≠ 0)
    let goes (l : Nat) : Bool := hasLane i.lanes l && bits (record l) 0 64 != 0
    let slide (l : Nat) : Nat := bits (record l) 64 8
    let link (n : Nat) : Nat := (i.sp.pc + 12) % 2 ^ 52 + n * 2 ^ 60
    (∀ bad l, Fails i.lanes beyond bad l → exec (.calli x) s = .next ((Eff.trap s0 0x14 bad (idx l) 0).retire x.ctl i))
      ∧ ((∀ l, hasLane i.lanes l = true → beyond l = false ∧ va l + 16 ≤ 2 ^ 52 ∧ ¬ wrong (record l)
            ∧ s0.mapRange i.g.ident.ctx (va l) 16 .read = (.ok [((at_ l).1, (at_ l).2, 0, 16)], s0)
            ∧ s0.readKills (some i.g.ident.core) i.g.ident.ctx (at_ l).1 16 = none
            ∧ nodeOf (at_ l).1 = none) →
          s0.order.writes = [] → s0.tileStores i.g = [] → NoEngineLoads s0 i.g.ident.core i.g.seen →
          Slides (.calli x) x.ctl i s
            (fun l => if goes l then (bits (record l) 0 64, wb + slide l) else (i.sp.pc + 12, wb))
            ((lanesOf i.sp.mask).flatMap fun l =>
              if goes l then
                [{ key := rowKey (wb + slide l) 6 l, lane := l, val := BitVec.ofNat 32 (link (slide l)) },
                 { key := rowKey (wb + slide l) 7 l, lane := l, val := BitVec.ofNat 32 (link (slide l) / 2 ^ 32) }]
                ++ (if bit (record l) 72 then [{ key := rowKey (wb + slide l) 5 l, lane := l, val := BitVec.ofNat 32 (bits (record l) 80 32) }] else [])
              else []))

/-- CALL, RET and CALLI: `Claims.WindowSlides` and `Claims.IndirectCalls`. -/
def Obligations.CallsAndReturns : Prop :=
  Claims.WindowSlides ∧ Claims.IndirectCalls

/-- R79, R218: SREAD writes the register's value, sampled at issue, to D of every executing lane, as one or two words; FPFLAGS
first parks the split until every outstanding result has landed.
Completes, with the conclusion exec i s = .next t under conditions on s and the operands alone: .sread. -/
def Claims.SpecialRegisterReads : Prop :=
  ∀ (x : SysW) (s : State) (i : Iss), Executes s x.ctl i →
    let id := i.g.ident
    let r := i.g.sr
    let named : List (Nat × Nat) :=
      [(0x00, i.sp.mask.toNat), (0x01, i.slot), (0x02, i.sp.wb), (0x03, i.g.spr), (0x04, id.bsp), (0x05, id.bsl), (0x06, r.stab),
       (0x07, r.stabn), (0x08, r.stabs), (0x10, id.gid), (0x11, id.x), (0x12, id.y), (0x13, id.z), (0x14, id.launch),
       (0x15, id.core % 128), (0x16, id.core % 128 / 4), (0x17, id.core / 128), (0x20, r.icount), (0x21, r.fpctl), (0x23, r.barstat),
       (0x30, r.trapcause), (0x31, r.trappc), (0x32, r.trapmask.toNat), (0x33, r.trapaddr), (0x34, r.trapaux),
       (0x40, (s.port (s.ctx id.ctx).port).now), (0x50, (s.ctx id.ctx).keyId)]
    let wide : List Nat := [0x04, 0x05, 0x06, 0x20, 0x31, 0x33, 0x40]
    (∀ n v, (n, v) ∈ named → x.arg.toNat = n →
        exec (.sread x) s = .next ((Eff.ok ((i.start s).landNow i.k ((lanesOf (destLanes x.d i.lanes)).flatMap fun l =>
          destWrites i.sp.wb x.d (if n ∈ wide then 64 else 32) l v))).retire x.ctl i))
      ∧ (x.arg = 0x22 →
          exec (.sread x) s = .next ((Eff.park (i.start s) (.completion (.readFlags x.d (destLanes x.d i.lanes)))).retire x.ctl i))

/-- R7, R80, R219: SWRITE writes the value of the lowest executing lane: STAB without its low four bits, STABN up to 1,048,576 and
STABS a multiple of 16 from 16 to 256 (else 0x03), FPCTL, in the handler TRAPPC and TRAPMASK (a bit outside the split's lanes
raises 0x19); FPFLAGS under its park; a read-only register stays. With no executing lane nothing is written.
Completes, with the conclusion exec i s = .next t under conditions on s and the operands alone: .swrite. -/
def Claims.SpecialRegisterWrites : Prop :=
  ∀ (x : SysW) (s : State) (i : Iss), Issues s x.ctl i →
    let n := x.arg.toNat
    let w := if n = 0x06 ∨ n = 0x31 ∨ n = 0x04 ∨ n = 0x05 ∨ n = 0x20 ∨ n = 0x33 ∨ n = 0x40 then 64 else 32
    let v := i.g.operand i.sp.wb x.a w (lowest i.lanes) id x.imm.toNat
    let goes (e : Eff) : Prop := exec (.swrite x) s = .next (e.retire x.ctl i)
    let writes (f : Spr → Spr) : Prop := goes (.ok ((i.start s).updGroup i.k fun g => { g with sr := f g.sr }))
    (i.lanes = 0 → goes (.ok (i.start s)))
      ∧ (i.lanes ≠ 0 →
          (n = 0x06 → writes fun r => { r with stab := v - v % 16 })
          ∧ (n = 0x07 → v ≤ 1048576 → writes fun r => { r with stabn := v })
          ∧ (n = 0x07 → 1048576 < v → goes (.trap (i.start s) 0x03 i.sp.mask 0 0xE1))
          ∧ (n = 0x08 → v % 16 = 0 → 16 ≤ v → v ≤ 256 → writes fun r => { r with stabs := v })
          ∧ (n = 0x08 → (v % 16 ≠ 0 ∨ v < 16 ∨ 256 < v) → goes (.trap (i.start s) 0x03 i.sp.mask 0 0xE1))
          ∧ (n = 0x21 → writes fun r => { r with fpctl := v % 64 })
          ∧ (n = 0x22 → goes (.park (i.start s) (.completion (.writeFlags (v % 64)))))
          ∧ (n = 0x31 → writes fun r => { r with trappc := v })
          ∧ (n = 0x32 → (∀ l, bit v l = true → hasLane i.sp.mask l = true) → writes fun r => { r with trapmask := BitVec.ofNat 32 v })
          ∧ (n = 0x32 → (∃ l, bit v l = true ∧ hasLane i.sp.mask l = false) → goes (.trap (i.start s) 0x19 i.lanes 0 0))
          ∧ (n ∉ [0x06, 0x07, 0x08, 0x21, 0x22, 0x31, 0x32] → goes (.ok (i.start s))))

/-- Special registers are read and written: `Claims.SpecialRegisterReads` and `Claims.SpecialRegisterWrites`. -/
def Obligations.SpecialRegisters : Prop :=
  Claims.SpecialRegisterReads ∧ Claims.SpecialRegisterWrites

/-- R372, R373, R376: TRAP n and BRK commit and raise 0xA8 + n or 0xA4 with the executing lanes and IMM, TRAPPC at the next word; the
trap waits in its group, no register changes, and the split does not issue until its delivery.
Completes, with the conclusion exec i s = .next t under conditions on s and the operands alone: .trap, .brk. -/
def Claims.SoftwareTraps : Prop :=
  ∀ (x : SysW) (s : State) (i : Iss), Issues s x.ctl i →
    let traps (ins : Instr) (cause : Nat) : Prop :=
      (i.lanes = 0 → exec ins s = .next ((Eff.ok (i.start s)).retire x.ctl i))
        ∧ (i.lanes ≠ 0 → i.sp.priv = false →
          ∃ t g', exec ins s = .next t ∧ t.group i.k = some g' ∧ g'.regs = i.g.regs ∧ SameMemory s t
            ∧ g'.traps = insertTrap { clock := s.clock, slot := i.slot, cause, mask := i.lanes, addr := 0, aux := x.imm.toNat,
                                      pc := i.sp.pc + 12, rpc := i.sp.pc } i.g.traps
            ∧ g'.trapped i.slot = true ∧ (i.g.handler = none → g'.issuable = []))
    traps (.trap x) (0xA8 + x.arg.toNat % 8) ∧ traps (.brk x) 0xA4

/-- R374, R375: ERET outside the handler, or in the save or restore handler, raises 0x10; with a TRAPPC that is no word's address
0x18; else it waits for every outstanding result before the handler ends. A trap of a privileged split is a context fault.
Completes, with the conclusion exec i s = .next t under conditions on s and the operands alone: .eret. -/
def Claims.ReturnFromHandler : Prop :=
  ∀ (x : SysW) (s : State) (i : Iss), Issues s x.ctl i →
    let special : Prop := ∃ h, i.g.handler = some h ∧ (h.cause = 0xA1 ∨ h.cause = 0xA3)
    let goes (e : Eff) : Prop := exec (.eret x) s = .next (e.retire x.ctl i)
    (i.lanes = 0 → goes (.ok (i.start s)))
      ∧ (i.lanes ≠ 0 → i.sp.priv = false ∨ special → goes (.trap (i.start s) 0x10 i.lanes 0 0))
      ∧ (i.lanes ≠ 0 → i.sp.priv = true → ¬ special →
          (i.g.sr.trappc % 4 ≠ 0 ∨ 2 ^ 52 ≤ i.g.sr.trappc → goes (.trap (i.start s) 0x18 i.lanes 0 0))
          ∧ (i.g.sr.trappc % 4 = 0 → i.g.sr.trappc < 2 ^ 52 → goes (.wait (i.start s) (.completion .handlerEnd))))
      ∧ ∀ (u : State) (k : Nat) (t : Trap) (g : Group) (e : Split), u.group k = some g → Map.find g.live t.slot = some e → e.priv = true →
          u.raiseTrap k t = u.contextFault g.ident.ctx t.cause

/-- TRAP and BRK raise their cause; ERET waits to end the handler: `Claims.SoftwareTraps` and `Claims.ReturnFromHandler`. -/
def Obligations.SoftwareTrapsAndReturn : Prop :=
  Claims.SoftwareTraps ∧ Claims.ReturnFromHandler

/-- R373: entry to the handler: with every outstanding result landed, the fields FIXED, SREGS, PREDS, FPCTL, FPFLAGS, STABN, STAB,
STABS and ICOUNT are stored in the group record at BSL; TRAPCAUSE, TRAPPC, TRAPMASK, TRAPADDR and TRAPAUX are set; the split becomes
privileged at SAVEPC, with its lanes and window; FPCTL and FPFLAGS become 0; no other split of the group may issue. An asynchronous
cause takes the PC and the lanes of its split as they are then.
Completes, with the conclusion exec i s = .next t under conditions on s and the operands alone: .handlerEntry. -/
def Claims.HandlerEntry : Prop :=
  ∀ (s : State) (k : Nat) (g : Group) (t : Trap) (ts : List Trap) (e : Split),
    s.group k = some g → g.traps = t :: ts → g.handler = none → g.fault = none → g.saving = false → g.phase = .active → g.outst = [] →
    g.stalled = false → s.running k = false → g.bad = [] → s.backingClear g = true → Map.find g.live t.slot = some e →
    (∀ x ∈ g.live, x.1 ≠ t.slot → x.2.priv = false) →
    let pc := if t.whole then e.pc else t.pc
    let mask := if t.whole then e.mask else t.mask
    ∀ u, s.storeParts g g.ident.bsl g.recordFields = .ok u →
      ∃ v g' e', exec (.handlerEntry k) s = .next v ∧ v.group k = some g' ∧ Map.find g'.live t.slot = some e'
        ∧ (∀ a, v.byte a = u.byte a)
        ∧ (∀ base stamp, (∀ o, o < 0x4C8 → nodeOf (base + o) = none) → (∀ f ∈ [(0, 0x4A0), (0x4A4, 0x18), (0x4C0, 8)], s.mapRange g.ident.ctx (g.ident.bsl + f.1) f.2 .write
              = (.ok ((linePieces (f.2 / 128 + 2) (g.ident.bsl + f.1) 0 f.2).map fun p => (base + f.1 + p.1, stamp, p.1, p.2)), s)) →
            (∀ n l, n < 8 → l < 32 → v.bytes (base + 32 * l + 4 * n) 4 = toBytes 4 (g.readReg (fixedKey n l)).toNat)
              ∧ (∀ n, n < 32 → v.bytes (base + 0x400 + 4 * n) 4 = toBytes 4 (g.readReg (scalarKey n)).toNat)
              ∧ (∀ p l, p < 8 → l < 32 → bit (v.byte (base + 0x480 + l)).toNat p = g.readPred p l)
              ∧ v.bytes (base + 0x4A4) 4 = toBytes 4 g.sr.fpctl ∧ v.bytes (base + 0x4A8) 4 = toBytes 4 g.sr.fpflags
              ∧ v.bytes (base + 0x4AC) 4 = toBytes 4 g.sr.stabn ∧ v.bytes (base + 0x4B0) 8 = toBytes 8 g.sr.stab
              ∧ v.bytes (base + 0x4B8) 4 = toBytes 4 g.sr.stabs ∧ v.bytes (base + 0x4C0) 8 = toBytes 8 g.sr.icount
              ∧ SameOutside s v [(base, 0x4A0), (base + 0x4A4, 0x18), (base + 0x4C0, 8)])
        ∧ g'.sr = { g.sr with trapcause := t.cause, trappc := pc, trapmask := mask, trapaddr := t.addr, trapaux := t.aux,
                              fpctl := 0, fpflags := 0 }
        ∧ e'.priv = true ∧ e'.pc = (s.ctx g.ident.ctx).rc.savepc ∧ e'.mask = e.mask ∧ e'.wb = e.wb ∧ e'.park = none
        ∧ g'.regs = g.regs ∧ g'.spr = g.spr ∧ g'.traps = ts
        ∧ (∀ n, n ∈ g'.issuable.map (·.1) → n = t.slot)
        ∧ (∀ n, n ≠ t.slot → Map.find g'.live n = Map.find g.live n)
        ∧ (∀ j, j ≠ k → v.group j = s.group j)

/-- R374, R375: the end of the handler, when every outstanding result has landed: v0 to v7, the scalars, p1 to p7, FPCTL, FPFLAGS and
the shader-table registers are what the record at BSL holds, privilege ends, and the split goes on at TRAPPC.
Completes, with the conclusion exec i s = .next t under conditions on s and the operands alone: .completionParkEnd. -/
def Claims.HandlerEnd : Prop :=
  ∀ (s : State) (k slot : Nat) (g : Group) (e : Split) (ps : List (Nat × Nat × Nat × Nat)) (u : State),
    s.group k = some g → Map.find g.live slot = some e → e.park = some (.completion .handlerEnd) → g.fault = none → g.outst = [] →
    s.backingClear g = true → s.mapRange g.ident.ctx g.ident.bsl 0x4C8 .read = (.ok ps, u) → u.poison = [] → u.order.writes = [] →
    Local ps → NoEngineLoads u g.ident.core g.seen → u.group k = some g → 0 < g.ident.rows →
    let record := ps.flatMap fun p => u.peek p.2.1 p.1 p.2.2.2
    let word (off : Nat) : Word := BitVec.ofNat 32 (ofBytes ((record.drop off).take 4))
    let field (off n : Nat) : Nat := ofBytes ((record.drop off).take n)
    ∃ g', exec (.completionParkEnd k slot) s = .next ((u.setGroup k g').settle k)
      ∧ (∀ n l, n < 8 → l < 32 → g'.readReg (fixedKey n l) = word (32 * l + 4 * n))
      ∧ (∀ n, n < 32 → g'.readReg (scalarKey n) = word (0x400 + 4 * n))
      ∧ (∀ p l, 0 < p → p < 8 → l < 32 → g'.readPred p l = bit (field (0x480 + l) 1) p)
      ∧ (∀ key, 1024 ≤ key → g'.readReg key = g.readReg key)
      ∧ g'.sr = { g.sr with fpctl := field 0x4A4 4 % 64, fpflags := field 0x4A8 4 % 64, stabn := field 0x4AC 4,
                            stab := field 0x4B0 8 - field 0x4B0 8 % 16, stabs := field 0x4B8 4, icount := field 0x4C0 8 }
      ∧ Map.find g'.live slot = some { e with priv := false, pc := g.sr.trappc, park := none, quiet := true }
      ∧ ((g.live.map (·.1)).Nodup → (∀ x ∈ g.live, x.1 ≠ slot → x.2.priv = false) → (∀ e ∈ g.pend, e.priv = false) → g'.handler = none)

/-- What entry to a trap handler saves, and its end restores: `Claims.HandlerEntry` and `Claims.HandlerEnd`. -/
def Obligations.TrapEntryAndEnd : Prop :=
  Claims.HandlerEntry ∧ Claims.HandlerEnd

/-- R380, R381: a word that reads a poisoned register, be it its guard in a lane of the split, or a vector register, scalar register or
predicate that is a source in a lane that reads it, kills its group: nothing of the word takes effect, the group is gone, and every other
group keeps its registers but for the departures of barriers. -/
def Obligations.PoisonKills : Prop :=
  ∀ (s : State) (i : Iss) (ctl : Ctl) (key cause : Nat), s.issuing ctl = some i → i.g.poisoned key = some cause →
    (∀ e ∈ i.g.bad, e.2 = cause) →
    let dies (ins : Instr) : Prop :=
      ∃ loc t, exec ins s = .next t ∧ t = (i.start s).kill i.k cause loc ∧ t.group i.k = none
        ∧ ∀ j g', t.group j = some g' → ∃ g, s.group j = some g ∧ g'.ident = g.ident ∧ (g.awaits = false → g'.regs = g.regs)
    let guard : Prop := ∃ l, hasLane i.sp.mask l = true ∧ key = predKey ctl.pred.val l
    let reads (o : Operand) (w : Nat) (m : Lanes) : Prop := ∃ l, hasLane m l = true ∧ key ∈ operandKeys i.sp.wb o w l
    let words : List ((Alu → Instr) × Nat) :=
      [(.add, 0x10), (.sub, 0x11), (.addc, 0x12), (.subb, 0x13), (.mul, 0x14), (.mulh, 0x15), (.mad, 0x16), (.madw, 0x17), (.div, 0x18),
       (.rem, 0x19), (.min, 0x1A), (.max, 0x1B), (.abs, 0x1C), (.neg, 0x1D), (.lea, 0x1E), (.sad, 0x1F),
       (.and, 0x20), (.or, 0x21), (.xor, 0x22), (.not, 0x23), (.lut3, 0x24), (.shl, 0x25), (.shr, 0x26), (.sar, 0x27),
       (.rot, 0x28), (.funsh, 0x29), (.bfe, 0x2A), (.bfi, 0x2B), (.popc, 0x2C), (.clz, 0x2D), (.ctz, 0x2E), (.brev, 0x2F),
       (.fadd, 0x30), (.fsub, 0x31), (.fmul, 0x32), (.ffma, 0x33), (.fmin, 0x34), (.fmax, 0x35), (.fdiv, 0x36), (.fsqrt, 0x37),
       (.frcp, 0x38), (.frsq, 0x39), (.fexp2, 0x3A), (.flog2, 0x3B), (.fsin, 0x3C), (.fcos, 0x3D), (.frnd, 0x3E), (.ffrac, 0x3F),
       (.fclass, 0x40), (.fdot2, 0x41), (.flerp, 0x42), (.fscale, 0x43), (.kpack, 0x51), (.kunpk, 0x52), (.bytsel, 0x53),
       (.mov, 0x60), (.movi, 0x61), (.sel, 0x63), (.icmp, 0x64), (.fcmp, 0x65), (.plop, 0x66)]
    (∀ e ∈ words, ∀ x : Alu, x.ctl = ctl →
        let row := Alu.row x e.2
        let m := destLanes x.d i.lanes
        guard ∨ (∃ w, roleW row.a = some w ∧ reads x.a w m) ∨ (∃ w, roleW row.b = some w ∧ reads x.b w m)
          ∨ (∃ w, croleW row.c = some w ∧ reads (tailOperand x.tail) w m) → dies (e.1 x))
      ∧ (∀ x : Alu, x.ctl = ctl → ∀ ins ∈ ([.movh, .pmov, .cvt, .shfl, .vote, .redux, .scan] : List (Alu → Instr)), guard → dies (ins x))
      ∧ (∀ x : MemW, x.ctl = ctl →
          let w := if x.inC then 32 else 64
          (guard ∨ reads x.a w (destLanes x.d i.lanes) → dies (.ld x))
            ∧ (guard ∨ reads x.a w i.lanes ∨ reads x.b (dataWidth x.width) i.lanes → dies (.st x))
            ∧ (guard ∨ reads x.a w (destLanes x.d i.lanes) ∨ reads x.b (8 * memBytes x.width) (destLanes x.d i.lanes) → dies (.at x)))
      ∧ ∀ x : SysW, x.ctl = ctl →
          (guard → ∀ ins ∈ ([.nop, .bra, .brx, .merge, .exit, .yield, .call, .ret, .trap, .brk, .sread, .swrite] : List (SysW → Instr)), dies (ins x))
            ∧ (reads x.a 64 i.lanes → dies (.brx x)) ∧ (reads (.v 14) 64 i.lanes → dies (.ret x))

/-- R380, R383: ECC_CORRECTED and ECC_UNCORRECTABLE complete in every state, `exec (.eccCorrected x) s = .next t` and
`exec (.eccUncorrectable x) s = .next t`: a corrected error is only logged; an uncorrectable one also poisons its granule, of 4 bytes in a register and 8 elsewhere,
which a store of the whole granule clears; that of an L1 or an instruction cache is its core's alone. A log record is 16 bytes at its place in the owning port's ring, the write index moves on,
and the host is told when LOGCTL asks for it; with the ring full, an event of a record that the host has not read is counted in it, and
any other is counted as lost. That a vector of 2,048 or more sends nothing is the model's choice (log entry 32).
Completes, with the conclusion exec i s = .next t under conditions on s and the operands alone: .eccCorrected, .eccUncorrectable. -/
def Claims.ErrorsAreLogged : Prop :=
  (∀ (x : EccAt) (s : State), x.unit ≠ .carried →
      let cause := match x.unit with
        | .vreg => 0x96 | .sreg => 0x97 | .l1 => 0x98 | .scratch => 0x99 | .slots => 0x9A | .cache => 0x9B | .surface => 0x9C
        | .gddr7 => 0x9D | .fetch => 0x9E | .carried => 0x9F
      let gid := if x.unit = .vreg ∨ x.unit = .sreg then ((s.group (groupKey x.core x.slot)).map (·.ident.gid)).getD 0 else 0
      let event (kind : Nat) : LogRec := { cause, kind, ctx := x.ctx, die := x.core / 128, core := x.core % 128, slot := x.slot, gid, loc := x.loc }
      exec (.eccCorrected x) s = .next (s.log (event 0))
        ∧ ∃ u, exec (.eccUncorrectable x) s = .next (u.log (event 4)) ∧ SameMemory s u
          ∧ (x.unit = .vreg ∨ x.unit = .sreg → ∀ g, s.group (groupKey x.core x.slot) = some g →
              u = { s with groups := u.groups } ∧ ∃ g', u.group (groupKey x.core x.slot) = some g' ∧ g'.poisoned x.loc = some cause ∧ g'.regs = g.regs)
          ∧ (x.unit = .slots → u = { s with badSlot := u.badSlot } ∧ Map.find u.badSlot x.loc = some cause)
          ∧ (x.unit = .l1 ∨ x.unit = .fetch → u = { s with badCore := u.badCore } ∧ u.poisonedOn x.core (x.unit == .fetch) x.loc 1 = some cause)
          ∧ (x.unit ≠ .vreg → x.unit ≠ .sreg → x.unit ≠ .slots → x.unit ≠ .l1 → x.unit ≠ .fetch → u = { s with poison := u.poison } ∧ u.poisonedAt x.loc 1 = some cause))
    ∧ (∀ (x : EccAt) (s : State), x.unit = .carried → exec (.eccCorrected x) s = .next s ∧ exec (.eccUncorrectable x) s = .next s)
    ∧ (∀ (s : State) (stamp loc : Nat) (bs : List Byte), loc % 8 = 0 → bs.length = 8 → (s.putBytes stamp loc bs).poisonedAt loc 8 = none)
    ∧ ∀ (s : State) (r : LogRec),
        let p := match r.ctx with | some c => (s.ctx c).port | none => 0
        let q := s.port p
        let n := 2 ^ (q.logctl % 16 + 4)
        let at_ := hostBase p + q.logbase + 16 * q.logwr
        let t := s.log r
        let unread (x : LogRec) : Prop := (x.index + n - q.logrd) % n < (q.logwr + n - q.logrd) % n
        ((q.logwr + 1) % n ≠ q.logrd → SameOutside s t [(at_, 16)] ∧ t.bytes at_ 16 = r.bytes ∧ (t.port p).logwr = (q.logwr + 1) % n
            ∧ t.msix = s.msix ++ (if bit q.logctl 4 ∧ bits q.logctl 16 16 < 2048 then [(p, bits q.logctl 16 16)] else []))
          ∧ ((q.logwr + 1) % n = q.logrd →
              ((∀ x ∈ s.logOf p, unread x → ¬ (x.cause = r.cause ∧ x.loc % 2 ^ 32 = r.loc % 2 ^ 32 ∧ x.ctx = r.ctx)) →
                SameMemory s t ∧ (t.port p).loglost = (q.loglost + 1) % 2 ^ 32)
              ∧ ∀ x, (∀ y ∈ s.logOf p, unread y → y.cause = r.cause ∧ y.loc % 2 ^ 32 = r.loc % 2 ^ 32 ∧ y.ctx = r.ctx → y = x) → x ∈ s.logOf p → unread x →
                  x.cause = r.cause → x.loc % 2 ^ 32 = r.loc % 2 ^ 32 → x.ctx = r.ctx →
                  let c := hostBase p + q.logbase + 16 * x.index
                  SameOutside s t [(c, 16)] ∧ t.bytes c 16 = LogRec.bytes { x with count := x.count + 1 } ∧ (t.port p).logwr = q.logwr)

/-- R378, R381, R393: REMOTE_ACCESS_FAILURE of a kind 0 to 7 and REMOTE_REQUEST_TIMEOUT complete in every state,
`exec (.remoteAccessFailure x) s = .next t`: a load or atomic that fails at its target kills its group with 0xB0 + 8 h + k, a posted store or an engine access is
logged and its packet has failed; a request that times out is one of kind 1. A request that a request flit of
another package has brought, that names a binding whose keys have come and a frame of this package, is performed there; a compare-exchange stores when the old value is the
one compared; any other changes no byte. Each is answered by a response flit, and uses up a request flit of a port that joins its node, or of
another port. That requests are inputs served one for each accepted request flit, and that posted failures of a request come with it, are the
model's choices (log entry 34).
Completes, with the conclusion exec i s = .next t under conditions on s and the operands alone: .remoteAccessFailure, .remoteRequestTimeout,
.remoteRequestServe. -/
def Claims.AccessesFailAtTargets : Prop :=
  (∀ (x : RemFail) (s : State),
      let fails (ins : Instr) (cause : Nat) : Prop :=
        (x.posted = false → ∀ k, x.group = some k → ∃ t, exec ins s = .next t ∧ t = s.kill k cause x.loc ∧ t.group k = none)
        ∧ (x.posted = false → x.group = none → exec ins s = .next s)
        ∧ (x.posted = true → ∀ k g, x.group = some k → s.group k = some g → exec ins s = .next (s.lostStore g.ident cause x.loc))
        ∧ (x.posted = true → x.group.bind (s.group ·) = none → ∃ u t,
            u = s.log { cause, kind := 5, ctx := x.ctx, die := x.core / 128, core := x.core % 128, loc := x.loc } ∧ exec ins s = .next t
            ∧ t.mem = u.mem ∧ (t.group = u.group)
            ∧ (x.packet = none ∨ x.ctx = none → t = u)
            ∧ ∀ q seq c qu p, x.packet = some (q, seq) → x.ctx = some c → t.queue? c q = some qu → p ∈ qu.open_ → p.seq = seq → p.failed = true)
      (x.kind ≤ 7 → fails (.remoteAccessFailure x) (0xB0 + 8 * x.host.toNat + x.kind))
        ∧ fails (.remoteRequestTimeout x) 0xB1)
    ∧ ∀ (x : RemReq) (s : State) (b : Binding) (stamp loc : Nat),
        let bound (b : Binding) : Bool := b.node == x.node && b.theirs == x.key && b.stamp.isSome
        let asked : Bool := s.links.any fun l => l.2.asked > 0
        let n := match x.write with | some bs => bs.length | none => match x.atomic with | some (_, w, _) => w | none => x.len
        let answers (t : State) : Prop := exec (.remoteRequestServe x) s = .next t
          ∧ (∀ p, s.askedBy x.node = some p → (t.link p).asked = (s.link p).asked - 1)
          ∧ ∀ p, Map.get 0 s.routes x.node = p + 1 → ∃ payload, t.link p =
              ({ s.link p with asked := if s.askedBy x.node = some p then (s.link p).asked - 1 else (s.link p).asked } : Link).send 2 payload
        (x.near = false → s.frameLoc x n = if x.addr + n ≤ Config.gddr7 then some x.addr else none)
          ∧ (asked = false → exec (.remoteRequestServe x) s = .next s)
          ∧ (asked = true → s.bindings.find? bound = none ∨ s.frameLoc x n = none → ∃ t, answers t ∧ SameMemory s t ∧ t.order = s.order)
          ∧ (asked = true → s.bindings.find? bound = some b → b.stamp = some stamp → s.frameLoc x n = some loc →
              (∀ bs, x.write = some bs → ∃ t, answers t ∧ t.bytes loc bs.length = bs ∧ SameOutside s t [(loc, bs.length)])
              ∧ (∀ aop w v, x.write = none → x.atomic = some (aop, w, v) →
                  let old := ofBytes (s.peek stamp loc w)
                  let put (new : Nat) : Prop := ∃ t, answers t ∧ SameOutside s t [(loc, w)] ∧ t.bytes loc w = toBytes w new
                  (x.cmp = none → put (atomicOp aop (8 * w) old (v % 2 ^ (8 * w))))
                    ∧ ∀ c, x.cmp = some c → (old = c % 2 ^ (8 * w) → put (v % 2 ^ (8 * w)))
                        ∧ (old ≠ c % 2 ^ (8 * w) → ∃ t, answers t ∧ SameMemory s t))
              ∧ (x.write = none → x.atomic = none → ∃ t, answers t ∧ SameMemory s t))

/-- ECC errors, accesses that fail at their target, and requests of other packages complete: `Claims.ErrorsAreLogged` and `Claims.AccessesFailAtTargets`. -/
def Obligations.ErrorEventsComplete : Prop :=
  Claims.ErrorsAreLogged ∧ Claims.AccessesFailAtTargets

/-! ### Barriers and sync words -/

/-- R241, R242: what a handle names at a scope, with the checks in their order; the team barrier before its first use is taken by
the first BAR or BARA, in the lowest free unit of the core or quad, and expects every group of the team that has not exited. -/
def Claims.BarrierHandles : Prop :=
  ∀ (s : State) (g : Group) (scope h : Nat),
    let id := g.ident
    let n := h % 64
    let unit := (if scope = 0 then 16 * id.core else 16384 + 16 * (id.core / 4)) + n
    let net := 32768 + 64 * id.ctx + n
    let team := h / 64 = 1
    (128 ≤ h → s.handle g scope h = .bad 0x80)
      ∧ (h < 128 → team → (n ≠ 0 ∨ 2 ≤ scope) → s.handle g scope h = .bad 0x80)
      ∧ (h < 128 → team → n = 0 → scope = 0 → 1 < (s.team id.team).cores.length → s.handle g scope h = .bad 0x81)
      ∧ (h < 128 → team → n = 0 → scope < 2 → (scope = 0 → (s.team id.team).cores.length ≤ 1) → ∀ key b,
          (s.team id.team).barKey = some key → Map.find s.bars key = some b →
          s.handle g scope h = if b.scope = scope then .ok key b else .bad 0x81)
      ∧ (h < 64 → scope < 2 → 15 < n → s.handle g scope h = .bad 0x80)
      ∧ (h < 64 → scope < 2 → n ≤ 15 → Map.find s.bars unit = none → s.handle g scope h = .bad 0x80)
      ∧ (h < 64 → scope < 2 → n ≤ 15 → ∀ b, Map.find s.bars unit = some b →
          s.handle g scope h = if b.ctx = id.ctx then .ok unit b else .bad 0x80)
      ∧ (h < 64 → 2 ≤ scope → Map.find s.bars net = none → s.handle g scope h = .bad 0x80)
      ∧ (h < 64 → 2 ≤ scope → ∀ b, Map.find s.bars net = some b →
          s.handle g scope h = if b.scope = scope ∧ (scope = 2 → b.core / 128 = id.core / 128) then .ok net b else .bad 0x81)
      ∧ (s.handle g scope h = .first → s.useBar g scope h false = .bad 0x80
          ∧ ∀ key b u, s.useBar g scope h true = .ok key b u →
              Map.find s.bars key = none ∧ Map.find u.bars key = some b ∧ b.isTeam = true ∧ b.team = some id.team ∧ b.scope = scope
                ∧ b.arrived = 0 ∧ b.gen = 0 ∧ b.abandoned = none ∧ b.expect = s.teamGroups id.team ∧ u.groups = s.groups)

/-- R240, R247, R254: BARN takes the lowest free unit or id, with EXPECT, or answers 0xFFFFFFFF with p false; frees a barrier that
no group has arrived at, or that is abandoned, and never a team barrier (0x80, by its handle or by its unit's); reads GEN. Each parks its split until it completes.
Completes, with the conclusion exec i s = .next t under conditions on s and the operands alone: .barnAlloc, .barnFree, .barnGen. -/
def Claims.BarrierAllocation : Prop :=
  ∀ (x : SyncW) (s : State) (i : Iss), Executes s x.ctl i →
    let s0 := i.start s
    let a := i.g.operand i.sp.wb x.a 32 (lowest i.lanes) id x.imm.toNat
    let sc := x.scope.code
    let id := i.g.ident
    let base := match sc with | 0 => 16 * id.core | 1 => 16384 + 16 * (id.core / 4) | _ => 32768 + 64 * id.ctx
    let units := if sc < 2 then 16 else 64
    let most := match sc with | 0 => 64 | 1 => 256 | _ => 2 ^ 24
    let goes (ins : Instr) (e : Eff) : Prop := exec ins s = .next (e.retire x.ctl i)
    let answers (ins : Instr) (u : State) (v : Nat) (p : Option Bool) : Prop :=
      goes ins (.park (u.landNow i.k ((lanesOf (destLanes x.d i.lanes)).flatMap fun l => destWrites i.sp.wb x.d 32 l v
        ++ (match p with | some p => predWrites x.pd l p | none => []))) (.completion .done))
    (a = 0 ∨ most < a → goes (.barnAlloc x) (.trap s0 0x82 i.lanes 0 a))
      ∧ (0 < a → a ≤ most → (∀ n, n < units → (Map.find s.bars (base + n)).isSome = true) →
          answers (.barnAlloc x) s0 0xFFFFFFFF (some false))
      ∧ (0 < a → a ≤ most → ∀ n, n < units → Map.find s.bars (base + n) = none →
          (∀ m, m < n → (Map.find s.bars (base + m)).isSome = true) →
          ∃ u b, answers (.barnAlloc x) u n (some true) ∧ u.bars = Map.set s.bars (base + n) b ∧ b.expect = a ∧ b.arrived = 0 ∧ b.gen = 0
            ∧ b.scope = sc ∧ b.ctx = id.ctx ∧ b.abandoned = none ∧ b.team = (if sc < 2 then some id.team else none) ∧ u.groups = s0.groups)
      ∧ (a = 64 → goes (.barnFree x) (.trap s0 0x80 i.lanes 0 a))
      ∧ (∀ key b, a ≠ 64 → s0.handle i.g sc a = .ok key b →
          (b.isTeam = true → goes (.barnFree x) (.trap s0 0x80 i.lanes 0 a))
          ∧ (b.isTeam = false → 0 < b.arrived → b.abandoned = none → goes (.barnFree x) (.trap s0 0x84 i.lanes 0 a))
          ∧ (b.isTeam = false → b.arrived = 0 ∨ b.abandoned.isSome = true →
              ∃ u, goes (.barnFree x) (.park u (.completion .done)) ∧ Map.find u.bars key = none ∧ SameMemory s u))
      ∧ (∀ key b, s0.handle i.g sc a = .ok key b → answers (.barnGen x) s0 b.gen none)
      ∧ ∀ c, s0.handle i.g sc a = .bad c → goes (.barnGen x) (.trap s0 c i.lanes 0 a) ∧ (a ≠ 64 → goes (.barnFree x) (.trap s0 c i.lanes 0 a))

/-- Barrier handles, and BARN: `Claims.BarrierHandles` and `Claims.BarrierAllocation`. -/
def Obligations.BarrierHandlesAndAllocation : Prop :=
  Claims.BarrierHandles ∧ Claims.BarrierAllocation

/-- R244, R245, R249, R253: BAR adds its split's lanes to the group's record and parks; when the record covers every lane that has
not exited the group arrives; the arrival that EXPECT waits for completes the generation, and no split waits there any more. A
split that is in the record already raises 0x83, a fifth record 0x87; an abandoned barrier is left at once with p false.
Completes, with the conclusion exec i s = .next t under conditions on s and the operands alone: .bar. -/
def Claims.BarrierArrivals : Prop :=
  ∀ (x : SyncW) (s : State) (i : Iss), Executes s x.ctl i → (i.start s).tileStores i.g = [] →
    let h := i.g.operand i.sp.wb x.a 32 (lowest i.lanes) id x.imm.toNat
    let sc := x.scope.code
    let goes (e : Eff) : Prop := exec (.bar x) s = .next (e.retire x.ctl i)
    (∀ c, (i.start s).useBar i.g sc h true = .bad c → goes (.trap (i.start s) c i.lanes 0 h))
      ∧ ((i.start s).useBar i.g sc h true = .wait → goes (.hold (i.start s) .noUnit))
      ∧ ∀ key b u0, (i.start s).useBar i.g sc h true = .ok key b u0 → Map.find u0.bars key = some b →
          let others := i.g.arrivals.filter (·.key != key)
          let record := i.g.arrivals.find? (·.key == key)
          let mask := (record.map (·.mask)).getD 0
          let covers : Prop := (mask ||| i.sp.mask) &&& i.g.lanes = i.g.lanes
          let parked (u : State) : Prop := goes (.wait u (.barrier key sc none x.pd i.lanes)) ∧ SameMemory s u
          (b.abandoned.isSome = true → ∃ u g', goes (.endRun u) ∧ u.group i.k = some g' ∧ SameMemory s u ∧ u.bars = u0.bars
              ∧ g'.sr.barstat = barstatOf key b ∧ g'.regs = (i.g.writeAll ((lanesOf i.lanes).flatMap fun l => predWrites x.pd l false)).regs)
            ∧ (b.abandoned = none → mask &&& i.sp.mask ≠ 0 → goes (.trap (i.start s) 0x83 i.lanes 0 h))
            ∧ (b.abandoned = none → record = none → 4 ≤ i.g.arrivals.length → goes (.trap (i.start s) 0x87 i.lanes 0 h))
            ∧ (b.abandoned = none → mask &&& i.sp.mask = 0 → (record = none → i.g.arrivals.length < 4) →
                (¬ covers → ∃ u g' a, parked u ∧ u.bars = u0.bars ∧ u.group i.k = some g' ∧ g'.arrivals = others ++ [a]
                    ∧ a.key = key ∧ a.mask = mask ||| i.sp.mask)
                ∧ (covers → b.arrived + 1 < b.expect → ∃ u g' b', parked u ∧ u.group i.k = some g' ∧ g'.arrivals = others
                    ∧ b.uid ∈ g'.counted ∧ u.bars = Map.set u0.bars key b' ∧ b'.arrived = b.arrived + 1 ∧ b'.gen = b.gen ∧ b'.expect = b.expect)
                ∧ (covers → b.expect ≤ b.arrived + 1 → ∃ u g' b', goes (.endRun u) ∧ SameMemory s u ∧ u.group i.k = some g'
                    ∧ g'.arrivals = others ∧ g'.sr.barstat = barstatOf key b'
                    ∧ Map.find u.bars key = some b' ∧ b'.arrived = 0 ∧ b'.gen = (b.gen + 1) % 2 ^ 32 ∧ b'.expect = b.expect
                    ∧ ∀ k g, u.group k = some g → ∀ e ∈ g.entries, leaves key b' e = none))

/-- R248, R253: BARA arrives for the whole group and goes on; a split that does not hold every lane that has not exited, or an open
record, raises 0x83. BARW waits, without arriving, until GEN differs from its operand or the barrier is abandoned.
Completes, with the conclusion exec i s = .next t under conditions on s and the operands alone: .bara, .barw. -/
def Claims.SplitPhaseBarriers : Prop :=
  ∀ (x : SyncW) (s : State) (i : Iss), Executes s x.ctl i →
    let h := i.g.operand i.sp.wb x.a 32 (lowest i.lanes) id x.imm.toNat
    let gen := i.g.operand i.sp.wb x.b 32 (lowest i.lanes) id x.imm.toNat
    let sc := x.scope.code
    let goes (ins : Instr) (e : Eff) : Prop := exec ins s = .next (e.retire x.ctl i)
    ((i.start s).tileStores i.g = [] → ∀ key b u0, (i.start s).useBar i.g sc h true = .ok key b u0 → Map.find u0.bars key = some b →
        let whole : Prop := i.sp.mask = i.g.lanes ∧ ∀ a ∈ i.g.arrivals, a.key ≠ key
        (¬ whole → goes (.bara x) (.trap (i.start s) 0x83 i.lanes 0 h))
          ∧ (whole → ∃ u, goes (.bara x) (.endRun u) ∧ SameMemory s u
              ∧ (b.abandoned.isSome = true → u.bars = u0.bars)
              ∧ (b.abandoned = none → b.arrived + 1 < b.expect → ∃ b', u.bars = Map.set u0.bars key b' ∧ b'.arrived = b.arrived + 1
                  ∧ b'.gen = b.gen)
              ∧ (b.abandoned = none → b.expect ≤ b.arrived + 1 → ∃ b', Map.find u.bars key = some b' ∧ b'.arrived = 0
                  ∧ b'.gen = (b.gen + 1) % 2 ^ 32 ∧ ∀ k g, u.group k = some g → ∀ e ∈ g.entries, leaves key b' e = none)))
      ∧ ∀ key b, (i.start s).handle i.g sc h = .ok key b →
          let passes : Prop := b.gen ≠ gen ∨ b.abandoned.isSome = true
          (¬ passes → goes (.barw x) (.wait (i.start s) (.barrier key sc (some gen) x.pd i.lanes)))
            ∧ (passes → ∃ u g', goes (.barw x) (.endRun u) ∧ u.bars = s.bars ∧ SameMemory s u ∧ u.group i.k = some g'
                ∧ g'.sr.barstat = barstatOf key b
                ∧ g'.regs = (i.g.writeAll ((lanesOf i.lanes).flatMap fun l => predWrites x.pd l b.abandoned.isNone)).regs)

/-- Arrivals at barriers: BAR, BARA and BARW: `Claims.BarrierArrivals` and `Claims.SplitPhaseBarriers`. -/
def Obligations.BarrierArrivals : Prop :=
  Claims.BarrierArrivals ∧ Claims.SplitPhaseBarriers

/-- R251: counting n bytes leaves COUNT below an armed TARGET, and GEN goes on by the generations that COUNT + n holds; a TARGET of 0
only counts. -/
def Claims.SyncCounts : Prop :=
  ∀ target count gen n : Nat,
    let r := countOf target count gen n
    (target = 0 → r = ((count + n) % 2 ^ 32, gen))
      ∧ (0 < target → r.1 < target ∧ ∃ k, count + n = r.1 + target * k ∧ r.2 = (gen + k) % 2 ^ 32)

/-- R251, R255: SWINIT sets TARGET and COUNT; SWADD counts and gives GEN after the count; SWTEST gives GEN and whether it differs;
SWAIT goes on when GEN differs and else parks; no other byte changes. An offset outside the allocation traps with 0x42, one that is
no multiple of 16 with 0x40. After a count no split waits for a GEN that the record has left. (That a SWAIT which goes on at once ends its
run is the model's choice, log entry 14.)
Completes, with the conclusion exec i s = .next t under conditions on s and the operands alone: .swinit, .swadd, .swait, .swtest. -/
def Claims.SyncWordOperations : Prop :=
  ∀ (x : SyncW) (s : State) (i : Iss), Executes s x.ctl i → (x.pub = true → (i.start s).tileStores i.g = []) →
    let s0 := i.start s
    let off := i.g.operand i.sp.wb x.a 32 (lowest i.lanes) id x.imm.toNat
    let b := i.g.operand i.sp.wb x.b 32 (lowest i.lanes) id x.imm.toNat
    let size := (s.team i.g.ident.team).csize
    let loc := s.cLoc i.g.ident.team off
    let word (o : Nat) : Nat := ofBytes (s.bytes (loc + o) 4)
    let after := countOf (word 0) (word 4) (word 8) b
    let all : List (SyncW → Instr) := [.swinit, .swadd, .swait, .swtest]
    let goes (ins : Instr) (e : Eff) : Prop := exec ins s = .next (e.retire x.ctl i)
    let result (v : Nat) (p : Option Bool) (u : State) : State :=
      u.outstanding i.k 40 true ((lanesOf (destLanes x.d i.lanes)).flatMap fun l => destWrites i.sp.wb x.d 32 l v
        ++ (match p with | some p => predWrites x.pd l p | none => []))
    (size ≤ off → ∀ ins ∈ all, goes (ins x) (.trap s0 0x42 (1#32 <<< lowest i.lanes) off 0))
      ∧ (off < size → off % 16 ≠ 0 → ∀ ins ∈ all, goes (ins x) (.trap s0 0x40 (1#32 <<< lowest i.lanes) off 0))
      ∧ (off < size → off % 16 = 0 →
          (∃ u, goes (.swinit x) (.ok u) ∧ u.bytes loc 8 = toBytes 4 b ++ toBytes 4 0 ∧ SameOutside s u [(loc, 8)])
          ∧ (∃ u, goes (.swadd x) (.ok (result after.2 none u)) ∧ u.bytes (loc + 4) 8 = toBytes 4 after.1 ++ toBytes 4 after.2
              ∧ SameOutside s u [(loc + 4, 8)]
              ∧ ∀ k g e sc n, u.group k = some g → e ∈ g.entries → e.park = some (.syncWord loc sc n) → n = after.2)
          ∧ (∃ u, goes (.swtest x) (.ok (result (word 8) (some (word 8 != b)) u)) ∧ SameMemory s u ∧ u.bars = s.bars)
          ∧ (word 8 ≠ b → ∃ u, goes (.swait x) (.endRun u) ∧ SameMemory s u ∧ u.bars = s.bars)
          ∧ (word 8 = b → goes (.swait x) (.wait s0 (.syncWord loc x.scope.code b))))

/-- Sync words count, and wake their waiters: `Claims.SyncCounts` and `Claims.SyncWordOperations`. -/
def Obligations.SyncWords : Prop :=
  Claims.SyncCounts ∧ Claims.SyncWordOperations

/-! ### Copies -/

/-- R153, R154: the checks of COPY and COPY2, in their order, over every row: 0x41 for a global row outside [0, 2^52), 0x43 for a size
that is not allowed or for source and destination bytes that meet, 0x42 for a C-space row or sync word outside the allocation, 0x40
for a sync word that is not 16-byte aligned. (The address that TRAPADDR holds for 0x40 and 0x42 is the model's choice, log entry 15.) -/
def Claims.CopyChecks : Prop :=
  ∀ (x : MemW) (two : Bool) (csize : Nat) (r : CopyReq), (two = false → r.rows = 1) →
    let row (base : Nat) (stride : Int) (k : Nat) : Int := base + stride * k
    let outside (lim base : Nat) (stride : Int) (k : Nat) : Prop :=
      0 < r.n ∧ k < r.rows ∧ (row base stride k < 0 ∨ (lim : Int) < row base stride k + r.n)
    let out (lim base : Nat) (stride : Int) : Prop := ∃ k, outside lim base stride k
    let first (lim base : Nat) (stride : Int) (a : Nat) : Prop :=
      ∃ k, outside lim base stride k ∧ (∀ j, j < k → ¬ outside lim base stride j) ∧ a = (row base stride k % 2 ^ 64).toNat
    let sized : Prop := if two then 0 < r.n ∧ r.n ≤ 2 ^ 20 ∧ 0 < r.rows ∧ r.rows ≤ 65536 ∧ (1 < r.rows → r.n ≤ r.dst2.natAbs) else r.n ≤ 2 ^ 30
    let meet : Prop := x.inC = x.sx ∧ 0 < r.n ∧ ∃ j k, j < r.rows ∧ k < r.rows ∧ (row r.src r.sst j - row r.dst r.dst2 k).natAbs < r.n
    let global : Prop := (x.inC = false → ¬ out (2 ^ 52) r.dst r.dst2) ∧ (x.sx = false → ¬ out (2 ^ 52) r.src r.sst)
    let local_ : Prop := (x.inC = true → ¬ out csize r.dst r.dst2) ∧ (x.sx = true → ¬ out csize r.src r.sst)
    (copyCheck x two csize r = none ↔ global ∧ sized ∧ ¬ meet ∧ local_ ∧ ∀ o, r.sync = some o → o < csize ∧ o % 16 = 0)
      ∧ (∀ c a, copyCheck x two csize r = some (c, a) →
          (c = 0x41 → ¬ global ∧ (x.inC = false ∧ first (2 ^ 52) r.dst r.dst2 a ∨ x.sx = false ∧ first (2 ^ 52) r.src r.sst a))
          ∧ (c = 0x43 → global ∧ (¬ sized ∨ meet))
          ∧ (c = 0x42 → global ∧ sized ∧ ¬ meet ∧ (x.inC = true ∧ first csize r.dst r.dst2 a ∨ x.sx = true ∧ first csize r.src r.sst a
              ∨ r.sync = some a ∧ csize ≤ a))
          ∧ (c = 0x40 → global ∧ sized ∧ ¬ meet ∧ local_ ∧ r.sync = some a ∧ a < csize ∧ a % 16 ≠ 0)
          ∧ (c = 0x41 ∨ c = 0x43 ∨ c = 0x42 ∨ c = 0x40))

/-- R136, R153, R154: COPY and COPY2 take their operands from the lowest executing lane; a request that fails a check traps, one that
finds its quad's queue of 16 full waits, and any other commits: it publishes its core's stores and enters the queue with its team
counting it; a copy of no bytes commits at once. (That the checks come before the test of the queue is the model's choice, log entry 15.)
Completes, with the conclusion exec i s = .next t under conditions on s and the operands alone: .copy, .copy2. -/
def Claims.CopiesIssue : Prop :=
  ∀ (x : MemW) (s : State) (i : Iss), Executes s x.ctl i →
    let s0 := i.start s
    let low (o : Operand) (w : Nat) : Nat := i.g.operand i.sp.wb o w (lowest i.lanes) id 0
    let word (o : Operand) (j : Nat) : Nat := low o 128 / 2 ^ (32 * j) % 2 ^ 32
    let addr (inC : Bool) (j : Nat) : Nat := word x.a j + (if inC then 0 else 2 ^ 32 * word x.a (j + 1))
    let c := tailOperand x.tail
    let sw := bit x.aop.toNat 0
    let bytes := i.g.operand i.sp.wb x.b 32 (lowest i.lanes) id (tailImm x.tail)
    let shape := i.g.operand i.sp.wb x.b 64 (lowest i.lanes) id (tailImm x.tail)
    let one : CopyReq := { dst := addr x.inC 0, src := addr x.sx 2, n := bytes,
                           sync := if sw then some (i.g.operand i.sp.wb c 32 (lowest i.lanes) id (tailImm x.tail)) else none }
    let two : CopyReq := { dst := addr x.inC 0, src := addr x.sx 2, n := shape % 2 ^ 32, rows := shape / 2 ^ 32, sst := sint 32 (word c 0),
                           dst2 := sint 32 (word c 1), sync := if sw then some (word c 2) else none }
    ∀ ins two? r, (ins = .copy x ∧ two? = false ∧ r = one ∨ ins = .copy2 x ∧ two? = true ∧ r = two) →
      let goes (e : Eff) : Prop := exec ins s = .next (e.retire x.ctl i)
      let check := copyCheck x two? (s.team i.g.ident.team).csize r
      (∀ k a, check = some (k, a) → goes (.trap s0 k i.lanes a 0))
        ∧ (check = none → s0.tileStores i.g = [] → 16 ≤ s.quadLoad (i.g.ident.core / 4) → goes (.hold s0 .issue))
        ∧ (check = none → s0.tileStores i.g = [] → s.quadLoad (i.g.ident.core / 4) < 16 →
            ∃ u, goes (.ok u) ∧ SameMemory s u ∧ u.bars = s.bars ∧ u.ctxs = s.ctxs
              ∧ (r.n = 0 → u.copyq = s.copyq)
              ∧ (0 < r.n → ∃ q : Copy, u.copyq = s.copyq ++ [q] ∧ q.ctx = i.g.ident.ctx ∧ q.team = some i.g.ident.team
                  ∧ q.core = i.g.ident.core ∧ q.dstC = x.inC ∧ q.srcC = x.sx ∧ q.dst = r.dst ∧ q.src = r.src ∧ q.bytes = r.n
                  ∧ q.rows = r.rows ∧ q.dstride = r.dst2 ∧ q.sstride = r.sst ∧ q.sync = r.sync ∧ q.row = 0 ∧ q.next = 0 ∧ q.wait = none
                  ∧ u.teams = Map.upd s.teams i.g.ident.team fun t => { t with copies := t.copies + 1 }))

/-- COPY and COPY2: checks and issue: `Claims.CopyChecks` and `Claims.CopiesIssue`. -/
def Obligations.CopiesCheckedAndIssued : Prop :=
  Claims.CopyChecks ∧ Claims.CopiesIssue

/-- R135, R136, R140, R153: the engine of a quad writes one destination line of the oldest copy that does not wait: the bytes of the
line become those of the source (both in this package), no other byte changes but those of a sync word that counts them; when the last line of the last row is written
the copy leaves the queue. A source or destination without its page parks the copy with a fault record (0x32, 0x33). (That the engine takes the
oldest copy that does not wait, and the address that its fault record names, is the model's choice, log entry 15.)
Completes, with the conclusion exec i s = .next t under conditions on s and the operands alone: .copyEngineLine. -/
def Claims.CopyEngineLines : Prop :=
  ∀ (s : State) (quad : Nat) (c : Copy), (s.copyq.find? fun c => c.core / 4 == quad && c.wait.isNone) = some c →
    let d := (c.dst + c.dstride * c.row).toNat + c.next
    let a := (c.src + c.sstride * c.row).toNat + c.next
    let n := min (c.bytes - c.next) (128 - d % 128)
    (∀ sub va u, s.place c.ctx c.team c.srcC a n .read = (.bad sub va, u) → exec (.copyEngineLine quad) s = .next (u.copyFault c 0x32 sub va))
      ∧ (∀ src u sub va v, s.place c.ctx c.team c.srcC a n .read = (.ok src, u) → u.place c.ctx c.team c.dstC d n .write = (.bad sub va, v) →
          exec (.copyEngineLine quad) s = .next (v.copyFault c 0x33 sub va))
      ∧ ∀ src dst u, s.place c.ctx c.team c.srcC a n .read = (.ok src, s) → s.place c.ctx c.team c.dstC d n .write = (.ok dst, u) →
          u.order.writes = [] → s.poison = [] → dst = [((dst.headD default).1, (dst.headD default).2.1, 0, n)] →
          let loc := (dst.headD default).1
          Local src → nodeOf loc = none →
          ∃ t, exec (.copyEngineLine quad) s = .next t
            ∧ (c.sync = none → t.bytes loc n = src.flatMap (fun p => u.peek p.2.1 p.1 p.2.2.2) ∧ SameOutside s t [(loc, n)])
            ∧ (∀ off, c.sync = some off → SameOutside s t [(loc, n), (s.cLoc (c.team.getD 0) off + 4, 8)])
            ∧ (∀ q ∈ t.copyq, q.id = c.id → q.row = (if c.bytes ≤ c.next + n then c.row + 1 else c.row) ∧ q.next = if c.bytes ≤ c.next + n then 0 else c.next + n)
            ∧ (c.bytes ≤ c.next + n → c.rows ≤ c.row + 1 → ∀ q ∈ t.copyq, q.id ≠ c.id)

/-- R420: a copy that is handed over in ranges of destination lines is copied whole: each byte in exactly one range, from its place in the
source; the packet is consumed, and waits for its ranges; a context that is RESIDENT is RUNNING then, and one of no bytes completes at once.
Completes, with the conclusion exec i s = .next t under conditions on s and the operands alone: .copyPacket. -/
def Claims.CopyPackets : Prop :=
  (∀ (c : Copy) (dst src n : Nat) (ranges : List (Nat × Nat)), (∀ r ∈ ranges, 0 < r.2) →
      ranges.foldl (fun t r => t + r.2) 0 = lineCount dst n →
      let cs := rangeCopies c dst src n 0 ranges
      cs.length = ranges.length
        ∧ (∀ o, o < n → ∃ d ∈ cs, d.dst ≤ dst + o ∧ dst + o < d.dst + d.bytes ∧ d.src + (dst + o - d.dst) = src + o)
        ∧ (∀ d ∈ cs, dst ≤ d.dst ∧ d.dst + d.bytes ≤ dst + n)
        ∧ cs.Pairwise fun d e => d.dst + d.bytes ≤ e.dst)
    ∧ ∀ (s : State) (ctx q : Nat) (ranges : List (Nat × Nat)),
        (s.startable ctx q 3 = none → exec (.copyPacket ctx q ranges) s = .next s)
        ∧ ∀ qu p, s.startable ctx q 3 = some (qu, p) →
            let dropped : Prop := p.drop = true ∧ p.placed = 0 ∧ s.late ctx p.deadline = true
            let n := p.body 256 64
            (dropped → exec (.copyPacket ctx q ranges) s = .next (s.consume ctx q { p with status := 2, teams := 0, placed := 0 } (p.slot + 1)))
              ∧ (¬ dropped → ranges.foldl (fun t r => t + r.2) 0 = lineCount (p.body 128 64) n → (∀ r ∈ ranges, r.1 < 64 ∧ 0 < r.2) →
                  ∃ u cs, let v := u.consume ctx q { p with status := if s.late ctx p.deadline then 1 else 0, copies := ranges.length } (p.slot + 1)
                    exec (.copyPacket ctx q ranges) s = .next (if ranges = [] then v.idle ctx else v)
                    ∧ ((s.ctx ctx).state = .resident → (u.ctx ctx).state = .running)
                    ∧ SameMemory s u ∧ u.groups = s.groups ∧ u.copyq = s.copyq ++ cs
                    ∧ cs.map (fun c => { c with id := 0 })
                        = rangeCopies { ctx, packet := some (q, p.seq), scope := 3, view := s.viewAll, stamp := s.order.next, id := 0 }
                            (p.body 128 64) (p.body 192 64) n 0 ranges)

/-- The copy engine moves the bytes, each once: `Claims.CopyEngineLines` and `Claims.CopyPackets`. -/
def Obligations.CopiesPerformed : Prop :=
  Claims.CopyEngineLines ∧ Claims.CopyPackets

/-! ### The matrix engine -/

/-- R259 to R261, R263, R270, R271, R273: MRESV takes a free engine with the default configuration and zero counters; MFREE gives it back;
MCLAIM claims the lowest run of held slots that nobody claims, MREL releases claimed slots; MCFG sets a valid configuration; MSTAT reads
one item. An instruction that must wait for MMAs, or finds 16 instructions in the queue, or a context that is being saved, is not issued.
Completes, with the conclusion exec i s = .next t under conditions on s and the operands alone: .mresv, .mfree, .mclaim, .mrel, .mstat, .mcfg. -/
def Claims.MatrixReservations : Prop :=
  ∀ (x : MatW) (s : State) (i : Iss), Executes s x.ctl i →
    let s0 := i.start s
    let core := i.g.ident.core
    let team := i.g.ident.team
    let e := s0.engine core
    let goes (ins : Instr) (e : Eff) : Prop := exec ins s = .next (e.retire x.ctl i)
    let room : Prop := e.instrs.length < 16
    let calm : Prop := (s0.ctx i.g.ident.ctx).state ≠ .saving
    let idle : Prop := ∀ q ∈ e.queue, q.op.isMma = false
    let once (ins : Instr) (c : Nat) : Prop := goes ins (.trap s0 c i.lanes 0 (lowest i.lanes / 8))
    let fresh (h : Option Nat) : Engine :=
      { e with holder := h, w0 := 0, w1 := 24 + 3 * 2 ^ 8 + 3 * 2 ^ 10, counts := [0, 0, 0, 0, 0], last := [0, 0, 0, 0] }
    let a := i.val x.a 32 (lowest i.lanes) (tailImm x.tail)
    let b := i.val x.b 32 (lowest i.lanes) (tailImm x.tail)
    let answer (p : Bool) (u : State) : State := u.outstanding i.k 20 true ((lanesOf i.lanes).flatMap fun l => predWrites x.pd l p)
    let gives (w v : Nat) (p : Option Bool) (u : State) : State :=
      u.outstanding i.k 20 true ((lanesOf (destLanes x.d i.lanes)).flatMap fun l =>
        destWrites i.sp.wb x.d w l v ++ (match p with | some p => predWrites x.pd l p | none => []))
    let owned (n : Nat) : Prop := e.claimed team x.acc n = true
    let most := if x.acc then 32 else 128
    let run := heldSlots s0 team core x.acc
    (¬ calm → ∀ ins ∈ [Instr.mresv x, .mfree x, .mclaim x, .mrel x, .mcfg x, .mstat x], goes ins (.hold s0 .issue))
      ∧ (¬ room → ∀ ins ∈ [Instr.mresv x, .mfree x, .mclaim x, .mrel x, .mcfg x, .mstat x], goes ins (.hold s0 .issue))
      ∧ (¬ idle → ∀ ins ∈ [Instr.mfree x, .mcfg x, .mstat x], goes ins (.hold s0 .issue))
      ∧ (calm → room →
          (e.holder = none → goes (.mresv x) (.ok (answer true (s0.setEngine core (fresh (some team))))))
          ∧ (e.holder = some team → goes (.mresv x) (.ok (answer true s0)))
          ∧ (e.holder ≠ none → e.holder ≠ some team → goes (.mresv x) (.ok (answer false s0)))
          ∧ (a = 0 ∨ most < a → once (.mclaim x) 0x61)
          ∧ (0 < a → a ≤ most → (∀ k, k + a ≤ run.2 → ∃ j, j < a ∧ owned (run.1 + k + j)) → goes (.mclaim x) (.ok (gives 32 0xFFFFFFFF (some false) s0)))
          ∧ (∀ k, 0 < a → a ≤ most → k + a ≤ run.2 → (∀ j, j < a → ¬ owned (run.1 + k + j)) →
              (∀ m, m < k → ∃ j, j < a ∧ owned (run.1 + m + j)) →
              ∃ u, goes (.mclaim x) (.ok (gives 32 (run.1 + k) (some true) u)) ∧ SameMemory s u ∧ u.groups = s0.groups
                ∧ (∀ n, (u.engine core).claimed team x.acc n = true ↔ owned n ∨ run.1 + k ≤ n ∧ n < run.1 + k + a)
                ∧ ((u.engine core).queue.drop e.queue.length).map (·.op) = [.clear x.acc (run.1 + k) a])
          ∧ ((∀ q ∈ e.queue, ∀ n ∈ q.op.names, ¬ (n.1 = x.acc ∧ a ≤ n.2 ∧ n.2 < a + min b 128)) →
              (b = 0 ∨ most < b → once (.mrel x) 0x61)
              ∧ (0 < b → b ≤ most → (∃ n, a ≤ n ∧ n < a + b ∧ ¬ owned n) → once (.mrel x) 0x62)
              ∧ (0 < b → b ≤ most → (∀ n, a ≤ n → n < a + b → owned n) →
                  ∃ u, goes (.mrel x) (.ok u) ∧ SameMemory s u ∧ u.groups = s0.groups
                    ∧ ∀ n, (u.engine core).claimed team x.acc n = true ↔ owned n ∧ ¬ (a ≤ n ∧ n < a + b))))
      ∧ (calm → room → idle →
          (e.holder = some team → goes (.mfree x) (.ok (s0.setEngine core (fresh none))))
          ∧ (e.holder ≠ some team → goes (.mfree x) (.ok s0) ∧ once (.mcfg x) 0x60 ∧ once (.mstat x) 0x60)
          ∧ (e.holder = some team →
              let valid : Prop := a < 2 ^ 26 ∧ b < 2 ^ 12 ∧ bits b 5 3 = 0 ∧ 4 ≤ b % 32 ∧ b % 32 ≤ 24
                ∧ (ladder (.ofCode (bits b 8 2))).contains (.ofCode (bits b 10 2)) = true
              let item : Prop := (a < 5 ∨ a = 8 ∨ 12 ≤ a ∧ a ≤ 15) ∧ (x.clr = true → a < 5)
              (valid → goes (.mcfg x) (.ok (s0.setEngine core { e with w0 := a, w1 := b })))
                ∧ (¬ valid → once (.mcfg x) 0x61) ∧ (¬ item → once (.mstat x) 0x61)
                ∧ (item → goes (.mstat x) (.ok (gives 64
                    (if a < 5 then e.counts.getD a 0 else if a = 8 then e.w0 + 2 ^ 32 * e.w1 else e.last.getD (a - 12) 0) none
                    (if x.clr then s0.setEngine core { e with counts := e.counts.set a 0 } else s0))))))

/-- R258, R260, R262, R263, R282 to R289: a matrix instruction gives its engine one operation for every quarter with an executing
lane, with the operands of the quarter's lowest such lane, in ascending quarter order after everything issued before; it changes no
memory, no register and no slot's contents at issue. It needs its team's reservation (0x60), claimed slots (0x62), legal operands.
Completes, with the conclusion exec i s = .next t under conditions on s and the operands alone: .mld, .mlds, .mzero, .mma, .mst, .msts, .mmov. -/
def Claims.MatrixInstructionsIssue : Prop :=
  ∀ (x : MatW) (s : State) (i : Iss), Executes s x.ctl i →
    let s0 := i.start s
    let core := i.g.ident.core
    let team := i.g.ident.team
    let e := s0.engine core
    let fmt := x.fmt.toNat
    let qs := quartersOf i.lanes
    let va (o : Operand) (w l : Nat) : Nat := i.val o w l (tailImm x.tail)
    let calm : Prop := (s0.ctx i.g.ident.ctx).state ≠ .saving
    let free (names : List (Bool × Nat)) : Prop := calm ∧ e.instrs.length < 16 ∧ ∀ q ∈ e.queue, q.op.isMma = true → ∀ n ∈ q.op.names, n ∉ names
    let issues (ins : Instr) (ops : List (Nat × MOp)) : Prop :=
      ∃ u, exec ins s = .next ((Eff.ok u).retire x.ctl i) ∧ SameMemory s u ∧ u.groups = s0.groups
        ∧ (u.engine core).queue.take e.queue.length = e.queue
        ∧ ((u.engine core).queue.drop e.queue.length).map (fun q => (q.quarter, q.op)) = ops
        ∧ (∀ q ∈ (u.engine core).queue.drop e.queue.length, q.group = i.k ∧ q.uid = i.g.ident.uid ∧ q.team = team ∧ q.mark = 0 ∧ q.wait = none)
        ∧ (u.engine core).aslots = e.aslots ∧ ∀ n, (Map.get {} (u.engine core).oslots n).data = (Map.get {} e.oslots n).data
    let owns (acc : Bool) (n : Nat) : Prop := e.claimed team acc n = true
    let held : Prop := e.holder = some team
    let base (o : Operand) (l : Nat) : Nat := tileBase i x o l
    let stride (l : Nat) : Int := tileStride i x l
    let legal (o : Operand) (rows n l : Nat) : Prop :=
      stride l % (matSize fmt : Int) = 0 ∧ ∀ r k, r < rows → k < n →
        let a := wrap (if x.inC then 32 else 64) ((base o l : Int) + stride l * (r : Int) + ((k * matSize fmt : Nat) : Int))
        a % matSize fmt = 0 ∧ a < if x.inC then (s0.team team).csize else 2 ^ 52
    let start : MFmt := .ofCode (bits e.w1 8 2)
    let t (l : Nat) : Nat := va x.a 32 l
    (¬ held → (∀ q ∈ qs, ∀ acc, free [(acc, va x.a 32 q.2.1)]) → e.queue.all (fun q => !q.op.isMma) = true → ∀ q m qs', qs = (q, m) :: qs' →
        ∀ ins ∈ [Instr.mld x, .mlds x, .mzero x, .mma x, .mst x, .msts x],
          exec ins s = .next ((Eff.trap s0 0x60 (if ins = .mma x then m.2 else i.lanes) 0 q).retire x.ctl i))
      ∧ (held →
          (free (qs.map fun q => (false, va x.a 32 q.2.1)) →
            (∀ q ∈ qs, owns false (va x.a 32 q.2.1)
                ∧ legal x.b (if x.tr then 64 else 16) (if fmt = 5 then 32 else if x.tr then 16 else 64) q.2.1) →
            issues (.mld x) (qs.map fun q => (q.1, .fill (va x.a 32 q.2.1) fmt x.inC x.tr (base x.b q.2.1) (stride q.2.1))))
          ∧ (free (qs.map fun q => (true, va x.b 32 q.2.1)) → (∀ q ∈ qs, owns true (va x.b 32 q.2.1) ∧ legal x.a 16 16 q.2.1) →
            issues (.mst x) (qs.map fun q => (q.1, .store (va x.b 32 q.2.1) fmt x.inC (base x.a q.2.1) (stride q.2.1))))
          ∧ (free (qs.map fun q => (false, va x.a 32 q.2.1)) →
            (∀ q ∈ qs, owns false (va x.a 32 q.2.1) ∧ viewBad s0 i.g.ident.ctx (va x.b 64 q.2.1) false = false) →
            issues (.mlds x) (qs.map fun q => (q.1, .fillSurf (va x.a 32 q.2.1) fmt (va x.b 64 q.2.1))))
          ∧ (free (qs.map fun q => (true, va x.a 32 q.2.1)) →
            (∀ q ∈ qs, owns true (va x.a 32 q.2.1) ∧ viewBad s0 i.g.ident.ctx (va x.b 64 q.2.1) true = false) →
            issues (.msts x) (qs.map fun q => (q.1, .storeSurf (va x.a 32 q.2.1) (va x.b 64 q.2.1))))
          ∧ (free (qs.map fun q => (true, va x.a 32 q.2.1)) → (∀ q ∈ qs, owns true (va x.a 32 q.2.1)) →
            issues (.mzero x) (qs.map fun q => (q.1, .zero (va x.a 32 q.2.1))))
          ∧ (calm → e.instrs.length < 16 →
            (∀ q ∈ qs, bit (t q.2.1) 7 = false ∧ bit (t q.2.1) 15 = false ∧ t q.2.1 < 2 ^ 21 ∧ owns false (bits (t q.2.1) 0 7)
                ∧ owns false (bits (t q.2.1) 8 7) ∧ owns true (bits (t q.2.1) 16 5)
                ∧ (Map.get {} e.oslots (bits (t q.2.1) 0 7)).issued.permits start = true
                ∧ (Map.get {} e.oslots (bits (t q.2.1) 8 7)).issued.permits start = true) →
            issues (.mma x) (qs.map fun q => (q.1, .mma (bits (t q.2.1) 0 7) (bits (t q.2.1) 8 7) (bits (t q.2.1) 16 5) e.w0 e.w1 start 0)))
          ∧ (free ((lanesOf i.lanes).map fun l => (true, va x.a 32 l)) →
            (∀ l, hasLane i.lanes l = true → owns true (va x.a 32 l) ∧ va x.b 32 l ≤ 15) →
            ∃ u, exec (.mmov x) s = .next ((Eff.ok u).retire x.ctl i) ∧ SameMemory s u ∧ (u.engine core).aslots = e.aslots
              ∧ ((u.engine core).queue.drop e.queue.length).map (·.op)
                  = [.move fmt ((lanesOf i.lanes).map fun l => (l, va x.a 32 l, va x.b 32 l, 0)) i.g.seq]
              ∧ u.groups = (s0.outstanding i.k 20 false ((lanesOf i.lanes).flatMap fun l =>
                  destWrites i.sp.wb x.d (if fmt = 6 then 64 else 32) l 0)).groups))

/-- Matrix reservations, and the operations that matrix words give: `Claims.MatrixReservations` and `Claims.MatrixInstructionsIssue`. -/
def Obligations.MatrixIssue : Prop :=
  Claims.MatrixReservations ∧ Claims.MatrixInstructionsIssue

/-- R269, R271: a pass counts; over a limit and below its ceiling it is squashed to the next format of the ladder and changes no
accumulator; else it commits all 256 elements of its accumulator together, counts a hit of the ceiling, and records its LAST item. No
pass changes memory, a group's registers or any other slot.
Completes, with the conclusion exec i s = .next t under conditions on s and the operands alone: .mmaPass. -/
def Claims.MatrixPasses : Prop :=
  ∀ (s : State) (core idx quarter n a b c w0 w1 k : Nat) (e : MEntry) (f : MFmt),
    let g := s.engine core
    g.instrs[idx]? = some n → e.op = .mma a b c w0 w1 f k →
    (g.queue.find? fun e => e.id == n && e.quarter == quarter && Engine.mayRun g.queue e && (s.ctx e.ctx).state != .saving) = some e →
    let oa := Map.get {} g.oslots a
    let ob := Map.get {} g.oslots b
    let start : MFmt := .ofCode (bits w1 8 2)
    let p := quarterPass f (w1 % 32) oa ob (Map.get {} g.aslots c)
    let past : Bool := bits w0 0 8 < p.2.1 || bits w0 8 10 < p.2.2.1 || bits w0 18 8 < p.2.2.2
    let top := ceilingOf start (.ofCode (bits w1 10 2)) oa ob
    let counted (cs : List Nat) (j : Nat) : List Nat := cs.set j ((cs.getD j 0 + 1) % 2 ^ 64)
    ∃ t, exec (.mmaPass core idx quarter) s = .next t ∧ SameMemory s t
      ∧ (∀ m gr, s.group m = some gr → gr.awaits = false → ∃ gr', t.group m = some gr' ∧ gr'.regs = gr.regs)
      ∧ (t.engine core).oslots = g.oslots
      ∧ (past = true → f ≠ top →
          (t.engine core).aslots = g.aslots ∧ (t.engine core).last = g.last
            ∧ (t.engine core).counts = counted (counted g.counts 0) (1 + f.code)
            ∧ (t.engine core).queue = g.queue.map fun q => if q.id = e.id ∧ q.quarter = e.quarter then
                { q with op := .mma a b c w0 w1 (((ladder start).drop ((ladder start).idxOf f + 1)).headD .bf16) (k + 1) } else q)
      ∧ (past = false ∨ f = top →
          (∀ j, j < 256 → Map.get 0 (Map.get {} (t.engine core).aslots c).data j = p.1.getD j 0)
            ∧ (∀ m, m ≠ c → Map.get {} (t.engine core).aslots m = Map.get {} g.aslots m)
            ∧ (t.engine core).counts = (if past then counted (counted g.counts 0) 4 else counted g.counts 0)
            ∧ (t.engine core).last = g.last.set e.quarter (f.code + (k + 1) * 2 ^ 2 + past.toNat * 2 ^ 4 + 2 ^ 5 + p.2.1 % 2 ^ 16 * 2 ^ 16
                + p.2.2.1 % 2 ^ 16 * 2 ^ 32 + p.2.2.2 % 2 ^ 9 * 2 ^ 48)
            ∧ ∀ q ∈ (t.engine core).queue, ¬ (q.id = e.id ∧ q.quarter = e.quarter))

/-- R261, R264, R265, R282, R286, R289: what the engine does with the operation that is next: a claim and MZERO clear, a fill replaces
the slot's contents with what its lines hold in this package, a tile store writes its 256 elements row by row, MMOV gives each lane its element
of its row, as f32 or as the 40 bits; nothing else in memory changes. MLDS puts its channels of the pixels into the slot, zeros outside
the surface; MSTS writes its channels of the pixels that lie in the surface and no byte but those of its pixels.
Completes, with the conclusion exec i s = .next t under conditions on s and the operands alone: .matrixFillStoreDone. -/
def Claims.MatrixOperations : Prop :=
  ∀ (s : State) (core idx n : Nat) (e : MEntry),
    let g := s.engine core
    g.instrs[idx]? = some n → (g.queue.find? fun e => e.id == n && !e.op.isMma && Engine.mayRun g.queue e) = some e →
    s.order.writes = [] → s.poison = [] → s.badSlot = [] →
    let aslot (t : State) (k : Nat) : ASlot := Map.get {} (t.engine core).aslots k
    let oslot (t : State) (k : Nat) : OSlot := Map.get {} (t.engine core).oslots k
    let done (t : State) : Prop := ∀ q ∈ (t.engine core).queue, ¬ (q.id = e.id ∧ q.quarter = e.quarter)
    let goes (t : State) : Prop := exec (.matrixFillStoreDone core idx) s = .next t
    (∀ acc base m, e.op = .clear acc base m → ∃ t, goes t ∧ SameMemory s t ∧ done t ∧ ∀ k, k < m → ∀ j,
        (acc = true → Map.get 0 (aslot t (base + k)).data j = 0)
          ∧ (acc = false → Map.get 0 (oslot t (base + k)).data j = 0 ∧ (oslot t (base + k)).fmt = .bf16 ∧ (oslot t (base + k)).se = 0))
      ∧ (∀ slot, e.op = .zero slot → ∃ t, goes t ∧ SameMemory s t ∧ done t ∧ ∀ j, Map.get 0 (aslot t slot).data j = 0)
      ∧ (∀ slot fmt inC tr addr stride (at_ : Nat → Nat × Nat), e.op = .fill slot fmt inC tr addr stride → fmt < 6 → e.mark = 0 →
          let rows := if tr then 64 else 16
          let m := if fmt = 5 then 32 else if tr then 16 else 64
          (∀ (u : State) r, r < rows → u = { s with engines := u.engines, groups := u.groups } →
            u.place e.ctx (some e.team) inC (matAddr inC addr stride r) (m * matSize fmt) .read = (.ok [((at_ r).1, (at_ r).2, 0, m * matSize fmt)], u)) →
          (∀ r o, r < rows → o < m * matSize fmt → nodeOf ((at_ r).1 + o) = none) →
          ∃ t, goes t ∧ SameMemory s t ∧ done t ∧ (oslot t slot).fmt = retainedOf fmt
            ∧ ∀ r j, r < rows → j < m →
                let p := ofBytes (s.peek (at_ r).2 ((at_ r).1 + matSize fmt * j) (matSize fmt))
                Map.get 0 (oslot t slot).data (if fmt = 5 then 64 * r + 2 * j else if tr then 64 * j + r else 64 * r + j)
                  = if fmt = 0 then (bf16.round .rne (f32.decode p)).1 else p)
      ∧ (∀ slot fmt inC addr stride (at_ : Nat → Nat × Nat), e.op = .store slot fmt inC addr stride → fmt < 4 →
          let size := matSize fmt
          let place (r : Nat) : RangeTr × State := s.place e.ctx (some e.team) inC (matAddr inC addr stride r) (16 * size) .write
          (inC = true ∧ e.mark = 0 ∨ e.mark = 15) → (∀ r, e.mark ≤ r → r < 16 → place r = (.ok [((at_ r).1, (at_ r).2, 0, 16 * size)], s)) →
          ∃ t, goes t ∧ SameOutside s t (((List.range 16).filter (e.mark ≤ ·)).map fun r => ((at_ r).1, 16 * size)) ∧ done t
            ∧ ∀ r j, e.mark ≤ r → r < 16 → j < 16 → nodeOf (at_ r).1 = none → (∀ r', r < r' → r' < 16 →
                  (at_ r').1 + 16 * size ≤ (at_ r).1 + size * j ∨ (at_ r).1 + size * j + size ≤ (at_ r').1) →
                t.bytes ((at_ r).1 + size * j) size
                  = toBytes size ((storeFmt fmt).roundSat .rne (a40.decode (Map.get 0 (aslot s slot).data (16 * r + j)))).1)
      ∧ (∀ fmt reads seq gr, e.op = .move fmt reads seq → s.group e.group = some gr → gr.ident.uid = e.uid → gr.awaits = false →
          ∃ t gr', goes t ∧ SameMemory s t
          ∧ done t ∧ t.group e.group = some gr' ∧ gr'.regs = gr.regs
          ∧ ∀ (wb : Nat) (d : Operand),
              let w := if fmt = 6 then 64 else 32
              let value (r : Nat × Nat × Nat × Nat) : Nat :=
                let x := Map.get 0 (aslot s r.2.1).data (16 * r.2.2.1 + r.1 % 16)
                if fmt = 6 then x else (f32.roundSat .rne (a40.decode x)).1
              (∀ o ∈ gr.outst, o.seq = seq → o.writes = reads.flatMap fun r => destWrites wb d w r.1 0) →
              gr'.outst = gr.outst.map fun o => if o.seq = seq then
                { o with ready := true, writes := reads.flatMap fun r => destWrites wb d w r.1 (value r) } else o)
      ∧ (∀ slot fmt view, e.op = .fillSurf slot fmt view → ∃ t, goes t ∧ SameMemory s t)
      ∧ (∀ slot fmt view f, e.op = .fillSurf slot fmt view → s.surf? e.ctx (bits view 0 12) = some f → e.mark = 0 → f.tiles = [] →
          bits view 14 2 ≤ 2 → bits view 12 2 + 2 ^ bits view 14 2 ≤ (channels f.fmt).length →
          let c := 2 ^ bits view 14 2
          ∃ t, goes t ∧ SameMemory s t ∧ done t ∧ (oslot t slot).fmt = retainedOf fmt
            ∧ ∀ i p j, i < 16 → p < 64 / c → j < c →
                let x := bits view 32 15 + p
                let y := bits view 48 15 + i
                let v := (decodeSample f.fmt (ofBytes (s.bytes (f.pixelLoc x y 0) (sampleBytes f.fmt)))).getD (bits view 12 2 + j) .zero
                Map.get 0 (oslot t slot).data (64 * i + c * p + j)
                  = if x < f.width ∧ y < f.height then (if fmt = 3 then f8.roundSat .rne v else bf16.round .rne v).1 else 0)
      ∧ ∀ slot view f, e.op = .storeSurf slot view → s.surf? e.ctx (bits view 0 12) = some f →
          let c := 2 ^ bits view 14 2
          (∃ t, goes t ∧ ∀ a, (∀ x y, x < f.width → y < f.height →
              ¬ (f.pixelLoc x y 0 ≤ a ∧ a < f.pixelLoc x y 0 + sampleBytes f.fmt)) → t.byte a = s.byte a)
            ∧ (e.mark = 0 → f.tiles = [] → bits view 14 2 ≤ 2 → 1 ≤ f.fmt → f.fmt ≤ 6 → f.samples = 0 →
                bits view 12 2 + c ≤ (channels f.fmt).length →
                ∃ t, goes t ∧ done t ∧ ∀ i p j lo w g, i < 16 → p < 16 / c → j < c →
                  (channels f.fmt)[bits view 12 2 + j]? = some (lo, w, .flt g) →
                  let x := bits view 32 15 + p
                  let y := bits view 48 15 + i
                  x < f.width → y < f.height →
                  t.bytes (f.pixelLoc x y 0 + lo / 8) (w / 8)
                    = toBytes (w / 8) (g.roundSat .rne (a40.decode (Map.get 0 (aslot s slot).data (16 * i + c * p + j)))).1)

/-- What the matrix engine does: `Claims.MatrixPasses` and `Claims.MatrixOperations`. -/
def Obligations.MatrixEngine : Prop :=
  Claims.MatrixPasses ∧ Claims.MatrixOperations

/-! ### Surfaces, textures, drawing and rays -/

/-- R296, R297: every sample of a surface has bytes of its own: the samples of two different pixels or indices do not overlap. -/
def Claims.SamplesHaveTheirOwnBytes : Prop :=
  ∀ (f : Surf) (x y n x' y' n' : Nat), x < f.width → y < f.height → n < f.count → x' < f.width → y' < f.height → n' < f.count →
    (x, y, n) ≠ (x', y', n') →
    f.pixelLoc x y n + sampleBytes f.fmt ≤ f.pixelLoc x' y' n' ∨ f.pixelLoc x' y' n' + sampleBytes f.fmt ≤ f.pixelLoc x y n

/-- R302, R304, R305, R308, R316, R319 to R323: accesses of lanes to surfaces whose tiles are resident. A surface operand that names no
LIVE surface traps with 0x70, a sample that there is not with 0x72, an operation that the format does not have with 0x73. SLD gives
each lane its sample, raw or converted to four f32, and zero outside; SST, SATOP and SBLEND write the sample as their operation says,
nothing outside, and no other byte of memory; SATOP, whose operand is a float for a float channel, gives what the channel held; SQUERY gives
NEXTKEY and the tile's state. A lane whose tile is evicted or being refilled stalls: SLD and SST keep exactly these lanes, perform the
others, and the bytes of the samples of those that stall stay as they are.
Completes, with the conclusion exec i s = .next t under conditions on s and the operands alone: .sld, .sst, .satop, .sblend, .squery. -/
def Claims.SurfaceAccesses : Prop :=
  ∀ (x : SurfW) (s : State) (i : Iss), Executes s x.ctl i → x.ord = false →
    let s0 := i.start s
    let ctx := i.g.ident.ctx
    let lanes (ins : Instr) : List Nat := lanesOf (match ins with | .sld _ | .satop _ | .squery _ => destLanes x.d i.lanes | _ => i.lanes)
    let px (l : Nat) : Nat := i.val x.a 64 l (tailImm x.tail) % 2 ^ 32
    let py (l : Nat) : Nat := i.val x.a 64 l (tailImm x.tail) / 2 ^ 32
    let so (l : Nat) : Nat := i.val x.b 32 l (tailImm x.tail)
    let data (w l : Nat) : Nat := i.val (tailOperand x.tail) w l (tailImm x.tail)
    let live (l : Nat) : Option Surf := if bit (so l) 15 then none else s0.liveSurf ctx (so l % 4096)
    let f (l : Nat) : Surf := (live l).getD {}
    let sample (l : Nat) : Nat := bits (so l) 12 3
    let inside (l : Nat) : Prop := px l < (f l).width ∧ py l < (f l).height
    let loc (l : Nat) : Nat := (f l).pixelLoc (px l) (py l) (sample l)
    let size (l : Nat) : Nat := sampleBytes (f l).fmt
    let old (l : Nat) : Nat := ofBytes (s.bytes (loc l) (size l))
    let resident (l : Nat) : Prop := (f l).tile ((f l).locate (px l) (py l) (sample l)).1 ((f l).locate (px l) (py l) (sample l)).2.1 = none
    let away (l : Nat) : Bool := px l < (f l).width && py l < (f l).height &&
      ((f l).tile ((f l).locate (px l) (py l) (sample l)).1 ((f l).locate (px l) (py l) (sample l)).2.1).any fun t => t.state != 1
    let come (ins : Instr) : List Nat := (lanes ins).filter fun l => !away l
    let lat (l : Nat) : Nat := if px l < (f l).width ∧ py l < (f l).height ∧ ((f l).locate (px l) (py l) 0).1 ≠ i.g.ident.core / 128 then 96 else 36
    let chans (l : Nat) : List (Nat × Nat × Enc) := channels (f l).fmt
    let value (l : Nat) : Nat := i.g.operand i.sp.wb (tailOperand x.tail) 32 l
      (match (chans l)[x.chan.toNat]? with | some (_, _, .flt _) => supplyTy 8 | _ => id) (tailImm x.tail)
    let formed (ins : Instr) (l : Nat) : Prop := match ins with
      | .satop _ => x.chan.toNat < (chans l).length
      | .sblend _ => ¬ (7 ≤ (f l).fmt ∧ (f l).fmt ≤ 9) ∧ blendOk (tailAux x.tail % 2 ^ 22) = true
      | _ => True
    let results (w : Nat) (v : Nat → Nat) (ls : List Nat) : List (Nat × List RegWrite) := ls.map fun l => (lat l, destWrites i.sp.wb x.d w l (v l))
    let done (ins : Instr) (u : State) (rs : List (Nat × List RegWrite)) : Prop :=
      exec ins s = .next ((Eff.ok (u.surfResults i.k rs)).retire x.ctl i)
        ∧ (∃ g', u.group i.k = some g' ∧ g'.regs = i.g.regs ∧ g'.outst = i.g.outst ∧ g'.sr = i.g.sr)
        ∧ ∀ k, k ≠ i.k → u.group k = s.group k
    let after (ins : Instr) (l : Nat) : Nat := match ins with
      | .sst _ => if x.raw then data 128 l % 2 ^ (8 * size l) else
          ((chans l).zipIdx.filter fun c => bit x.wmask.toNat c.2).foldl (fun (v : Nat) c =>
            putChannel (f l).fmt v c.2 (c.1.2.2.encode ((quadValues (data 128 l)).getD c.2 .zero))) (old l)
      | .satop _ => match (chans l)[x.chan.toNat]? with
        | some (lo, w, e) => putChannel (f l).fmt (old l) x.chan.toNat (channelAtomic e w x.sop.toNat (bits (old l) lo w) (value l)).1
        | none => old l
      | _ => blendSample (f l).fmt (tailAux x.tail % 2 ^ 22) x.wmask.toNat true (quadValues (data 128 l)) (old l)
    let fails (ins : Instr) (c : Nat) (p : Nat → Prop) : Prop := ∀ bad, bad ≠ 0 → (∀ l, hasLane bad l = true ↔ l ∈ lanes ins ∧ p l) →
      exec ins s = .next ((Eff.trap s0 c bad 0 0).retire x.ctl i)
    (∀ ins ∈ [Instr.sld x, .sst x, .satop x, .sblend x, .squery x],
        fails ins 0x70 (fun l => live l = none)
          ∧ ((∀ l ∈ lanes ins, (live l).isSome = true) →
              fails ins 0x72 (fun l => (f l).count ≤ sample l)
              ∧ ((∀ l ∈ lanes ins, sample l < (f l).count) → fails ins 0x73 (fun l => ¬ formed ins l))))
      ∧ ((∀ l, hasLane i.lanes l = true → (live l).isSome = true ∧ sample l < (f l).count) →
          (∃ u, done (.squery x) u (results 32 (fun l =>
              (f l).nextKey * 2 ^ 16 + (if px l < (f l).width ∧ py l < (f l).height then
                (if (f l).pin then 8 else 0) + (match (f l).tile ((f l).locate (px l) (py l) 0).1 ((f l).locate (px l) (py l) 0).2.1 with
                  | some t => t.cls + (if 3 ≤ t.state then 4 else 0) | none => 0) else 0)) (lanes (.squery x)))
              ∧ SameMemory s u)
          ∧ (s0.tileStores i.g = [] → s0.order.writes = [] → s0.poison = [] → (∀ l, hasLane i.lanes l = true → inside l → resident l) →
              (∃ u, done (.sld x) u (results 128 (fun l => if px l < (f l).width ∧ py l < (f l).height then
                  (if x.raw then old l else joinElems 32 ((decodeSample (f l).fmt (old l)).map fun c => (f32.round .rne c).1)) else 0)
                  (lanes (.sld x))) ∧ SameMemory s u)
              ∧ ∀ ins ∈ [Instr.sst x, .satop x, .sblend x], (∀ l ∈ lanes ins, formed ins l) →
                  (∀ l ∈ lanes ins, ∀ m ∈ lanes ins, l ≠ m → inside l → inside m →
                    loc l + size l ≤ loc m ∨ loc m + size m ≤ loc l) →
                  ∃ u rs, done ins u rs
                    ∧ (ins = .satop x → rs = results 32 (fun l => if px l < (f l).width ∧ py l < (f l).height then
                        (match (chans l)[x.chan.toNat]? with
                          | some (lo, w, e) => (channelAtomic e w x.sop.toNat (bits (old l) lo w) (value l)).2
                          | none => 0) else 0) (lanes ins))
                    ∧ (ins ≠ .satop x → ∀ r ∈ rs, r.2 = [])
                    ∧ (∀ l ∈ lanes ins, inside l → u.bytes (loc l) (size l) = toBytes (size l) (after ins l))
                    ∧ SameOutside s u (((lanes ins).filter fun l => px l < (f l).width && py l < (f l).height).map fun l => (loc l, size l)))
          ∧ (s0.tileStores i.g = [] → s0.order.writes = [] → s0.poison = [] → s0.demands = [] → (s0.ctx ctx).state ≠ .saving →
              ((∃ l ∈ lanes (.sld x), away l = true) →
                ∃ u h, exec (.sld x) s = .next ((Eff.stall (u.surfResults i.k (results 128 (fun l => if px l < (f l).width ∧ py l < (f l).height then
                    (if x.raw then old l else joinElems 32 ((decodeSample (f l).fmt (old l)).map fun c => (f32.round .rne c).1)) else 0)
                    (come (.sld x)))) (.tile h) true).retire x.ctl i)
                  ∧ SameMemory s u ∧ h.instr = .sld x ∧ h.ops.map (·.lane) = (lanes (.sld x)).filter away)
              ∧ ((∃ l ∈ lanes (.sst x), away l = true) →
                  (∀ l ∈ come (.sst x), ∀ m ∈ come (.sst x), l ≠ m → inside l → inside m → loc l + size l ≤ loc m ∨ loc m + size m ≤ loc l) →
                  ∃ u h, exec (.sst x) s = .next ((Eff.stall u (.tile h) true).retire x.ctl i)
                    ∧ h.instr = .sst x ∧ h.ops.map (·.lane) = (lanes (.sst x)).filter away
                    ∧ (∀ l ∈ come (.sst x), inside l → u.bytes (loc l) (size l) = toBytes (size l) (after (.sst x) l))
                    ∧ SameOutside s u (((come (.sst x)).filter fun l => px l < (f l).width && py l < (f l).height).map fun l => (loc l, size l)))))

/-- R311 to R313, R325, R326: TEX gives each lane the four channels of its sample, TEXQ the size of a level, the number of levels and
the level's offset, from the lane's descriptor; a descriptor address that is no address traps with 0x41, one that is not a multiple of 32
with 0x40, an invalid descriptor with 0x75. `word` is what memory of this package gives for a range that the group may read; nothing is written but D.
Completes, with the conclusion exec i s = .next t under conditions on s and the operands alone: .tex, .texq. -/
def Claims.TextureResults : Prop :=
  ∀ (x : SurfW) (s : State) (i : Iss) (word : Nat → Nat → Nat), Executes s x.ctl i → (i.start s).tileStores i.g = [] →
    let s0 := i.start s
    let ls := lanesOf (destLanes x.d i.lanes)
    let u (l : Nat) : Nat := i.g.operand i.sp.wb x.a 64 l (fun k => supplyTy 8 k) (tailImm x.tail) % 2 ^ 32
    let v (l : Nat) : Nat := i.g.operand i.sp.wb x.a 64 l (fun k => supplyTy 8 k) (tailImm x.tail) / 2 ^ 32
    let lod (l : Nat) : Nat := i.g.operand i.sp.wb (tailOperand x.tail) 32 l (fun k => supplyTy 8 k) (tailImm x.tail)
    let level (l : Nat) : Nat := i.val x.a 32 l (tailImm x.tail)
    let desc (l : Nat) : Nat := i.val x.b 64 l (tailImm x.tail)
    let tex (l : Nat) : Option Tex := texOf (word (desc l) 32)
    let t (l : Nat) : Tex := (tex l).getD {}
    let reads (va n : Nat) : Prop := ∀ (g : Map Group) (e : Map Engine), ∃ ps,
      State.mapRange { s0 with groups := g, engines := e } i.g.ident.ctx va n .read = (.ok ps, { s0 with groups := g, engines := e })
        ∧ Local ps ∧ word va n = ofBytes (ps.flatMap fun p => s0.peek p.2.1 p.1 p.2.2.2) ∧ ∀ p ∈ ps, s0.readKills (some i.g.ident.core) i.g.ident.ctx p.1 p.2.2.2 = none
    let texel (l : Nat) (e : Nat × Nat × Int × Int) : Nat := (t l).addr e.2.1 e.2.2.1 e.2.2.2
    let size (l : Nat) : Nat := sampleBytes (t l).fmt
    let taken (l : Nat) := sampleTexels (t l) (u l) (v l) (lod l)
    let colour (l c : Nat) : Nat := (f32.round .rne (weigh (taken l).2 ((taken l).1.map fun e =>
      (e.1, (decodeSample (t l).fmt (word (texel l e) (size l))).getD c .zero)))).1
    let gives (ins : Instr) (r : Nat → Nat) : Prop := ∃ w, exec ins s = .next ((Eff.ok (w.outstanding i.k 36 true
        (ls.flatMap fun l => destWrites i.sp.wb x.d 128 l (r l)))).retire x.ctl i)
      ∧ SameMemory s w ∧ ∃ g', w.group i.k = some g' ∧ g'.regs = i.g.regs ∧ g'.outst = i.g.outst
    let trap (c : Nat) (bad : Lanes) (a : Nat) : Prop := ∀ ins ∈ [Instr.tex x, .texq x], exec ins s = .next ((Eff.trap s0 c bad a 0).retire x.ctl i)
    (∀ bad l, Fails (maskOf ls) (fun l => 2 ^ 52 ≤ desc l) bad l → trap 0x41 bad (desc l))
      ∧ (∀ bad l, (∀ l ∈ ls, desc l < 2 ^ 52) → Fails (maskOf ls) (fun l => desc l % 32 != 0) bad l → trap 0x40 bad (desc l))
      ∧ ((∀ l ∈ ls, desc l < 2 ^ 52 ∧ desc l % 32 = 0 ∧ reads (desc l) 32) → s0.order.writes = [] →
          ((∀ l ∈ ls, (tex l).isSome = true) → gives (.texq x) fun l =>
            if level l < (t l).levels then (t l).w (level l) + 2 ^ 32 * (t l).h (level l) + 2 ^ 64 * (t l).levels + 2 ^ 96 * ((t l).off (level l) % 2 ^ 32)
            else 2 ^ 64 * (t l).levels)
          ∧ (∀ bad l, Fails (maskOf ls) (fun l => (tex l).isNone) bad l →
              exec (.texq x) s = .next ((Eff.trap s0 0x75 bad 0 0).retire x.ctl i)
                ∧ ((∀ l ∈ ls, (tex l).isSome = true → ∀ e ∈ (taken l).1, texel l e + size l ≤ 2 ^ 52 ∧ reads (texel l e) (size l)) →
                    exec (.tex x) s = .next ((Eff.trap s0 0x75 bad 0 0).retire x.ctl i)))
          ∧ ((∀ l ∈ ls, (tex l).isSome = true ∧ ∀ e ∈ (taken l).1, texel l e + size l ≤ 2 ^ 52 ∧ reads (texel l e) (size l)) →
              gives (.tex x) fun l => joinElems 32 [colour l 0, colour l 1, colour l 2, colour l 3]))

/-- Surface accesses and texture results: `Claims.SamplesHaveTheirOwnBytes` and `Claims.SurfaceAccesses` and `Claims.TextureResults`. -/
def Obligations.SurfacesAndTextures : Prop :=
  Claims.SamplesHaveTheirOwnBytes ∧ Claims.SurfaceAccesses ∧ Claims.TextureResults

/-- R293, R298, R300, R303, R317, R318, R324: SALLOC of a free entry whose record is well formed takes its pages, or answers 0xFFFFFFFF with
p false when the quota or the stacks can never give them; with pages free and nothing before it the surface is LIVE at once. SFREE
stops accesses to its surface and waits until those before it are made; SPIN pins and unpins, and answers p false beyond the limits.
That a SALLOC or SFREE reissued after a forced save only writes its entry back is the model's choice (log entry 46).
Completes, with the conclusion exec i s = .next t under conditions on s and the operands alone: .salloc, .sfree, .spin. -/
def Obligations.SurfaceAllocation : Prop :=
  ∀ (x : SurfW) (s : State) (i : Iss), Executes s x.ctl i →
    let s0 := i.start s
    let ctx := i.g.ident.ctx
    let ste := i.val x.a 32 (lowest i.lanes) (tailImm x.tail)
    let one : Lanes := 1#32 <<< lowest i.lanes
    let goes (ins : Instr) (e : Eff) : Prop := exec ins s = .next (e.retire x.ctl i)
    let results (v : Nat) (p : Bool) : List RegWrite :=
      (lanesOf (destLanes x.d i.lanes)).flatMap fun l => destWrites i.sp.wb x.d 32 l v ++ predWrites x.pd l p
    let answer (p : Bool) : List RegWrite := (lanesOf i.lanes).flatMap fun l => predWrites x.pd l p
    let counted := (s.ctx ctx).rc.stcount
    let owed := s0.owed ctx ste i.g.ident.uid
    (owed = none → counted ≤ ste ∨ (s0.surf? ctx ste).isSome = true → goes (.salloc x) (.trap s0 0x70 one 0 0))
      ∧ (∀ f, owed = some f → ∃ u, goes (.salloc x) (.park u (.completion (.entry ste true (results f.spages true)))) ∧ SameMemory s u)
      ∧ (s0.liveSurf ctx ste = none → goes (.spin x) (.trap s0 0x70 one 0 0) ∧ (owed = none → goes (.sfree x) (.trap s0 0x70 one 0 0)))
      ∧ (∀ f, s0.liveSurf ctx ste = some f →
          (∃ u, goes (.sfree x) (.park u (.completion (.sfree ste))) ∧ SameMemory s u ∧ u.groups = s0.groups ∧ u.liveSurf ctx ste = none)
          ∧ (x.sop = 0 → ∃ u, goes (.spin x) (.park u (.completion (.entry ste false (answer true)))) ∧ SameMemory s u
              ∧ u.surf? ctx ste = some { f with pin := false })
          ∧ (x.sop ≠ 0 → s0.pinFits ctx ste f = false → goes (.spin x) (.park (s0.landNow i.k (answer false)) (.completion .done)))
          ∧ (x.sop ≠ 0 → s0.pinFits ctx ste f = true → f.tiles = [] →
              ∃ u, goes (.spin x) (.park u (.completion (.pin ste (answer true)))) ∧ SameMemory s u ∧ u.surf? ctx ste = some { f with pin := true }))
      ∧ (ste < counted → s0.surf? ctx ste = none → s0.demands = [] → s0.order.writes = [] → (s.ctx ctx).state ≠ .saving →
          (∀ st, s0.savingVictim st = none) →
          ∀ loc stamp, s0.mapRange ctx ((s.ctx ctx).rc.stbase + 32 * ste) 32 .read = (.ok [(loc, stamp, 0, 32)], s0) →
            s0.readKills none ctx loc 32 = none → nodeOf loc = none →
            let e := ofBytes (s0.peek stamp loc 32)
            (surfOfEntry e 0 = none → ∃ u, goes (.salloc x) (.trap u 0x71 one 0 0) ∧ SameMemory s u)
              ∧ (∀ f0, surfOfEntry e s.fresh = some f0 → s0.canAlloc ctx ste f0 = none →
                  ∃ u, goes (.salloc x) (.park (u.landNow i.k (results 0xFFFFFFFF false)) (.completion .done)) ∧ SameMemory s u)
              ∧ (∀ f0 q, surfOfEntry e s.fresh = some f0 → s0.canAlloc ctx ste f0 = some q →
                  ∃ u, goes (.salloc x) (.park u (.completion (.entry ste true (results f0.spages true)))) ∧ SameMemory s u
                    ∧ (s0.charge ctx + f0.spages ≤ (s.ctx ctx).rc.squota → (∀ st, st < 2 → s0.stackUsed st + f0.pages st ≤ s0.stackPages st) →
                        (∃ c, Map.find s0.ctxs ctx = some c) →
                        ∃ f, u.surf? ctx ste = some f ∧ f.width = bits e 0 16 ∧ f.height = bits e 16 16 ∧ f.fmt = bits e 32 4
                          ∧ f.samples = bits e 36 2 ∧ f.chk = bits e 38 3 ∧ f.flip = bit e 41 ∧ f.pin = bit e 42 ∧ f.back = bits e 128 64
                          ∧ f.nextKey = 0 ∧ f.tiles = [] ∧ f.items = [])))

/-- R310: an item that arrives is held; the items of a surface are applied one after another in the order of their keys from NEXTKEY
on, each as its SATOP or SBLEND says, and NEXTKEY goes on with each; until its turn an item changes no byte. An ordered operation whose key is used, or lies 2^15 or more
ahead, traps with 0x74, and one that lies 64 or more ahead waits.
Completes, with the conclusion exec i s = .next t under conditions on s and the operands alone: .orderedItem. -/
def Claims.OrderedStreams : Prop :=
  (∀ (s : State) (ctx ste key : Nat) (c : Ctx) (f : Surf) (m : OrdItem), Map.find s.ctxs ctx = some c → Map.find c.surfs ste = some f →
      (f.items.find? fun m => m.key == key && !m.held) = some m →
      ((∀ d ∈ f.items, d.id = m.id → d = m) → key ≠ f.nextKey → (∀ d ∈ f.items, d.held = true → d.key ≠ f.nextKey) →
        ∃ t f', exec (.orderedItem ctx ste key) s = .next t ∧ t.mem = s.mem ∧ t.groups = s.groups ∧ t.surf? ctx ste = some f'
          ∧ f'.nextKey = f.nextKey ∧ f'.items = f.items.map fun d => if d.id = m.id then { d with held := true } else d)
      ∧ (f.items = [m] → key = f.nextKey → m.ops = [] → (surfAct m.instr).isSome = true →
          ∃ t f', exec (.orderedItem ctx ste key) s = .next t ∧ t.mem = s.mem ∧ t.surf? ctx ste = some f' ∧ f'.items = []
            ∧ f'.nextKey = (f.nextKey + 1) % 2 ^ 16)
      ∧ ∀ (o : LaneOp) (n w lo : Nat) (e : Enc) (x : SurfW), f.items = [m] → key = f.nextKey → m.ops = [o] → m.instr = .satop x →
          o.b % 4096 = ste → o.x < f.width → o.y < f.height → (channels f.fmt)[x.chan.toNat]? = some (lo, w, e) → f.tiles = [] →
          s.poison = [] → n = sampleBytes f.fmt →
          let loc := f.pixelLoc o.x o.y (bits o.b 12 3)
          let old := ofBytes (s.bytes loc n)
          ∃ t f', exec (.orderedItem ctx ste key) s = .next t ∧ t.surf? ctx ste = some f' ∧ f'.items = [] ∧ f'.nextKey = (f.nextKey + 1) % 2 ^ 16
            ∧ t.bytes loc n = toBytes n (putChannel f.fmt old x.chan.toNat (channelAtomic e w x.sop.toNat (bits old lo w) o.c).1)
            ∧ SameOutside s t [(loc, n)])
    ∧ (∀ (s : State) (ctx ste key loc : Nat) (c : Ctx) (f : Surf) (m : OrdItem) (ms : List OrdItem),
        Map.find s.ctxs ctx = some c → Map.find c.surfs ste = some f → (f.items.find? fun m => m.key == key && !m.held) = some m →
        f.tiles = [] → s.poison = [] → f.items.Perm ms → ms.length ≤ 64 → (ms.map (·.id)).Nodup → (∀ d ∈ f.items, d ≠ m → d.held = true) →
        (∀ j, j < ms.length → (ms.getD j m).key = (f.nextKey + j) % 2 ^ 16) →
        (∀ d ∈ ms, (∃ x, d.instr = .satop x ∧ x.chan.toNat < (channels f.fmt).length ∨ d.instr = .sblend x) ∧
          ∃ o, d.ops = [o] ∧ o.b % 4096 = ste ∧ o.x < f.width ∧ o.y < f.height ∧ f.pixelLoc o.x o.y (bits o.b 12 3) = loc) →
        let n := sampleBytes f.fmt
        let applied (v : Nat) (d : OrdItem) : Nat :=
          let q := (d.ops.headD {}).c
          match d.instr with
          | .satop x => (match (channels f.fmt)[x.chan.toNat]? with
            | some (lo, w, e) => putChannel f.fmt v x.chan.toNat (channelAtomic e w x.sop.toNat (bits v lo w) q).1
            | none => v)
          | .sblend x => blendSample f.fmt (tailAux x.tail % 2 ^ 22) x.wmask.toNat true (quadValues q) v
          | _ => v
        ∃ t f', exec (.orderedItem ctx ste key) s = .next t ∧ t.surf? ctx ste = some f' ∧ f'.items = []
          ∧ f'.nextKey = (f.nextKey + ms.length) % 2 ^ 16
          ∧ t.bytes loc n = toBytes n (ms.foldl applied (ofBytes (s.bytes loc n))) ∧ SameOutside s t [(loc, n)])
    ∧ ∀ (x : SurfW) (s : State) (i : Iss), Executes s x.ctl i → x.ord = true → (i.start s).tileStores i.g = [] →
        let s0 := i.start s
        let ctx := i.g.ident.ctx
        let all (w : Nat) (ls : Lanes) : List LaneOp := surfOps i x w ls
        ∀ (ins : Instr) (ops : List LaneOp) (bad : Surf → Bool),
          (ins = .satop x ∧ ops = satopOps i x s0 (destLanes x.d i.lanes) ∧ bad = (fun f : Surf => x.chan.toNat ≥ (channels f.fmt).length)
            ∨ ins = .sblend x ∧ ops = all 128 i.lanes ∧ bad = fun f : Surf => (7 ≤ f.fmt && f.fmt ≤ 9) || !blendOk (tailAux x.tail % 2 ^ 22)) →
          surfTrap s0 ctx bad ops = none →
          let ste := (ops.headD {}).b % 4096
          let key := bits (ops.headD {}).b 16 16
          ∀ f, s0.surf? ctx ste = some f →
            let ahead := (key + 2 ^ 16 - f.nextKey) % 2 ^ 16
            let wrong : Prop := (∃ p ∈ ops, p.b % 4096 ≠ ste) ∨ 2 ^ 15 ≤ ahead ∨ ∃ d ∈ f.items, d.key = key
            (wrong → exec ins s = .next ((Eff.trap s0 0x74 (maskOf (ops.map (·.lane))) 0 0).retire x.ctl i))
              ∧ (¬ wrong → 64 ≤ ahead → exec ins s = .next ((Eff.hold s0 .issue).retire x.ctl i))
              ∧ (¬ wrong → ahead < 64 → ∃ u f' m, exec ins s = .next ((Eff.park u (.completion (.order ste key))).retire x.ctl i)
                  ∧ SameMemory s u ∧ u.surf? ctx ste = some f' ∧ f'.items = f.items ++ [m] ∧ m.key = key ∧ m.instr = ins ∧ m.ops = ops
                  ∧ m.held = false ∧ f'.nextKey = f.nextKey)

/-- R297, R301, R302: a tile that is EVICTING becomes EVICTED when its backing write is performed, which changes only its slot in the backing
area; a tile that is REFILLING becomes resident when its backing read from this package is performed, with the contents that it had;
one that waits for its page asks again. That a tile of class 1 moves 8 bytes and any other its whole size is the model's choice (log entry 20).
Completes, with the conclusion exec i s = .next t under conditions on s and the operands alone: .tileEvicted, .tileRefilled. -/
def Claims.TilesComeAndGo : Prop :=
  ∀ (s : State) (ctx ste st tile : Nat) (f : Surf) (t : Tile), (s.ctx ctx).state ≠ .saving → s.surf? ctx ste = some f → f.tile st tile = some t →
    t.wait = none → (s.ctxs.map (·.1)).Nodup → (∀ x ∈ s.ctxs, (x.2.surfs.map (·.1)).Nodup) →
    let n := if t.cls = 1 then 8 else f.tileBytes
    let va := f.back + st * f.pages 0 * 4096 + tile * f.tileBytes
    (t.state ≠ 1 → exec (.tileEvicted ctx ste st tile) s = .next s)
      ∧ (t.state ≠ 3 → t.state ≠ 4 → exec (.tileRefilled ctx ste st tile) s = .next s)
      ∧ (t.state = 4 → exec (.tileRefilled ctx ste st tile) s = .next s.runEviction)
      ∧ (∀ ps u, t.state = 1 → s.mapRange ctx va n .write = (.ok ps, u) → s.demands = [] → (∀ d, s.savingVictim d = none) →
          u = { s with free := u.free } →
          ∃ v f', exec (.tileEvicted ctx ste st tile) s = .next v ∧ v.surf? ctx ste = some f'
            ∧ f'.tile st tile = some { state := 2, cls := t.cls, wait := none } ∧ SameOutside s v (ps.map fun p => (p.1, p.2.2.2)))
      ∧ (∀ sub va' u, t.state = 1 → s.mapRange ctx va n .write = (.bad sub va', u) →
          exec (.tileEvicted ctx ste st tile) s = .next (u.tileFault ctx ste st tile t 0x36 sub va'))
      ∧ (∀ ps u, t.state = 3 → s.mapRange ctx va n .read = (.ok ps, u) → Local ps → u = { s with free := u.free } → f.items = [] → s.demands = [] →
          (∀ k g, (k, g) ∈ s.groups → ∀ e ∈ g.live, match e.2.park with | some (.tile _) => False | _ => True) → (∀ d, s.savingVictim d = none) →
          ∃ v f', exec (.tileRefilled ctx ste st tile) s = .next v ∧ SameMemory s v ∧ v.surf? ctx ste = some f' ∧ f'.tile st tile = none
            ∧ ∀ k, k ≠ tileKey st tile → Map.find f'.tiles k = Map.find f.tiles k)
      ∧ ∀ sub va' u, t.state = 3 → s.mapRange ctx va n .read = (.bad sub va', u) →
          exec (.tileRefilled ctx ste st tile) s = .next (u.tileFault ctx ste st tile t 0x37 sub va')

/-- Ordered streams, and tiles that come and go: `Claims.OrderedStreams` and `Claims.TilesComeAndGo`. -/
def Obligations.OrderedStreamsAndTiles : Prop :=
  Claims.OrderedStreams ∧ Claims.TilesComeAndGo

/-- R346 to R352: a raster word outside its kind of kernel traps with 0x76, one whose slot or target there is not with 0x77, in the lanes
that fail. VEMIT puts its quad into the slot of each executing lane's vertex; FATTR gives each lane the quad of its fragment that SEL
and slot name; FEMIT records a colour of a target or the clamped depth; FKILL kills the fragments. Nothing else of a record changes.
Completes, with the conclusion exec i s = .next t under conditions on s and the operands alone: .vemit, .fattr, .femit, .fkill. -/
def Obligations.RasterWords : Prop :=
  ∀ (x : RastW) (s : State) (i : Iss), Executes s x.ctl i →
    let s0 := i.start s
    let d := s0.drawOf i.g
    let imm := tailImm x.tail
    let ls := lanesOf (destLanes x.d i.lanes)
    let goes (ins : Instr) (e : Eff) : Prop := exec ins s = .next (e.retire x.ctl i)
    let slot (l : Nat) : Nat := i.val x.a 32 l imm
    let frag (n : Nat) : Nat := (Map.get 0 i.g.frag n).toNat
    let emitted (w l : Nat) : Nat := i.g.operand i.sp.wb x.a w l (supplyTy 8) imm
    (i.g.ident.kind ≠ 1 → goes (.vemit x) (.trap s0 0x76 i.lanes 0 0))
      ∧ (i.g.ident.kind ≠ 2 → goes (.femit x) (.trap s0 0x76 i.lanes 0 0) ∧ goes (.fkill x) (.trap s0 0x76 i.lanes 0 0)
          ∧ goes (.fattr x) (.trap s0 0x76 (destLanes x.d i.lanes) 0 0))
      ∧ (i.g.ident.kind = 1 →
          (∀ bad l, Fails i.lanes (fun l => d.nattr < slot l) bad l → goes (.vemit x) (.trap s0 0x77 bad 0 0))
          ∧ ((∀ l, hasLane i.lanes l = true → slot l ≤ d.nattr) →
              ∃ v, goes (.vemit x) (.ok (s0.updGroup i.k fun g => { g with vert := v }))
                ∧ ∀ l n c, n < 256 → c < 4 → (Map.get 0 v (1024 * l + 4 * n + c)).toNat =
                    if hasLane i.lanes l = true ∧ slot l = n then elemAt 32 (i.val x.b 128 l imm) c
                    else (Map.get 0 i.g.vert (1024 * l + 4 * n + c)).toNat))
      ∧ (i.g.ident.kind = 2 →
          goes (.fkill x) (.ok (s0.updGroup i.k fun g => { g with killed := i.g.killed ||| i.lanes }))
          ∧ (∀ bad l, x.sel ≠ 3 → Fails (destLanes x.d i.lanes) (fun l => d.nattr < slot l) bad l → goes (.fattr x) (.trap s0 0x77 bad 0 0))
          ∧ (x.sel = 3 ∨ (∀ l ∈ ls, slot l ≤ d.nattr) →
              goes (.fattr x) (.ok (s0.outstanding i.k 36 true (ls.flatMap fun l =>
                let at_ := 1024 * l + 64 * x.sel.toNat + (if x.sel = 3 then 0 else 4 * slot l)
                destWrites i.sp.wb x.d 128 l (joinElems 32 [frag at_, frag (at_ + 1), frag (at_ + 2), frag (at_ + 3)])))))
          ∧ (x.sel.toNat < 4 → d.ntgt ≤ x.sel.toNat → goes (.femit x) (.trap s0 0x77 i.lanes 0 0))
          ∧ (x.sel = 4 → i.g.ident.depthW = false → goes (.femit x) (.trap s0 0x77 i.lanes 0 0))
          ∧ (x.sel.toNat < 4 → x.sel.toNat < d.ntgt →
              ∃ v, goes (.femit x) (.ok (s0.updGroup i.k fun g => { g with frag := v }))
                ∧ (∀ l, hasLane i.lanes l = true → Map.get 0 v (1024 * l + 8 * x.sel.toNat + 260) = 1
                    ∧ ∀ c, c < 4 → (Map.get 0 v (1024 * l + 8 * x.sel.toNat + 256 + c)).toNat = elemAt 32 (emitted 128 l) c)
                ∧ ∀ n, (∀ l, hasLane i.lanes l = true → n < 1024 * l + 8 * x.sel.toNat + 256 ∨ 1024 * l + 8 * x.sel.toNat + 260 < n) →
                    Map.get 0 v n = Map.get 0 i.g.frag n)
          ∧ (x.sel = 4 → i.g.ident.depthW = true →
              ∃ v, goes (.femit x) (.ok (s0.updGroup i.k fun g => { g with frag := v }))
                ∧ (∀ l, hasLane i.lanes l = true → Map.get 0 v (1024 * l + 289) = 1
                    ∧ Map.get 0 v (1024 * l + 288) = BitVec.ofNat 32 (clampZ (f32.decode (emitted 32 l))))
                ∧ ∀ n, (∀ l, hasLane i.lanes l = true → n < 1024 * l + 288 ∨ 1024 * l + 289 < n) → Map.get 0 v n = Map.get 0 i.g.frag n))

/-- R343, R353: RXSNAP gives each lane the three grid integers of its point, nearest to (a − b) × 2^−e with ties to even and limited to
2^30, and d3 = 0; its predicate says that an axis was limited or has no value.
Completes, with the conclusion exec i s = .next t under conditions on s and the operands alone: .rxsnap. -/
def Claims.RaySnapping : Prop :=
  (∀ (x : RastW) (s : State) (i : Iss), Issues s x.ctl i →
    let axis (l n : Nat) : Int × Bool :=
      let v (o : Operand) (j : Nat) : Nat := elemAt 32 (i.val o 128 l (tailImm x.tail)) j
      snapAxis (f32.decode (v x.a n)) (f32.decode (v x.b n)) (sint 32 (v x.b 3))
    exec (.rxsnap x) s = .next ((Eff.ok ((i.start s).outstanding i.k 10 true ((lanesOf (destLanes x.d i.lanes)).flatMap fun l =>
      destWrites i.sp.wb x.d 128 l (joinElems 32 [wrap 32 (axis l 0).1, wrap 32 (axis l 1).1, wrap 32 (axis l 2).1])
        ++ predWrites x.pd l ((axis l 0).2 || (axis l 1).2 || (axis l 2).2)))).retire x.ctl i))
    ∧ ∀ (p q : Nat) (e : Int), -2 ^ 31 ≤ e → e < 2 ^ 31 →
        let a := f32.decode p
        let b := f32.decode q
        (∀ na da nb db, a.IsFinite na da → b.IsFinite nb db →
            let num := (na * db - nb * da) * 2 ^ (-e).toNat
            let den : Int := da * db * 2 ^ e.toNat
            ∃ n : Int, 2 * (n * den - num).natAbs ≤ den.natAbs ∧ (2 * (n * den - num).natAbs = den.natAbs → n % 2 = 0)
              ∧ snapAxis a b e = (max (-2 ^ 30) (min (2 ^ 30) n), decide (2 ^ 30 < n.natAbs)))
          ∧ (a.isNan = true ∨ b.isNan = true ∨ (a.isInf = true ∧ a = b) → snapAxis a b e = (0, true))
          ∧ (∀ n, a = .inf n → b.isNan = false → a ≠ b → snapAxis a b e = (if n then -2 ^ 30 else 2 ^ 30, true))
          ∧ ∀ n, b = .inf n → a.isNan = false → a.isInf = false → snapAxis a b e = (if n then 2 ^ 30 else -2 ^ 30, true)

/-- R342, R344, R345, R348, R353: RXBOX and RXTRI read the record of each lane, which lies in this package, and give it the result of the test on its ray; the address
checks come first (0x41, 0x40), then 0x78 in every lane with a coordinate outside the grid. A box test misses no box that the exact ray
meets between tmin and tmax, and an empty ray hits nothing. That a record that ends beyond 2^52 raises 0x41 as one that begins there is the
model's choice (log entry 27).
Completes, with the conclusion exec i s = .next t under conditions on s and the operands alone: .rxbox, .rxtri. -/
def Claims.RayTests : Prop :=
  (∀ (x : RastW) (s : State) (i : Iss) (ins : Instr) (n : Nat) (test : RayQ → Nat → Nat × Bool) (word : Nat → Nat), Executes s x.ctl i →
    (ins = .rxbox x ∧ n = 48 ∧ test = boxTest ∨ ins = .rxtri x ∧ n = 36 ∧ test = triTest) → (i.start s).tileStores i.g = [] →
    let s0 := i.start s
    let m := destLanes x.d i.lanes
    let addr (l : Nat) : Nat := i.val x.b 64 l 0
    let ray (l : Nat) : RayQ := rayOf (i.val x.a 128 l 0) (i.val (tailOperand x.tail) 128 l 0)
    let off (l : Nat) : Bool := outOfGrid ((ray l).o ++ (ray l).d ++ ints (word (addr l)) (n / 4))
    let reads (va : Nat) : Prop := ∃ ps, s0.mapRange i.g.ident.ctx va n .read = (.ok ps, s0) ∧ Local ps
      ∧ word va = ofBytes (ps.flatMap fun p => s0.peek p.2.1 p.1 p.2.2.2) ∧ ∀ p ∈ ps, s0.readKills (some i.g.ident.core) i.g.ident.ctx p.1 p.2.2.2 = none
    (∀ bad l, Fails m (fun l => 2 ^ 52 < addr l + n) bad l → exec ins s = .next ((Eff.trap s0 0x41 bad (addr l) 0).retire x.ctl i))
      ∧ ((∀ l, hasLane m l = true → addr l + n ≤ 2 ^ 52) →
          (∀ bad l, Fails m (fun l => addr l % 16 != 0) bad l → exec ins s = .next ((Eff.trap s0 0x40 bad (addr l) 0).retire x.ctl i))
          ∧ ((∀ l, hasLane m l = true → addr l % 16 = 0 ∧ reads (addr l)) → s0.order.writes = [] →
              (∀ bad l, Fails m off bad l → ∃ u, exec ins s = .next ((Eff.trap u 0x78 bad 0 0).retire x.ctl i) ∧ SameMemory s u)
              ∧ ((∀ l, hasLane m l = true → off l = false) →
                  ∃ u, exec ins s = .next ((Eff.ok (u.outstanding i.k 10 true ((lanesOf m).flatMap fun l =>
                      destWrites i.sp.wb x.d 128 l (test (ray l) (word (addr l))).1
                        ++ predWrites x.pd l (test (ray l) (word (addr l))).2))).retire x.ctl i)
                    ∧ SameMemory s u ∧ ∃ g', u.group i.k = some g' ∧ g'.regs = i.g.regs ∧ g'.outst = i.g.outst))))
    ∧ (∀ (r : RayQ) (v : Nat), r.tmin.isNan = true ∨ r.tmax.isNan = true ∨ 0 < r.tmin.cmp r.tmax ∨ r.d = [0, 0, 0] →
        boxTest r v = (0x7F800000 + 2 ^ 32 * 0x7F800000, false) ∧ triTest r v = (0x7F800000, false))
    ∧ ∀ (a c : Nat) (lo hi : List Int) (num den : Int), let r := rayOf a c
        r.empty = false → 0 < den →
        (∀ n, n < 3 → lo.getD n 0 * den ≤ r.o.getD n 0 * den + num * r.d.getD n 0
          ∧ r.o.getD n 0 * den + num * r.d.getD n 0 ≤ hi.getD n 0 * den) →
        r.tmin.cmp (ratio num den) ≤ 0 → (ratio num den).cmp r.tmax ≤ 0 → (boxHit r lo hi).isSome = true

/-- RXSNAP, RXBOX and RXTRI: `Claims.RaySnapping` and `Claims.RayTests`. -/
def Obligations.RayWords : Prop :=
  Claims.RaySnapping ∧ Claims.RayTests

/-- R336, R337, R339: a sample on an edge that two triangles share lies in exactly one of them; the quads of a triangle cover a sample
of a pixel exactly when it lies in the render area and the triangle covers it. R333: clipping leaves a polygon that lies inside every
plane as it is. -/
def Claims.CoverageIsExact : Prop :=
  (∀ (a b : RVert) (px py : Int), (a.x, a.y) ≠ (b.x, b.y) → insideEdge b a px py = !insideEdge a b px py)
    ∧ (∀ (d : Draw) (f : Option Surf) (t : Tri) (x y n : Nat),
        let count := match f with | some f => f.count | none => 1
        let at_ := sampleAt count n
        (∃ q ∈ d.quadsOf f t, ∃ p ∈ q.frags, p.x = x ∧ p.y = y ∧ bit p.cover n = true) ↔
          n < count ∧ (d.renderArea f).1 ≤ x ∧ (d.renderArea f).2.1 ≤ y ∧ x < (d.renderArea f).2.2.1 ∧ y < (d.renderArea f).2.2.2
            ∧ t.covers (256 * x + at_.1) (256 * y + at_.2) = true)
    ∧ ∀ (d : Draw) (isLine : Bool) (vs : List (List FV)), (∀ v ∈ vs, ∀ n, n < 5 → (d.plane n v).inside = true) → d.clip isLine vs = vs

/-- R305, R306, R309, R341: steps 1 to 3 of a sample. The stencil comparison comes first, then the depth comparison; the stencil byte takes
the operation of the first comparison that fails, or of passing, under its write mask; the depth sample is replaced when both pass and
depth writes are on. No other byte changes. A comparison with NaN fails unless its function is always. -/
def Claims.DepthAndStencil : Prop :=
  ∀ (agent : Nat) (d : Draw) (zf x y smp : Nat) (s : State) (fd fs : Surf) (dep ste : Bool), s.poison = [] →
    let ds := d.field 192 64
    let bound (on : Bool) (n : Nat) (f : Surf) (yes : Bool) : Prop :=
      (yes = true → s.bound? d on n = some (n, f)) ∧ (yes = false → s.bound? d on n = none)
    (bit ds 4 = true → bound (bit d.record 142) (d.field 144 12) fd dep) → (bit ds 4 = false → dep = false) →
    (bit ds 17 = true → bound (bit d.record 143) (d.field 156 12) fs ste) → (bit ds 17 = false → ste = false) →
    sampleBytes fs.fmt = 1 →
    let ld := fd.pixelLoc x y smp
    let ls := fs.pixelLoc x y smp
    let n := sampleBytes fd.fmt
    ls + 1 ≤ ld ∨ ld + n ≤ ls →
    let oldD := ofBytes (s.bytes ld n)
    let oldS := ofBytes (s.bytes ls 1)
    let z := f32.decode zf
    let ref := bits ds 18 8
    let rm := bits ds 26 8
    let wm := bits ds 34 8
    let order (a b : FV) : Option Int := if a.isNan || b.isNan then none else some (a.cmp b)
    let sPass := !ste || compareFn (bits ds 5 3) (some (((ref &&& rm : Nat) : Int) - (oldS &&& rm : Nat)))
    let dPass := !dep || compareFn (bits ds 0 3) (if fd.fmt = 7 then order z (f32.decode oldD)
      else if z.isNan then none else some (((Enc.unorm 16).encode z : Int) - oldD))
    let op := if !sPass then bits ds 8 3 else if !dPass then bits ds 11 3 else bits ds 14 3
    let out := depthStencil agent d zf x y smp s
    out.1 = (sPass && dPass)
      ∧ SameOutside s out.2 ((if dep then [(ld, n)] else []) ++ if ste then [(ls, 1)] else [])
      ∧ (ste = true → out.2.bytes ls 1 = toBytes 1 ((oldS &&& (255 - wm)) ||| (stencilOp op oldS ref &&& wm)))
      ∧ (dep = true → out.2.bytes ld n =
          if (sPass && dPass && bit ds 3) = true then toBytes n (if fd.fmt = 7 then zf else (Enc.unorm 16).encode z) else s.bytes ld n)

/-- R331 to R341: the stages of a draw complete. Assembly goes on by one primitive when its vertices are final, and numbers the new
quads in the order of application; a group of a draw takes up to eight quads of one triangle and checker block to a core of the
owning stack, its lanes with their attributes; an early step removes its sample from those to be tested, and from the coverage when it
fails; an applied sample is written to each target that its lane gave a colour, and is removed from the coverage.
Completes, with the conclusion exec i s = .next t under conditions on s and the operands alone: .primitiveAssemble, .fragmentGroupLaunch,
.earlyDepthStencil, .fragmentApply. -/
def Claims.DrawStages : Prop :=
  ∀ (s : State) (draw : Nat) (d : Draw), Map.find s.draws draw = some d →
    let vert (n : Nat) := s.vertex draw d (d.nextPrim / d.prims * d.vcount + n)
    let topo := d.field 128 3
    let idx := primVerts topo (d.nextPrim % d.prims)
    let prim := (d.base + d.nextPrim) % 2 ^ 32
    let only (t : State) : Prop := t = { s with draws := t.draws, free := t.free }
    (d.nextPrim < d.insts * d.prims → (s.ctx d.ctx).active = true →
        ((∃ n ∈ idx, vert n = none) → exec (.primitiveAssemble draw) s = .next s)
        ∧ ((∀ n ∈ idx, vert n ≠ none) → (∃ n ∈ idx, vert n = some none) →
            exec (.primitiveAssemble draw) s =
              .next ({ s with draws := Map.set s.draws draw { d with nextPrim := d.nextPrim + 1 } }.failDraw d))
        ∧ ((∀ n ∈ idx, ∃ v, vert n = some (some v)) →
            ∃ t d' qs, exec (.primitiveAssemble draw) s = .next t ∧ only t ∧ Map.find t.draws draw = some d'
              ∧ d'.nextPrim = d.nextPrim + 1 ∧ d'.quads = d.quads ++ qs ∧ d'.nextQuad = d.nextQuad + qs.length
              ∧ (∀ j q, qs[j]? = some q → q.id = d.nextQuad + j ∧ q.state = (if d.latez then 1 else 0) ∧ q.tri.prim = prim)
              ∧ ∀ a b c, topo < 2 → idx.map vert = [some (some a), some (some b), some (some c)] →
                  let vs := [a, b, c].map fun v => v.map f32.decode
                  drawable vs = true → (∀ v ∈ vs, ∀ n, n < 5 → (d.plane n v).inside = true) →
                  ∃ open_ : Int, d'.quads = (d.append (match d.tri prim (a.drop 4) none (vs.map (d.snap open_)) with
                    | some t => d.quadsOf d.shape t | none => [])).quads))
      ∧ (∀ core q qs, d.nextQuads = q :: qs → d.fk.groups = 1 → d.fk.scalars = 0 → core / 128 = d.quadOwner q →
          s.dispatching d.ctx = true → s.fitAt d.fk core = true →
          s.mayPlace { ctx := d.ctx, queue := d.queue, deadline := d.deadline, kd := d.fk, die := some (d.quadOwner q), starved := d.starved } = true →
          ∃ t d' g uid, exec (.fragmentGroupLaunch draw core) s = .next t ∧ Map.find t.draws draw = some d'
            ∧ (∀ a, (t.team uid).holdsLoc a = false → t.byte a = s.byte a)
            ∧ d'.quads = d.quads.map (fun u => if ((q :: qs).map (·.id)).contains u.id then { u with state := 2, group := uid } else u)
            ∧ t.group (groupKey core (freeSlot (s.slotsOn core))) = some g ∧ g.ident.draw = some draw ∧ g.ident.kind = d.fk.kind
            ∧ g.ident.team = uid ∧ (t.team uid).cores = coreSet d.fk core ∧ g.phase = .active
            ∧ g.live = [(0, { pc := d.fk.entry, mask := BitVec.ofNat 32 (2 ^ (4 * (q :: qs).length) - 1) })]
            ∧ g.frag = (q :: qs).zipIdx.flatMap fun (u, j) => u.frags.zipIdx.flatMap fun (f, p) =>
                (attrWords d.nattr u.tri f).map fun (n, w) => (1024 * (4 * j + p) + n, w))
      ∧ (∀ q f u, d.quads.find? (·.state == 0) = some q → q.frags.find? (·.early != 0) = some f → s.earlierDraw draw d f.x f.y = false →
          s.pixelTaken draw d f.x f.y = false → (s.ctx d.ctx).active = true → s.pixelReady d f.x f.y = (true, u) → u.draws = s.draws →
          let smp := lowBit f.early
          let out := depthStencil (opAgent draw) d (f.z.getD smp 0) f.x f.y smp u
          ∃ t, exec (.earlyDepthStencil draw) s = .next t ∧ t.mem = out.2.mem
            ∧ Map.find t.draws draw = some ((d.updFrag q.id f.x f.y fun f =>
                { f with early := f.early - 2 ^ smp, cover := if out.1 then f.cover else f.cover - 2 ^ smp, begun := f.early != 2 ^ smp }).sweep))
      ∧ ∀ q f u, (d.quads.findSome? fun q => (q.frags.find? fun f => d.turn q f && !s.earlierDraw draw d f.x f.y && !s.pixelTaken draw d f.x f.y).map fun f => (q, f))
            = some (q, f) → (s.ctx d.ctx).active = true → s.pixelReady d f.x f.y = (true, u) → u.draws = s.draws →
          let smp := lowBit f.cover
          let out := if d.latez then depthStencil (opAgent draw) d (f.z.getD smp 0) f.x f.y smp u else (true, u)
          ∃ t, exec (.fragmentApply draw) s = .next t
            ∧ Map.find t.draws draw = some ((d.updFrag q.id f.x f.y fun f => { f with cover := f.cover - 2 ^ smp, begun := f.cover != 2 ^ smp }).sweep)
            ∧ (out.1 = false → t.mem = out.2.mem)
            ∧ ∀ c g, out.1 = true → d.ntgt = 1 → Map.find f.colour 0 = some c → out.2.liveSurf d.ctx (d.field 256 12) = some g →
                out.2.poison = [] →
                let loc := g.pixelLoc f.x f.y smp
                let n := sampleBytes g.fmt
                let w := d.field 320 32
                t.bytes loc n = toBytes n (blendSample g.fmt w (bits w 22 4) (bit w 26) (quadValues c) (ofBytes (out.2.bytes loc n)))
                  ∧ SameOutside out.2 t [(loc, n)]

/-- Coverage is exact; depth and stencil of a sample; the stages of a draw: `Claims.CoverageIsExact` and `Claims.DepthAndStencil` and `Claims.DrawStages`. -/
def Obligations.DrawStages : Prop :=
  Claims.CoverageIsExact ∧ Claims.DepthAndStencil ∧ Claims.DrawStages

/-! ### Images, waits, saves -/

/-- R166, R171: an image that is written of a region reads back: it passes the check, dirty granules give their words, clean ones zeros. -/
def Obligations.ImagesComeBack : Prop :=
  ∀ (region core map : Nat) (gs : List (Bool × List Nat)), region < 16 → core < 4 → map < 2 ^ 128 → gs.length < 2 ^ 16 →
    (∀ g ∈ gs, g.2.length = 64 ∧ ∀ w ∈ g.2, w < 2 ^ 32) →
    decodeImage region core map gs.length (encodeImage region core map gs)
      = some (gs.map fun g => if g.1 then g.2 else List.replicate 64 0)

/-- R162, R165, R170 to R172: SAVEREG waits for the team and its engine, raises 0xA5 when the image is longer than its limit, and else
writes the image and its length; LOADREG raises 0xA6 for an image that does not pass, and else writes the region; LOADREG.group takes the
registers, special registers, SPR and splits of the record, ICOUNT less what will issue again (R419; log entry 29), and waits for its team. A privileged address that is misaligned
traps, that of LOADREG by the model's choice (log entry 47). What becomes of live entries at odd places of a record is the model's choice
too (log entry 47).
Completes, with the conclusion exec i s = .next t under conditions on s and the operands alone: .savereg, .loadreg, .loadregGroup. -/
def Obligations.ImagesComplete : Prop :=
  ∀ (x : SysW) (s : State) (i : Iss), Executes s x.ctl i →
    let s0 := i.start s
    let ctx := i.g.ident.ctx
    let one : Lanes := 1#32 <<< lowest i.lanes
    let region := x.arg.toNat % 16
    let idx := x.arg.toNat / 16 % 4
    let t := s0.team i.g.ident.team
    let core := t.cores.getD idx 0
    let a := i.low x.a 64 x.imm
    let mg := s0.regionOf t region core
    let goes (ins : Instr) (e : Eff) : Prop := exec ins s = .next (e.retire x.ctl i)
    let maps (va n : Nat) (k : AccKind) (ps : List (Nat × Nat × Nat × Nat)) : Prop :=
      Local ps ∧ ∀ (g : Map Group) (e : Map Engine), State.mapRange { s0 with groups := g, engines := e } ctx va n k = (.ok ps, { s0 with groups := g, engines := e })
    let alive (ps : List (Nat × Nat × Nat × Nat)) : Prop := ∀ p ∈ ps, s0.readKills (some i.g.ident.core) ctx p.1 p.2.2.2 = none
    let got (ps : List (Nat × Nat × Nat × Nat)) : List Byte := ps.flatMap fun p => s0.peek p.2.1 p.1 p.2.2.2
    (a < 2 ^ 52 → a % 16 ≠ 0 → goes (.savereg x) (.trap s0 0x40 one a 0))
      ∧ (a + 32 ≤ 2 ^ 52 → a % 16 ≠ 0 → goes (.loadreg x) (.trap s0 0x40 one a 0))
      ∧ (a < 2 ^ 52 → a % 16 = 0 →
          let ready := s0.teamSaved t && (region == 0 || s0.engineRests core ctx) && (s0.tileStores i.g).isEmpty
          let bs := encodeImage region (if region = 0 then 0 else idx) mg.1 mg.2
          (ready = false → goes (.savereg x) (.hold s0 .issue))
          ∧ (ready = true → i.low x.b 32 x.imm < bs.length → goes (.savereg x) (.trap s0 0xA5 one 0 0))
          ∧ (ready = true → bs.length ≤ i.low x.b 32 x.imm → a + bs.length ≤ 2 ^ 52 →
              ∀ ps, s0.mapRange ctx a bs.length .write = (.ok ps, s0) → Local ps →
              ps.Pairwise (fun p q => p.1 + p.2.2.2 ≤ q.1 ∨ q.1 + q.2.2.2 ≤ p.1) →
              ∃ u, goes (.savereg x) (.park (u.landNow i.k ((lanesOf (destLanes x.d i.lanes)).flatMap fun l =>
                  destWrites i.sp.wb x.d 32 l bs.length)) (.completion .done))
                ∧ SameOutside s u (ps.map fun p => (p.1, p.2.2.2)) ∧ u.engines = s.engines ∧ u.teams = s.teams
                ∧ ∀ p ∈ ps, u.bytes p.1 p.2.2.2 = (bs.drop p.2.2.1).take p.2.2.2))
      ∧ (a + 32 ≤ 2 ^ 52 → a % 16 = 0 → s0.order.writes = [] → ∀ hs, maps a 32 .read hs →
          let n := mg.2.length
          let len := bits (ofBytes (got hs)) 32 32
          (len < 32 ∨ 48 + 257 * n + 32 < len ∨ 2 ^ 52 < a + len → ∃ u, goes (.loadreg x) (.trap u 0xA6 one 0 0) ∧ SameMemory s u)
          ∧ (32 ≤ len → len ≤ 48 + 257 * n + 32 → a + len ≤ 2 ^ 52 → ∀ ps, maps a len .read ps → alive ps →
              (decodeImage region idx mg.1 n (got ps) = none → ∃ u, goes (.loadreg x) (.trap u 0xA6 one 0 0) ∧ SameMemory s u)
              ∧ ∀ gs, decodeImage region idx mg.1 n (got ps) = some gs →
                  (∀ (g : Map Group) (e : Map Engine), (∀ c, Map.find e c = none ↔ Map.find s.engines c = none) →
                    (∀ c v, Map.find e c = some v → ∃ v', Map.find s.engines c = some v' ∧ v.holder = v'.holder ∧ v.oslots = v'.oslots ∧ v.aslots = v'.aslots) →
                    (State.loadRegion { s0 with groups := g, engines := e } t region core gs).isSome = true) →
                  ∃ g e u, State.loadRegion { s0 with groups := g, engines := e } t region core gs = some u ∧ goes (.loadreg x) (.park u (.completion .done))
                    ∧ (region = 0 → (∀ o < (granuleBytes gs).length, u.byte (s.cLoc t.uid o) = (granuleBytes gs).getD o 0)
                        ∧ SameOutside s u ((s.cPieces t.uid 0 (granuleBytes gs).length).map fun p => (p.1, p.2.2.2)))
                    ∧ (0 < region → SameMemory s u)))
      ∧ (i.g.rowsBusy = true → goes (.loadregGroup x) (.hold s0 (.transfer { instr := .loadregGroup x, pc := i.sp.pc, lanes := i.lanes })))
      ∧ (i.g.rowsBusy = false → s0.order.writes = [] → s0.poison = [] → ∀ ps, maps i.g.ident.bsl 2048 .read ps → alive ps →
          let bs := got ps
          let rows := i.g.ident.rows
          let word (off : Nat) : Word := BitVec.ofNat 32 (ofBytes ((bs.drop off).take 4))
          (recordEnts rows bs = none → ∃ u, goes (.loadregGroup x) (.trap u 0xA6 one 0 0) ∧ SameMemory s u)
          ∧ ∀ es fl, recordEnts rows bs = some es →
              let spr := (word 0x4A0).toNat
              (∀ (g : Map Group) (e : Map Engine), mapRows { s0 with groups := g, engines := e } i.g .read
                (rangeFrom spr (min (spr + rows) (es.foldl (fun m e => max m (e.2.wb + 7)) 0))) [] = (.ok fl, { s0 with groups := g, engines := e })) →
              ∃ u g', goes (.loadregGroup x) (.hold u (.completion .restored)) ∧ SameMemory s u ∧ u.group i.k = some g' ∧ g'.back = es
                ∧ g'.spr = spr ∧ g'.dirty = [] ∧ g'.fmask = word 0x4BC ∧ g'.sr.trapmask = word 0x4BC ∧ g'.sr.stabn = (word 0x4AC).toNat
                ∧ g'.sr.fpctl = (word 0x4A4).toNat % 64 ∧ g'.sr.fpflags = (word 0x4A8).toNat % 64 ∧ g'.sr.stabs = (word 0x4B8).toNat
                ∧ g'.sr.icount = (ofBytes ((bs.drop 0x4C0).take 8) + (2 ^ 64 - i.g.uncount)) % 2 ^ 64 ∧ g'.sr.stab = ofBytes ((bs.drop 0x4B0).take 8) / 16 * 16
                ∧ (∀ r l, r < 8 → l < 32 → g'.readReg (fixedKey r l) = word (32 * l + 4 * r))
                ∧ (∀ n, n < 32 → g'.readReg (scalarKey n) = word (0x400 + 4 * n))
                ∧ ∀ p l, 1 ≤ p → p < 8 → l < 32 → g'.readReg (predKey p l) = if bit (word (0x480 + l)).toNat p then 1 else 0)

/-- R69 to R73, R203, R206: a result lands when it is ready, its minimum latency is over for every port that issues, and no earlier result
has the same register; it writes its registers in the lanes that land, as far as their rows are resident and their lanes have not exited,
and nothing else. A port with a group that is READY may still issue on the next clock. A free port grants the first group after the last one
that can issue; one with a cause noted for it meets that cause instead, also while it runs a handler: a trap, a kill, a context fault, or a
fault record with SRC 0 on which it waits (R372, R386). That a trap noted for a split that runs a handler is pending until the handler ends,
and that an injected kill has location 0, are the model's choices (log entries 29, 31).
Completes, with the conclusion exec i s = .next t under conditions on s and the operands alone: .resultLands, .runGrant. -/
def Claims.ResultsAndRuns : Prop :=
  (∀ (s : State) (k seq : Nat) (lanes : Lanes) (g : Group) (o : Outst), s.group k = some g → g.outst.find? (·.seq == seq) = some o →
      let ws := o.writes.filter fun w => hasLane lanes w.lane
      let due := o.issue + o.min
      let early : Prop := o.ready = false ∨ (∃ p ∈ g.outst, landsBefore o ws p = true) ∨ (∃ r ∈ s.runs, r.2.clock < due ∧ s.blocked r.2 = false)
        ∨ s.grantDue = true ∧ s.clock + 1 < due
      let lands (w : RegWrite) : Prop := (1024 ≤ w.key → g.resident ((w.key - 1024) / 256) = true)
        ∧ (512 ≤ w.key ∧ w.key < 1024 ∨ hasLane g.lanes w.lane = true)
      let cell (key : Nat) : Nat := ringKey g.ident.rows key
      (early → exec (.resultLands k seq lanes) s = .next s)
        ∧ (¬ early → ∃ (u : State) (g' : Group), exec (.resultLands k seq lanes) s = .next (u.settle k) ∧ u = { s with groups := u.groups, clock := max s.clock due }
            ∧ u.group k = some g' ∧ g'.sr = g.sr ∧ (∀ p ∈ g'.outst, p.seq ≠ seq → p ∈ g.outst) ∧ (∀ p ∈ g.outst, p.seq ≠ seq → p ∈ g'.outst)
            ∧ (∀ w ∈ ws, lands w → (∀ v ∈ ws, cell v.key = cell w.key → v = w) → g'.readReg w.key = w.val)
            ∧ ∀ key, (∀ w ∈ ws, lands w → cell w.key ≠ cell key) → g'.readReg key = g.readReg key))
    ∧ ∀ (s : State) (core port j slot : Nat) (g : Group) (e : Split),
        let after := Map.get 0 s.rr (4 * core + port)
        let at_ (j : Nat) : Nat := groupKey core (16 * port) + (after + j) % 16
        let can (j : Nat) : Prop := ∃ g, s.group (at_ j) = some g ∧ g.choose.isSome = true
        ((∃ r, Map.find s.runs (4 * core + port) = some r) ∨ (∀ j, j < 16 → ¬ can j) → exec (.runGrant core port) s = .next s)
          ∧ (Map.find s.runs (4 * core + port) = none → j < 16 → (∀ n, n < j → ¬ can n) → s.group (at_ j) = some g →
              g.choose = some slot → Map.find g.live slot = some e →
              (g.notes = [] → exec (.runGrant core port) s = .next { s.setGroup (at_ j) (g.chosen slot) with
                runs := Map.set s.runs (4 * core + port) { group := at_ j, slot, count := 0, clock := s.clock + 1 } })
              ∧ ∀ n, g.notes = [n] →
                  let u := s.updGroup (at_ j) fun g => { g with notes := [] }
                  let comes (t : State) : Prop := exec (.runGrant core port) s = .next t
                  (deliveryOf n.1 = .handler → comes (u.setGroup (at_ j) { g with
                      notes := [], traps := insertTrap { clock := s.clock, slot, cause := n.1, aux := n.2, whole := true } g.traps }))
                    ∧ (deliveryOf n.1 = .kill → comes (u.kill (at_ j) n.1 0))
                    ∧ (deliveryOf n.1 = .system → comes (u.contextFault g.ident.ctx n.1))
                    ∧ (deliveryOf n.1 = .fault → ∃ t tok, comes t ∧ (u.report g.ident.ctx { cause := n.1, die := g.ident.core / 128, core := g.ident.core % 128, slot := g.ident.slot, aux := g.ident.gid }).1 = tok
                        ∧ ∀ g', t.group (at_ j) = some g' → g'.fault = some { token := tok, slot, retry := .reissue }))

/-- R201, R227, R199, R79, R80: the waits end. A split in transfer wait goes on with the operands of its issue, a CALL or RET once no tile store
of its group meets a row that it moves; one whose instruction has only to complete goes on; SREAD and SWRITE of FPFLAGS take place when no result is outstanding. An EXITING group with no outstanding
result is gone, and no byte of memory changes.
Completes, with the conclusion exec i s = .next t under conditions on s and the operands alone: .transferWaitEnd, .completionParkEnd, .groupFreed. -/
def Claims.WaitsEnd : Prop :=
  (∀ (s : State) (k slot : Nat) (g : Group) (sp : Split), s.group k = some g → Map.find g.live slot = some sp → g.fault = none →
      let ended (ins : Instr) (t : State) : Prop := exec ins s = .next t
      let unparked (u : State) : State := (u.updGroup k fun g => g.updLive slot fun e => { e with park := none }).settle k
      (∀ h, sp.park = some (.transfer h) →
          let i : Iss := { k, slot, g, sp, lanes := h.lanes }
          (∀ x, h.instr = .call x ∨ h.instr = .ret x → 
            ended (.transferWaitEnd k slot) (if s.rowsMet i h = true then s else (slide i s h).close x.ctl i))
          ∧ (∀ x, h.instr = .calli x → ended (.transferWaitEnd k slot) ((calli false i s x h).close x.ctl i))
          ∧ (∀ x, h.instr = .loadregGroup x → ended (.transferWaitEnd k slot) ((loadGroup x h i s).close x.ctl i))
          ∧ (∀ x, h.instr = .svwin x → ended (.transferWaitEnd k slot) ((window true h i s).close x.ctl i))
          ∧ (∀ x, h.instr = .ldwin x → ended (.transferWaitEnd k slot) ((window false h i s).close x.ctl i)))
        ∧ (sp.park = some (.completion .done) → ended (.completionParkEnd k slot) (unparked s))
        ∧ (∀ d lanes, sp.park = some (.completion (.readFlags d lanes)) →
            (g.outst ≠ [] → ended (.completionParkEnd k slot) s)
            ∧ (g.outst = [] → ended (.completionParkEnd k slot) (unparked (s.landNow k
                ((lanesOf (destLanes d lanes)).flatMap fun l => destWrites sp.wb d 32 l g.sr.fpflags)))))
        ∧ (∀ v, sp.park = some (.completion (.writeFlags v)) →
            (g.outst ≠ [] → ended (.completionParkEnd k slot) s)
            ∧ (g.outst = [] → ended (.completionParkEnd k slot) (unparked (s.updGroup k fun g => { g with sr := { g.sr with fpflags := v } })))))
    ∧ ∀ (s : State) (k : Nat) (g : Group), s.group k = some g →
        (g.phase ≠ .exiting ∨ g.outst ≠ [] → exec (.groupFreed k) s = .next s)
          ∧ (g.phase = .exiting → g.outst = [] → ∃ t, exec (.groupFreed k) s = .next t ∧ t.group k = none ∧ SameMemory s t)

/-- Results land, runs are granted, waits end: `Claims.ResultsAndRuns` and `Claims.WaitsEnd`. -/
def Obligations.ResultsAndWaits : Prop :=
  Claims.ResultsAndRuns ∧ Claims.WaitsEnd

/-- R162, R165: while anything of a group is in flight, or its instruction is half done, it does not enter the save handler; then its record
is at BSL, and it is one split of 32 lanes at SAVEPC, privileged, with cause 0xA1 and the greatest window base of its splits; its
results are kept for its return. Which half-done instructions it waits for is the model's choice (log entry 29).
Completes, with the conclusion exec i s = .next t under conditions on s and the operands alone: .forcedSaveEntry. -/
def Claims.ForcedSave : Prop :=
  ∀ (s : State) (k : Nat) (g : Group), s.group k = some g →
    let id := g.ident
    let waits : Prop := (∃ o ∈ g.outst, s.heldResult id.ctx id.uid o.seq = false) ∨ s.itemsOpen id.ctx id.uid = true
      ∨ (∃ x ∈ g.ents, g.savable x.1 x.2 = false) ∨ g.saving = false ∨ g.saved = true ∨ g.phase = .exiting ∨ s.running k = true
      ∨ s.backingClear g = false
    (waits → exec (.forcedSaveEntry k) s = .next s)
      ∧ ∀ gw v, ¬ waits → g.fault = none → g.bad = [] → (s.withdraw k).group k = some gw → gw.bad = [] →
          (s.withdraw k).storeParts gw id.bsl gw.saveFields = .ok v → v.group k = some gw →
          ∃ (u : State) (g' : Group), exec (.forcedSaveEntry k) s = .next (u.wake fun x => x.ident.ctx == id.ctx) ∧ u = { v with groups := u.groups }
            ∧ u.group k = some g' ∧ g'.saved = true ∧ g'.handler.map (·.cause) = some 0xA1 ∧ g'.sr.trapcause = 0xA1 ∧ g'.traps = []
            ∧ g'.outst = [] ∧ g'.kept = gw.outst ∧ g'.regs = gw.regs ∧ g'.pend = []
            ∧ ∃ wb, g'.live = [(0, { pc := (v.ctx id.ctx).rc.savepc, mask := 0xFFFFFFFF, wb, priv := true })]
                ∧ (∀ e ∈ gw.entries, e.wb ≤ wb) ∧ (wb = 0 ∨ ∃ e ∈ gw.entries, e.wb = wb)

/-- R158, R161, R162, R167: the drain limit begins the forced save of a context with teams; a context is SAVED once no group, copy, engine
operation, demand or tile of it is left, and each of its teams is kept, as are its barriers; a saved team returns to cores that give it what it
held, each of its groups in the restore handler; a destroyed context's number is free again once its entries are written back (R303). The moment
of the forced save is the model's choice (log entry 29).
Completes, with the conclusion exec i s = .next t under conditions on s and the operands alone: .drainLimitExpired, .contextSaved, .contextReleased,
.teamReplaced. -/
def Claims.ContextsSavedAndRestored : Prop :=
  ∀ (s : State) (ctx : Nat),
    let c := s.ctx ctx
    let placed := s.teams.any fun x => x.2.ctx == ctx && !x.2.ended && !x.2.saved
    let busy : Bool := (s.groups.any fun x => x.2.ident.ctx == ctx) || (s.copyq.any fun x => x.ctx == ctx)
      || (s.engines.any fun e => e.2.queue.any fun q => q.ctx == ctx && !q.op.isMma) || (s.demands.any fun d => d.ctx == ctx)
      || c.surfs.any fun f => f.2.charged 0 + f.2.charged 1 > 0
    (c.state ≠ .draining ∨ placed = false → exec (.drainLimitExpired ctx) s = .next s)
      ∧ (c.state = .draining → placed = true → ∃ t, exec (.drainLimitExpired ctx) s = .next t ∧ (t.ctx ctx).state = .saving ∧ SameMemory s t
          ∧ ∀ k g, s.group k = some g → g.ident.ctx = ctx → (∀ d ∈ s.demands, d.page.isSome = true) →
              ∃ g', t.group k = some g' ∧ g'.saving = true ∧ g'.regs = g.regs)
      ∧ (c.state ≠ .saving ∨ busy = true → exec (.contextSaved ctx) s = .next s)
      ∧ (c.state = .saving → busy = false → ∀ v, v = s.payQueues ctx → (v.ctx ctx).state = .saving → (∀ q ∈ (v.ctx ctx).queues, q.2.owes = false) →
          ∃ t, exec (.contextSaved ctx) s = .next t ∧ (t.ctx ctx).state = .saved ∧ (∀ b ∈ t.bars, b.2.ctx ≠ ctx)
            ∧ (t.ctx ctx).barSave = (v.ctx ctx).barSave ++ v.bars.filter (fun b => b.2.ctx == ctx)
            ∧ (∀ n tm, Map.find v.teams n = some tm → tm.ctx = ctx → tm.ended = false → ∃ tm', Map.find t.teams n = some tm' ∧ tm'.saved = true
                ∧ (tm.saved = false → ∀ a, tm.holdsLoc a = true → t.byte a = 0))
            ∧ ∀ a, a < cspaceBase → t.byte a = v.byte a)
      ∧ (c.state ≠ .destroyed ∨ c.owed ≠ [] → exec (.contextReleased ctx) s = .next s)
      ∧ (c.state = .destroyed → c.owed = [] → ∃ t, exec (.contextReleased ctx) s = .next t ∧ t = { s with ctxs := t.ctxs } ∧ Map.find t.ctxs ctx = none
          ∧ ∀ n, n ≠ ctx → Map.find t.ctxs n = Map.find s.ctxs n)
      ∧ ∀ idx core,
          let saved := (s.teams.map (·.2)).filter fun t => t.ctx == ctx && t.saved
          (saved[idx]? = none → exec (.teamReplaced ctx idx core) s = .next s)
          ∧ ∀ tm, saved[idx]? = some tm →
              (c.dispatching = false ∨ s.refits tm core = false → exec (.teamReplaced ctx idx core) s = .next s)
              ∧ (c.dispatching = true → s.refits tm core = true →
                  let cs := coreSet tm.kd core
                  ∃ t, exec (.teamReplaced ctx idx core) s = .next t ∧ (∀ a, (t.team tm.uid).holdsLoc a = false → t.byte a = s.byte a) ∧ (t.ctx ctx).state = .running
                    ∧ (t.team tm.uid).saved = false ∧ (t.team tm.uid).cores = cs
                    ∧ ∀ g, tm.gsaved = [g] → g.ident.ctx = ctx →
                        let home := cs.getD (tm.cores.idxOf g.ident.core) 0
                        ∃ g', t.group (groupKey home (freeSlot (s.slotsOn home))) = some g' ∧ g'.ident.core = home ∧ g'.ident.uid = g.ident.uid
                          ∧ g'.ident.gid = g.ident.gid ∧ g'.handler.map (·.cause) = some 0xA3 ∧ g'.sr.trapcause = 0xA3 ∧ g'.spr = 0
                          ∧ g'.live = [(0, { pc := c.rc.restpc, mask := 0xFFFFFFFF, priv := true })] ∧ g'.pend = [])

/-- The forced save of a group and of a context, and its return: `Claims.ForcedSave` and `Claims.ContextsSavedAndRestored`. -/
def Obligations.ForcedSaveAndContexts : Prop :=
  Claims.ForcedSave ∧ Claims.ContextsSavedAndRestored

/-! ### The front end -/

/-- R186: QAPPEND answers 0xFFFFFFFD where there is no queue that takes packets from kernels, 0xFFFFFFFE for a packet of no kind,
0xFFFFFFFF for a full ring, TAIL being read again; otherwise it copies the packet into the slot at TAIL, moves TAIL on, lets an IDLE or
BLOCKED queue settle (R185: an empty queue is READY or LATE with that packet at hand), and answers the old TAIL and true: so
QAPPEND completes, `exec (.qappend x) s = .next t`, whenever its queue takes packets, has room, and its addresses are mapped. A misaligned or too high address
traps first.
Completes, with the conclusion exec i s = .next t under conditions on s and the operands alone: .qappend. -/
def Obligations.QappendCompletes : Prop :=
  ∀ (x : SysW) (s : State) (i : Iss), Executes s x.ctl i → (i.start s).tileStores i.g = [] →
    let s0 := i.start s
    let ctx := i.g.ident.ctx
    let a := i.low x.a 64 x.imm
    let q := i.low x.b 32 x.imm
    let one : Lanes := 1#32 <<< lowest i.lanes
    let goes (e : Eff) : Prop := exec (.qappend x) s = .next (e.retire x.ctl i)
    let answers (r : Nat) (P : State → Prop) : Prop := ∃ u, P u ∧ goes (.park (u.landNow i.k ((lanesOf (destLanes x.d i.lanes)).flatMap fun l =>
      destWrites i.sp.wb x.d 32 l r ++ predWrites x.pd l (r < 0xFFFFFFFD))) (.completion .done))
    let maps (va n : Nat) (k : AccKind) (ps : List (Nat × Nat × Nat × Nat)) : Prop :=
      Local ps ∧ ∀ (g : Map Group) (e : Map Engine), State.mapRange { s0 with groups := g, engines := e } ctx va n k = (.ok ps, { s0 with groups := g, engines := e })
    let queue : Option Queue := if q < (s.ctx ctx).rc.qcount then Map.find (s.ctx ctx).queues q else none
    (2 ^ 52 ≤ a → goes (.trap s0 0x41 one a 0)) ∧ (a < 2 ^ 52 → a % 64 ≠ 0 → goes (.trap s0 0x40 one a 0))
      ∧ (a < 2 ^ 52 → a % 64 = 0 →
          ((∀ qu, queue = some qu → qu.kapp = false ∨ qu.state = .faulted) → answers 0xFFFFFFFD (SameMemory s))
          ∧ ∀ qu ps, queue = some qu → qu.kapp = true → qu.state ≠ .faulted → maps a 64 .read ps →
              (∀ p ∈ ps, s0.readKills (some i.g.ident.core) ctx p.1 p.2.2.2 = none) → s0.order.writes = [] →
              let packet := ps.flatMap fun p => s0.peek p.2.1 p.1 p.2.2.2
              let kind := ofBytes (packet.take 1)
              (kind < 1 ∨ 9 < kind → answers 0xFFFFFFFE (SameMemory s))
                ∧ (1 ≤ kind → kind ≤ 9 → ∀ lt st, maps ((s.ctx ctx).rc.qtbase + 64 * q + 12) 4 .read [(lt, st, 0, 4)] →
                    let tail := ofBytes (s0.peek st lt 4)
                    let next := (tail + 1) % qu.n
                    let settles : Bool := qu.state == .idle || qu.state == .blocked
                    (next = qu.head → answers 0xFFFFFFFF (SameMemory s))
                    ∧ ∀ la sa, next ≠ qu.head → maps (qu.rbase + 64 * tail) 64 .write [(la, sa, 0, 64)] →
                        maps ((s.ctx ctx).rc.qtbase + 64 * q + 12) 4 .write [(lt, st, 0, 4)] → lt + 4 ≤ la ∨ la + 64 ≤ lt →
                        answers tail fun u => ∃ v, u = v.settleQueue ctx q
                          ∧ v.bytes la 64 = packet ∧ v.bytes lt 4 = toBytes 4 next ∧ SameOutside s v [(la, 64), (lt, 4)]
                          ∧ v.queue? ctx q = some { qu with tail := next }
                          ∧ ((settles = false ∧ qu.due = false) ∨ qu.wait.isSome = true ∨ (s.ctx ctx).dispatching = false → SameMemory v u
                              ∧ u.queue? ctx q = some { qu with tail := next, due := qu.due || (settles && (s.ctx ctx).dispatching) })
                          ∧ (settles = true → qu.wait = none → (s.ctx ctx).dispatching = true → qu.cur = none → qu.head = tail → qu.open_ = [] →
                              v.mapRange ctx (qu.rbase + 64 * tail) 64 .read = (.ok [(la, sa, 0, 64)], v) → v.peek sa la 64 = packet →
                              packetOk (ofBytes packet) qu.n = true → kind ∉ [1, 2, 4] →
                              SameMemory v u ∧ ∃ qu' p, u.queue? ctx q = some qu' ∧ (qu'.state = .ready ∨ qu'.state = .late)
                                ∧ qu'.cur = some p ∧ p.raw = ofBytes packet ∧ qu'.tail = next)))

/-- R178, R184, R185: a control packet runs when its queue may start it. One that is late with DROP is consumed with STATUS 2 and no other
effect. WAITSW and SIGNAL go on at P + 1; SIGNAL first stores its value or adds to its word, published, and then raises its interrupt;
COND goes on at the slot that its word selects, LOOP at FIRST while its word is not zero, JUMP at TARGET; STOP leaves the queue STOPPED.
Consuming moves HEAD modulo the size of the ring and counts SEQ. A blocked WAITSW goes on when its comparison holds. STOP ends with the queue
STOPPED and its fields in the descriptor; a descriptor whose page is absent leaves it STOPPED with its walker waiting. That an interrupt
vector of 2,048 or more sends nothing is the model's choice (log entry 32).
Completes, with the conclusion exec i s = .next t under conditions on s and the operands alone: .waitswPacket, .waitswReread, .signalPacket,
.condPacket, .loopPacket, .jumpPacket, .stopPacket. -/
def Obligations.ControlPackets : Prop :=
  (∀ (s : State) (ctx q : Nat) (qu : Queue) (p : Packet),
      let a := p.body 128 64
      let word (w : Nat) (u : State) : Prop := s.frontRead ctx a 4 p.name = (.ok w, u)
      let maps (n : Nat) (k : AccKind) (loc stamp : Nat) (u : State) : Prop := s.mapRange ctx a n k = (.ok [(loc, stamp, 0, n)], u) ∧ SameMemory s u ∧ nodeOf loc = none
      let goes (ins : Instr) (u : State) (next : Nat) : Prop :=
        exec ins s = .next (u.consume ctx q { p with status := if u.late ctx p.deadline then 1 else 0 } next)
      let signals (v : Nat) (n loc : Nat) (u t : State) : Prop :=
        t.bytes loc n = toBytes n v ∧ SameOutside s t [(loc, n)] ∧ u.msix = s.msix
          ∧ t.msix = s.msix ++ (if bit p.raw 258 ∧ p.body 272 16 < 2048 then [((s.ctx ctx).port, p.body 272 16)] else [])
      let dropped : Prop := p.drop = true ∧ p.placed = 0 ∧ s.late ctx p.deadline = true
      let one (ins : Instr) (kind : Nat) : Prop :=
        (s.startable ctx q kind = none → exec ins s = .next s)
          ∧ (s.startable ctx q kind = some (qu, p) → dropped →
              exec ins s = .next (s.consume ctx q { p with status := 2, teams := 0, placed := 0 } (p.slot + 1)))
      one (.waitswPacket ctx q) 4 ∧ one (.signalPacket ctx q) 5 ∧ one (.condPacket ctx q) 6 ∧ one (.loopPacket ctx q) 7
        ∧ one (.jumpPacket ctx q) 8 ∧ one (.stopPacket ctx q) 9
        ∧ (¬ dropped →
            (s.startable ctx q 4 = some (qu, p) → goes (.waitswPacket ctx q) s (p.slot + 1))
            ∧ (s.startable ctx q 8 = some (qu, p) → goes (.jumpPacket ctx q) s (p.body 128 32))
            ∧ (s.startable ctx q 6 = some (qu, p) → ∀ w u, word w u →
                goes (.condPacket ctx q) u (p.body (256 + 32 * min w (p.body 192 4 - 1)) 32))
            ∧ (s.startable ctx q 7 = some (qu, p) → ∀ w u, word w u →
                (w = 0 → goes (.loopPacket ctx q) u (p.slot + 1))
                ∧ (w ≠ 0 → bit p.raw 224 = false → goes (.loopPacket ctx q) u (p.body 192 32))
                ∧ (w ≠ 0 → bit p.raw 224 = true → ∀ loc stamp v, u.mapRange ctx a 4 .atomic = (.ok [(loc, stamp, 0, 4)], v) → nodeOf loc = none →
                    ∃ t, goes (.loopPacket ctx q) t (p.body 192 32) ∧ t.bytes loc 4 = toBytes 4 (w - 1) ∧ SameOutside v t [(loc, 4)]))
            ∧ (s.startable ctx q 5 = some (qu, p) → ∀ loc stamp u, u.msix = s.msix → (u.ctx ctx).port = (s.ctx ctx).port →
                (p.body 256 2 = 0 → maps 4 .write loc stamp u →
                  ∃ t, goes (.signalPacket ctx q) t (p.slot + 1) ∧ signals (p.body 192 32) 4 loc u t)
                ∧ (p.body 256 2 = 1 → maps 8 .write loc stamp u →
                    ∃ t, goes (.signalPacket ctx q) t (p.slot + 1) ∧ signals (p.body 192 64) 8 loc u t)
                ∧ (p.body 256 2 = 2 → maps 4 .atomic loc stamp u → u.mapRange ctx a 4 .atomic = (.ok [(loc, stamp, 0, 4)], u) →
                    ∃ t, goes (.signalPacket ctx q) t (p.slot + 1)
                      ∧ signals (ofBytes (u.peek stamp loc 4) + p.body 192 32) 4 loc u t))
            ∧ (s.startable ctx q 9 = some (qu, p) →
                let head := (p.slot + 1) % qu.n
                let seq := (qu.seq + 1) % 2 ^ 32
                let v := s.updQueue ctx q fun r => { r with
                  open_ := r.open_ ++ [{ p with status := if s.late ctx p.deadline then 1 else 0 }], cur := none, head := (p.slot + 1) % r.n,
                  seq := (r.seq + 1) % 2 ^ 32, placed := 0, state := .stopped, owes := true }
                let at_ := (s.ctx ctx).rc.qtbase + 64 * q + 16
                (∀ loc stamp u, v.mapRange ctx at_ 16 .write = (.ok [(loc, stamp, 0, 16)], u) → SameMemory v u → u.ctxs = v.ctxs → nodeOf loc = none →
                    ∃ t qu', exec (.stopPacket ctx q) s = .next t ∧ t.queue? ctx q = some qu' ∧ qu'.state = .stopped ∧ qu'.head = head ∧ qu'.seq = seq
                      ∧ qu'.placed = 0 ∧ qu'.owes = false ∧ t.bytes loc 16 = toBytes 4 head ++ toBytes 4 seq ++ toBytes 4 0 ++ toBytes 4 5
                      ∧ SameOutside s t [(loc, 16)])
                  ∧ (∀ c va u, v.mapRange ctx at_ 16 .write = (.bad c va, u) → exec (.stopPacket ctx q) s = .next (u.walkerWaits ctx q c va)))))
    ∧ (∀ (s : State) (ctx q next : Nat) (qu : Queue) (p : Packet), s.queue? ctx q = some qu →
        ∃ qu', (s.consume ctx q p next).queue? ctx q = some qu' ∧ qu'.head = next % qu.n ∧ qu'.seq = (qu.seq + 1) % 2 ^ 32 ∧ qu'.placed = 0)
    ∧ ∀ (s : State) (ctx q w : Nat) (qu : Queue) (p : Packet), s.queue? ctx q = some qu →
        (qu.state ≠ .blocked ∨ qu.cur.map Packet.kind ≠ some 4 → exec (.waitswReread ctx q) s = .next s)
          ∧ (qu.state = .blocked → qu.cur = some p → p.kind = 4 → qu.wait = none → qu.head ≠ qu.tail → (s.ctx ctx).dispatching = true →
              s.frontRead ctx (p.body 128 64) 4 p.name = (.ok w, s) →
              let x := w &&& p.body 224 32
              let v := p.body 192 32
              let holds := match p.body 256 2 with | 0 => x == v | 1 => x != v | 2 => decide (v ≤ x) | _ => decide (x < v)
              ∃ t, exec (.waitswReread ctx q) s = .next t ∧ SameMemory s t ∧ t.groups = s.groups
                ∧ t.queue? ctx q = some { qu with due := false, state := if holds then (if s.late ctx p.deadline then .late else .ready) else .blocked })

/-- R179, R181, R183, R184, R187, R193 to R196: a LAUNCH or DRAW starts when it may: one without teams is consumed, any other places its
first team where it fits when no packet of higher rank has a team that fits or has starved. A team is placed on the cores that the
event names when they have its resources; its groups begin as R195 says, together. A packet that has waited too long without a fit
starves those below it, as does a draw with a fragment team that fits nowhere; a packet whose work is done leaves its queue, after its record, if it asks for one.
The trap registers of a new group (log entry 3), the locations of C-space (19) and when a packet is complete (28) are the model's choices, as is
that a packet's first team goes to the first cores and the lowest slots where it fits.
Completes, with the conclusion exec i s = .next t under conditions on s and the operands alone: .launchPacket, .drawPacket, .teamPlace,
.placementStarvation, .packetComplete. -/
def Obligations.WorkPackets : Prop :=
  let marked (s : State) (ctx q : Nat) : State := { s with draws := s.draws.map fun (n, d) =>
    (n, if d.ctx == ctx && d.queue == q && s.drawStarves d then { d with starved := true } else d) }
  (∀ (s : State) (ctx q : Nat) (ins : Instr) (kind : Nat),
      (ins = .launchPacket ctx q ∧ kind = 1 ∨ ins = .drawPacket ctx q ∧ kind = 2) →
      (s.startable ctx q kind = none → exec ins s = .next s)
      ∧ ∀ qu p kd rest, s.startable ctx q kind = some (qu, p) → p.kd = kd :: rest →
          let dropped : Prop := p.drop = true ∧ p.placed = 0 ∧ s.late ctx p.deadline = true
          let low (acc : Bool) (core j : Nat) : Nat := s.lowSlots acc (core + j) (if acc then kd.aslots else kd.oslots)
          (dropped → exec ins s = .next (s.consume ctx q { p with status := 2, teams := 0, placed := 0 } (p.slot + 1)))
          ∧ (¬ dropped →
              (p.teams = 0 → exec ins s = .next (s.consume ctx q { p with status := if s.late ctx p.deadline then 1 else 0 } (p.slot + 1)))
              ∧ (p.teams ≠ 0 → s.firstFit kd none = none → exec ins s = .next s)
              ∧ ∀ core, p.teams ≠ 0 → s.firstFit kd none = some core →
                  (s.mayPlace (p.bid ctx q) = false → exec ins s = .next s)
                  ∧ (s.mayPlace (p.bid ctx q) = true → exec ins s = .next (s.placeNext ctx q p core (low false core) (low true core)))))
    ∧ (∀ (s : State) (ctx q core ob ab : Nat) (p : Packet) (kd : KDesc) (rest : List KDesc),
        (s.placeable ctx q = none → exec (.teamPlace ctx q core ob ab) s = .next s ∧ exec (.placementStarvation ctx q) s = .next (marked s ctx q))
        ∧ (s.placeable ctx q = some p → p.kd = kd :: rest →
            let fo (j : Nat) : Nat := ob / 128 ^ j % 128
            let fa (j : Nat) : Nat := ab / 32 ^ j % 32
            (s.fits kd core fo fa = true → s.mayPlace (p.bid ctx q) = true →
              exec (.teamPlace ctx q core ob ab) s = .next (s.placeNext ctx q p core fo fa))
            ∧ (s.fits kd core fo fa = false → exec (.teamPlace ctx q core ob ab) s = .next s)
            ∧ (∀ b ∈ s.bids, s.before b (p.bid ctx q) = true → b.starved = true ∨ (s.firstFit b.kd b.die).isSome = true →
                exec (.teamPlace ctx q core ob ab) s = .next s)
            ∧ ((s.firstFit kd none).isSome = true → exec (.placementStarvation ctx q) s = .next (marked s ctx q))
            ∧ (s.firstFit kd none = none → exec (.placementStarvation ctx q) s =
                .next ((marked s ctx q).updQueue ctx q fun qu => { qu with cur := some { p with starved := true } }))))
    ∧ (∀ (s : State) (r : TeamReq) (core : Nat) (ob ab : Nat → Nat), s.fits r.kd core ob ab = true → r.kd.scalars = 0 →
        let out := s.placeTeam r core ob ab
        let t := out.2.2
        let u := t.team out.2.1
        out.1.length = r.kd.groups ∧ out.1.Nodup ∧ (∀ a, t.byte a = if u.holdsLoc a then 0 else s.byte a)
          ∧ u.csize = (r.kd.cspace + 511) / 512 * 512
          ∧ (∀ a, t.cLoc out.2.1 a = cspaceBase + 2 ^ 15 * (u.cline + a / 512) + 128 * (core / 4 * 4 + a / 128 % 4) + a % 128)
          ∧ (0 < u.csize → u.cline + u.csize / 512 ≤ 2048 ∧ ∀ n m, Map.find s.teams n = some m → m.saved = false → m.quad = u.quad →
              u.cline + u.csize / 512 ≤ m.cline ∨ m.cline + m.csize / 512 ≤ u.cline)
          ∧ (t.team out.2.1).cores = coreSet r.kd core ∧ (t.team out.2.1).left = r.kd.groups
          ∧ ∀ j k, out.1[j]? = some k → ∃ g, t.group k = some g
              ∧ g.ident.gid = j ∧ g.ident.core = core + j % r.kd.width ∧ k = groupKey g.ident.core g.ident.slot ∧ g.ident.team = out.2.1
              ∧ g.ident.x = r.x ∧ g.ident.y = r.y ∧ g.ident.z = r.z ∧ g.ident.launch = r.launch ∧ g.ident.ctx = r.ctx
              ∧ (r.draw = none → g.ident.bsp = r.back + (r.index * r.kd.groups + j) * ((r.kd.backkb + 2) * 1024))
              ∧ g.ident.bsl = g.ident.bsp + r.kd.backkb * 1024 ∧ g.live = [(0, { pc := r.kd.entry, mask := r.mask })] ∧ g.pend = []
              ∧ g.spr = 0 ∧ g.phase = .active ∧ g.outst = [] ∧ g.sr = {}
              ∧ g.readReg (scalarKey 0) = BitVec.ofNat 32 r.args ∧ g.readReg (scalarKey 1) = BitVec.ofNat 32 (r.args / 2 ^ 32)
              ∧ ∀ key, key ≠ scalarKey 0 → key ≠ scalarKey 1 → g.readReg key = 0)
    ∧ ∀ (s : State) (ctx q seq : Nat) (qu : Queue) (p : Packet), s.queue? ctx q = some qu → (s.ctx ctx).state ≠ .saved →
        let mine (p : Packet) : Bool := p.seq == seq && s.packetDone ctx p
        let gone (u : State) : State :=
          let u := u.updQueue ctx q fun qu => { qu with open_ := dropFirst (fun r => r == p) qu.open_ }
          ((match p.draw with | some d => { u with draws := Map.erase u.draws d } | none => u).wakeQueue ctx q)
        (qu.open_.find? mine = none → exec (.packetComplete ctx q seq) s = .next s)
          ∧ (qu.open_.find? mine = some p → p.cpl = false → exec (.packetComplete ctx q seq) s = .next (gone s))
          ∧ ∀ loc stamp u, qu.open_.find? mine = some p → p.cpl = true →
              s.mapRange ctx (qu.cplbase + 16 * p.slot) 16 .write = (.ok [(loc, stamp, 0, 16)], s) → nodeOf loc = none →
              u = s.storePub stamp loc (toBytes 16 (p.seq % 2 ^ 32 + (if p.failed then 3 else p.status) * 2 ^ 32 + p.kind % 256 * 2 ^ 36
                + (s.port (s.ctx ctx).port).now * 2 ^ 64)) →
              exec (.packetComplete ctx q seq) s = .next (gone (u.writeBack ctx q)) ∧ SameOutside s u [(loc, 16)]

/-- R156 to R160: the context commands. A command for a context of the other port, or before the package is READY, has RESULT 2; one that
no row of R158 matches has RESULT 1 in RUNNING, DRAINING and SAVING, and 2 otherwise. BUILD copies a record that passes R156 and takes a
key id of its own; ADMIT makes a context resident unless 16 are, or faults it; PREEMPT saves an idle context and drains a running one;
DESTROY stops its groups and erases its key. A context fault stops every group of its context and every queue. ADMIT reads the queue table: each
queue has the fields of its descriptor, one that is neither STOPPED nor FAULTED settles. The model's choices: with no working UCIe module (R396) BUILD
and ADMIT leave the context FAULTED with 0xB0, ADMIT checks STBASE and QTBASE, PREEMPT without a team saves at once (log entry 39); the host
may refuse that BUILD reads its memory (18); what a context fault drops (17); the key goes once DESTROY has written its entries back (48).
Completes, with the conclusion exec i s = .next t under conditions on s and the operands alone: .build, .admission, .preempt, .destroy. -/
def Obligations.ContextCommands : Prop :=
  (∀ (s : State) (port : Bool) (ctx record : Nat) (host : Bool),
      let c := s.ctx ctx
      let foreign : Prop := c.state ≠ .empty ∧ c.port ≠ port.toNat
      let busy : Bool := c.state == .running || c.state == .draining || c.state == .saving
      let answers (ins : Instr) (r : Nat) (t : State) : Prop :=
        exec ins s = .next t ∧ (t.port port.toNat).ctxlast = ctx ∧ (t.port port.toNat).ctxres = r
      let refused (ins : Instr) (r : Nat) : Prop :=
        exec ins s = .next (s.updPort port.toNat fun p => { p with ctxlast := ctx, ctxres := r, entering := none })
      let all : List Instr := [.build port ctx record host, .admission port ctx, .preempt port ctx, .destroy port ctx]
      let free : Prop := (s.port port.toNat).entering = none
      (¬ free → ∀ ins ∈ all, exec ins s = .next s)
        ∧ (free → s.boot ≠ 4 ∨ foreign → ∀ ins ∈ all, refused ins 2)
        ∧ (free → s.boot = 4 → ¬ foreign →
            (c.state ≠ .empty → refused (.build port ctx record host) (if busy then 1 else 2))
            ∧ (c.state ≠ .built → c.state ≠ .saved → refused (.admission port ctx) (if busy then 1 else 2))
            ∧ (c.state ≠ .resident → c.state ≠ .running → refused (.preempt port ctx) (if busy then 1 else 2))
            ∧ (c.state ∉ ([.built, .resident, .saved, .faulted] : List CState) → refused (.destroy port ctx) (if busy then 1 else 2))
            ∧ (c.state = .empty →
                let a := 128 * record
                let x := ofBytes (s.peek 0 (if host then hostBase port.toNat + a else a) 128)
                let good : Prop := bits x 152 8 = 0 ∧ x / 2 ^ 545 = 0 ∧ bits x 128 16 ≤ 4096 ∧ bits x 144 8 ≤ 64 ∧ bits x 384 64 % 64 = 0
                  ∧ bits x 448 64 % 64 = 0 ∧ bits x 0 64 % 4096 = 0 ∧ bits x 0 64 < 2 ^ 52 ∧ bits x 0 64 + 65536 ≤ Config.gddr7
                let there : Prop := host = true ∨ a + 128 ≤ Config.gddr7
                let used (k : Nat) : Prop := ∃ n d, (n, d) ∈ s.ctxs ∧ d.state ≠ .empty ∧ d.keyId = k
                let asked := s.pick 2
                (host = false → ¬ there ∨ ¬ good → refused (.build port ctx record host) 2)
                  ∧ (host = true → asked.1 = 1 ∨ ¬ good → exec (.build port ctx record host) s = .next (asked.2.answer port ctx 2))
                  ∧ (there → good → host = false ∨ asked.1 ≠ 1 → s.severed = true → ∃ t, answers (.build port ctx record host) 0 t ∧ SameMemory s t
                      ∧ (t.ctx ctx).state = .faulted ∧ (t.ctx ctx).cause = 0xB0)
                  ∧ (there → good → host = false ∨ asked.1 ≠ 1 → s.severed = false → ∃ t d, answers (.build port ctx record host) 0 t ∧ SameMemory s t ∧ Map.find t.ctxs ctx = some d
                      ∧ d.state = .built ∧ d.port = port.toNat ∧ d.rc.ptroot = bits x 0 64 ∧ d.rc.stbase = bits x 64 64
                      ∧ d.rc.stcount = bits x 128 16 ∧ d.rc.qcount = bits x 144 8 ∧ d.rc.squota = bits x 160 32 ∧ d.rc.qtbase = bits x 192 64
                      ∧ d.rc.fqbase = bits x 256 64 ∧ d.rc.fbbase = bits x 320 64 ∧ d.rc.savepc = bits x 384 64 ∧ d.rc.restpc = bits x 448 64
                      ∧ d.rc.drainlim = bits x 512 32 ∧ d.rc.penote = bit x 544
                      ∧ ((∃ k, 1 ≤ k ∧ k ≤ 511 ∧ ¬ used k) → 1 ≤ d.keyId ∧ d.keyId ≤ 511 ∧ ¬ used d.keyId)
                      ∧ ∀ n, n ≠ ctx → Map.find t.ctxs n = Map.find s.ctxs n))
            ∧ (c.state = .built ∨ c.state = .saved →
                (16 ≤ s.residents → refused (.admission port ctx) 1)
                ∧ (s.residents < 16 → s.severed = true → exec (.admission port ctx) s = .next ((s.contextFault ctx 0xB0).answer port ctx 0))
                ∧ (s.residents < 16 → s.severed = false → c.rc.stbase % 32 = 0 → c.rc.stbase < 2 ^ 52 → c.rc.qtbase < 2 ^ 52 →
                    ∀ r r', s.readRing ctx c.rc.fqbase = (.ok r, s) → s.readRing ctx c.rc.fbbase = (.ok r', s) →
                    (c.rc.qcount = 0 → ∃ t, answers (.admission port ctx) 0 t ∧ SameMemory s t ∧ (t.ctx ctx).state = .resident)
                    ∧ (∀ x : Nat → Nat,
                        (∀ q qs, q < c.rc.qcount → s.frontRead ctx (c.rc.qtbase + 64 * q) 64 = (.ok (x q), s) ∧
                          let u := s.updCtx ctx fun c => { c with queues := qs }
                          u.frontRead ctx (c.rc.qtbase + 64 * q) 64 = (.ok (x q), u)) →
                        (∀ q, q < c.rc.qcount → queueOk (x q) = true ∧ (bits (x q) 224 3 = 5 ∨ bits (x q) 224 3 = 6 ∨ bits (x q) 128 32 = bits (x q) 96 32)) →
                        ∃ t, answers (.admission port ctx) 0 t ∧ SameMemory s t ∧ (t.ctx ctx).state = .resident
                          ∧ ∀ q, q < c.rc.qcount → ∃ qu, t.queue? ctx q = some qu ∧ qu.rbase = bits (x q) 0 64 ∧ qu.size = bits (x q) 64 4
                              ∧ qu.kapp = bit (x q) 68 ∧ qu.tail = bits (x q) 96 32 ∧ qu.head = bits (x q) 128 32 ∧ qu.seq = bits (x q) 160 32
                              ∧ qu.placed = bits (x q) 192 32 ∧ qu.cplbase = bits (x q) 256 64
                              ∧ qu.state = (if bits (x q) 224 3 = 5 then .stopped else if bits (x q) 224 3 = 6 then .faulted else .idle))
                    ∧ (∀ u, loadQueues s ctx (List.range c.rc.qcount) = (.ok (), u) →
                        ∃ v, v = { u with ctxs := v.ctxs, bars := v.bars } ∧ (v.ctx ctx).state = .resident ∧ (v.ctx ctx).queues = (u.ctx ctx).queues
                          ∧ exec (.admission port ctx) s
                              = .next (((List.range c.rc.qcount).foldl (fun (w : State) q => w.settleQueue ctx q) v).answer port ctx 0))
                    ∧ (∀ e u, loadQueues s ctx (List.range c.rc.qcount) = (.error e, u) →
                        exec (.admission port ctx) s = .next (if e = .stall then s.updPort port.toNat fun p => { p with ctxlast := ctx, entering := some ctx }
                          else (u.contextFault ctx).answer port ctx 0)))
                ∧ (s.residents < 16 → s.severed = false → c.rc.stbase % 32 ≠ 0 ∨ 2 ^ 52 ≤ c.rc.stbase ∨ 2 ^ 52 ≤ c.rc.qtbase →
                    exec (.admission port ctx) s = .next ((s.contextFault ctx).answer port ctx 0)))
            ∧ (c.state = .resident → ∃ t, answers (.preempt port ctx) 0 t ∧ (t.ctx ctx).state = .saving ∧ SameMemory s t)
            ∧ (c.state = .running → ∃ t, answers (.preempt port ctx) 0 t ∧ SameMemory s t
                ∧ (t.ctx ctx).state = (if c.rc.drainlim ≠ 0 ∧ (s.teams.any fun x => x.2.ctx == ctx && !x.2.ended && !x.2.saved) = true then .draining else .saving)
                ∧ ∀ k g, s.group k = some g → (∀ d ∈ s.demands, d.page.isSome = true) → ∃ g', t.group k = some g' ∧ g'.regs = g.regs
                    ∧ g'.notes = g.notes ++ (if c.rc.penote = true ∧ g.ident.ctx = ctx then [(0xA2, 0)] else []))
            ∧ (c.state ∈ ([.built, .resident, .saved, .faulted] : List CState) → ∃ t, answers (.destroy port ctx) 0 t
                ∧ (c.surfs = [] → SameMemory s t ∧ (t.ctx ctx).owed = [])
                ∧ (t.ctx ctx).state = .destroyed ∧ ((t.ctx ctx).owed = [] → (t.ctx ctx).stamp = 0) ∧ (t.ctx ctx).surfs = []
                ∧ ∀ k g, t.group k = some g → g.ident.ctx ≠ ctx)))
    ∧ ∀ (s : State) (ctx cause : Nat) (c : Ctx), Map.find s.ctxs ctx = some c →
        let t := s.contextFault ctx cause
        (t.ctx ctx).state = .faulted ∧ SameMemory s t ∧ (∀ q ∈ (t.ctx ctx).queues, q.2.state = .faulted ∧ q.2.open_ = [])
          ∧ (∀ k g, t.group k = some g → g.ident.ctx ≠ ctx)
          ∧ ∀ k g, s.group k = some g → (∀ h, (k, h) ∈ s.groups → h.ident.ctx ≠ ctx) →
              ∃ g', t.group k = some g' ∧ g'.ident = g.ident ∧ g'.regs = g.regs ∧ g'.sr = g.sr ∧ g'.outst = g.outst

/-! ### Translation and the host -/

/-- R354 to R359: a walk of the four levels. At the level that the table entries lead to, an entry that is not valid gives 0x20 + 4 k + level,
a malformed table entry or leaf 0x2E, a leaf whose page is in error 0x2F, migrating the stall, not resident 0x2D, without the
permission 0x2C, and any other the location of the address in its page. An entry that was replaced may be used until an INVAL; after one,
the walk reads what memory holds. -/
def Obligations.TranslationWalks : Prop :=
  (∀ (s : State) (ctx va l t : Nat) (k : AccKind), l < 4 →
      (∀ r ∈ s.order.writes, r.id < invalStamp (s.ctx ctx) va) → tableAt s (s.ctx ctx) va l = some t →
      let c := s.ctx ctx
      let a := t + 8 * levelIndex va l
      let e := ofBytes (s.peek 0 a 8)
      let perm := match k with
        | .read => bit e 4 | .write => bit e 5 | .atomic => bit e 4 && bit e 5 && bit e 7 | .fetch => bit e 6
      let code := match k with | .read | .fetch => 0 | .write => 1 | .atomic => 2
      let gives (r : Tr) : Prop := s.translate ctx va k = (r, s)
      let table : Prop := bit e 1 = false ∧ l < 3
      (bit e 0 = false → gives (.bad (0x20 + 4 * code + l)))
        ∧ (bit e 0 = true → table → (e ≠ 1 + bits e 12 30 * 4096 ∨ Config.gddr7 < bits e 12 30 * 4096 + 4096) → gives (.bad 0x2E))
        ∧ (bit e 0 = true → ¬ table →
            (s.leafOk c l e = false → gives (.bad 0x2E))
            ∧ (s.leafOk c l e = true →
                (bits e 2 2 = 3 → gives (.bad 0x2F)) ∧ (bits e 2 2 = 2 → gives .stall) ∧ (bits e 2 2 = 1 → gives (.bad 0x2D (some (a, l, e))))
                ∧ (bits e 2 2 = 0 → perm = false → gives (.bad 0x2C))
                ∧ (bits e 2 2 = 0 → perm = true →
                    let size := match l with | 1 => 2 ^ 30 | 2 => 2 ^ 21 | _ => if bit e 63 then 2 ^ 16 else 2 ^ 12
                    let frame := bits e 12 30 * 4096 + va % size
                    let loc := match bits e 9 3 with
                      | 0 => frame
                      | 1 => nearBase + frame
                      | 2 => hostBase 0 + bits e 42 12 * 2 ^ 42 + frame
                      | 3 => hostBase 1 + bits e 42 12 * 2 ^ 42 + frame
                      | _ => remoteBase + bits e 42 12 * 2 ^ 42 + frame
                    gives (.ok loc (if bits e 54 9 = 0 then 0 else c.stamp) a l size)))))
    ∧ ∀ (s : State) (ctx va lo hi : Nat) (c : Ctx), Map.find s.ctxs ctx = some c → (∀ r ∈ s.order.writes, r.id < s.order.next) →
        lo ≤ va → va < hi → let u := s.invalidate ctx lo hi
        ∀ r ∈ u.order.writes, r.id < invalStamp (u.ctx ctx) va

/-- R360 to R362, R365: a page command for a context of the other port has RESULT 2; RESUME releases the agent of its token, RESUMEALL
every agent of the context, the write-backs that DESTROY owes among them, INVAL and INVALALL the cached entries of their range; each also lets stalled accesses walk again and held
fault records be written, as the device does by itself from time to time. A group whose fault is resolved goes on.
Completes, with the conclusion exec i s = .next t under conditions on s and the operands alone: .resume, .resumeall, .inval, .invalall,
.migratingRewalk, .faultRingRetry. -/
def Obligations.PageCommands : Prop :=
  (∀ (s : State) (port : Bool) (ctx token : Nat),
      let answer (u : State) (r : Nat) : State := u.updPort port.toNat fun p => { p with pgstat := r }
      let foreign : Prop := (s.ctx ctx).state ≠ .empty ∧ (s.ctx ctx).port ≠ port.toNat
      let arg := (s.port port.toNat).pgarg
      let span := bits arg 0 6
      let vpn := bits arg 12 40
      (foreign → ∀ ins ∈ [Instr.resume port ctx token, .resumeall port ctx, .inval port ctx, .invalall port ctx], exec ins s = .next (answer (s.pageNews ctx) 2))
        ∧ (¬ foreign →
            (s.waitsOn ctx token = true → exec (.resume port ctx token) s = .next (answer ((s.release_ ctx (· == some token)).pageNews ctx) 0))
            ∧ (s.waitsOn ctx token = false → exec (.resume port ctx token) s = .next (answer (s.pageNews ctx) 2))
            ∧ exec (.resumeall port ctx) s = .next (answer ((s.release_ ctx fun _ => true).pageNews ctx) 0)
            ∧ (40 < span ∨ vpn % 2 ^ span ≠ 0 → exec (.inval port ctx) s = .next (answer (s.pageNews ctx) 2))
            ∧ (span ≤ 40 → vpn % 2 ^ span = 0 → exec (.inval port ctx) s =
                .next (answer ((s.invalidate ctx (vpn * 4096) ((vpn + 2 ^ span) * 4096)).pageNews ctx) 0))
            ∧ exec (.invalall port ctx) s = .next (answer ((s.invalidate ctx 0 (2 ^ 52)).pageNews ctx) 0))
        ∧ exec (.migratingRewalk ctx) s = .next (s.rewalk ctx)
        ∧ exec (.faultRingRetry ctx) s = .next (flushFaults ((s.ctx ctx).held.length + 1) s ctx)
        ∧ ((s.stalled ctx) = [] → (∀ x ∈ s.groups, x.2.ident.ctx = ctx → x.2.phase ≠ .placing) → (s.ctx ctx).queues = [] → (s.ctx ctx).state ≠ .destroyed →
            s.port0.entering ≠ some ctx → s.port1.entering ≠ some ctx →
            s.rewalk ctx = s ∧ s.pageNews ctx = flushFaults ((s.ctx ctx).held.length + 1) s ctx))
    ∧ (∀ (s : State) (k : Nat) (g : Group) (f : FaultWait), s.group k = some g → g.fault = some f → f.retry = .reissue →
        s.resumeGroup k = (s.setGroup k ({ g with fault := none }.updLive f.slot fun e => { e with fault := false })).settle k)
    ∧ (∀ (s : State) (ctx : Nat) (f : FRec) (fs : List FRec) (r : Ring) (loc stamp : Nat), (s.ctx ctx).held = f :: fs →
        s.readRing ctx (s.ctx ctx).rc.fqbase = (.ok r, s) →
        ((r.put + 1) % r.n = r.get → flushFaults ((s.ctx ctx).held.length + 1) s ctx = s)
        ∧ ∀ key, fs = [] → (r.put + 1) % r.n ≠ r.get → s.ringPlace ctx (r.base + r.put * 32) .write = (.ok (loc, stamp), s) →
            s.ringPlace ctx r.va .write = (.ok (r.loc, key), s) →
            loc + 32 ≤ r.loc + 12 ∨ r.loc + 16 ≤ loc →
            let t := flushFaults ((s.ctx ctx).held.length + 1) s ctx
            t.bytes loc 32 = f.bytes ∧ t.bytes (r.loc + 12) 4 = toBytes 4 ((r.put + 1) % r.n) ∧ SameOutside s t [(loc, 32), (r.loc + 12, 4)]
              ∧ (t.ctx ctx).held = [])

/-- R6, R157, R175, R182, R361, R384, R398 to R400: every register write of a host is accepted. A write to a command register is the command
that its fields name, from its port; an unlisted operation has RESULT 2. A 64-bit register takes only a write of 8 bytes, and keeps no
reserved bit; a write to an offset that is not listed changes nothing. That LOGBASE drops its low four bits (log entry 32), and that a write of
another size than a register's, or of a register that is read only, changes nothing (log entry 40), are the model's choices.
Completes, with the conclusion exec i s = .next t under conditions on s and the operands alone: .registerWrite. -/
def Claims.HostRegisterWrites : Prop :=
  ∀ (s : State) (port : Bool) (v : Nat), v < 2 ^ 64 →
    let write (offset size : Nat) := exec (.registerWrite port offset size v) s
    let reads (t : State) (offset : Nat) : Nat := t.hostRead port.toNat offset
    let keeps (offset size : Nat) (x : Nat) : Prop := ∃ t, write offset size = .next t ∧ reads t offset = x ∧ t.mem = s.mem ∧ t.groups = s.groups
    let ctx := bits v 8 8
    let op := bits v 0 8
    let answered (r : Nat) (t : State) : Prop := reads t 0x30 = r
    (∀ offset size, ∃ t, write offset size = .next t)
      ∧ keeps 0x28 8 (bits v 0 6 + bits v 12 40 * 2 ^ 12) ∧ keeps 0x48 8 v ∧ keeps 0x60 8 (v - v % 16) ∧ keeps 0x88 8 v
      ∧ keeps 0x68 4 (bits v 0 5 + bits v 16 16 * 2 ^ 16) ∧ keeps 0x70 4 (v % 2 ^ 32)
      ∧ (∀ c, c < 256 → keeps (0x1000 + 4 * c) 4 (v % 64))
      ∧ (∃ t, write 0x18 8 = .next t ∧ reads t 0x18 = v)
      ∧ (∀ offset size, offset ∈ [0x18, 0x28, 0x48, 0x60, 0x88] → size ≠ 8 → write offset size = .next s)
      ∧ (∀ offset size, offset ∈ [0x08, 0x30, 0x50, 0x6C, 0x74, 0x90, 0x100, 0x400, 0x2000] → write offset size = .next s)
      ∧ (op = 1 → write 0x00 8 = exec (.build port ctx (bits v 16 47) (bit v 63)) s) ∧ (op = 2 → write 0x00 8 = exec (.admission port ctx) s)
      ∧ (op = 3 → write 0x00 8 = exec (.preempt port ctx) s) ∧ (op = 4 → write 0x00 8 = exec (.destroy port ctx) s)
      ∧ ((s.port port.toNat).entering = none → op = 0 ∨ 4 < op → ∃ t, write 0x00 8 = .next t ∧ bits (reads t 0x08) 4 2 = 2)
      ∧ (op = 1 → write 0x20 8 = exec (.resume port ctx (bits v 16 32)) s) ∧ (op = 2 → write 0x20 8 = exec (.resumeall port ctx) s)
      ∧ (op = 3 → write 0x20 8 = exec (.inval port ctx) s) ∧ (op = 4 → write 0x20 8 = exec (.invalall port ctx) s)
      ∧ (op = 0 ∨ 4 < op → ∃ t, write 0x20 8 = .next t ∧ answered 2 t)
      ∧ (let x : Dbg := { port, ctx, index := bits v 16 3, wkind := bits v 19 2, wsize := bits v 21 6, cause := bits v 27 8, die := bits v 35 1,
                          core := bits v 36 7, slot := bits v 43 6 }
         (op = 1 → write 0x40 8 = exec (.setbp x) s) ∧ (op = 2 → write 0x40 8 = exec (.setwp x) s) ∧ (op = 3 → write 0x40 8 = exec (.clear x) s)
         ∧ (op = 4 → write 0x40 8 = exec (.stepon x) s) ∧ (op = 5 → write 0x40 8 = exec (.stepoff x) s)
         ∧ (op = 6 → write 0x40 8 = exec (.inject x) s) ∧ (op = 0 ∨ 6 < op → ∃ t, write 0x40 8 = .next t ∧ reads t 0x50 = 2))
      ∧ (op = 1 → write 0x80 8 = exec (.nearset port (bits v 8 1) (bits v 9 7)) s)
      ∧ (op = 2 → bits v 21 2 = 0 → write 0x80 8 = exec (.portctlDisable port (bits v 16 5)) s)
      ∧ (op = 2 → bits v 21 2 = 1 → write 0x80 8 = exec (.portctlEnable port (bits v 16 5)) s)
      ∧ (op = 2 → bits v 21 2 = 2 → write 0x80 8 = exec (.portctlRetrain port (bits v 16 5)) s)
      ∧ (op = 3 → write 0x80 8 = exec (.podbind port (bits v 24 8)) s) ∧ (op = 4 → write 0x80 8 = exec (.image port (s.imageAt (s.port port.toNat).mgmtarg)) s)
      ∧ (let w := v % 2 ^ 32
         (bits w 14 2 = 0 → write 0x10 4 = exec (.doorbellRing port 0 (bits w 0 8) (bits w 8 6)) s)
         ∧ (bits w 14 2 = 1 → write 0x10 4 = exec (.doorbellStart port (bits w 0 8) (bits w 8 6)) s)
         ∧ (bits w 14 2 = 2 → write 0x10 4 = exec (.doorbellReset port (bits w 0 8) (bits w 8 6)) s)
         ∧ (bits w 14 2 = 3 → write 0x10 4 = .next s))

/-- R175, R182, R185, R398: a doorbell reads TAIL again and settles a queue that is IDLE or BLOCKED, when it names a queue of a resident context of its port;
from a virtual function, when VFMAP names it for the context. Start lets a STOPPED queue go on, reset empties a STOPPED or FAULTED
one; any other doorbell changes nothing, and neither does one for a context that is not resident: the model's choice (log entry 39). A write of
NOW is whole.
Completes, with the conclusion exec i s = .next t under conditions on s and the operands alone: .doorbellRing, .doorbellStart, .doorbellReset,
.nowWrite. -/
def Claims.DoorbellsAndNow : Prop :=
  (∀ (s : State) (port : Bool) (vf ctx q : Nat),
      let c := s.ctx ctx
      let rung : Prop := c.port = port.toNat ∧ c.dispatching = true ∧ q < c.rc.qcount ∧ (Map.find c.queues q).isSome = true
      let mapped : Prop := vf = 0 ∨ Map.get 0 (s.port port.toNat).vfmap ctx = vf
      (¬ rung → exec (.doorbellRing port vf ctx q) s = .next s ∧ exec (.doorbellStart port ctx q) s = .next s ∧ exec (.doorbellReset port ctx q) s = .next s)
        ∧ (¬ mapped → exec (.doorbellRing port vf ctx q) s = .next s)
        ∧ ∀ qu loc stamp, rung → Map.find c.queues q = some qu → s.mapRange ctx (c.rc.qtbase + 64 * q + 12) 4 .read = (.ok [(loc, stamp, 0, 4)], s) → nodeOf loc = none →
            let tail := ofBytes (s.peek stamp loc 4)
            let read : Queue := { qu with tail }
            let rings (ins : Instr) (qu : Queue) (settles : Bool) : Prop :=
              let u := s.updQueue ctx q fun _ => qu
              exec ins s = .next ((if settles then u.settleNow ctx q else u).updQueue ctx q fun qu => { qu with bells := [] })
            qu.bells = [] →
            (qu.wait ≠ none → mapped → exec (.doorbellRing port vf ctx q) s = .next (s.updQueue ctx q fun qu => { qu with bells := [0] }))
            ∧ (qu.wait = none →
                (mapped → rings (.doorbellRing port vf ctx q) read (qu.state == .idle || qu.state == .blocked || qu.due))
                ∧ rings (.doorbellStart port ctx q) read (qu.state == .stopped)
                ∧ (qu.state = .stopped ∨ qu.state = .faulted → rings (.doorbellReset port ctx q) { read with head := tail, placed := 0, cur := none } true)
                ∧ (qu.state ≠ .stopped → qu.state ≠ .faulted → rings (.doorbellReset port ctx q) read false)))
    ∧ (∀ (s : State) (ctx q : Nat) (qu : Queue), s.queue? ctx q = some qu → (s.ctx ctx).dispatching = true → qu.wait = none → qu.head = qu.tail →
        (s.settleNow ctx q).queue? ctx q = some { qu with due := false, state := .idle, cur := none })
    ∧ ∀ (s : State) (port : Bool) (value : BitVec 64), ∃ t, exec (.nowWrite port value) s = .next t ∧ (t.port port.toNat).now = value.toNat
        ∧ (t.port (!port).toNat).now = (s.port (!port).toNat).now
        ∧ ((∀ n, (s.ctx n).queues = []) → t = s.updPort port.toNat fun p => { p with now := value.toNat })

/-- Register writes of a host, doorbells, NOW: `Claims.HostRegisterWrites` and `Claims.DoorbellsAndNow`. -/
def Obligations.HostAccess : Prop :=
  Claims.HostRegisterWrites ∧ Claims.DoorbellsAndNow

/-- R383 to R386: the debug commands. One for a context of the other port or for none, or with an argument out of range, has RESULT 2 and no
effect; SETBP and SETWP set comparator k, CLEAR clears both, STEPON and STEPOFF set stepping. INJECT into a group of the context adds a
cause to those that its next issue decision raises, whatever its kind (RunGrant says what comes then). RESULT 2 for an EMPTY context and for a
misaligned base or a WSIZE above 12, and that CLEAR clears both comparators, are the model's choices (log entry 31).
Completes, with the conclusion exec i s = .next t under conditions on s and the operands alone: .setbp, .setwp, .clear, .stepon, .stepoff, .inject. -/
def Obligations.DebugCommands : Prop :=
  ∀ (x : Dbg) (s : State) (c : Ctx), Map.find s.ctxs x.ctx = some c →
    let v := (s.port x.port.toNat).dbgarg
    let answers (ins : Instr) (r : Nat) (u : State) : Prop := exec ins s = .next (u.updPort x.port.toNat fun p => { p with dbgstat := r })
    let bad : Prop := c.state = .empty ∨ c.port ≠ x.port.toNat
    let sets (ins : Instr) (c' : Ctx) : Prop := answers ins 0 (s.updCtx x.ctx fun _ => c')
    let k := groupKey (128 * x.die + x.core) x.slot
    (bad → ∀ ins ∈ [Instr.setbp x, .setwp x, .clear x, .stepon x, .stepoff x], answers ins 2 s)
      ∧ (¬ bad →
          (x.index < 8 → sets (.setbp x) { c with bps := Map.set c.bps x.index v }
            ∧ sets (.clear x) { c with bps := Map.erase c.bps x.index, wps := Map.erase c.wps x.index })
          ∧ (8 ≤ x.index → answers (.setbp x) 2 s ∧ answers (.setwp x) 2 s ∧ answers (.clear x) 2 s)
          ∧ (x.wkind = 0 ∨ 3 < x.wkind ∨ 12 < x.wsize ∨ v % 2 ^ x.wsize ≠ 0 → answers (.setwp x) 2 s)
          ∧ (x.index < 8 → 1 ≤ x.wkind → x.wkind ≤ 3 → x.wsize ≤ 12 → v % 2 ^ x.wsize = 0 →
              sets (.setwp x) { c with wps := Map.set c.wps x.index (v, x.wsize, x.wkind) })
          ∧ sets (.stepon x) { c with stepping := true } ∧ sets (.stepoff x) { c with stepping := false })
      ∧ (s.group k = none → answers (.inject x) 2 s)
      ∧ ∀ g, s.group k = some g →
          (bad ∨ g.ident.ctx ≠ x.ctx ∨ 0xBF < x.cause ∨ x.cause = 0xA1 ∨ x.cause = 0xA3 → answers (.inject x) 2 s)
          ∧ (¬ bad → g.ident.ctx = x.ctx → x.cause ≤ 0xBF → x.cause ≠ 0xA1 → x.cause ≠ 0xA3 →
              answers (.inject x) 0 (s.setGroup k { g with notes := g.notes ++ [(x.cause, v % 2 ^ 32)] }))

/-! ### Links and the package -/

/-- R388, R389, R393: the CRC has its check value; a flit that does not open, or is not the next, is discarded, and the first such one is answered
with a NAK in an idle flit; the next one is accepted; an ACK empties the replay buffer up to it; a NAK sends what is left of it again, and
eight NAKs in a row for one SEQ retrain the port. A port that is DOWN takes no flit. What leaves for another package leaves as a request
flit, by the port of its route, or is lost and logged; while 512 flits are unacknowledged it waits, behind those that wait already, and goes out
when an ACK makes room. That an access waits while its port trains, and how requests and their accesses meet, are the model's choices (log entry 34).
Completes, with the conclusion exec i s = .next t under conditions on s and the operands alone: .flitReceive. -/
def Claims.FlitsInOrder : Prop :=
  crc64 ([0x31, 0x32, 0x33, 0x34, 0x35, 0x36, 0x37, 0x38, 0x39] : List Byte) = 0x62EC59E3F1A4F00A
    ∧ (∀ (s : State) (p : Nat) (bytes : List Byte),
        let l := s.link p
        let nakFlit : List Byte := buildFlit 0 l.last true 0 []
        (l.state = 0 ∨ 24 ≤ p → exec (.flitReceive p bytes) s = .next s)
          ∧ (l.state ≠ 0 → p < 24 → l.waiting = [] →
              (openFlit bytes = none → ∃ t, exec (.flitReceive p bytes) s = .next t ∧ t = { s with links := t.links }
                ∧ t.link p = (if l.nak then l else { l with nak := true, sent := l.sent ++ (if l.state = 4 then [] else [nakFlit]) }))
              ∧ ∀ body, openFlit bytes = some body →
                  let h := ofBytes (body.take 8)
                  let ack := bits h 12 12
                  let type := bits h 25 3
                  let next : Prop := bits h 0 12 = (l.last + 1) % 4096
                  let count := if l.nakSeq = ack then l.naks + 1 else 1
                  let kept (n : Nat) : Bool := 2048 ≤ (ack + 4096 - n) % 4096
                  let left := l.replay.filter fun f => kept f.1
                  let retrains : Prop := bit h 24 = true ∧ 8 ≤ count ∧ (l.state = 2 ∨ l.state = 3)
                  let answered : Prop := type ≠ 0 ∧ ¬ next ∧ l.nak = false ∧ l.state ≠ 4 ∧ ¬ retrains
                  let clears (t : State) : Prop := (t.link p).replay = left ∧ (t.link p).reqs = l.reqs.filter fun r => kept r.1
                  (type < 3 ∨ ¬ next → ∃ t, exec (.flitReceive p bytes) s = .next t ∧ t = { s with links := t.links } ∧ clears t
                      ∧ (∀ n, n ≠ p → t.link n = s.link n)
                      ∧ (t.link p).last = (if type ≠ 0 ∧ next then bits h 0 12 else l.last)
                      ∧ (t.link p).nak = (if type = 0 then l.nak else if next then false else true)
                      ∧ (t.link p).asked = l.asked + (if type = 1 ∧ next then 1 else 0)
                      ∧ (t.link p).sent = l.sent ++ (if bit h 24 = true ∧ l.state ≠ 4 ∧ ¬ retrains then left.map (·.2) else [])
                          ++ (if answered then [nakFlit] else [])
                      ∧ (t.link p).state = (if retrains then 4 else l.state))
                  ∧ (type = 3 → next → ∀ m, takeFragment l.rx (body.drop 8) = some m → ∃ t, exec (.flitReceive p bytes) s = .next t
                      ∧ t = { s with links := t.links } ∧ (t.link p).last = bits h 0 12 ∧ clears t
                      ∧ (m.frag = m.total → (t.link p).inbox = l.inbox ++ [m] ∧ (t.link p).rx = none)
                      ∧ (m.frag ≠ m.total → (t.link p).inbox = l.inbox ∧ (t.link p).rx = some m))
                  ∧ (type = 3 → next → takeFragment l.rx (body.drop 8) = none → ∃ t, exec (.flitReceive p bytes) s = .next t
                      ∧ (t.link p).state = 0 ∧ (t.link p).replay = []))
          ∧ (l.state ≠ 0 → p < 24 → ∀ body w bs, openFlit bytes = some body → l.waiting = [(w, bs)] →
              let h := ofBytes (body.take 8)
              let kept (n : Nat) : Bool := 2048 ≤ (bits h 12 12 + 4096 - n) % 4096
              bits h 25 3 = 0 → bit h 24 = false → (l.replay.filter fun f => kept f.1).length < 512 →
              exec (.flitReceive p bytes) s = .next (s.setLink p (({ l with
                replay := l.replay.filter fun f => kept f.1, reqs := l.reqs.filter fun r => kept r.1, waiting := [] } : Link).requestNow w bs))))
    ∧ ∀ (s : State) (w : Work) (node off : Nat), w.loc = remoteBase + node * 2 ^ 42 + off → node < 1024 → off < 2 ^ 42 →
        (∀ c, s.remoteFail w.ctx w.loc = some c → s.goesOut w = (false, s.lost w c))
          ∧ (s.remoteFail w.ctx w.loc = none → ∀ p, Map.get 0 s.routes node = p + 1 →
              let l := s.link p
              ∃ t payload, s.goesOut w = (true, t) ∧ t = { s with links := t.links, free := t.free }
                ∧ (512 ≤ l.replay.length ∨ l.waiting ≠ [] → t.link p = { l with waiting := l.waiting ++ [(w, payload)] })
                ∧ (l.replay.length < 512 → l.waiting = [] → t.link p =
                    { l with seq := (l.seq + 1) % 4096, replay := l.replay ++ [(l.seq, buildFlit l.seq l.last false 1 payload)],
                             reqs := l.reqs ++ [(l.seq, w)], sent := l.sent ++ (if l.state = 0 ∨ l.state = 4 then [] else [buildFlit l.seq l.last false 1 payload]) }))
          ∧ ∀ (ctx va : Nat) (k : AccKind) (stamp a level size : Nat), s.translate ctx va k = (.ok w.loc stamp a level size, s) →
              ∀ p, Map.get 0 s.routes node = p + 1 →
              let waits : Prop := (s.link p).state = 1 ∨ 512 ≤ (s.link p).replay.length
              (waits → s.access ctx va k = (.stall, s))
                ∧ (¬ waits → (∀ l ∈ s.links, l.1 ≠ p → l.2.reqs = [] ∧ l.2.waiting = []) → s.access ctx va k = (.ok w.loc stamp a level size, s))

/-- R387, R390, R391, R392, R400: the table of port states. Every event that has no row for the state leaves the port as it is; PORTCTL is taken
from port 0 for ports 0 to 23 only. A port that enters DOWN has neither replay buffer nor key, and its unacknowledged requests fail. The route table holds a port or none for
a node; a request for a node without a route, or over a port that is DOWN, fails with 0xB0, one without a binding with 0xB4, one for a frame
beyond the remote memory with 0xB6. UNBINDs that waited for a port leave when it has trained. The model's choices: a PORTCTL without a row
changes no port and its RESULT is open (log entry 33); failures of requests come in the step in which the port enters DOWN, and the remote
memory is of this module's size (log entry 34).
Completes, with the conclusion exec i s = .next t under conditions on s and the operands alone: .portctlEnable, .portctlDisable, .portctlRetrain,
.shadowRotation, .laneCalibration, .lossOfLock, .trainingEnd, .trainingTimeout, .routeTableWrite. -/
def Claims.PortStates : Prop :=
  (∀ (s : State) (p good peer lane : Nat),
      let l := s.link p
      let up : Prop := l.state = 2 ∨ l.state = 3
      let lanes := ((List.range 5).filter (bit good)).length
      let weak := (List.range 5).filter fun n => !bit good n
      let down (ins : Instr) (cause : Nat) : Prop := exec ins s = .next ((s.portDown p cause).logPort p cause)
      let own : Prop := l.kx.helloP ≠ [] ∧ ofBytes (l.kx.helloP.take 2) = s.node
      let trained (ins : Instr) (fresh : Bool) : Prop := ∃ t, exec ins s = .next t ∧ t = { s with links := t.links }
        ∧ (t.link p).state = (if lanes = 5 then 2 else 3) ∧ (t.link p).half = decide (lanes < 4) ∧ (t.link p).weak = weak
        ∧ (if fresh then (t.link p).seq = 0 ∧ (t.link p).replay = [] ∧ (t.link p).reqs = [] ∧ (t.link p).peer = some peer
            else (t.link p).seq = l.seq ∧ (t.link p).replay = l.replay ∧ (t.link p).peer = l.peer ∧ (t.link p).reqs = l.reqs
              ∧ (t.link p).sent = l.sent ++ l.replay.map (·.2))
      let same (ins : Instr) : Prop := exec ins s = .next s
      (l.state = 1 → (lanes < 2 → down (.trainingEnd p good peer) 0xB0)
          ∧ (2 ≤ lanes → (l.kx.step ≠ 4 → same (.trainingEnd p good peer)) ∧ (l.kx.step = 4 →
              (s.unbinds = [] → trained (.trainingEnd p good peer) true)
              ∧ ∀ mine theirs, s.unbinds = [(peer, mine, theirs)] → (∀ x ∈ s.links, x.1 ≠ p → x.2.peer ≠ some peer) →
                  ∃ (t : State) (l' : Link), exec (.trainingEnd p good peer) s = .next t ∧ t.unbinds = [] ∧ l'.replay = [] ∧ l'.peer = some peer
                    ∧ t.link p = l'.sendMsg 6 0 (toBytes 2 mine ++ toBytes 2 theirs))))
        ∧ (l.state = 4 → (lanes < 2 → exec (.trainingEnd p good peer) s = .next (s.portDown p 0xB5)) ∧ (2 ≤ lanes → trained (.trainingEnd p good peer) false))
        ∧ (l.state ≠ 1 → l.state ≠ 4 → same (.trainingEnd p good peer) ∧ same (.trainingTimeout p good))
        ∧ (2 ≤ lanes → (l.state = 1 → ¬ own) → same (.trainingTimeout p good))
        ∧ (l.state = 1 → lanes < 2 ∨ own → down (.trainingTimeout p good) 0xB0)
        ∧ (l.state = 4 → lanes < 2 → exec (.trainingTimeout p good) s = .next (s.portDown p 0xB5))
        ∧ (∀ cause, (s.portDown p cause).link p = { sent := l.sent } ∧ (l.reqs = [] → l.waiting = [] → s.portDown p cause = s.setLink p { sent := l.sent })
            ∧ (∀ n w, l.reqs = [(n, w)] → l.waiting = [] → w.posted = true → s.portDown p cause = (s.setLink p { sent := l.sent }).lost w cause)
            ∧ ∀ w bs, l.reqs = [] → l.waiting = [(w, bs)] → w.posted = true → s.portDown p cause = (s.setLink p { sent := l.sent }).lost w 0xB0)
        ∧ (up → exec (.lossOfLock p) s = .next (s.setLink p { l with state := 4, nak := false, naks := 0 })) ∧ (¬ up → same (.lossOfLock p))
        ∧ (l.state = 2 → l.weak = [] → exec (.shadowRotation p) s = .next (s.setLink p { l with shadow := (l.shadow + 1) % 5 }))
        ∧ (l.state ≠ 2 ∨ l.weak ≠ [] → same (.shadowRotation p))
        ∧ (lane < 5 → lane ∉ l.weak →
            (l.state = 2 → exec (.laneCalibration p lane) s = .next (s.setLink p { l with state := 3, weak := [lane], shadow := lane }))
            ∧ (l.state = 3 → l.half = false → ∃ t, exec (.laneCalibration p lane) s = .next t ∧ (t.link p).state = 4 ∧ (t.link p).replay = l.replay))
        ∧ (5 ≤ lane ∨ lane ∈ l.weak ∨ ¬ up ∨ l.state = 3 ∧ l.half = true → same (.laneCalibration p lane)))
    ∧ (∀ (s : State) (port : Bool) (p : Nat),
        let l := s.link p
        let all : List Instr := [.portctlEnable port p, .portctlDisable port p, .portctlRetrain port p]
        let done (ins : Instr) (t : State) : Prop := exec ins s = .next t ∧ (t.port port.toNat).mgmtstat = 0 ∧ (l.reqs = [] → l.waiting = [] → SameMemory s t)
        (bit (s.port port.toNat).mgmtstat 2 = true → ∀ ins ∈ all, exec ins s = .next s)
          ∧ (bit (s.port port.toNat).mgmtstat 2 = false →
              (port = true ∨ 24 ≤ p → ∀ ins ∈ all, exec ins s = .next (s.updPort port.toNat fun q => { q with mgmtstat := 2 }))
              ∧ (port = false → p < 24 →
                  (l.state = 0 → ∃ t, done (.portctlEnable port p) t ∧ (t.link p).state = 1 ∧ (t.link p).kx.step = 1)
                  ∧ (l.state ≠ 0 → ∃ t, done (.portctlDisable port p) t ∧ t.link p = { sent := l.sent })
                  ∧ (l.state = 2 ∨ l.state = 3 → ∃ t, done (.portctlRetrain port p) t ∧ (t.link p).state = 4 ∧ (t.link p).replay = l.replay)
                  ∧ ∀ ins, (ins = .portctlEnable port p ∧ l.state ≠ 0 ∨ ins = .portctlDisable port p ∧ l.state = 0
                        ∨ ins = .portctlRetrain port p ∧ l.state ≠ 2 ∧ l.state ≠ 3) →
                      ∃ t, exec ins s = .next t ∧ t.links = s.links ∧ SameMemory s t)))
    ∧ ∀ (s : State) (node port ctx off : Nat),
        (1024 ≤ node ∨ (24 ≤ port ∧ port ≠ 255) → exec (.routeTableWrite node port) s = .next s)
          ∧ (node < 1024 → port < 24 ∨ port = 255 → off < 2 ^ 42 → ∃ t, exec (.routeTableWrite node port) s = .next t ∧ t = { s with routes := t.routes }
              ∧ (∀ n, n ≠ node → Map.get 0 t.routes n = Map.get 0 s.routes n)
              ∧ (let loc := remoteBase + node * 2 ^ 42 + off
                 let bound : Prop := ∃ b ∈ s.bindings, b.ctx = ctx ∧ b.node = node ∧ b.state = 1
                 (port = 255 ∨ (s.link port).state = 0 → t.remoteFail ctx loc = some 0xB0)
                 ∧ (port < 24 → (s.link port).state ≠ 0 → ¬ bound → t.remoteFail ctx loc = some 0xB4)
                 ∧ (port < 24 → (s.link port).state ≠ 0 → bound → t.remoteFail ctx loc = if off < Config.gddr7 then none else some 0xB6)))

/-- Links: flits in order, port states, routes: `Claims.FlitsInOrder` and `Claims.PortStates`. -/
def Obligations.LinksAndPorts : Prop :=
  Claims.FlitsInOrder ∧ Claims.PortStates

/-- R394, R395: the exchange goes on by the message that is due and checks, each with its answer; any other message, or one that fails its
check, takes the port DOWN and is logged as 0xB4. PODBIND sends BIND and stays in progress until the BINDACK that answers it, though its binding may be gone by then; BIND holds the unwrapped keys and
answers whether a matching binding and a new number came; UNBIND erases the binding. The model's choices (log entry 33): when PODBIND has RESULT
2, that a binding once accepted stays in force while PODBIND is repeated, that a BINDACK whose binding has gone still ends its PODBIND, and that
a message that is not due takes the port DOWN.
Completes, with the conclusion exec i s = .next t under conditions on s and the operands alone: .hello, .share, .finish, .bind, .bindack, .unbind,
.podbind. -/
def Obligations.PairwiseExchange : Prop :=
  ∀ (x : Msg) (s : State) (m : MgmtMsg) (ms : List MgmtMsg),
    let l := s.link x.port
    let u := s.setLink x.port { l with inbox := ms }
    let here (code : Nat) : Prop := l.inbox = m :: ms ∧ m.code = code ∧ m.xid = x.xid ∧ m.body = x.body
    let breaks (ins : Instr) : Prop := exec ins s = .next (u.exchangeFails x.port)
    let joined (node : Nat) : Prop := l.state ≠ 1 ∧ l.kx.step = 4 ∧ l.peer = some node
    let f (o n : Nat) : Nat := ofBytes ((x.body.drop o).take n)
    let chain := x.body.drop 50
    let hash := Config.sha384 (l.kx.lowFirst l.kx.hello l.kx.helloP ++ x.body.take 97)
    let signed := Config.ecdsaOk (Config.leafKey (helloChain l.kx.helloP)) hash (x.body.drop 97)
    (u.exchangeFails x.port).link x.port = { sent := l.sent }
      ∧ (l.inbox = [] → ∀ ins ∈ [Instr.hello x, .share x, .finish x, .bind x, .bindack x, .unbind x], exec ins s = .next s)
      ∧ (here 1 → (l.state ≠ 1 ∨ l.kx.step ≠ 1 ∨ Config.chainOk chain = false → breaks (.hello x))
          ∧ (l.state = 1 → l.kx.step = 1 → Config.chainOk chain = true → ∃ t, exec (.hello x) s = .next t ∧ t = { s with links := t.links }
              ∧ (t.link x.port).kx = { l.kx with step := 2, helloP := x.body, peerXid := x.xid } ∧ (t.link x.port).state = 1
              ∧ (t.link x.port).inbox = ms))
      ∧ (here 2 → (l.state ≠ 1 ∨ l.kx.step ≠ 2 ∨ x.xid ≠ l.kx.xid ∨ x.body.length ≠ 193 ∨ signed = false → breaks (.share x))
          ∧ (l.state = 1 → l.kx.step = 2 → x.xid = l.kx.xid → x.body.length = 193 → signed = true →
              ∃ t, exec (.share x) s = .next t ∧ t = { s with links := t.links } ∧ (t.link x.port).kx.step = 3
                ∧ (t.link x.port).kx.pointP = x.body.take 97 ∧ (t.link x.port).state = 1))
      ∧ (here 3 →
          let good : Prop := l.state = 1 ∧ l.kx.step = 3 ∧ x.xid = l.kx.xid ∧ x.body = Config.hmac384 l.kx.conf l.kx.transcript
          (¬ good → breaks (.finish x)) ∧ (good → exec (.finish x) s = .next (s.setLink x.port { l with inbox := ms, kx := { l.kx with step := 4 } })))
      ∧ (∀ node, joined node → here 4 →
          (x.body.length ≠ 84 ∨ Config.keyUnwrap l.kx.wrap (x.body.drop 12) = none → ∃ t, exec (.bind x) s = .next t ∧ t.link x.port = { sent := l.sent })
          ∧ ∀ keys, x.body.length = 84 → Config.keyUnwrap l.kx.wrap (x.body.drop 12) = some keys →
              let mine (b : Binding) : Prop := b.node = node ∧ b.theirs = f 0 2 ∧ (s.ctx b.ctx).keyId = f 2 2
              let fresh : Prop := Map.get 0 s.bindSeen node < f 4 8
              ∃ t, exec (.bind x) s = .next t ∧ t = { s with links := t.links, fresh := t.fresh, bindSeen := t.bindSeen, bindings := t.bindings }
                ∧ t.link x.port = ({ l with inbox := ms } : Link).sendMsg 5 x.xid (toBytes 2 (f 0 2) ++ toBytes 2 (f 2 2)
                    ++ [if decide (∃ b ∈ s.bindings, mine b) && decide fresh then 0 else 1, 0, 0, 0])
                ∧ (fresh → Map.get 0 t.bindSeen node = f 4 8 ∧ ∀ b ∈ t.bindings, mine b → b.keys = keys ∧ b.stamp.isSome = true)
                ∧ (¬ fresh → t.bindings = s.bindings))
      ∧ (∀ node, joined node → here 5 → s.port0.podbind ≠ some x.xid → s.port1.podbind ≠ some x.xid → breaks (.bindack x))
      ∧ (∀ node (port : Bool), joined node → here 5 → (s.port port.toNat).podbind = some x.xid → (port = true → s.port0.podbind ≠ some x.xid) →
          let ok := x.body.getD 4 1 = 0
          ∃ t, exec (.bindack x) s = .next t ∧ SameMemory s t ∧ (t.port port.toNat).mgmtstat = (if ok then 0 else 2)
            ∧ (t.port port.toNat).podbind = none
            ∧ t.bindings = s.bindings.map fun c => if c.node = node ∧ c.xid = x.xid ∧ c.state ≠ 1 then { c with state := if ok then 1 else 2 } else c)
      ∧ (∀ node, joined node → here 6 → ∃ t, exec (.unbind x) s = .next t ∧ t = { s with links := t.links, bindings := t.bindings }
          ∧ t.bindings = s.bindings.filter fun b => !(b.node == node && b.theirs == f 0 2 && (s.ctx b.ctx).keyId == f 2 2))
      ∧ ∀ (port : Bool) (ctx p : Nat),
          let arg := (s.port port.toNat).mgmtarg
          let c := s.ctx ctx
          let result (r : Nat) : Prop := exec (.podbind port ctx) s = .next (s.updPort port.toNat fun q => { q with mgmtstat := r })
          (bit (s.port port.toNat).mgmtstat 2 = true → exec (.podbind port ctx) s = .next s)
            ∧ (bit (s.port port.toNat).mgmtstat 2 = false →
                (c.state ≠ .empty ∧ c.port ≠ port.toNat ∨ c.stamp = 0 ∨ s.portTo (bits arg 0 10) = none → result 2)
                ∧ (¬ (c.state ≠ .empty ∧ c.port ≠ port.toNat) → c.stamp ≠ 0 → s.portTo (bits arg 0 10) = some p →
                    ∃ t b, exec (.podbind port ctx) s = .next t ∧ (t.port port.toNat).mgmtstat = 4 ∧ (t.port port.toNat).podbind = some s.fresh ∧ b ∈ t.bindings ∧ b.ctx = ctx
                      ∧ b.node = bits arg 0 10 ∧ b.theirs = bits arg 10 9 ∧ b.xid = s.fresh
                      ∧ b.state = (if (s.bindings.find? fun o => o.ctx == ctx && o.node == bits arg 0 10 && o.theirs == bits arg 10 9).any (·.state == 1) then 1 else 0)
                      ∧ t.link p = (s.link p).sendMsg 4 s.fresh (toBytes 2 c.keyId ++ toBytes 2 (bits arg 10 9) ++ toBytes 8 s.fresh
                          ++ Config.keyWrap (s.link p).kx.wrap (Config.xtsKeys c.stamp))))

/-- R396, R397, R400 to R402, R404: reset, boot, management and power. A package reset leaves GDDR7, the hosts' memory and what else lies outside
the registers as it is and starts boot stage 0; stages 1 and 2 verify the boot images and stop with the ERROR and KIND of the
first that fails a check of R402; stage 3 fills the SRAM with zeros and leads to READY.
NEARSET and IMAGE come from port 0 only, while no context is resident. Only storage without live data is gated; a wake ends gating. The
last UCIe module to retire faults every context. An ATS invalidation takes the bus page out of what is cached. The boot images and which of
their failing checks is reported (log entry 35), the units of gating and what wakes them (log entry 36) are the model's choices.
Completes, with the conclusion exec i s = .next t under conditions on s and the operands alone: .nearset, .image, .ucieModuleRetire, .atsInvalidation,
.packageReset, .bootStage, .powerGate, .wakeComplete. -/
def Obligations.PackageEvents : Prop :=
  (∀ (s : State) (error kind : Nat),
      (∃ t, exec .packageReset s = .next t ∧ t.boot = 0 ∧ t.groups = [] ∧ t.ctxs = [] ∧ t.teams = [] ∧ t.links = [] ∧ t.mem = s.mem
          ∧ t.port0 = {} ∧ t.port1 = {} ∧ t.bindings = [] ∧ t.node = s.node ∧ t.ucie = s.ucie)
        ∧ (4 ≤ s.boot → exec (.bootStage error kind) s = .next s)
        ∧ (s.boot < 4 →
            let stage (t : State) : Prop := exec (.bootStage error kind) s = .next t ∧ t.groups = s.groups ∧ t.ctxs = s.ctxs
            let due : List Nat := if s.boot = 1 then [1] else [2, 3, 4, 5]
            let fails (k : Nat) (e : Nat) : Prop :=
              e ∈ imageErrors (Config.bootImage k) ∨ e = 4 ∧ bits (ofBytes ((Config.bootImage k).take 64)) 32 8 ≠ k
            let stops (t : State) (e k : Nat) : Prop := t.boot = s.boot + e * 2 ^ 4 + k * 2 ^ 8 ∧ t.mem = s.mem
            (s.boot = 0 → ∃ t, stage t ∧ t.boot = 1 ∧ t.mem = s.mem)
              ∧ (s.boot = 1 ∨ s.boot = 2 →
                  ((∀ k ∈ due, ∀ e, ¬ fails k e) → ∃ t, stage t ∧ t.boot = s.boot + 1 ∧ t.mem = s.mem
                    ∧ ∀ k ∈ due, Map.find t.images k = some (bits (ofBytes ((Config.bootImage k).take 64)) 64 32))
                  ∧ ∀ k e0, k ∈ due → fails k e0 → (∀ n ∈ due, n < k → ∀ e, ¬ fails n e) → ∃ t e, stage t ∧ fails k e ∧ stops t e k)
              ∧ (s.boot = 3 → (error = 5 → ∃ t, stage t ∧ stops t 5 0)
                  ∧ (error ≠ 5 → ∃ t, stage t ∧ t.boot = 4 ∧ ∀ a, t.byte a = if nearBase ≤ a ∧ a < hostBase 0 ∨ cspaceBase ≤ a then 0 else s.byte a))))
    ∧ (∀ (s : State) (port : Bool) (stack count : Nat) (bytes : List Byte) (kind version : Nat),
        let answer (u : State) (r : Nat) : State := u.updPort port.toNat fun p => { p with mgmtstat := r }
        let image : Instr := .image port bytes
        (bit (s.port port.toNat).mgmtstat 2 = true → exec (.nearset port stack count) s = .next s ∧ exec image s = .next s)
          ∧ (bit (s.port port.toNat).mgmtstat 2 = false →
              (port = true ∨ 96 < count ∨ 1 < stack → exec (.nearset port stack count) s = .next (answer s 2))
              ∧ (port = true → exec image s = .next (answer s 2))
              ∧ (port = false → 0 < s.residents → exec image s = .next (answer s 1)
                  ∧ (count ≤ 96 → stack ≤ 1 → exec (.nearset port stack count) s = .next (answer s 1)))
              ∧ (port = false → s.residents = 0 →
                  (count ≤ 96 → stack ≤ 1 → ∃ t, exec (.nearset port stack count) s = .next (answer t 0)
                    ∧ t = { s with near := t.near, gated := t.gated } ∧ Map.get 0 t.near stack = count ∧ ∀ u, u ∈ t.gated ↔ u ∈ s.gated ∧ t.live u = false)
                  ∧ (imageOk bytes = none ∨ imageOk bytes = some (1, version) → exec image s = .next (answer s 2))
                  ∧ (imageOk bytes = some (kind, version) → kind ≠ 1 →
                      exec image s = .next (answer { s with images := Map.set s.images kind version } 0)))))
    ∧ ∀ (s : State) (port : Bool) (addr unit m : Nat),
        (∃ t, exec (.atsInvalidation port addr) s = .next t ∧ t = { s with ats := t.ats }
            ∧ ∀ u, u ∈ t.ats ↔ u ∈ s.ats ∧ u ≠ (port.toNat, addr / 4096))
          ∧ (s.live unit = true → exec (.powerGate unit) s = .next s)
          ∧ (s.live unit = false → ∃ t, exec (.powerGate unit) s = .next t ∧ t = { s with gated := t.gated } ∧ unit ∈ t.gated)
          ∧ (∃ t, exec (.wakeComplete unit) s = .next t ∧ t = { s with gated := t.gated } ∧ unit ∉ t.gated
              ∧ ∀ u, u ≠ unit → (u ∈ t.gated ↔ u ∈ s.gated))
          ∧ (16 ≤ m ∨ m ∈ s.ucie → exec (.ucieModuleRetire m) s = .next s)
          ∧ (m < 16 → m ∉ s.ucie → s.ucie.length < 15 → ∃ t, exec (.ucieModuleRetire m) s = .next t ∧ t = { s with ucie := t.ucie } ∧ m ∈ t.ucie)
          ∧ (m < 16 → m ∉ s.ucie → 15 ≤ s.ucie.length → ∃ t, exec (.ucieModuleRetire m) s = .next t
              ∧ ∀ n c, Map.find s.ctxs n = some c → c.state ≠ .empty → c.state ≠ .destroyed → (t.ctx n).state = .faulted)
end

