-- ==== Sys2Proof/Laws/Map.lean ====
section
/-! SUPPORT. Sparse tables: what a read gives after a write, and the canonical form that every operation keeps. -/
namespace Sys2Proof.Machine

theorem Map.find_set_same {α : Type} (m : Map α) (a : Nat) (v : α) : Map.find (Map.set m a v) a = some v := by
  induction m with
  | nil => simp [Map.set, Map.find]
  | cons p m ih =>
    obtain ⟨k, w⟩ := p
    simp only [Map.set]
    split
    · simp [Map.find]
    · split
      · simp [Map.find]
      · simp [Map.find, *]

theorem Map.find_set_other {α : Type} (m : Map α) {a b : Nat} (v : α) (h : b ≠ a) : Map.find (Map.set m a v) b = Map.find m b := by
  induction m with
  | nil => simp [Map.set, Map.find, h]
  | cons p m ih =>
    obtain ⟨k, w⟩ := p
    simp only [Map.set]
    split
    · simp only [Map.find, if_neg h]
    · split
      · rename_i hk
        subst hk
        simp only [Map.find, if_neg h]
      · simp only [Map.find, ih]

theorem Map.find_set {α : Type} (m : Map α) (a b : Nat) (v : α) :
    Map.find (Map.set m a v) b = if b = a then some v else Map.find m b := by
  by_cases h : b = a
  · subst h; simp [Map.find_set_same]
  · simp [Map.find_set_other m v h, h]

/-- The keys rise strictly. -/
def Map.Rising {α : Type} (m : Map α) : Prop := m.Pairwise fun p q => p.1 < q.1

theorem Map.wf_iff {α : Type} [DecidableEq α] (d : α) (m : Map α) : Map.wf d m = true ↔ Map.Rising m ∧ ∀ p ∈ m, p.2 ≠ d := by
  unfold Map.Rising
  induction m with
  | nil => simp [Map.wf]
  | cons p m ih =>
    obtain ⟨k, v⟩ := p
    cases m with
    | nil => simp [Map.wf]
    | cons q m =>
      obtain ⟨k', v'⟩ := q
      simp only [Map.wf, Bool.and_eq_true, decide_eq_true_eq, bne_iff_ne, ne_eq, ih]
      constructor
      · rintro ⟨⟨h1, h2⟩, h3, h4⟩
        refine ⟨List.pairwise_cons.mpr ⟨?_, h3⟩, ?_⟩
        · intro r hr
          rcases List.mem_cons.mp hr with e | hr'
          · subst e; exact h1
          · exact Nat.lt_trans h1 ((List.pairwise_cons.mp h3).1 r hr')
        · intro r hr
          rcases List.mem_cons.mp hr with e | hr'
          · subst e; exact h2
          · exact h4 r hr'
      · rintro ⟨h1, h2⟩
        have hp := List.pairwise_cons.mp h1
        exact ⟨⟨hp.1 (k', v') (by simp), h2 (k, v) (by simp)⟩, hp.2, fun r hr => h2 r (List.mem_cons_of_mem _ hr)⟩

theorem Map.mem_set {α : Type} (m : Map α) (a : Nat) (v : α) : ∀ p ∈ Map.set m a v, p = (a, v) ∨ p ∈ m := by
  induction m with
  | nil => intro p hp; simp [Map.set] at hp; exact Or.inl hp
  | cons q m ih =>
    obtain ⟨k, w⟩ := q
    intro p hp
    simp only [Map.set] at hp
    split at hp
    · rcases List.mem_cons.mp hp with e | h
      · exact Or.inl e
      · exact Or.inr h
    · split at hp
      · rcases List.mem_cons.mp hp with e | h
        · exact Or.inl e
        · exact Or.inr (List.mem_cons_of_mem _ h)
      · rcases List.mem_cons.mp hp with e | h
        · exact Or.inr (by simp [e])
        · rcases ih p h with e | h'
          · exact Or.inl e
          · exact Or.inr (List.mem_cons_of_mem _ h')

theorem Map.rising_set {α : Type} (m : Map α) (a : Nat) (v : α) (h : Map.Rising m) : Map.Rising (Map.set m a v) := by
  unfold Map.Rising at *
  induction m with
  | nil => simp [Map.set]
  | cons q m ih =>
    obtain ⟨k, w⟩ := q
    have hp := List.pairwise_cons.mp h
    simp only [Map.set]
    split
    · rename_i hk
      refine List.pairwise_cons.mpr ⟨?_, h⟩
      intro r hr
      rcases List.mem_cons.mp hr with e | hr'
      · subst e; exact hk
      · exact Nat.lt_trans hk (hp.1 r hr')
    · split
      · rename_i _ hk
        subst hk
        exact List.pairwise_cons.mpr ⟨hp.1, hp.2⟩
      · refine List.pairwise_cons.mpr ⟨?_, ih hp.2⟩
        intro r hr
        rcases Map.mem_set m a v r hr with e | hr'
        · subst e; dsimp only; omega
        · exact hp.1 r hr'

theorem Map.erase_sublist {α : Type} (m : Map α) (a : Nat) : (Map.erase m a).Sublist m := by
  induction m with
  | nil => simp [Map.erase]
  | cons q m ih =>
    obtain ⟨k, w⟩ := q
    simp only [Map.erase]
    split
    · exact ih.cons _
    · exact ih.cons_cons _

theorem Map.find_erase {α : Type} (m : Map α) (a b : Nat) :
    Map.find (Map.erase m a) b = if b = a then none else Map.find m b := by
  induction m with
  | nil => simp [Map.erase, Map.find]
  | cons q m ih =>
    obtain ⟨k, w⟩ := q
    simp only [Map.erase]
    split
    · rename_i hk
      subst hk
      rw [ih]
      by_cases hb : b = a
      · simp [hb]
      · simp [Map.find, hb]
    · rename_i hk
      simp only [Map.find, ih]
      by_cases hb : b = a
      · subst hb; simp [hk]
      · simp [hb]

theorem Map.wf_set {α : Type} [DecidableEq α] {d : α} {m : Map α} (a : Nat) {v : α} (hv : v ≠ d) (h : Map.wf d m = true) :
    Map.wf d (Map.set m a v) = true := by
  rw [Map.wf_iff] at *
  refine ⟨Map.rising_set m a v h.1, fun p hp => ?_⟩
  rcases Map.mem_set m a v p hp with e | hp'
  · subst e; exact hv
  · exact h.2 p hp'

theorem Map.wf_sublist {α : Type} [DecidableEq α] {d : α} {m n : Map α} (hs : n.Sublist m) (h : Map.wf d m = true) :
    Map.wf d n = true := by
  rw [Map.wf_iff] at *
  exact ⟨h.1.sublist hs, fun p hp => h.2 p (hs.subset hp)⟩

theorem Map.wf_erase {α : Type} [DecidableEq α] {d : α} {m : Map α} (a : Nat) (h : Map.wf d m = true) :
    Map.wf d (Map.erase m a) = true := Map.wf_sublist (Map.erase_sublist m a) h

theorem Map.wf_filter {α : Type} [DecidableEq α] {d : α} {m : Map α} (p : Nat × α → Bool) (h : Map.wf d m = true) :
    Map.wf d (m.filter p : Map α) = true := Map.wf_sublist (List.filter_sublist (p := p)) h

theorem Map.wf_put {α : Type} [DecidableEq α] {d : α} {m : Map α} (a : Nat) (v : α) (h : Map.wf d m = true) :
    Map.wf d (Map.put d m a v) = true := by
  unfold Map.put
  split
  · exact Map.wf_erase a h
  · rename_i hv
    exact Map.wf_set a hv h

/-- A read after a write. -/
theorem Map.get_put {α : Type} [DecidableEq α] {d : α} {m : Map α} (a b : Nat) (v : α) :
    Map.get d (Map.put d m a v) b = if b = a then v else Map.get d m b := by
  unfold Map.get Map.put
  split
  · rename_i hv
    rw [Map.find_erase]
    split
    · simp [hv]
    · rfl
  · rw [Map.find_set]
    split <;> rfl

/-- The second of two writes to one key stands alone. -/
theorem Map.set_set {α : Type} (m : Map α) (a : Nat) (v w : α) : Map.set (Map.set m a v) a w = Map.set m a w := by
  induction m with
  | nil => simp [Map.set]
  | cons q m ih =>
    obtain ⟨k, u⟩ := q
    simp only [Map.set]
    split
    · simp [Map.set]
    · split
      · simp [Map.set]
      · rename_i h1 h2
        simp only [Map.set, if_neg h1, if_neg h2, ih]

theorem Map.get_set {α : Type} (d : α) (m : Map α) (a b : Nat) (v : α) :
    Map.get d (Map.set m a v) b = if b = a then v else Map.get d m b := by
  unfold Map.get
  rw [Map.find_set]
  split <;> rfl

theorem Map.find_upd {α : Type} (m : Map α) (a b : Nat) (f : α → α) :
    Map.find (Map.upd m a f) b = if b = a then (Map.find m b).map f else Map.find m b := by
  unfold Map.upd
  split
  · rename_i v hv
    rw [Map.find_set]
    split
    · rename_i e; subst e; simp [hv]
    · rfl
  · rename_i hv
    split
    · rename_i e; subst e; simp [hv]
    · rfl

end Sys2Proof.Machine
end

