-- ==== Sys2Proof/Laws/State.lean ====
section
/-! SUPPORT. What each update of the state leaves alone: one lemma for each field. -/
namespace Sys2Proof.Machine

/-! ### State.setGroup -/

@[simp] theorem State.setGroup_clock (s : State) (k : Nat) (g : Group) : (s.setGroup k g).clock = s.clock := rfl
@[simp] theorem State.setGroup_agenda (s : State) (k : Nat) (g : Group) : (s.setGroup k g).agenda = s.agenda := rfl
@[simp] theorem State.setGroup_free (s : State) (k : Nat) (g : Group) : (s.setGroup k g).free = s.free := rfl
@[simp] theorem State.setGroup_fresh (s : State) (k : Nat) (g : Group) : (s.setGroup k g).fresh = s.fresh := rfl
@[simp] theorem State.setGroup_turn (s : State) (k : Nat) (g : Group) : (s.setGroup k g).turn = s.turn := rfl
@[simp] theorem State.setGroup_issue (s : State) (k : Nat) (g : Group) : (s.setGroup k g).issue = s.issue := rfl
@[simp] theorem State.setGroup_runs (s : State) (k : Nat) (g : Group) : (s.setGroup k g).runs = s.runs := rfl
@[simp] theorem State.setGroup_rr (s : State) (k : Nat) (g : Group) : (s.setGroup k g).rr = s.rr := rfl
@[simp] theorem State.setGroup_mem (s : State) (k : Nat) (g : Group) : (s.setGroup k g).mem = s.mem := rfl
@[simp] theorem State.setGroup_keyB (s : State) (k : Nat) (g : Group) : (s.setGroup k g).keyB = s.keyB := rfl
@[simp] theorem State.setGroup_keyL (s : State) (k : Nat) (g : Group) : (s.setGroup k g).keyL = s.keyL := rfl
@[simp] theorem State.setGroup_poison (s : State) (k : Nat) (g : Group) : (s.setGroup k g).poison = s.poison := rfl
@[simp] theorem State.setGroup_badSlot (s : State) (k : Nat) (g : Group) : (s.setGroup k g).badSlot = s.badSlot := rfl
@[simp] theorem State.setGroup_badCore (s : State) (k : Nat) (g : Group) : (s.setGroup k g).badCore = s.badCore := rfl
@[simp] theorem State.setGroup_order (s : State) (k : Nat) (g : Group) : (s.setGroup k g).order = s.order := rfl
@[simp] theorem State.setGroup_teams (s : State) (k : Nat) (g : Group) : (s.setGroup k g).teams = s.teams := rfl
@[simp] theorem State.setGroup_engines (s : State) (k : Nat) (g : Group) : (s.setGroup k g).engines = s.engines := rfl
@[simp] theorem State.setGroup_copyq (s : State) (k : Nat) (g : Group) : (s.setGroup k g).copyq = s.copyq := rfl
@[simp] theorem State.setGroup_bars (s : State) (k : Nat) (g : Group) : (s.setGroup k g).bars = s.bars := rfl
@[simp] theorem State.setGroup_contribs (s : State) (k : Nat) (g : Group) : (s.setGroup k g).contribs = s.contribs := rfl
@[simp] theorem State.setGroup_demands (s : State) (k : Nat) (g : Group) : (s.setGroup k g).demands = s.demands := rfl
@[simp] theorem State.setGroup_ctxs (s : State) (k : Nat) (g : Group) : (s.setGroup k g).ctxs = s.ctxs := rfl
@[simp] theorem State.setGroup_draws (s : State) (k : Nat) (g : Group) : (s.setGroup k g).draws = s.draws := rfl
@[simp] theorem State.setGroup_port0 (s : State) (k : Nat) (g : Group) : (s.setGroup k g).port0 = s.port0 := rfl
@[simp] theorem State.setGroup_port1 (s : State) (k : Nat) (g : Group) : (s.setGroup k g).port1 = s.port1 := rfl
@[simp] theorem State.setGroup_log0 (s : State) (k : Nat) (g : Group) : (s.setGroup k g).log0 = s.log0 := rfl
@[simp] theorem State.setGroup_log1 (s : State) (k : Nat) (g : Group) : (s.setGroup k g).log1 = s.log1 := rfl
@[simp] theorem State.setGroup_near (s : State) (k : Nat) (g : Group) : (s.setGroup k g).near = s.near := rfl
@[simp] theorem State.setGroup_links (s : State) (k : Nat) (g : Group) : (s.setGroup k g).links = s.links := rfl
@[simp] theorem State.setGroup_node (s : State) (k : Nat) (g : Group) : (s.setGroup k g).node = s.node := rfl
@[simp] theorem State.setGroup_routes (s : State) (k : Nat) (g : Group) : (s.setGroup k g).routes = s.routes := rfl
@[simp] theorem State.setGroup_bindings (s : State) (k : Nat) (g : Group) : (s.setGroup k g).bindings = s.bindings := rfl
@[simp] theorem State.setGroup_bindSeen (s : State) (k : Nat) (g : Group) : (s.setGroup k g).bindSeen = s.bindSeen := rfl
@[simp] theorem State.setGroup_unbinds (s : State) (k : Nat) (g : Group) : (s.setGroup k g).unbinds = s.unbinds := rfl
@[simp] theorem State.setGroup_ats (s : State) (k : Nat) (g : Group) : (s.setGroup k g).ats = s.ats := rfl
@[simp] theorem State.setGroup_ucie (s : State) (k : Nat) (g : Group) : (s.setGroup k g).ucie = s.ucie := rfl
@[simp] theorem State.setGroup_boot (s : State) (k : Nat) (g : Group) : (s.setGroup k g).boot = s.boot := rfl
@[simp] theorem State.setGroup_images (s : State) (k : Nat) (g : Group) : (s.setGroup k g).images = s.images := rfl
@[simp] theorem State.setGroup_gated (s : State) (k : Nat) (g : Group) : (s.setGroup k g).gated = s.gated := rfl
@[simp] theorem State.setGroup_msix (s : State) (k : Nat) (g : Group) : (s.setGroup k g).msix = s.msix := rfl
@[simp] theorem State.setGroup_checks (s : State) (k : Nat) (g : Group) : (s.setGroup k g).checks = s.checks := rfl

/-! ### State.updGroup -/

@[simp] theorem State.updGroup_clock (s : State) (k : Nat) (f : Group → Group) : (s.updGroup k f).clock = s.clock := rfl
@[simp] theorem State.updGroup_agenda (s : State) (k : Nat) (f : Group → Group) : (s.updGroup k f).agenda = s.agenda := rfl
@[simp] theorem State.updGroup_free (s : State) (k : Nat) (f : Group → Group) : (s.updGroup k f).free = s.free := rfl
@[simp] theorem State.updGroup_fresh (s : State) (k : Nat) (f : Group → Group) : (s.updGroup k f).fresh = s.fresh := rfl
@[simp] theorem State.updGroup_turn (s : State) (k : Nat) (f : Group → Group) : (s.updGroup k f).turn = s.turn := rfl
@[simp] theorem State.updGroup_issue (s : State) (k : Nat) (f : Group → Group) : (s.updGroup k f).issue = s.issue := rfl
@[simp] theorem State.updGroup_runs (s : State) (k : Nat) (f : Group → Group) : (s.updGroup k f).runs = s.runs := rfl
@[simp] theorem State.updGroup_rr (s : State) (k : Nat) (f : Group → Group) : (s.updGroup k f).rr = s.rr := rfl
@[simp] theorem State.updGroup_mem (s : State) (k : Nat) (f : Group → Group) : (s.updGroup k f).mem = s.mem := rfl
@[simp] theorem State.updGroup_keyB (s : State) (k : Nat) (f : Group → Group) : (s.updGroup k f).keyB = s.keyB := rfl
@[simp] theorem State.updGroup_keyL (s : State) (k : Nat) (f : Group → Group) : (s.updGroup k f).keyL = s.keyL := rfl
@[simp] theorem State.updGroup_poison (s : State) (k : Nat) (f : Group → Group) : (s.updGroup k f).poison = s.poison := rfl
@[simp] theorem State.updGroup_badSlot (s : State) (k : Nat) (f : Group → Group) : (s.updGroup k f).badSlot = s.badSlot := rfl
@[simp] theorem State.updGroup_badCore (s : State) (k : Nat) (f : Group → Group) : (s.updGroup k f).badCore = s.badCore := rfl
@[simp] theorem State.updGroup_order (s : State) (k : Nat) (f : Group → Group) : (s.updGroup k f).order = s.order := rfl
@[simp] theorem State.updGroup_teams (s : State) (k : Nat) (f : Group → Group) : (s.updGroup k f).teams = s.teams := rfl
@[simp] theorem State.updGroup_engines (s : State) (k : Nat) (f : Group → Group) : (s.updGroup k f).engines = s.engines := rfl
@[simp] theorem State.updGroup_copyq (s : State) (k : Nat) (f : Group → Group) : (s.updGroup k f).copyq = s.copyq := rfl
@[simp] theorem State.updGroup_bars (s : State) (k : Nat) (f : Group → Group) : (s.updGroup k f).bars = s.bars := rfl
@[simp] theorem State.updGroup_contribs (s : State) (k : Nat) (f : Group → Group) : (s.updGroup k f).contribs = s.contribs := rfl
@[simp] theorem State.updGroup_demands (s : State) (k : Nat) (f : Group → Group) : (s.updGroup k f).demands = s.demands := rfl
@[simp] theorem State.updGroup_ctxs (s : State) (k : Nat) (f : Group → Group) : (s.updGroup k f).ctxs = s.ctxs := rfl
@[simp] theorem State.updGroup_draws (s : State) (k : Nat) (f : Group → Group) : (s.updGroup k f).draws = s.draws := rfl
@[simp] theorem State.updGroup_port0 (s : State) (k : Nat) (f : Group → Group) : (s.updGroup k f).port0 = s.port0 := rfl
@[simp] theorem State.updGroup_port1 (s : State) (k : Nat) (f : Group → Group) : (s.updGroup k f).port1 = s.port1 := rfl
@[simp] theorem State.updGroup_log0 (s : State) (k : Nat) (f : Group → Group) : (s.updGroup k f).log0 = s.log0 := rfl
@[simp] theorem State.updGroup_log1 (s : State) (k : Nat) (f : Group → Group) : (s.updGroup k f).log1 = s.log1 := rfl
@[simp] theorem State.updGroup_near (s : State) (k : Nat) (f : Group → Group) : (s.updGroup k f).near = s.near := rfl
@[simp] theorem State.updGroup_links (s : State) (k : Nat) (f : Group → Group) : (s.updGroup k f).links = s.links := rfl
@[simp] theorem State.updGroup_node (s : State) (k : Nat) (f : Group → Group) : (s.updGroup k f).node = s.node := rfl
@[simp] theorem State.updGroup_routes (s : State) (k : Nat) (f : Group → Group) : (s.updGroup k f).routes = s.routes := rfl
@[simp] theorem State.updGroup_bindings (s : State) (k : Nat) (f : Group → Group) : (s.updGroup k f).bindings = s.bindings := rfl
@[simp] theorem State.updGroup_bindSeen (s : State) (k : Nat) (f : Group → Group) : (s.updGroup k f).bindSeen = s.bindSeen := rfl
@[simp] theorem State.updGroup_unbinds (s : State) (k : Nat) (f : Group → Group) : (s.updGroup k f).unbinds = s.unbinds := rfl
@[simp] theorem State.updGroup_ats (s : State) (k : Nat) (f : Group → Group) : (s.updGroup k f).ats = s.ats := rfl
@[simp] theorem State.updGroup_ucie (s : State) (k : Nat) (f : Group → Group) : (s.updGroup k f).ucie = s.ucie := rfl
@[simp] theorem State.updGroup_boot (s : State) (k : Nat) (f : Group → Group) : (s.updGroup k f).boot = s.boot := rfl
@[simp] theorem State.updGroup_images (s : State) (k : Nat) (f : Group → Group) : (s.updGroup k f).images = s.images := rfl
@[simp] theorem State.updGroup_gated (s : State) (k : Nat) (f : Group → Group) : (s.updGroup k f).gated = s.gated := rfl
@[simp] theorem State.updGroup_msix (s : State) (k : Nat) (f : Group → Group) : (s.updGroup k f).msix = s.msix := rfl
@[simp] theorem State.updGroup_checks (s : State) (k : Nat) (f : Group → Group) : (s.updGroup k f).checks = s.checks := rfl

/-! ### State.updTeam -/

@[simp] theorem State.updTeam_clock (s : State) (k : Nat) (f : Team → Team) : (s.updTeam k f).clock = s.clock := rfl
@[simp] theorem State.updTeam_agenda (s : State) (k : Nat) (f : Team → Team) : (s.updTeam k f).agenda = s.agenda := rfl
@[simp] theorem State.updTeam_free (s : State) (k : Nat) (f : Team → Team) : (s.updTeam k f).free = s.free := rfl
@[simp] theorem State.updTeam_fresh (s : State) (k : Nat) (f : Team → Team) : (s.updTeam k f).fresh = s.fresh := rfl
@[simp] theorem State.updTeam_turn (s : State) (k : Nat) (f : Team → Team) : (s.updTeam k f).turn = s.turn := rfl
@[simp] theorem State.updTeam_issue (s : State) (k : Nat) (f : Team → Team) : (s.updTeam k f).issue = s.issue := rfl
@[simp] theorem State.updTeam_runs (s : State) (k : Nat) (f : Team → Team) : (s.updTeam k f).runs = s.runs := rfl
@[simp] theorem State.updTeam_rr (s : State) (k : Nat) (f : Team → Team) : (s.updTeam k f).rr = s.rr := rfl
@[simp] theorem State.updTeam_mem (s : State) (k : Nat) (f : Team → Team) : (s.updTeam k f).mem = s.mem := rfl
@[simp] theorem State.updTeam_keyB (s : State) (k : Nat) (f : Team → Team) : (s.updTeam k f).keyB = s.keyB := rfl
@[simp] theorem State.updTeam_keyL (s : State) (k : Nat) (f : Team → Team) : (s.updTeam k f).keyL = s.keyL := rfl
@[simp] theorem State.updTeam_poison (s : State) (k : Nat) (f : Team → Team) : (s.updTeam k f).poison = s.poison := rfl
@[simp] theorem State.updTeam_badSlot (s : State) (k : Nat) (f : Team → Team) : (s.updTeam k f).badSlot = s.badSlot := rfl
@[simp] theorem State.updTeam_badCore (s : State) (k : Nat) (f : Team → Team) : (s.updTeam k f).badCore = s.badCore := rfl
@[simp] theorem State.updTeam_order (s : State) (k : Nat) (f : Team → Team) : (s.updTeam k f).order = s.order := rfl
@[simp] theorem State.updTeam_groups (s : State) (k : Nat) (f : Team → Team) : (s.updTeam k f).groups = s.groups := rfl
@[simp] theorem State.updTeam_engines (s : State) (k : Nat) (f : Team → Team) : (s.updTeam k f).engines = s.engines := rfl
@[simp] theorem State.updTeam_copyq (s : State) (k : Nat) (f : Team → Team) : (s.updTeam k f).copyq = s.copyq := rfl
@[simp] theorem State.updTeam_bars (s : State) (k : Nat) (f : Team → Team) : (s.updTeam k f).bars = s.bars := rfl
@[simp] theorem State.updTeam_contribs (s : State) (k : Nat) (f : Team → Team) : (s.updTeam k f).contribs = s.contribs := rfl
@[simp] theorem State.updTeam_demands (s : State) (k : Nat) (f : Team → Team) : (s.updTeam k f).demands = s.demands := rfl
@[simp] theorem State.updTeam_ctxs (s : State) (k : Nat) (f : Team → Team) : (s.updTeam k f).ctxs = s.ctxs := rfl
@[simp] theorem State.updTeam_draws (s : State) (k : Nat) (f : Team → Team) : (s.updTeam k f).draws = s.draws := rfl
@[simp] theorem State.updTeam_port0 (s : State) (k : Nat) (f : Team → Team) : (s.updTeam k f).port0 = s.port0 := rfl
@[simp] theorem State.updTeam_port1 (s : State) (k : Nat) (f : Team → Team) : (s.updTeam k f).port1 = s.port1 := rfl
@[simp] theorem State.updTeam_log0 (s : State) (k : Nat) (f : Team → Team) : (s.updTeam k f).log0 = s.log0 := rfl
@[simp] theorem State.updTeam_log1 (s : State) (k : Nat) (f : Team → Team) : (s.updTeam k f).log1 = s.log1 := rfl
@[simp] theorem State.updTeam_near (s : State) (k : Nat) (f : Team → Team) : (s.updTeam k f).near = s.near := rfl
@[simp] theorem State.updTeam_links (s : State) (k : Nat) (f : Team → Team) : (s.updTeam k f).links = s.links := rfl
@[simp] theorem State.updTeam_node (s : State) (k : Nat) (f : Team → Team) : (s.updTeam k f).node = s.node := rfl
@[simp] theorem State.updTeam_routes (s : State) (k : Nat) (f : Team → Team) : (s.updTeam k f).routes = s.routes := rfl
@[simp] theorem State.updTeam_bindings (s : State) (k : Nat) (f : Team → Team) : (s.updTeam k f).bindings = s.bindings := rfl
@[simp] theorem State.updTeam_bindSeen (s : State) (k : Nat) (f : Team → Team) : (s.updTeam k f).bindSeen = s.bindSeen := rfl
@[simp] theorem State.updTeam_unbinds (s : State) (k : Nat) (f : Team → Team) : (s.updTeam k f).unbinds = s.unbinds := rfl
@[simp] theorem State.updTeam_ats (s : State) (k : Nat) (f : Team → Team) : (s.updTeam k f).ats = s.ats := rfl
@[simp] theorem State.updTeam_ucie (s : State) (k : Nat) (f : Team → Team) : (s.updTeam k f).ucie = s.ucie := rfl
@[simp] theorem State.updTeam_boot (s : State) (k : Nat) (f : Team → Team) : (s.updTeam k f).boot = s.boot := rfl
@[simp] theorem State.updTeam_images (s : State) (k : Nat) (f : Team → Team) : (s.updTeam k f).images = s.images := rfl
@[simp] theorem State.updTeam_gated (s : State) (k : Nat) (f : Team → Team) : (s.updTeam k f).gated = s.gated := rfl
@[simp] theorem State.updTeam_msix (s : State) (k : Nat) (f : Team → Team) : (s.updTeam k f).msix = s.msix := rfl
@[simp] theorem State.updTeam_checks (s : State) (k : Nat) (f : Team → Team) : (s.updTeam k f).checks = s.checks := rfl

/-! ### State.updCtx -/

@[simp] theorem State.updCtx_clock (s : State) (k : Nat) (f : Ctx → Ctx) : (s.updCtx k f).clock = s.clock := rfl
@[simp] theorem State.updCtx_agenda (s : State) (k : Nat) (f : Ctx → Ctx) : (s.updCtx k f).agenda = s.agenda := rfl
@[simp] theorem State.updCtx_free (s : State) (k : Nat) (f : Ctx → Ctx) : (s.updCtx k f).free = s.free := rfl
@[simp] theorem State.updCtx_fresh (s : State) (k : Nat) (f : Ctx → Ctx) : (s.updCtx k f).fresh = s.fresh := rfl
@[simp] theorem State.updCtx_turn (s : State) (k : Nat) (f : Ctx → Ctx) : (s.updCtx k f).turn = s.turn := rfl
@[simp] theorem State.updCtx_issue (s : State) (k : Nat) (f : Ctx → Ctx) : (s.updCtx k f).issue = s.issue := rfl
@[simp] theorem State.updCtx_runs (s : State) (k : Nat) (f : Ctx → Ctx) : (s.updCtx k f).runs = s.runs := rfl
@[simp] theorem State.updCtx_rr (s : State) (k : Nat) (f : Ctx → Ctx) : (s.updCtx k f).rr = s.rr := rfl
@[simp] theorem State.updCtx_mem (s : State) (k : Nat) (f : Ctx → Ctx) : (s.updCtx k f).mem = s.mem := rfl
@[simp] theorem State.updCtx_keyB (s : State) (k : Nat) (f : Ctx → Ctx) : (s.updCtx k f).keyB = s.keyB := rfl
@[simp] theorem State.updCtx_keyL (s : State) (k : Nat) (f : Ctx → Ctx) : (s.updCtx k f).keyL = s.keyL := rfl
@[simp] theorem State.updCtx_poison (s : State) (k : Nat) (f : Ctx → Ctx) : (s.updCtx k f).poison = s.poison := rfl
@[simp] theorem State.updCtx_badSlot (s : State) (k : Nat) (f : Ctx → Ctx) : (s.updCtx k f).badSlot = s.badSlot := rfl
@[simp] theorem State.updCtx_badCore (s : State) (k : Nat) (f : Ctx → Ctx) : (s.updCtx k f).badCore = s.badCore := rfl
@[simp] theorem State.updCtx_order (s : State) (k : Nat) (f : Ctx → Ctx) : (s.updCtx k f).order = s.order := rfl
@[simp] theorem State.updCtx_groups (s : State) (k : Nat) (f : Ctx → Ctx) : (s.updCtx k f).groups = s.groups := rfl
@[simp] theorem State.updCtx_teams (s : State) (k : Nat) (f : Ctx → Ctx) : (s.updCtx k f).teams = s.teams := rfl
@[simp] theorem State.updCtx_engines (s : State) (k : Nat) (f : Ctx → Ctx) : (s.updCtx k f).engines = s.engines := rfl
@[simp] theorem State.updCtx_copyq (s : State) (k : Nat) (f : Ctx → Ctx) : (s.updCtx k f).copyq = s.copyq := rfl
@[simp] theorem State.updCtx_bars (s : State) (k : Nat) (f : Ctx → Ctx) : (s.updCtx k f).bars = s.bars := rfl
@[simp] theorem State.updCtx_contribs (s : State) (k : Nat) (f : Ctx → Ctx) : (s.updCtx k f).contribs = s.contribs := rfl
@[simp] theorem State.updCtx_demands (s : State) (k : Nat) (f : Ctx → Ctx) : (s.updCtx k f).demands = s.demands := rfl
@[simp] theorem State.updCtx_draws (s : State) (k : Nat) (f : Ctx → Ctx) : (s.updCtx k f).draws = s.draws := rfl
@[simp] theorem State.updCtx_port0 (s : State) (k : Nat) (f : Ctx → Ctx) : (s.updCtx k f).port0 = s.port0 := rfl
@[simp] theorem State.updCtx_port1 (s : State) (k : Nat) (f : Ctx → Ctx) : (s.updCtx k f).port1 = s.port1 := rfl
@[simp] theorem State.updCtx_log0 (s : State) (k : Nat) (f : Ctx → Ctx) : (s.updCtx k f).log0 = s.log0 := rfl
@[simp] theorem State.updCtx_log1 (s : State) (k : Nat) (f : Ctx → Ctx) : (s.updCtx k f).log1 = s.log1 := rfl
@[simp] theorem State.updCtx_near (s : State) (k : Nat) (f : Ctx → Ctx) : (s.updCtx k f).near = s.near := rfl
@[simp] theorem State.updCtx_links (s : State) (k : Nat) (f : Ctx → Ctx) : (s.updCtx k f).links = s.links := rfl
@[simp] theorem State.updCtx_node (s : State) (k : Nat) (f : Ctx → Ctx) : (s.updCtx k f).node = s.node := rfl
@[simp] theorem State.updCtx_routes (s : State) (k : Nat) (f : Ctx → Ctx) : (s.updCtx k f).routes = s.routes := rfl
@[simp] theorem State.updCtx_bindings (s : State) (k : Nat) (f : Ctx → Ctx) : (s.updCtx k f).bindings = s.bindings := rfl
@[simp] theorem State.updCtx_bindSeen (s : State) (k : Nat) (f : Ctx → Ctx) : (s.updCtx k f).bindSeen = s.bindSeen := rfl
@[simp] theorem State.updCtx_unbinds (s : State) (k : Nat) (f : Ctx → Ctx) : (s.updCtx k f).unbinds = s.unbinds := rfl
@[simp] theorem State.updCtx_ats (s : State) (k : Nat) (f : Ctx → Ctx) : (s.updCtx k f).ats = s.ats := rfl
@[simp] theorem State.updCtx_ucie (s : State) (k : Nat) (f : Ctx → Ctx) : (s.updCtx k f).ucie = s.ucie := rfl
@[simp] theorem State.updCtx_boot (s : State) (k : Nat) (f : Ctx → Ctx) : (s.updCtx k f).boot = s.boot := rfl
@[simp] theorem State.updCtx_images (s : State) (k : Nat) (f : Ctx → Ctx) : (s.updCtx k f).images = s.images := rfl
@[simp] theorem State.updCtx_gated (s : State) (k : Nat) (f : Ctx → Ctx) : (s.updCtx k f).gated = s.gated := rfl
@[simp] theorem State.updCtx_msix (s : State) (k : Nat) (f : Ctx → Ctx) : (s.updCtx k f).msix = s.msix := rfl
@[simp] theorem State.updCtx_checks (s : State) (k : Nat) (f : Ctx → Ctx) : (s.updCtx k f).checks = s.checks := rfl

/-! ### State.setEngine -/

@[simp] theorem State.setEngine_clock (s : State) (core : Nat) (e : Engine) : (s.setEngine core e).clock = s.clock := rfl
@[simp] theorem State.setEngine_agenda (s : State) (core : Nat) (e : Engine) : (s.setEngine core e).agenda = s.agenda := rfl
@[simp] theorem State.setEngine_free (s : State) (core : Nat) (e : Engine) : (s.setEngine core e).free = s.free := rfl
@[simp] theorem State.setEngine_fresh (s : State) (core : Nat) (e : Engine) : (s.setEngine core e).fresh = s.fresh := rfl
@[simp] theorem State.setEngine_turn (s : State) (core : Nat) (e : Engine) : (s.setEngine core e).turn = s.turn := rfl
@[simp] theorem State.setEngine_issue (s : State) (core : Nat) (e : Engine) : (s.setEngine core e).issue = s.issue := rfl
@[simp] theorem State.setEngine_runs (s : State) (core : Nat) (e : Engine) : (s.setEngine core e).runs = s.runs := rfl
@[simp] theorem State.setEngine_rr (s : State) (core : Nat) (e : Engine) : (s.setEngine core e).rr = s.rr := rfl
@[simp] theorem State.setEngine_mem (s : State) (core : Nat) (e : Engine) : (s.setEngine core e).mem = s.mem := rfl
@[simp] theorem State.setEngine_keyB (s : State) (core : Nat) (e : Engine) : (s.setEngine core e).keyB = s.keyB := rfl
@[simp] theorem State.setEngine_keyL (s : State) (core : Nat) (e : Engine) : (s.setEngine core e).keyL = s.keyL := rfl
@[simp] theorem State.setEngine_poison (s : State) (core : Nat) (e : Engine) : (s.setEngine core e).poison = s.poison := rfl
@[simp] theorem State.setEngine_badSlot (s : State) (core : Nat) (e : Engine) : (s.setEngine core e).badSlot = s.badSlot := rfl
@[simp] theorem State.setEngine_badCore (s : State) (core : Nat) (e : Engine) : (s.setEngine core e).badCore = s.badCore := rfl
@[simp] theorem State.setEngine_order (s : State) (core : Nat) (e : Engine) : (s.setEngine core e).order = s.order := rfl
@[simp] theorem State.setEngine_groups (s : State) (core : Nat) (e : Engine) : (s.setEngine core e).groups = s.groups := rfl
@[simp] theorem State.setEngine_teams (s : State) (core : Nat) (e : Engine) : (s.setEngine core e).teams = s.teams := rfl
@[simp] theorem State.setEngine_copyq (s : State) (core : Nat) (e : Engine) : (s.setEngine core e).copyq = s.copyq := rfl
@[simp] theorem State.setEngine_bars (s : State) (core : Nat) (e : Engine) : (s.setEngine core e).bars = s.bars := rfl
@[simp] theorem State.setEngine_contribs (s : State) (core : Nat) (e : Engine) : (s.setEngine core e).contribs = s.contribs := rfl
@[simp] theorem State.setEngine_demands (s : State) (core : Nat) (e : Engine) : (s.setEngine core e).demands = s.demands := rfl
@[simp] theorem State.setEngine_ctxs (s : State) (core : Nat) (e : Engine) : (s.setEngine core e).ctxs = s.ctxs := rfl
@[simp] theorem State.setEngine_draws (s : State) (core : Nat) (e : Engine) : (s.setEngine core e).draws = s.draws := rfl
@[simp] theorem State.setEngine_port0 (s : State) (core : Nat) (e : Engine) : (s.setEngine core e).port0 = s.port0 := rfl
@[simp] theorem State.setEngine_port1 (s : State) (core : Nat) (e : Engine) : (s.setEngine core e).port1 = s.port1 := rfl
@[simp] theorem State.setEngine_log0 (s : State) (core : Nat) (e : Engine) : (s.setEngine core e).log0 = s.log0 := rfl
@[simp] theorem State.setEngine_log1 (s : State) (core : Nat) (e : Engine) : (s.setEngine core e).log1 = s.log1 := rfl
@[simp] theorem State.setEngine_near (s : State) (core : Nat) (e : Engine) : (s.setEngine core e).near = s.near := rfl
@[simp] theorem State.setEngine_links (s : State) (core : Nat) (e : Engine) : (s.setEngine core e).links = s.links := rfl
@[simp] theorem State.setEngine_node (s : State) (core : Nat) (e : Engine) : (s.setEngine core e).node = s.node := rfl
@[simp] theorem State.setEngine_routes (s : State) (core : Nat) (e : Engine) : (s.setEngine core e).routes = s.routes := rfl
@[simp] theorem State.setEngine_bindings (s : State) (core : Nat) (e : Engine) : (s.setEngine core e).bindings = s.bindings := rfl
@[simp] theorem State.setEngine_bindSeen (s : State) (core : Nat) (e : Engine) : (s.setEngine core e).bindSeen = s.bindSeen := rfl
@[simp] theorem State.setEngine_unbinds (s : State) (core : Nat) (e : Engine) : (s.setEngine core e).unbinds = s.unbinds := rfl
@[simp] theorem State.setEngine_ats (s : State) (core : Nat) (e : Engine) : (s.setEngine core e).ats = s.ats := rfl
@[simp] theorem State.setEngine_ucie (s : State) (core : Nat) (e : Engine) : (s.setEngine core e).ucie = s.ucie := rfl
@[simp] theorem State.setEngine_boot (s : State) (core : Nat) (e : Engine) : (s.setEngine core e).boot = s.boot := rfl
@[simp] theorem State.setEngine_images (s : State) (core : Nat) (e : Engine) : (s.setEngine core e).images = s.images := rfl
@[simp] theorem State.setEngine_gated (s : State) (core : Nat) (e : Engine) : (s.setEngine core e).gated = s.gated := rfl
@[simp] theorem State.setEngine_msix (s : State) (core : Nat) (e : Engine) : (s.setEngine core e).msix = s.msix := rfl
@[simp] theorem State.setEngine_checks (s : State) (core : Nat) (e : Engine) : (s.setEngine core e).checks = s.checks := rfl

/-! ### State.updEngine -/

@[simp] theorem State.updEngine_clock (s : State) (core : Nat) (f : Engine → Engine) : (s.updEngine core f).clock = s.clock := rfl
@[simp] theorem State.updEngine_agenda (s : State) (core : Nat) (f : Engine → Engine) : (s.updEngine core f).agenda = s.agenda := rfl
@[simp] theorem State.updEngine_free (s : State) (core : Nat) (f : Engine → Engine) : (s.updEngine core f).free = s.free := rfl
@[simp] theorem State.updEngine_fresh (s : State) (core : Nat) (f : Engine → Engine) : (s.updEngine core f).fresh = s.fresh := rfl
@[simp] theorem State.updEngine_turn (s : State) (core : Nat) (f : Engine → Engine) : (s.updEngine core f).turn = s.turn := rfl
@[simp] theorem State.updEngine_issue (s : State) (core : Nat) (f : Engine → Engine) : (s.updEngine core f).issue = s.issue := rfl
@[simp] theorem State.updEngine_runs (s : State) (core : Nat) (f : Engine → Engine) : (s.updEngine core f).runs = s.runs := rfl
@[simp] theorem State.updEngine_rr (s : State) (core : Nat) (f : Engine → Engine) : (s.updEngine core f).rr = s.rr := rfl
@[simp] theorem State.updEngine_mem (s : State) (core : Nat) (f : Engine → Engine) : (s.updEngine core f).mem = s.mem := rfl
@[simp] theorem State.updEngine_keyB (s : State) (core : Nat) (f : Engine → Engine) : (s.updEngine core f).keyB = s.keyB := rfl
@[simp] theorem State.updEngine_keyL (s : State) (core : Nat) (f : Engine → Engine) : (s.updEngine core f).keyL = s.keyL := rfl
@[simp] theorem State.updEngine_poison (s : State) (core : Nat) (f : Engine → Engine) : (s.updEngine core f).poison = s.poison := rfl
@[simp] theorem State.updEngine_badSlot (s : State) (core : Nat) (f : Engine → Engine) : (s.updEngine core f).badSlot = s.badSlot := rfl
@[simp] theorem State.updEngine_badCore (s : State) (core : Nat) (f : Engine → Engine) : (s.updEngine core f).badCore = s.badCore := rfl
@[simp] theorem State.updEngine_order (s : State) (core : Nat) (f : Engine → Engine) : (s.updEngine core f).order = s.order := rfl
@[simp] theorem State.updEngine_groups (s : State) (core : Nat) (f : Engine → Engine) : (s.updEngine core f).groups = s.groups := rfl
@[simp] theorem State.updEngine_teams (s : State) (core : Nat) (f : Engine → Engine) : (s.updEngine core f).teams = s.teams := rfl
@[simp] theorem State.updEngine_copyq (s : State) (core : Nat) (f : Engine → Engine) : (s.updEngine core f).copyq = s.copyq := rfl
@[simp] theorem State.updEngine_bars (s : State) (core : Nat) (f : Engine → Engine) : (s.updEngine core f).bars = s.bars := rfl
@[simp] theorem State.updEngine_contribs (s : State) (core : Nat) (f : Engine → Engine) : (s.updEngine core f).contribs = s.contribs := rfl
@[simp] theorem State.updEngine_demands (s : State) (core : Nat) (f : Engine → Engine) : (s.updEngine core f).demands = s.demands := rfl
@[simp] theorem State.updEngine_ctxs (s : State) (core : Nat) (f : Engine → Engine) : (s.updEngine core f).ctxs = s.ctxs := rfl
@[simp] theorem State.updEngine_draws (s : State) (core : Nat) (f : Engine → Engine) : (s.updEngine core f).draws = s.draws := rfl
@[simp] theorem State.updEngine_port0 (s : State) (core : Nat) (f : Engine → Engine) : (s.updEngine core f).port0 = s.port0 := rfl
@[simp] theorem State.updEngine_port1 (s : State) (core : Nat) (f : Engine → Engine) : (s.updEngine core f).port1 = s.port1 := rfl
@[simp] theorem State.updEngine_log0 (s : State) (core : Nat) (f : Engine → Engine) : (s.updEngine core f).log0 = s.log0 := rfl
@[simp] theorem State.updEngine_log1 (s : State) (core : Nat) (f : Engine → Engine) : (s.updEngine core f).log1 = s.log1 := rfl
@[simp] theorem State.updEngine_near (s : State) (core : Nat) (f : Engine → Engine) : (s.updEngine core f).near = s.near := rfl
@[simp] theorem State.updEngine_links (s : State) (core : Nat) (f : Engine → Engine) : (s.updEngine core f).links = s.links := rfl
@[simp] theorem State.updEngine_node (s : State) (core : Nat) (f : Engine → Engine) : (s.updEngine core f).node = s.node := rfl
@[simp] theorem State.updEngine_routes (s : State) (core : Nat) (f : Engine → Engine) : (s.updEngine core f).routes = s.routes := rfl
@[simp] theorem State.updEngine_bindings (s : State) (core : Nat) (f : Engine → Engine) : (s.updEngine core f).bindings = s.bindings := rfl
@[simp] theorem State.updEngine_bindSeen (s : State) (core : Nat) (f : Engine → Engine) : (s.updEngine core f).bindSeen = s.bindSeen := rfl
@[simp] theorem State.updEngine_unbinds (s : State) (core : Nat) (f : Engine → Engine) : (s.updEngine core f).unbinds = s.unbinds := rfl
@[simp] theorem State.updEngine_ats (s : State) (core : Nat) (f : Engine → Engine) : (s.updEngine core f).ats = s.ats := rfl
@[simp] theorem State.updEngine_ucie (s : State) (core : Nat) (f : Engine → Engine) : (s.updEngine core f).ucie = s.ucie := rfl
@[simp] theorem State.updEngine_boot (s : State) (core : Nat) (f : Engine → Engine) : (s.updEngine core f).boot = s.boot := rfl
@[simp] theorem State.updEngine_images (s : State) (core : Nat) (f : Engine → Engine) : (s.updEngine core f).images = s.images := rfl
@[simp] theorem State.updEngine_gated (s : State) (core : Nat) (f : Engine → Engine) : (s.updEngine core f).gated = s.gated := rfl
@[simp] theorem State.updEngine_msix (s : State) (core : Nat) (f : Engine → Engine) : (s.updEngine core f).msix = s.msix := rfl
@[simp] theorem State.updEngine_checks (s : State) (core : Nat) (f : Engine → Engine) : (s.updEngine core f).checks = s.checks := rfl

/-! ### State.putBytes -/

@[simp] theorem State.putBytes_clock (s : State) (stamp loc : Nat) (bs : List Byte) : (s.putBytes stamp loc bs).clock = s.clock := rfl
@[simp] theorem State.putBytes_agenda (s : State) (stamp loc : Nat) (bs : List Byte) : (s.putBytes stamp loc bs).agenda = s.agenda := rfl
@[simp] theorem State.putBytes_free (s : State) (stamp loc : Nat) (bs : List Byte) : (s.putBytes stamp loc bs).free = s.free := rfl
@[simp] theorem State.putBytes_fresh (s : State) (stamp loc : Nat) (bs : List Byte) : (s.putBytes stamp loc bs).fresh = s.fresh := rfl
@[simp] theorem State.putBytes_turn (s : State) (stamp loc : Nat) (bs : List Byte) : (s.putBytes stamp loc bs).turn = s.turn := rfl
@[simp] theorem State.putBytes_issue (s : State) (stamp loc : Nat) (bs : List Byte) : (s.putBytes stamp loc bs).issue = s.issue := rfl
@[simp] theorem State.putBytes_runs (s : State) (stamp loc : Nat) (bs : List Byte) : (s.putBytes stamp loc bs).runs = s.runs := rfl
@[simp] theorem State.putBytes_rr (s : State) (stamp loc : Nat) (bs : List Byte) : (s.putBytes stamp loc bs).rr = s.rr := rfl
@[simp] theorem State.putBytes_badSlot (s : State) (stamp loc : Nat) (bs : List Byte) : (s.putBytes stamp loc bs).badSlot = s.badSlot := rfl
@[simp] theorem State.putBytes_order (s : State) (stamp loc : Nat) (bs : List Byte) : (s.putBytes stamp loc bs).order = s.order := rfl
@[simp] theorem State.putBytes_groups (s : State) (stamp loc : Nat) (bs : List Byte) : (s.putBytes stamp loc bs).groups = s.groups := rfl
@[simp] theorem State.putBytes_teams (s : State) (stamp loc : Nat) (bs : List Byte) : (s.putBytes stamp loc bs).teams = s.teams := rfl
@[simp] theorem State.putBytes_engines (s : State) (stamp loc : Nat) (bs : List Byte) : (s.putBytes stamp loc bs).engines = s.engines := rfl
@[simp] theorem State.putBytes_copyq (s : State) (stamp loc : Nat) (bs : List Byte) : (s.putBytes stamp loc bs).copyq = s.copyq := rfl
@[simp] theorem State.putBytes_bars (s : State) (stamp loc : Nat) (bs : List Byte) : (s.putBytes stamp loc bs).bars = s.bars := rfl
@[simp] theorem State.putBytes_contribs (s : State) (stamp loc : Nat) (bs : List Byte) : (s.putBytes stamp loc bs).contribs = s.contribs := rfl
@[simp] theorem State.putBytes_demands (s : State) (stamp loc : Nat) (bs : List Byte) : (s.putBytes stamp loc bs).demands = s.demands := rfl
@[simp] theorem State.putBytes_ctxs (s : State) (stamp loc : Nat) (bs : List Byte) : (s.putBytes stamp loc bs).ctxs = s.ctxs := rfl
@[simp] theorem State.putBytes_draws (s : State) (stamp loc : Nat) (bs : List Byte) : (s.putBytes stamp loc bs).draws = s.draws := rfl
@[simp] theorem State.putBytes_port0 (s : State) (stamp loc : Nat) (bs : List Byte) : (s.putBytes stamp loc bs).port0 = s.port0 := rfl
@[simp] theorem State.putBytes_port1 (s : State) (stamp loc : Nat) (bs : List Byte) : (s.putBytes stamp loc bs).port1 = s.port1 := rfl
@[simp] theorem State.putBytes_log0 (s : State) (stamp loc : Nat) (bs : List Byte) : (s.putBytes stamp loc bs).log0 = s.log0 := rfl
@[simp] theorem State.putBytes_log1 (s : State) (stamp loc : Nat) (bs : List Byte) : (s.putBytes stamp loc bs).log1 = s.log1 := rfl
@[simp] theorem State.putBytes_near (s : State) (stamp loc : Nat) (bs : List Byte) : (s.putBytes stamp loc bs).near = s.near := rfl
@[simp] theorem State.putBytes_links (s : State) (stamp loc : Nat) (bs : List Byte) : (s.putBytes stamp loc bs).links = s.links := rfl
@[simp] theorem State.putBytes_node (s : State) (stamp loc : Nat) (bs : List Byte) : (s.putBytes stamp loc bs).node = s.node := rfl
@[simp] theorem State.putBytes_routes (s : State) (stamp loc : Nat) (bs : List Byte) : (s.putBytes stamp loc bs).routes = s.routes := rfl
@[simp] theorem State.putBytes_bindings (s : State) (stamp loc : Nat) (bs : List Byte) : (s.putBytes stamp loc bs).bindings = s.bindings := rfl
@[simp] theorem State.putBytes_bindSeen (s : State) (stamp loc : Nat) (bs : List Byte) : (s.putBytes stamp loc bs).bindSeen = s.bindSeen := rfl
@[simp] theorem State.putBytes_unbinds (s : State) (stamp loc : Nat) (bs : List Byte) : (s.putBytes stamp loc bs).unbinds = s.unbinds := rfl
@[simp] theorem State.putBytes_ats (s : State) (stamp loc : Nat) (bs : List Byte) : (s.putBytes stamp loc bs).ats = s.ats := rfl
@[simp] theorem State.putBytes_ucie (s : State) (stamp loc : Nat) (bs : List Byte) : (s.putBytes stamp loc bs).ucie = s.ucie := rfl
@[simp] theorem State.putBytes_boot (s : State) (stamp loc : Nat) (bs : List Byte) : (s.putBytes stamp loc bs).boot = s.boot := rfl
@[simp] theorem State.putBytes_images (s : State) (stamp loc : Nat) (bs : List Byte) : (s.putBytes stamp loc bs).images = s.images := rfl
@[simp] theorem State.putBytes_gated (s : State) (stamp loc : Nat) (bs : List Byte) : (s.putBytes stamp loc bs).gated = s.gated := rfl
@[simp] theorem State.putBytes_msix (s : State) (stamp loc : Nat) (bs : List Byte) : (s.putBytes stamp loc bs).msix = s.msix := rfl
@[simp] theorem State.putBytes_checks (s : State) (stamp loc : Nat) (bs : List Byte) : (s.putBytes stamp loc bs).checks = s.checks := rfl

/-! ### State.store -/

@[simp] theorem State.store_clock (s : State) (agent : Nat) (rels : Map Rel) (eng : View) (stamp loc : Nat) (bs : List Byte) (group : Nat) (op : Option Nat) : (s.store agent rels eng stamp loc bs group op).clock = s.clock := rfl
@[simp] theorem State.store_agenda (s : State) (agent : Nat) (rels : Map Rel) (eng : View) (stamp loc : Nat) (bs : List Byte) (group : Nat) (op : Option Nat) : (s.store agent rels eng stamp loc bs group op).agenda = s.agenda := rfl
@[simp] theorem State.store_free (s : State) (agent : Nat) (rels : Map Rel) (eng : View) (stamp loc : Nat) (bs : List Byte) (group : Nat) (op : Option Nat) : (s.store agent rels eng stamp loc bs group op).free = s.free := rfl
@[simp] theorem State.store_fresh (s : State) (agent : Nat) (rels : Map Rel) (eng : View) (stamp loc : Nat) (bs : List Byte) (group : Nat) (op : Option Nat) : (s.store agent rels eng stamp loc bs group op).fresh = s.fresh := rfl
@[simp] theorem State.store_turn (s : State) (agent : Nat) (rels : Map Rel) (eng : View) (stamp loc : Nat) (bs : List Byte) (group : Nat) (op : Option Nat) : (s.store agent rels eng stamp loc bs group op).turn = s.turn := rfl
@[simp] theorem State.store_issue (s : State) (agent : Nat) (rels : Map Rel) (eng : View) (stamp loc : Nat) (bs : List Byte) (group : Nat) (op : Option Nat) : (s.store agent rels eng stamp loc bs group op).issue = s.issue := rfl
@[simp] theorem State.store_runs (s : State) (agent : Nat) (rels : Map Rel) (eng : View) (stamp loc : Nat) (bs : List Byte) (group : Nat) (op : Option Nat) : (s.store agent rels eng stamp loc bs group op).runs = s.runs := rfl
@[simp] theorem State.store_rr (s : State) (agent : Nat) (rels : Map Rel) (eng : View) (stamp loc : Nat) (bs : List Byte) (group : Nat) (op : Option Nat) : (s.store agent rels eng stamp loc bs group op).rr = s.rr := rfl
@[simp] theorem State.store_badSlot (s : State) (agent : Nat) (rels : Map Rel) (eng : View) (stamp loc : Nat) (bs : List Byte) (group : Nat) (op : Option Nat) : (s.store agent rels eng stamp loc bs group op).badSlot = s.badSlot := rfl
@[simp] theorem State.store_groups (s : State) (agent : Nat) (rels : Map Rel) (eng : View) (stamp loc : Nat) (bs : List Byte) (group : Nat) (op : Option Nat) : (s.store agent rels eng stamp loc bs group op).groups = s.groups := rfl
@[simp] theorem State.store_teams (s : State) (agent : Nat) (rels : Map Rel) (eng : View) (stamp loc : Nat) (bs : List Byte) (group : Nat) (op : Option Nat) : (s.store agent rels eng stamp loc bs group op).teams = s.teams := rfl
@[simp] theorem State.store_engines (s : State) (agent : Nat) (rels : Map Rel) (eng : View) (stamp loc : Nat) (bs : List Byte) (group : Nat) (op : Option Nat) : (s.store agent rels eng stamp loc bs group op).engines = s.engines := rfl
@[simp] theorem State.store_copyq (s : State) (agent : Nat) (rels : Map Rel) (eng : View) (stamp loc : Nat) (bs : List Byte) (group : Nat) (op : Option Nat) : (s.store agent rels eng stamp loc bs group op).copyq = s.copyq := rfl
@[simp] theorem State.store_bars (s : State) (agent : Nat) (rels : Map Rel) (eng : View) (stamp loc : Nat) (bs : List Byte) (group : Nat) (op : Option Nat) : (s.store agent rels eng stamp loc bs group op).bars = s.bars := rfl
@[simp] theorem State.store_contribs (s : State) (agent : Nat) (rels : Map Rel) (eng : View) (stamp loc : Nat) (bs : List Byte) (group : Nat) (op : Option Nat) : (s.store agent rels eng stamp loc bs group op).contribs = s.contribs := rfl
@[simp] theorem State.store_demands (s : State) (agent : Nat) (rels : Map Rel) (eng : View) (stamp loc : Nat) (bs : List Byte) (group : Nat) (op : Option Nat) : (s.store agent rels eng stamp loc bs group op).demands = s.demands := rfl
@[simp] theorem State.store_ctxs (s : State) (agent : Nat) (rels : Map Rel) (eng : View) (stamp loc : Nat) (bs : List Byte) (group : Nat) (op : Option Nat) : (s.store agent rels eng stamp loc bs group op).ctxs = s.ctxs := rfl
@[simp] theorem State.store_draws (s : State) (agent : Nat) (rels : Map Rel) (eng : View) (stamp loc : Nat) (bs : List Byte) (group : Nat) (op : Option Nat) : (s.store agent rels eng stamp loc bs group op).draws = s.draws := rfl
@[simp] theorem State.store_port0 (s : State) (agent : Nat) (rels : Map Rel) (eng : View) (stamp loc : Nat) (bs : List Byte) (group : Nat) (op : Option Nat) : (s.store agent rels eng stamp loc bs group op).port0 = s.port0 := rfl
@[simp] theorem State.store_port1 (s : State) (agent : Nat) (rels : Map Rel) (eng : View) (stamp loc : Nat) (bs : List Byte) (group : Nat) (op : Option Nat) : (s.store agent rels eng stamp loc bs group op).port1 = s.port1 := rfl
@[simp] theorem State.store_log0 (s : State) (agent : Nat) (rels : Map Rel) (eng : View) (stamp loc : Nat) (bs : List Byte) (group : Nat) (op : Option Nat) : (s.store agent rels eng stamp loc bs group op).log0 = s.log0 := rfl
@[simp] theorem State.store_log1 (s : State) (agent : Nat) (rels : Map Rel) (eng : View) (stamp loc : Nat) (bs : List Byte) (group : Nat) (op : Option Nat) : (s.store agent rels eng stamp loc bs group op).log1 = s.log1 := rfl
@[simp] theorem State.store_near (s : State) (agent : Nat) (rels : Map Rel) (eng : View) (stamp loc : Nat) (bs : List Byte) (group : Nat) (op : Option Nat) : (s.store agent rels eng stamp loc bs group op).near = s.near := rfl
@[simp] theorem State.store_links (s : State) (agent : Nat) (rels : Map Rel) (eng : View) (stamp loc : Nat) (bs : List Byte) (group : Nat) (op : Option Nat) : (s.store agent rels eng stamp loc bs group op).links = s.links := rfl
@[simp] theorem State.store_node (s : State) (agent : Nat) (rels : Map Rel) (eng : View) (stamp loc : Nat) (bs : List Byte) (group : Nat) (op : Option Nat) : (s.store agent rels eng stamp loc bs group op).node = s.node := rfl
@[simp] theorem State.store_routes (s : State) (agent : Nat) (rels : Map Rel) (eng : View) (stamp loc : Nat) (bs : List Byte) (group : Nat) (op : Option Nat) : (s.store agent rels eng stamp loc bs group op).routes = s.routes := rfl
@[simp] theorem State.store_bindings (s : State) (agent : Nat) (rels : Map Rel) (eng : View) (stamp loc : Nat) (bs : List Byte) (group : Nat) (op : Option Nat) : (s.store agent rels eng stamp loc bs group op).bindings = s.bindings := rfl
@[simp] theorem State.store_bindSeen (s : State) (agent : Nat) (rels : Map Rel) (eng : View) (stamp loc : Nat) (bs : List Byte) (group : Nat) (op : Option Nat) : (s.store agent rels eng stamp loc bs group op).bindSeen = s.bindSeen := rfl
@[simp] theorem State.store_unbinds (s : State) (agent : Nat) (rels : Map Rel) (eng : View) (stamp loc : Nat) (bs : List Byte) (group : Nat) (op : Option Nat) : (s.store agent rels eng stamp loc bs group op).unbinds = s.unbinds := rfl
@[simp] theorem State.store_ats (s : State) (agent : Nat) (rels : Map Rel) (eng : View) (stamp loc : Nat) (bs : List Byte) (group : Nat) (op : Option Nat) : (s.store agent rels eng stamp loc bs group op).ats = s.ats := rfl
@[simp] theorem State.store_ucie (s : State) (agent : Nat) (rels : Map Rel) (eng : View) (stamp loc : Nat) (bs : List Byte) (group : Nat) (op : Option Nat) : (s.store agent rels eng stamp loc bs group op).ucie = s.ucie := rfl
@[simp] theorem State.store_boot (s : State) (agent : Nat) (rels : Map Rel) (eng : View) (stamp loc : Nat) (bs : List Byte) (group : Nat) (op : Option Nat) : (s.store agent rels eng stamp loc bs group op).boot = s.boot := rfl
@[simp] theorem State.store_images (s : State) (agent : Nat) (rels : Map Rel) (eng : View) (stamp loc : Nat) (bs : List Byte) (group : Nat) (op : Option Nat) : (s.store agent rels eng stamp loc bs group op).images = s.images := rfl
@[simp] theorem State.store_gated (s : State) (agent : Nat) (rels : Map Rel) (eng : View) (stamp loc : Nat) (bs : List Byte) (group : Nat) (op : Option Nat) : (s.store agent rels eng stamp loc bs group op).gated = s.gated := rfl
@[simp] theorem State.store_msix (s : State) (agent : Nat) (rels : Map Rel) (eng : View) (stamp loc : Nat) (bs : List Byte) (group : Nat) (op : Option Nat) : (s.store agent rels eng stamp loc bs group op).msix = s.msix := rfl
@[simp] theorem State.store_checks (s : State) (agent : Nat) (rels : Map Rel) (eng : View) (stamp loc : Nat) (bs : List Byte) (group : Nat) (op : Option Nat) : (s.store agent rels eng stamp loc bs group op).checks = s.checks := rfl

/-! ### State.storeBy -/

@[simp] theorem State.storeBy_clock (s : State) (core : Nat) (w : Seen) (stamp loc : Nat) (bs : List Byte) : (s.storeBy core w stamp loc bs).clock = s.clock := rfl
@[simp] theorem State.storeBy_agenda (s : State) (core : Nat) (w : Seen) (stamp loc : Nat) (bs : List Byte) : (s.storeBy core w stamp loc bs).agenda = s.agenda := rfl
@[simp] theorem State.storeBy_free (s : State) (core : Nat) (w : Seen) (stamp loc : Nat) (bs : List Byte) : (s.storeBy core w stamp loc bs).free = s.free := rfl
@[simp] theorem State.storeBy_fresh (s : State) (core : Nat) (w : Seen) (stamp loc : Nat) (bs : List Byte) : (s.storeBy core w stamp loc bs).fresh = s.fresh := rfl
@[simp] theorem State.storeBy_turn (s : State) (core : Nat) (w : Seen) (stamp loc : Nat) (bs : List Byte) : (s.storeBy core w stamp loc bs).turn = s.turn := rfl
@[simp] theorem State.storeBy_issue (s : State) (core : Nat) (w : Seen) (stamp loc : Nat) (bs : List Byte) : (s.storeBy core w stamp loc bs).issue = s.issue := rfl
@[simp] theorem State.storeBy_runs (s : State) (core : Nat) (w : Seen) (stamp loc : Nat) (bs : List Byte) : (s.storeBy core w stamp loc bs).runs = s.runs := rfl
@[simp] theorem State.storeBy_rr (s : State) (core : Nat) (w : Seen) (stamp loc : Nat) (bs : List Byte) : (s.storeBy core w stamp loc bs).rr = s.rr := rfl
@[simp] theorem State.storeBy_badSlot (s : State) (core : Nat) (w : Seen) (stamp loc : Nat) (bs : List Byte) : (s.storeBy core w stamp loc bs).badSlot = s.badSlot := rfl
@[simp] theorem State.storeBy_groups (s : State) (core : Nat) (w : Seen) (stamp loc : Nat) (bs : List Byte) : (s.storeBy core w stamp loc bs).groups = s.groups := rfl
@[simp] theorem State.storeBy_teams (s : State) (core : Nat) (w : Seen) (stamp loc : Nat) (bs : List Byte) : (s.storeBy core w stamp loc bs).teams = s.teams := rfl
@[simp] theorem State.storeBy_engines (s : State) (core : Nat) (w : Seen) (stamp loc : Nat) (bs : List Byte) : (s.storeBy core w stamp loc bs).engines = s.engines := rfl
@[simp] theorem State.storeBy_copyq (s : State) (core : Nat) (w : Seen) (stamp loc : Nat) (bs : List Byte) : (s.storeBy core w stamp loc bs).copyq = s.copyq := rfl
@[simp] theorem State.storeBy_bars (s : State) (core : Nat) (w : Seen) (stamp loc : Nat) (bs : List Byte) : (s.storeBy core w stamp loc bs).bars = s.bars := rfl
@[simp] theorem State.storeBy_contribs (s : State) (core : Nat) (w : Seen) (stamp loc : Nat) (bs : List Byte) : (s.storeBy core w stamp loc bs).contribs = s.contribs := rfl
@[simp] theorem State.storeBy_demands (s : State) (core : Nat) (w : Seen) (stamp loc : Nat) (bs : List Byte) : (s.storeBy core w stamp loc bs).demands = s.demands := rfl
@[simp] theorem State.storeBy_ctxs (s : State) (core : Nat) (w : Seen) (stamp loc : Nat) (bs : List Byte) : (s.storeBy core w stamp loc bs).ctxs = s.ctxs := rfl
@[simp] theorem State.storeBy_draws (s : State) (core : Nat) (w : Seen) (stamp loc : Nat) (bs : List Byte) : (s.storeBy core w stamp loc bs).draws = s.draws := rfl
@[simp] theorem State.storeBy_port0 (s : State) (core : Nat) (w : Seen) (stamp loc : Nat) (bs : List Byte) : (s.storeBy core w stamp loc bs).port0 = s.port0 := rfl
@[simp] theorem State.storeBy_port1 (s : State) (core : Nat) (w : Seen) (stamp loc : Nat) (bs : List Byte) : (s.storeBy core w stamp loc bs).port1 = s.port1 := rfl
@[simp] theorem State.storeBy_log0 (s : State) (core : Nat) (w : Seen) (stamp loc : Nat) (bs : List Byte) : (s.storeBy core w stamp loc bs).log0 = s.log0 := rfl
@[simp] theorem State.storeBy_log1 (s : State) (core : Nat) (w : Seen) (stamp loc : Nat) (bs : List Byte) : (s.storeBy core w stamp loc bs).log1 = s.log1 := rfl
@[simp] theorem State.storeBy_near (s : State) (core : Nat) (w : Seen) (stamp loc : Nat) (bs : List Byte) : (s.storeBy core w stamp loc bs).near = s.near := rfl
@[simp] theorem State.storeBy_links (s : State) (core : Nat) (w : Seen) (stamp loc : Nat) (bs : List Byte) : (s.storeBy core w stamp loc bs).links = s.links := rfl
@[simp] theorem State.storeBy_node (s : State) (core : Nat) (w : Seen) (stamp loc : Nat) (bs : List Byte) : (s.storeBy core w stamp loc bs).node = s.node := rfl
@[simp] theorem State.storeBy_routes (s : State) (core : Nat) (w : Seen) (stamp loc : Nat) (bs : List Byte) : (s.storeBy core w stamp loc bs).routes = s.routes := rfl
@[simp] theorem State.storeBy_bindings (s : State) (core : Nat) (w : Seen) (stamp loc : Nat) (bs : List Byte) : (s.storeBy core w stamp loc bs).bindings = s.bindings := rfl
@[simp] theorem State.storeBy_bindSeen (s : State) (core : Nat) (w : Seen) (stamp loc : Nat) (bs : List Byte) : (s.storeBy core w stamp loc bs).bindSeen = s.bindSeen := rfl
@[simp] theorem State.storeBy_unbinds (s : State) (core : Nat) (w : Seen) (stamp loc : Nat) (bs : List Byte) : (s.storeBy core w stamp loc bs).unbinds = s.unbinds := rfl
@[simp] theorem State.storeBy_ats (s : State) (core : Nat) (w : Seen) (stamp loc : Nat) (bs : List Byte) : (s.storeBy core w stamp loc bs).ats = s.ats := rfl
@[simp] theorem State.storeBy_ucie (s : State) (core : Nat) (w : Seen) (stamp loc : Nat) (bs : List Byte) : (s.storeBy core w stamp loc bs).ucie = s.ucie := rfl
@[simp] theorem State.storeBy_boot (s : State) (core : Nat) (w : Seen) (stamp loc : Nat) (bs : List Byte) : (s.storeBy core w stamp loc bs).boot = s.boot := rfl
@[simp] theorem State.storeBy_images (s : State) (core : Nat) (w : Seen) (stamp loc : Nat) (bs : List Byte) : (s.storeBy core w stamp loc bs).images = s.images := rfl
@[simp] theorem State.storeBy_gated (s : State) (core : Nat) (w : Seen) (stamp loc : Nat) (bs : List Byte) : (s.storeBy core w stamp loc bs).gated = s.gated := rfl
@[simp] theorem State.storeBy_msix (s : State) (core : Nat) (w : Seen) (stamp loc : Nat) (bs : List Byte) : (s.storeBy core w stamp loc bs).msix = s.msix := rfl
@[simp] theorem State.storeBy_checks (s : State) (core : Nat) (w : Seen) (stamp loc : Nat) (bs : List Byte) : (s.storeBy core w stamp loc bs).checks = s.checks := rfl

/-! ### State.storeAtomic -/

@[simp] theorem State.storeAtomic_clock (s : State) (core : Nat) (w : Seen) (stamp loc : Nat) (bs : List Byte) : (s.storeAtomic core w stamp loc bs).clock = s.clock := rfl
@[simp] theorem State.storeAtomic_agenda (s : State) (core : Nat) (w : Seen) (stamp loc : Nat) (bs : List Byte) : (s.storeAtomic core w stamp loc bs).agenda = s.agenda := rfl
@[simp] theorem State.storeAtomic_free (s : State) (core : Nat) (w : Seen) (stamp loc : Nat) (bs : List Byte) : (s.storeAtomic core w stamp loc bs).free = s.free := rfl
@[simp] theorem State.storeAtomic_fresh (s : State) (core : Nat) (w : Seen) (stamp loc : Nat) (bs : List Byte) : (s.storeAtomic core w stamp loc bs).fresh = s.fresh := rfl
@[simp] theorem State.storeAtomic_turn (s : State) (core : Nat) (w : Seen) (stamp loc : Nat) (bs : List Byte) : (s.storeAtomic core w stamp loc bs).turn = s.turn := rfl
@[simp] theorem State.storeAtomic_issue (s : State) (core : Nat) (w : Seen) (stamp loc : Nat) (bs : List Byte) : (s.storeAtomic core w stamp loc bs).issue = s.issue := rfl
@[simp] theorem State.storeAtomic_runs (s : State) (core : Nat) (w : Seen) (stamp loc : Nat) (bs : List Byte) : (s.storeAtomic core w stamp loc bs).runs = s.runs := rfl
@[simp] theorem State.storeAtomic_rr (s : State) (core : Nat) (w : Seen) (stamp loc : Nat) (bs : List Byte) : (s.storeAtomic core w stamp loc bs).rr = s.rr := rfl
@[simp] theorem State.storeAtomic_badSlot (s : State) (core : Nat) (w : Seen) (stamp loc : Nat) (bs : List Byte) : (s.storeAtomic core w stamp loc bs).badSlot = s.badSlot := rfl
@[simp] theorem State.storeAtomic_groups (s : State) (core : Nat) (w : Seen) (stamp loc : Nat) (bs : List Byte) : (s.storeAtomic core w stamp loc bs).groups = s.groups := rfl
@[simp] theorem State.storeAtomic_teams (s : State) (core : Nat) (w : Seen) (stamp loc : Nat) (bs : List Byte) : (s.storeAtomic core w stamp loc bs).teams = s.teams := rfl
@[simp] theorem State.storeAtomic_engines (s : State) (core : Nat) (w : Seen) (stamp loc : Nat) (bs : List Byte) : (s.storeAtomic core w stamp loc bs).engines = s.engines := rfl
@[simp] theorem State.storeAtomic_copyq (s : State) (core : Nat) (w : Seen) (stamp loc : Nat) (bs : List Byte) : (s.storeAtomic core w stamp loc bs).copyq = s.copyq := rfl
@[simp] theorem State.storeAtomic_bars (s : State) (core : Nat) (w : Seen) (stamp loc : Nat) (bs : List Byte) : (s.storeAtomic core w stamp loc bs).bars = s.bars := rfl
@[simp] theorem State.storeAtomic_contribs (s : State) (core : Nat) (w : Seen) (stamp loc : Nat) (bs : List Byte) : (s.storeAtomic core w stamp loc bs).contribs = s.contribs := rfl
@[simp] theorem State.storeAtomic_demands (s : State) (core : Nat) (w : Seen) (stamp loc : Nat) (bs : List Byte) : (s.storeAtomic core w stamp loc bs).demands = s.demands := rfl
@[simp] theorem State.storeAtomic_ctxs (s : State) (core : Nat) (w : Seen) (stamp loc : Nat) (bs : List Byte) : (s.storeAtomic core w stamp loc bs).ctxs = s.ctxs := rfl
@[simp] theorem State.storeAtomic_draws (s : State) (core : Nat) (w : Seen) (stamp loc : Nat) (bs : List Byte) : (s.storeAtomic core w stamp loc bs).draws = s.draws := rfl
@[simp] theorem State.storeAtomic_port0 (s : State) (core : Nat) (w : Seen) (stamp loc : Nat) (bs : List Byte) : (s.storeAtomic core w stamp loc bs).port0 = s.port0 := rfl
@[simp] theorem State.storeAtomic_port1 (s : State) (core : Nat) (w : Seen) (stamp loc : Nat) (bs : List Byte) : (s.storeAtomic core w stamp loc bs).port1 = s.port1 := rfl
@[simp] theorem State.storeAtomic_log0 (s : State) (core : Nat) (w : Seen) (stamp loc : Nat) (bs : List Byte) : (s.storeAtomic core w stamp loc bs).log0 = s.log0 := rfl
@[simp] theorem State.storeAtomic_log1 (s : State) (core : Nat) (w : Seen) (stamp loc : Nat) (bs : List Byte) : (s.storeAtomic core w stamp loc bs).log1 = s.log1 := rfl
@[simp] theorem State.storeAtomic_near (s : State) (core : Nat) (w : Seen) (stamp loc : Nat) (bs : List Byte) : (s.storeAtomic core w stamp loc bs).near = s.near := rfl
@[simp] theorem State.storeAtomic_links (s : State) (core : Nat) (w : Seen) (stamp loc : Nat) (bs : List Byte) : (s.storeAtomic core w stamp loc bs).links = s.links := rfl
@[simp] theorem State.storeAtomic_node (s : State) (core : Nat) (w : Seen) (stamp loc : Nat) (bs : List Byte) : (s.storeAtomic core w stamp loc bs).node = s.node := rfl
@[simp] theorem State.storeAtomic_routes (s : State) (core : Nat) (w : Seen) (stamp loc : Nat) (bs : List Byte) : (s.storeAtomic core w stamp loc bs).routes = s.routes := rfl
@[simp] theorem State.storeAtomic_bindings (s : State) (core : Nat) (w : Seen) (stamp loc : Nat) (bs : List Byte) : (s.storeAtomic core w stamp loc bs).bindings = s.bindings := rfl
@[simp] theorem State.storeAtomic_bindSeen (s : State) (core : Nat) (w : Seen) (stamp loc : Nat) (bs : List Byte) : (s.storeAtomic core w stamp loc bs).bindSeen = s.bindSeen := rfl
@[simp] theorem State.storeAtomic_unbinds (s : State) (core : Nat) (w : Seen) (stamp loc : Nat) (bs : List Byte) : (s.storeAtomic core w stamp loc bs).unbinds = s.unbinds := rfl
@[simp] theorem State.storeAtomic_ats (s : State) (core : Nat) (w : Seen) (stamp loc : Nat) (bs : List Byte) : (s.storeAtomic core w stamp loc bs).ats = s.ats := rfl
@[simp] theorem State.storeAtomic_ucie (s : State) (core : Nat) (w : Seen) (stamp loc : Nat) (bs : List Byte) : (s.storeAtomic core w stamp loc bs).ucie = s.ucie := rfl
@[simp] theorem State.storeAtomic_boot (s : State) (core : Nat) (w : Seen) (stamp loc : Nat) (bs : List Byte) : (s.storeAtomic core w stamp loc bs).boot = s.boot := rfl
@[simp] theorem State.storeAtomic_images (s : State) (core : Nat) (w : Seen) (stamp loc : Nat) (bs : List Byte) : (s.storeAtomic core w stamp loc bs).images = s.images := rfl
@[simp] theorem State.storeAtomic_gated (s : State) (core : Nat) (w : Seen) (stamp loc : Nat) (bs : List Byte) : (s.storeAtomic core w stamp loc bs).gated = s.gated := rfl
@[simp] theorem State.storeAtomic_msix (s : State) (core : Nat) (w : Seen) (stamp loc : Nat) (bs : List Byte) : (s.storeAtomic core w stamp loc bs).msix = s.msix := rfl
@[simp] theorem State.storeAtomic_checks (s : State) (core : Nat) (w : Seen) (stamp loc : Nat) (bs : List Byte) : (s.storeAtomic core w stamp loc bs).checks = s.checks := rfl

/-! ### State.raiseFlags -/

@[simp] theorem State.raiseFlags_clock (s : State) (k fl : Nat) : (s.raiseFlags k fl).clock = s.clock := rfl
@[simp] theorem State.raiseFlags_agenda (s : State) (k fl : Nat) : (s.raiseFlags k fl).agenda = s.agenda := rfl
@[simp] theorem State.raiseFlags_free (s : State) (k fl : Nat) : (s.raiseFlags k fl).free = s.free := rfl
@[simp] theorem State.raiseFlags_fresh (s : State) (k fl : Nat) : (s.raiseFlags k fl).fresh = s.fresh := rfl
@[simp] theorem State.raiseFlags_turn (s : State) (k fl : Nat) : (s.raiseFlags k fl).turn = s.turn := rfl
@[simp] theorem State.raiseFlags_issue (s : State) (k fl : Nat) : (s.raiseFlags k fl).issue = s.issue := rfl
@[simp] theorem State.raiseFlags_runs (s : State) (k fl : Nat) : (s.raiseFlags k fl).runs = s.runs := rfl
@[simp] theorem State.raiseFlags_rr (s : State) (k fl : Nat) : (s.raiseFlags k fl).rr = s.rr := rfl
@[simp] theorem State.raiseFlags_mem (s : State) (k fl : Nat) : (s.raiseFlags k fl).mem = s.mem := rfl
@[simp] theorem State.raiseFlags_keyB (s : State) (k fl : Nat) : (s.raiseFlags k fl).keyB = s.keyB := rfl
@[simp] theorem State.raiseFlags_keyL (s : State) (k fl : Nat) : (s.raiseFlags k fl).keyL = s.keyL := rfl
@[simp] theorem State.raiseFlags_poison (s : State) (k fl : Nat) : (s.raiseFlags k fl).poison = s.poison := rfl
@[simp] theorem State.raiseFlags_badSlot (s : State) (k fl : Nat) : (s.raiseFlags k fl).badSlot = s.badSlot := rfl
@[simp] theorem State.raiseFlags_badCore (s : State) (k fl : Nat) : (s.raiseFlags k fl).badCore = s.badCore := rfl
@[simp] theorem State.raiseFlags_order (s : State) (k fl : Nat) : (s.raiseFlags k fl).order = s.order := rfl
@[simp] theorem State.raiseFlags_teams (s : State) (k fl : Nat) : (s.raiseFlags k fl).teams = s.teams := rfl
@[simp] theorem State.raiseFlags_engines (s : State) (k fl : Nat) : (s.raiseFlags k fl).engines = s.engines := rfl
@[simp] theorem State.raiseFlags_copyq (s : State) (k fl : Nat) : (s.raiseFlags k fl).copyq = s.copyq := rfl
@[simp] theorem State.raiseFlags_bars (s : State) (k fl : Nat) : (s.raiseFlags k fl).bars = s.bars := rfl
@[simp] theorem State.raiseFlags_contribs (s : State) (k fl : Nat) : (s.raiseFlags k fl).contribs = s.contribs := rfl
@[simp] theorem State.raiseFlags_demands (s : State) (k fl : Nat) : (s.raiseFlags k fl).demands = s.demands := rfl
@[simp] theorem State.raiseFlags_ctxs (s : State) (k fl : Nat) : (s.raiseFlags k fl).ctxs = s.ctxs := rfl
@[simp] theorem State.raiseFlags_draws (s : State) (k fl : Nat) : (s.raiseFlags k fl).draws = s.draws := rfl
@[simp] theorem State.raiseFlags_port0 (s : State) (k fl : Nat) : (s.raiseFlags k fl).port0 = s.port0 := rfl
@[simp] theorem State.raiseFlags_port1 (s : State) (k fl : Nat) : (s.raiseFlags k fl).port1 = s.port1 := rfl
@[simp] theorem State.raiseFlags_log0 (s : State) (k fl : Nat) : (s.raiseFlags k fl).log0 = s.log0 := rfl
@[simp] theorem State.raiseFlags_log1 (s : State) (k fl : Nat) : (s.raiseFlags k fl).log1 = s.log1 := rfl
@[simp] theorem State.raiseFlags_near (s : State) (k fl : Nat) : (s.raiseFlags k fl).near = s.near := rfl
@[simp] theorem State.raiseFlags_links (s : State) (k fl : Nat) : (s.raiseFlags k fl).links = s.links := rfl
@[simp] theorem State.raiseFlags_node (s : State) (k fl : Nat) : (s.raiseFlags k fl).node = s.node := rfl
@[simp] theorem State.raiseFlags_routes (s : State) (k fl : Nat) : (s.raiseFlags k fl).routes = s.routes := rfl
@[simp] theorem State.raiseFlags_bindings (s : State) (k fl : Nat) : (s.raiseFlags k fl).bindings = s.bindings := rfl
@[simp] theorem State.raiseFlags_bindSeen (s : State) (k fl : Nat) : (s.raiseFlags k fl).bindSeen = s.bindSeen := rfl
@[simp] theorem State.raiseFlags_unbinds (s : State) (k fl : Nat) : (s.raiseFlags k fl).unbinds = s.unbinds := rfl
@[simp] theorem State.raiseFlags_ats (s : State) (k fl : Nat) : (s.raiseFlags k fl).ats = s.ats := rfl
@[simp] theorem State.raiseFlags_ucie (s : State) (k fl : Nat) : (s.raiseFlags k fl).ucie = s.ucie := rfl
@[simp] theorem State.raiseFlags_boot (s : State) (k fl : Nat) : (s.raiseFlags k fl).boot = s.boot := rfl
@[simp] theorem State.raiseFlags_images (s : State) (k fl : Nat) : (s.raiseFlags k fl).images = s.images := rfl
@[simp] theorem State.raiseFlags_gated (s : State) (k fl : Nat) : (s.raiseFlags k fl).gated = s.gated := rfl
@[simp] theorem State.raiseFlags_msix (s : State) (k fl : Nat) : (s.raiseFlags k fl).msix = s.msix := rfl
@[simp] theorem State.raiseFlags_checks (s : State) (k fl : Nat) : (s.raiseFlags k fl).checks = s.checks := rfl

/-! ### State.landNow -/

@[simp] theorem State.landNow_clock (s : State) (k : Nat) (ws : List RegWrite) : (s.landNow k ws).clock = s.clock := rfl
@[simp] theorem State.landNow_agenda (s : State) (k : Nat) (ws : List RegWrite) : (s.landNow k ws).agenda = s.agenda := rfl
@[simp] theorem State.landNow_free (s : State) (k : Nat) (ws : List RegWrite) : (s.landNow k ws).free = s.free := rfl
@[simp] theorem State.landNow_fresh (s : State) (k : Nat) (ws : List RegWrite) : (s.landNow k ws).fresh = s.fresh := rfl
@[simp] theorem State.landNow_turn (s : State) (k : Nat) (ws : List RegWrite) : (s.landNow k ws).turn = s.turn := rfl
@[simp] theorem State.landNow_issue (s : State) (k : Nat) (ws : List RegWrite) : (s.landNow k ws).issue = s.issue := rfl
@[simp] theorem State.landNow_runs (s : State) (k : Nat) (ws : List RegWrite) : (s.landNow k ws).runs = s.runs := rfl
@[simp] theorem State.landNow_rr (s : State) (k : Nat) (ws : List RegWrite) : (s.landNow k ws).rr = s.rr := rfl
@[simp] theorem State.landNow_mem (s : State) (k : Nat) (ws : List RegWrite) : (s.landNow k ws).mem = s.mem := rfl
@[simp] theorem State.landNow_keyB (s : State) (k : Nat) (ws : List RegWrite) : (s.landNow k ws).keyB = s.keyB := rfl
@[simp] theorem State.landNow_keyL (s : State) (k : Nat) (ws : List RegWrite) : (s.landNow k ws).keyL = s.keyL := rfl
@[simp] theorem State.landNow_poison (s : State) (k : Nat) (ws : List RegWrite) : (s.landNow k ws).poison = s.poison := rfl
@[simp] theorem State.landNow_badSlot (s : State) (k : Nat) (ws : List RegWrite) : (s.landNow k ws).badSlot = s.badSlot := rfl
@[simp] theorem State.landNow_badCore (s : State) (k : Nat) (ws : List RegWrite) : (s.landNow k ws).badCore = s.badCore := rfl
@[simp] theorem State.landNow_order (s : State) (k : Nat) (ws : List RegWrite) : (s.landNow k ws).order = s.order := rfl
@[simp] theorem State.landNow_teams (s : State) (k : Nat) (ws : List RegWrite) : (s.landNow k ws).teams = s.teams := rfl
@[simp] theorem State.landNow_engines (s : State) (k : Nat) (ws : List RegWrite) : (s.landNow k ws).engines = s.engines := rfl
@[simp] theorem State.landNow_copyq (s : State) (k : Nat) (ws : List RegWrite) : (s.landNow k ws).copyq = s.copyq := rfl
@[simp] theorem State.landNow_bars (s : State) (k : Nat) (ws : List RegWrite) : (s.landNow k ws).bars = s.bars := rfl
@[simp] theorem State.landNow_contribs (s : State) (k : Nat) (ws : List RegWrite) : (s.landNow k ws).contribs = s.contribs := rfl
@[simp] theorem State.landNow_demands (s : State) (k : Nat) (ws : List RegWrite) : (s.landNow k ws).demands = s.demands := rfl
@[simp] theorem State.landNow_ctxs (s : State) (k : Nat) (ws : List RegWrite) : (s.landNow k ws).ctxs = s.ctxs := rfl
@[simp] theorem State.landNow_draws (s : State) (k : Nat) (ws : List RegWrite) : (s.landNow k ws).draws = s.draws := rfl
@[simp] theorem State.landNow_port0 (s : State) (k : Nat) (ws : List RegWrite) : (s.landNow k ws).port0 = s.port0 := rfl
@[simp] theorem State.landNow_port1 (s : State) (k : Nat) (ws : List RegWrite) : (s.landNow k ws).port1 = s.port1 := rfl
@[simp] theorem State.landNow_log0 (s : State) (k : Nat) (ws : List RegWrite) : (s.landNow k ws).log0 = s.log0 := rfl
@[simp] theorem State.landNow_log1 (s : State) (k : Nat) (ws : List RegWrite) : (s.landNow k ws).log1 = s.log1 := rfl
@[simp] theorem State.landNow_near (s : State) (k : Nat) (ws : List RegWrite) : (s.landNow k ws).near = s.near := rfl
@[simp] theorem State.landNow_links (s : State) (k : Nat) (ws : List RegWrite) : (s.landNow k ws).links = s.links := rfl
@[simp] theorem State.landNow_node (s : State) (k : Nat) (ws : List RegWrite) : (s.landNow k ws).node = s.node := rfl
@[simp] theorem State.landNow_routes (s : State) (k : Nat) (ws : List RegWrite) : (s.landNow k ws).routes = s.routes := rfl
@[simp] theorem State.landNow_bindings (s : State) (k : Nat) (ws : List RegWrite) : (s.landNow k ws).bindings = s.bindings := rfl
@[simp] theorem State.landNow_bindSeen (s : State) (k : Nat) (ws : List RegWrite) : (s.landNow k ws).bindSeen = s.bindSeen := rfl
@[simp] theorem State.landNow_unbinds (s : State) (k : Nat) (ws : List RegWrite) : (s.landNow k ws).unbinds = s.unbinds := rfl
@[simp] theorem State.landNow_ats (s : State) (k : Nat) (ws : List RegWrite) : (s.landNow k ws).ats = s.ats := rfl
@[simp] theorem State.landNow_ucie (s : State) (k : Nat) (ws : List RegWrite) : (s.landNow k ws).ucie = s.ucie := rfl
@[simp] theorem State.landNow_boot (s : State) (k : Nat) (ws : List RegWrite) : (s.landNow k ws).boot = s.boot := rfl
@[simp] theorem State.landNow_images (s : State) (k : Nat) (ws : List RegWrite) : (s.landNow k ws).images = s.images := rfl
@[simp] theorem State.landNow_gated (s : State) (k : Nat) (ws : List RegWrite) : (s.landNow k ws).gated = s.gated := rfl
@[simp] theorem State.landNow_msix (s : State) (k : Nat) (ws : List RegWrite) : (s.landNow k ws).msix = s.msix := rfl
@[simp] theorem State.landNow_checks (s : State) (k : Nat) (ws : List RegWrite) : (s.landNow k ws).checks = s.checks := rfl

/-! ### State.shareView -/

@[simp] theorem State.shareView_clock (s : State) (core : Nat) (w : Seen) : (s.shareView core w).clock = s.clock := rfl
@[simp] theorem State.shareView_agenda (s : State) (core : Nat) (w : Seen) : (s.shareView core w).agenda = s.agenda := rfl
@[simp] theorem State.shareView_free (s : State) (core : Nat) (w : Seen) : (s.shareView core w).free = s.free := rfl
@[simp] theorem State.shareView_fresh (s : State) (core : Nat) (w : Seen) : (s.shareView core w).fresh = s.fresh := rfl
@[simp] theorem State.shareView_turn (s : State) (core : Nat) (w : Seen) : (s.shareView core w).turn = s.turn := rfl
@[simp] theorem State.shareView_issue (s : State) (core : Nat) (w : Seen) : (s.shareView core w).issue = s.issue := rfl
@[simp] theorem State.shareView_runs (s : State) (core : Nat) (w : Seen) : (s.shareView core w).runs = s.runs := rfl
@[simp] theorem State.shareView_rr (s : State) (core : Nat) (w : Seen) : (s.shareView core w).rr = s.rr := rfl
@[simp] theorem State.shareView_mem (s : State) (core : Nat) (w : Seen) : (s.shareView core w).mem = s.mem := rfl
@[simp] theorem State.shareView_keyB (s : State) (core : Nat) (w : Seen) : (s.shareView core w).keyB = s.keyB := rfl
@[simp] theorem State.shareView_keyL (s : State) (core : Nat) (w : Seen) : (s.shareView core w).keyL = s.keyL := rfl
@[simp] theorem State.shareView_poison (s : State) (core : Nat) (w : Seen) : (s.shareView core w).poison = s.poison := rfl
@[simp] theorem State.shareView_badSlot (s : State) (core : Nat) (w : Seen) : (s.shareView core w).badSlot = s.badSlot := rfl
@[simp] theorem State.shareView_badCore (s : State) (core : Nat) (w : Seen) : (s.shareView core w).badCore = s.badCore := rfl
@[simp] theorem State.shareView_groups (s : State) (core : Nat) (w : Seen) : (s.shareView core w).groups = s.groups := rfl
@[simp] theorem State.shareView_teams (s : State) (core : Nat) (w : Seen) : (s.shareView core w).teams = s.teams := rfl
@[simp] theorem State.shareView_engines (s : State) (core : Nat) (w : Seen) : (s.shareView core w).engines = s.engines := rfl
@[simp] theorem State.shareView_copyq (s : State) (core : Nat) (w : Seen) : (s.shareView core w).copyq = s.copyq := rfl
@[simp] theorem State.shareView_bars (s : State) (core : Nat) (w : Seen) : (s.shareView core w).bars = s.bars := rfl
@[simp] theorem State.shareView_contribs (s : State) (core : Nat) (w : Seen) : (s.shareView core w).contribs = s.contribs := rfl
@[simp] theorem State.shareView_demands (s : State) (core : Nat) (w : Seen) : (s.shareView core w).demands = s.demands := rfl
@[simp] theorem State.shareView_ctxs (s : State) (core : Nat) (w : Seen) : (s.shareView core w).ctxs = s.ctxs := rfl
@[simp] theorem State.shareView_draws (s : State) (core : Nat) (w : Seen) : (s.shareView core w).draws = s.draws := rfl
@[simp] theorem State.shareView_port0 (s : State) (core : Nat) (w : Seen) : (s.shareView core w).port0 = s.port0 := rfl
@[simp] theorem State.shareView_port1 (s : State) (core : Nat) (w : Seen) : (s.shareView core w).port1 = s.port1 := rfl
@[simp] theorem State.shareView_log0 (s : State) (core : Nat) (w : Seen) : (s.shareView core w).log0 = s.log0 := rfl
@[simp] theorem State.shareView_log1 (s : State) (core : Nat) (w : Seen) : (s.shareView core w).log1 = s.log1 := rfl
@[simp] theorem State.shareView_near (s : State) (core : Nat) (w : Seen) : (s.shareView core w).near = s.near := rfl
@[simp] theorem State.shareView_links (s : State) (core : Nat) (w : Seen) : (s.shareView core w).links = s.links := rfl
@[simp] theorem State.shareView_node (s : State) (core : Nat) (w : Seen) : (s.shareView core w).node = s.node := rfl
@[simp] theorem State.shareView_routes (s : State) (core : Nat) (w : Seen) : (s.shareView core w).routes = s.routes := rfl
@[simp] theorem State.shareView_bindings (s : State) (core : Nat) (w : Seen) : (s.shareView core w).bindings = s.bindings := rfl
@[simp] theorem State.shareView_bindSeen (s : State) (core : Nat) (w : Seen) : (s.shareView core w).bindSeen = s.bindSeen := rfl
@[simp] theorem State.shareView_unbinds (s : State) (core : Nat) (w : Seen) : (s.shareView core w).unbinds = s.unbinds := rfl
@[simp] theorem State.shareView_ats (s : State) (core : Nat) (w : Seen) : (s.shareView core w).ats = s.ats := rfl
@[simp] theorem State.shareView_ucie (s : State) (core : Nat) (w : Seen) : (s.shareView core w).ucie = s.ucie := rfl
@[simp] theorem State.shareView_boot (s : State) (core : Nat) (w : Seen) : (s.shareView core w).boot = s.boot := rfl
@[simp] theorem State.shareView_images (s : State) (core : Nat) (w : Seen) : (s.shareView core w).images = s.images := rfl
@[simp] theorem State.shareView_gated (s : State) (core : Nat) (w : Seen) : (s.shareView core w).gated = s.gated := rfl
@[simp] theorem State.shareView_msix (s : State) (core : Nat) (w : Seen) : (s.shareView core w).msix = s.msix := rfl
@[simp] theorem State.shareView_checks (s : State) (core : Nat) (w : Seen) : (s.shareView core w).checks = s.checks := rfl

/-! ### State.msi -/

@[simp] theorem State.msi_clock (s : State) (port vector : Nat) : (s.msi port vector).clock = s.clock := by
  unfold State.msi; split <;> rfl
@[simp] theorem State.msi_agenda (s : State) (port vector : Nat) : (s.msi port vector).agenda = s.agenda := by
  unfold State.msi; split <;> rfl
@[simp] theorem State.msi_free (s : State) (port vector : Nat) : (s.msi port vector).free = s.free := by
  unfold State.msi; split <;> rfl
@[simp] theorem State.msi_fresh (s : State) (port vector : Nat) : (s.msi port vector).fresh = s.fresh := by
  unfold State.msi; split <;> rfl
@[simp] theorem State.msi_turn (s : State) (port vector : Nat) : (s.msi port vector).turn = s.turn := by
  unfold State.msi; split <;> rfl
@[simp] theorem State.msi_issue (s : State) (port vector : Nat) : (s.msi port vector).issue = s.issue := by
  unfold State.msi; split <;> rfl
@[simp] theorem State.msi_runs (s : State) (port vector : Nat) : (s.msi port vector).runs = s.runs := by
  unfold State.msi; split <;> rfl
@[simp] theorem State.msi_rr (s : State) (port vector : Nat) : (s.msi port vector).rr = s.rr := by
  unfold State.msi; split <;> rfl
@[simp] theorem State.msi_mem (s : State) (port vector : Nat) : (s.msi port vector).mem = s.mem := by
  unfold State.msi; split <;> rfl
@[simp] theorem State.msi_keyB (s : State) (port vector : Nat) : (s.msi port vector).keyB = s.keyB := by
  unfold State.msi; split <;> rfl
@[simp] theorem State.msi_keyL (s : State) (port vector : Nat) : (s.msi port vector).keyL = s.keyL := by
  unfold State.msi; split <;> rfl
@[simp] theorem State.msi_poison (s : State) (port vector : Nat) : (s.msi port vector).poison = s.poison := by
  unfold State.msi; split <;> rfl
@[simp] theorem State.msi_badSlot (s : State) (port vector : Nat) : (s.msi port vector).badSlot = s.badSlot := by
  unfold State.msi; split <;> rfl
@[simp] theorem State.msi_badCore (s : State) (port vector : Nat) : (s.msi port vector).badCore = s.badCore := by
  unfold State.msi; split <;> rfl
@[simp] theorem State.msi_order (s : State) (port vector : Nat) : (s.msi port vector).order = s.order := by
  unfold State.msi; split <;> rfl
@[simp] theorem State.msi_groups (s : State) (port vector : Nat) : (s.msi port vector).groups = s.groups := by
  unfold State.msi; split <;> rfl
@[simp] theorem State.msi_teams (s : State) (port vector : Nat) : (s.msi port vector).teams = s.teams := by
  unfold State.msi; split <;> rfl
@[simp] theorem State.msi_engines (s : State) (port vector : Nat) : (s.msi port vector).engines = s.engines := by
  unfold State.msi; split <;> rfl
@[simp] theorem State.msi_copyq (s : State) (port vector : Nat) : (s.msi port vector).copyq = s.copyq := by
  unfold State.msi; split <;> rfl
@[simp] theorem State.msi_bars (s : State) (port vector : Nat) : (s.msi port vector).bars = s.bars := by
  unfold State.msi; split <;> rfl
@[simp] theorem State.msi_contribs (s : State) (port vector : Nat) : (s.msi port vector).contribs = s.contribs := by
  unfold State.msi; split <;> rfl
@[simp] theorem State.msi_demands (s : State) (port vector : Nat) : (s.msi port vector).demands = s.demands := by
  unfold State.msi; split <;> rfl
@[simp] theorem State.msi_ctxs (s : State) (port vector : Nat) : (s.msi port vector).ctxs = s.ctxs := by
  unfold State.msi; split <;> rfl
@[simp] theorem State.msi_draws (s : State) (port vector : Nat) : (s.msi port vector).draws = s.draws := by
  unfold State.msi; split <;> rfl
@[simp] theorem State.msi_port0 (s : State) (port vector : Nat) : (s.msi port vector).port0 = s.port0 := by
  unfold State.msi; split <;> rfl
@[simp] theorem State.msi_port1 (s : State) (port vector : Nat) : (s.msi port vector).port1 = s.port1 := by
  unfold State.msi; split <;> rfl
@[simp] theorem State.msi_log0 (s : State) (port vector : Nat) : (s.msi port vector).log0 = s.log0 := by
  unfold State.msi; split <;> rfl
@[simp] theorem State.msi_log1 (s : State) (port vector : Nat) : (s.msi port vector).log1 = s.log1 := by
  unfold State.msi; split <;> rfl
@[simp] theorem State.msi_near (s : State) (port vector : Nat) : (s.msi port vector).near = s.near := by
  unfold State.msi; split <;> rfl
@[simp] theorem State.msi_links (s : State) (port vector : Nat) : (s.msi port vector).links = s.links := by
  unfold State.msi; split <;> rfl
@[simp] theorem State.msi_node (s : State) (port vector : Nat) : (s.msi port vector).node = s.node := by
  unfold State.msi; split <;> rfl
@[simp] theorem State.msi_routes (s : State) (port vector : Nat) : (s.msi port vector).routes = s.routes := by
  unfold State.msi; split <;> rfl
@[simp] theorem State.msi_bindings (s : State) (port vector : Nat) : (s.msi port vector).bindings = s.bindings := by
  unfold State.msi; split <;> rfl
@[simp] theorem State.msi_bindSeen (s : State) (port vector : Nat) : (s.msi port vector).bindSeen = s.bindSeen := by
  unfold State.msi; split <;> rfl
@[simp] theorem State.msi_unbinds (s : State) (port vector : Nat) : (s.msi port vector).unbinds = s.unbinds := by
  unfold State.msi; split <;> rfl
@[simp] theorem State.msi_ats (s : State) (port vector : Nat) : (s.msi port vector).ats = s.ats := by
  unfold State.msi; split <;> rfl
@[simp] theorem State.msi_ucie (s : State) (port vector : Nat) : (s.msi port vector).ucie = s.ucie := by
  unfold State.msi; split <;> rfl
@[simp] theorem State.msi_boot (s : State) (port vector : Nat) : (s.msi port vector).boot = s.boot := by
  unfold State.msi; split <;> rfl
@[simp] theorem State.msi_images (s : State) (port vector : Nat) : (s.msi port vector).images = s.images := by
  unfold State.msi; split <;> rfl
@[simp] theorem State.msi_gated (s : State) (port vector : Nat) : (s.msi port vector).gated = s.gated := by
  unfold State.msi; split <;> rfl
@[simp] theorem State.msi_checks (s : State) (port vector : Nat) : (s.msi port vector).checks = s.checks := by
  unfold State.msi; split <;> rfl

/-! ### State.updPort -/

@[simp] theorem State.updPort_clock (s : State) (p : Nat) (f : Port → Port) : (s.updPort p f).clock = s.clock := by
  unfold State.updPort; split <;> rfl
@[simp] theorem State.updPort_agenda (s : State) (p : Nat) (f : Port → Port) : (s.updPort p f).agenda = s.agenda := by
  unfold State.updPort; split <;> rfl
@[simp] theorem State.updPort_free (s : State) (p : Nat) (f : Port → Port) : (s.updPort p f).free = s.free := by
  unfold State.updPort; split <;> rfl
@[simp] theorem State.updPort_fresh (s : State) (p : Nat) (f : Port → Port) : (s.updPort p f).fresh = s.fresh := by
  unfold State.updPort; split <;> rfl
@[simp] theorem State.updPort_turn (s : State) (p : Nat) (f : Port → Port) : (s.updPort p f).turn = s.turn := by
  unfold State.updPort; split <;> rfl
@[simp] theorem State.updPort_issue (s : State) (p : Nat) (f : Port → Port) : (s.updPort p f).issue = s.issue := by
  unfold State.updPort; split <;> rfl
@[simp] theorem State.updPort_runs (s : State) (p : Nat) (f : Port → Port) : (s.updPort p f).runs = s.runs := by
  unfold State.updPort; split <;> rfl
@[simp] theorem State.updPort_rr (s : State) (p : Nat) (f : Port → Port) : (s.updPort p f).rr = s.rr := by
  unfold State.updPort; split <;> rfl
@[simp] theorem State.updPort_mem (s : State) (p : Nat) (f : Port → Port) : (s.updPort p f).mem = s.mem := by
  unfold State.updPort; split <;> rfl
@[simp] theorem State.updPort_keyB (s : State) (p : Nat) (f : Port → Port) : (s.updPort p f).keyB = s.keyB := by
  unfold State.updPort; split <;> rfl
@[simp] theorem State.updPort_keyL (s : State) (p : Nat) (f : Port → Port) : (s.updPort p f).keyL = s.keyL := by
  unfold State.updPort; split <;> rfl
@[simp] theorem State.updPort_poison (s : State) (p : Nat) (f : Port → Port) : (s.updPort p f).poison = s.poison := by
  unfold State.updPort; split <;> rfl
@[simp] theorem State.updPort_badSlot (s : State) (p : Nat) (f : Port → Port) : (s.updPort p f).badSlot = s.badSlot := by
  unfold State.updPort; split <;> rfl
@[simp] theorem State.updPort_badCore (s : State) (p : Nat) (f : Port → Port) : (s.updPort p f).badCore = s.badCore := by
  unfold State.updPort; split <;> rfl
@[simp] theorem State.updPort_order (s : State) (p : Nat) (f : Port → Port) : (s.updPort p f).order = s.order := by
  unfold State.updPort; split <;> rfl
@[simp] theorem State.updPort_groups (s : State) (p : Nat) (f : Port → Port) : (s.updPort p f).groups = s.groups := by
  unfold State.updPort; split <;> rfl
@[simp] theorem State.updPort_teams (s : State) (p : Nat) (f : Port → Port) : (s.updPort p f).teams = s.teams := by
  unfold State.updPort; split <;> rfl
@[simp] theorem State.updPort_engines (s : State) (p : Nat) (f : Port → Port) : (s.updPort p f).engines = s.engines := by
  unfold State.updPort; split <;> rfl
@[simp] theorem State.updPort_copyq (s : State) (p : Nat) (f : Port → Port) : (s.updPort p f).copyq = s.copyq := by
  unfold State.updPort; split <;> rfl
@[simp] theorem State.updPort_bars (s : State) (p : Nat) (f : Port → Port) : (s.updPort p f).bars = s.bars := by
  unfold State.updPort; split <;> rfl
@[simp] theorem State.updPort_contribs (s : State) (p : Nat) (f : Port → Port) : (s.updPort p f).contribs = s.contribs := by
  unfold State.updPort; split <;> rfl
@[simp] theorem State.updPort_demands (s : State) (p : Nat) (f : Port → Port) : (s.updPort p f).demands = s.demands := by
  unfold State.updPort; split <;> rfl
@[simp] theorem State.updPort_ctxs (s : State) (p : Nat) (f : Port → Port) : (s.updPort p f).ctxs = s.ctxs := by
  unfold State.updPort; split <;> rfl
@[simp] theorem State.updPort_draws (s : State) (p : Nat) (f : Port → Port) : (s.updPort p f).draws = s.draws := by
  unfold State.updPort; split <;> rfl
@[simp] theorem State.updPort_log0 (s : State) (p : Nat) (f : Port → Port) : (s.updPort p f).log0 = s.log0 := by
  unfold State.updPort; split <;> rfl
@[simp] theorem State.updPort_log1 (s : State) (p : Nat) (f : Port → Port) : (s.updPort p f).log1 = s.log1 := by
  unfold State.updPort; split <;> rfl
@[simp] theorem State.updPort_near (s : State) (p : Nat) (f : Port → Port) : (s.updPort p f).near = s.near := by
  unfold State.updPort; split <;> rfl
@[simp] theorem State.updPort_links (s : State) (p : Nat) (f : Port → Port) : (s.updPort p f).links = s.links := by
  unfold State.updPort; split <;> rfl
@[simp] theorem State.updPort_node (s : State) (p : Nat) (f : Port → Port) : (s.updPort p f).node = s.node := by
  unfold State.updPort; split <;> rfl
@[simp] theorem State.updPort_routes (s : State) (p : Nat) (f : Port → Port) : (s.updPort p f).routes = s.routes := by
  unfold State.updPort; split <;> rfl
@[simp] theorem State.updPort_bindings (s : State) (p : Nat) (f : Port → Port) : (s.updPort p f).bindings = s.bindings := by
  unfold State.updPort; split <;> rfl
@[simp] theorem State.updPort_bindSeen (s : State) (p : Nat) (f : Port → Port) : (s.updPort p f).bindSeen = s.bindSeen := by
  unfold State.updPort; split <;> rfl
@[simp] theorem State.updPort_unbinds (s : State) (p : Nat) (f : Port → Port) : (s.updPort p f).unbinds = s.unbinds := by
  unfold State.updPort; split <;> rfl
@[simp] theorem State.updPort_ats (s : State) (p : Nat) (f : Port → Port) : (s.updPort p f).ats = s.ats := by
  unfold State.updPort; split <;> rfl
@[simp] theorem State.updPort_ucie (s : State) (p : Nat) (f : Port → Port) : (s.updPort p f).ucie = s.ucie := by
  unfold State.updPort; split <;> rfl
@[simp] theorem State.updPort_boot (s : State) (p : Nat) (f : Port → Port) : (s.updPort p f).boot = s.boot := by
  unfold State.updPort; split <;> rfl
@[simp] theorem State.updPort_images (s : State) (p : Nat) (f : Port → Port) : (s.updPort p f).images = s.images := by
  unfold State.updPort; split <;> rfl
@[simp] theorem State.updPort_gated (s : State) (p : Nat) (f : Port → Port) : (s.updPort p f).gated = s.gated := by
  unfold State.updPort; split <;> rfl
@[simp] theorem State.updPort_msix (s : State) (p : Nat) (f : Port → Port) : (s.updPort p f).msix = s.msix := by
  unfold State.updPort; split <;> rfl
@[simp] theorem State.updPort_checks (s : State) (p : Nat) (f : Port → Port) : (s.updPort p f).checks = s.checks := by
  unfold State.updPort; split <;> rfl

/-! ### State.setPoison -/

@[simp] theorem State.setPoison_clock (s : State) (loc n cause : Nat) : (s.setPoison loc n cause).clock = s.clock := by
  unfold State.setPoison; split <;> rfl
@[simp] theorem State.setPoison_agenda (s : State) (loc n cause : Nat) : (s.setPoison loc n cause).agenda = s.agenda := by
  unfold State.setPoison; split <;> rfl
@[simp] theorem State.setPoison_free (s : State) (loc n cause : Nat) : (s.setPoison loc n cause).free = s.free := by
  unfold State.setPoison; split <;> rfl
@[simp] theorem State.setPoison_fresh (s : State) (loc n cause : Nat) : (s.setPoison loc n cause).fresh = s.fresh := by
  unfold State.setPoison; split <;> rfl
@[simp] theorem State.setPoison_turn (s : State) (loc n cause : Nat) : (s.setPoison loc n cause).turn = s.turn := by
  unfold State.setPoison; split <;> rfl
@[simp] theorem State.setPoison_issue (s : State) (loc n cause : Nat) : (s.setPoison loc n cause).issue = s.issue := by
  unfold State.setPoison; split <;> rfl
@[simp] theorem State.setPoison_runs (s : State) (loc n cause : Nat) : (s.setPoison loc n cause).runs = s.runs := by
  unfold State.setPoison; split <;> rfl
@[simp] theorem State.setPoison_rr (s : State) (loc n cause : Nat) : (s.setPoison loc n cause).rr = s.rr := by
  unfold State.setPoison; split <;> rfl
@[simp] theorem State.setPoison_mem (s : State) (loc n cause : Nat) : (s.setPoison loc n cause).mem = s.mem := by
  unfold State.setPoison; split <;> rfl
@[simp] theorem State.setPoison_keyB (s : State) (loc n cause : Nat) : (s.setPoison loc n cause).keyB = s.keyB := by
  unfold State.setPoison; split <;> rfl
@[simp] theorem State.setPoison_keyL (s : State) (loc n cause : Nat) : (s.setPoison loc n cause).keyL = s.keyL := by
  unfold State.setPoison; split <;> rfl
@[simp] theorem State.setPoison_badSlot (s : State) (loc n cause : Nat) : (s.setPoison loc n cause).badSlot = s.badSlot := by
  unfold State.setPoison; split <;> rfl
@[simp] theorem State.setPoison_badCore (s : State) (loc n cause : Nat) : (s.setPoison loc n cause).badCore = s.badCore := by
  unfold State.setPoison; split <;> rfl
@[simp] theorem State.setPoison_order (s : State) (loc n cause : Nat) : (s.setPoison loc n cause).order = s.order := by
  unfold State.setPoison; split <;> rfl
@[simp] theorem State.setPoison_groups (s : State) (loc n cause : Nat) : (s.setPoison loc n cause).groups = s.groups := by
  unfold State.setPoison; split <;> rfl
@[simp] theorem State.setPoison_teams (s : State) (loc n cause : Nat) : (s.setPoison loc n cause).teams = s.teams := by
  unfold State.setPoison; split <;> rfl
@[simp] theorem State.setPoison_engines (s : State) (loc n cause : Nat) : (s.setPoison loc n cause).engines = s.engines := by
  unfold State.setPoison; split <;> rfl
@[simp] theorem State.setPoison_copyq (s : State) (loc n cause : Nat) : (s.setPoison loc n cause).copyq = s.copyq := by
  unfold State.setPoison; split <;> rfl
@[simp] theorem State.setPoison_bars (s : State) (loc n cause : Nat) : (s.setPoison loc n cause).bars = s.bars := by
  unfold State.setPoison; split <;> rfl
@[simp] theorem State.setPoison_contribs (s : State) (loc n cause : Nat) : (s.setPoison loc n cause).contribs = s.contribs := by
  unfold State.setPoison; split <;> rfl
@[simp] theorem State.setPoison_demands (s : State) (loc n cause : Nat) : (s.setPoison loc n cause).demands = s.demands := by
  unfold State.setPoison; split <;> rfl
@[simp] theorem State.setPoison_ctxs (s : State) (loc n cause : Nat) : (s.setPoison loc n cause).ctxs = s.ctxs := by
  unfold State.setPoison; split <;> rfl
@[simp] theorem State.setPoison_draws (s : State) (loc n cause : Nat) : (s.setPoison loc n cause).draws = s.draws := by
  unfold State.setPoison; split <;> rfl
@[simp] theorem State.setPoison_port0 (s : State) (loc n cause : Nat) : (s.setPoison loc n cause).port0 = s.port0 := by
  unfold State.setPoison; split <;> rfl
@[simp] theorem State.setPoison_port1 (s : State) (loc n cause : Nat) : (s.setPoison loc n cause).port1 = s.port1 := by
  unfold State.setPoison; split <;> rfl
@[simp] theorem State.setPoison_log0 (s : State) (loc n cause : Nat) : (s.setPoison loc n cause).log0 = s.log0 := by
  unfold State.setPoison; split <;> rfl
@[simp] theorem State.setPoison_log1 (s : State) (loc n cause : Nat) : (s.setPoison loc n cause).log1 = s.log1 := by
  unfold State.setPoison; split <;> rfl
@[simp] theorem State.setPoison_near (s : State) (loc n cause : Nat) : (s.setPoison loc n cause).near = s.near := by
  unfold State.setPoison; split <;> rfl
@[simp] theorem State.setPoison_links (s : State) (loc n cause : Nat) : (s.setPoison loc n cause).links = s.links := by
  unfold State.setPoison; split <;> rfl
@[simp] theorem State.setPoison_node (s : State) (loc n cause : Nat) : (s.setPoison loc n cause).node = s.node := by
  unfold State.setPoison; split <;> rfl
@[simp] theorem State.setPoison_routes (s : State) (loc n cause : Nat) : (s.setPoison loc n cause).routes = s.routes := by
  unfold State.setPoison; split <;> rfl
@[simp] theorem State.setPoison_bindings (s : State) (loc n cause : Nat) : (s.setPoison loc n cause).bindings = s.bindings := by
  unfold State.setPoison; split <;> rfl
@[simp] theorem State.setPoison_bindSeen (s : State) (loc n cause : Nat) : (s.setPoison loc n cause).bindSeen = s.bindSeen := by
  unfold State.setPoison; split <;> rfl
@[simp] theorem State.setPoison_unbinds (s : State) (loc n cause : Nat) : (s.setPoison loc n cause).unbinds = s.unbinds := by
  unfold State.setPoison; split <;> rfl
@[simp] theorem State.setPoison_ats (s : State) (loc n cause : Nat) : (s.setPoison loc n cause).ats = s.ats := by
  unfold State.setPoison; split <;> rfl
@[simp] theorem State.setPoison_ucie (s : State) (loc n cause : Nat) : (s.setPoison loc n cause).ucie = s.ucie := by
  unfold State.setPoison; split <;> rfl
@[simp] theorem State.setPoison_boot (s : State) (loc n cause : Nat) : (s.setPoison loc n cause).boot = s.boot := by
  unfold State.setPoison; split <;> rfl
@[simp] theorem State.setPoison_images (s : State) (loc n cause : Nat) : (s.setPoison loc n cause).images = s.images := by
  unfold State.setPoison; split <;> rfl
@[simp] theorem State.setPoison_gated (s : State) (loc n cause : Nat) : (s.setPoison loc n cause).gated = s.gated := by
  unfold State.setPoison; split <;> rfl
@[simp] theorem State.setPoison_msix (s : State) (loc n cause : Nat) : (s.setPoison loc n cause).msix = s.msix := by
  unfold State.setPoison; split <;> rfl
@[simp] theorem State.setPoison_checks (s : State) (loc n cause : Nat) : (s.setPoison loc n cause).checks = s.checks := by
  unfold State.setPoison; split <;> rfl

/-! ### State.touchC -/

@[simp] theorem State.touchC_clock (s : State) (team off n : Nat) : (s.touchC team off n).clock = s.clock := by
  unfold State.touchC; split <;> rfl
@[simp] theorem State.touchC_agenda (s : State) (team off n : Nat) : (s.touchC team off n).agenda = s.agenda := by
  unfold State.touchC; split <;> rfl
@[simp] theorem State.touchC_free (s : State) (team off n : Nat) : (s.touchC team off n).free = s.free := by
  unfold State.touchC; split <;> rfl
@[simp] theorem State.touchC_fresh (s : State) (team off n : Nat) : (s.touchC team off n).fresh = s.fresh := by
  unfold State.touchC; split <;> rfl
@[simp] theorem State.touchC_turn (s : State) (team off n : Nat) : (s.touchC team off n).turn = s.turn := by
  unfold State.touchC; split <;> rfl
@[simp] theorem State.touchC_issue (s : State) (team off n : Nat) : (s.touchC team off n).issue = s.issue := by
  unfold State.touchC; split <;> rfl
@[simp] theorem State.touchC_runs (s : State) (team off n : Nat) : (s.touchC team off n).runs = s.runs := by
  unfold State.touchC; split <;> rfl
@[simp] theorem State.touchC_rr (s : State) (team off n : Nat) : (s.touchC team off n).rr = s.rr := by
  unfold State.touchC; split <;> rfl
@[simp] theorem State.touchC_mem (s : State) (team off n : Nat) : (s.touchC team off n).mem = s.mem := by
  unfold State.touchC; split <;> rfl
@[simp] theorem State.touchC_keyB (s : State) (team off n : Nat) : (s.touchC team off n).keyB = s.keyB := by
  unfold State.touchC; split <;> rfl
@[simp] theorem State.touchC_keyL (s : State) (team off n : Nat) : (s.touchC team off n).keyL = s.keyL := by
  unfold State.touchC; split <;> rfl
@[simp] theorem State.touchC_poison (s : State) (team off n : Nat) : (s.touchC team off n).poison = s.poison := by
  unfold State.touchC; split <;> rfl
@[simp] theorem State.touchC_badSlot (s : State) (team off n : Nat) : (s.touchC team off n).badSlot = s.badSlot := by
  unfold State.touchC; split <;> rfl
@[simp] theorem State.touchC_badCore (s : State) (team off n : Nat) : (s.touchC team off n).badCore = s.badCore := by
  unfold State.touchC; split <;> rfl
@[simp] theorem State.touchC_order (s : State) (team off n : Nat) : (s.touchC team off n).order = s.order := by
  unfold State.touchC; split <;> rfl
@[simp] theorem State.touchC_groups (s : State) (team off n : Nat) : (s.touchC team off n).groups = s.groups := by
  unfold State.touchC; split <;> rfl
@[simp] theorem State.touchC_engines (s : State) (team off n : Nat) : (s.touchC team off n).engines = s.engines := by
  unfold State.touchC; split <;> rfl
@[simp] theorem State.touchC_copyq (s : State) (team off n : Nat) : (s.touchC team off n).copyq = s.copyq := by
  unfold State.touchC; split <;> rfl
@[simp] theorem State.touchC_bars (s : State) (team off n : Nat) : (s.touchC team off n).bars = s.bars := by
  unfold State.touchC; split <;> rfl
@[simp] theorem State.touchC_contribs (s : State) (team off n : Nat) : (s.touchC team off n).contribs = s.contribs := by
  unfold State.touchC; split <;> rfl
@[simp] theorem State.touchC_demands (s : State) (team off n : Nat) : (s.touchC team off n).demands = s.demands := by
  unfold State.touchC; split <;> rfl
@[simp] theorem State.touchC_ctxs (s : State) (team off n : Nat) : (s.touchC team off n).ctxs = s.ctxs := by
  unfold State.touchC; split <;> rfl
@[simp] theorem State.touchC_draws (s : State) (team off n : Nat) : (s.touchC team off n).draws = s.draws := by
  unfold State.touchC; split <;> rfl
@[simp] theorem State.touchC_port0 (s : State) (team off n : Nat) : (s.touchC team off n).port0 = s.port0 := by
  unfold State.touchC; split <;> rfl
@[simp] theorem State.touchC_port1 (s : State) (team off n : Nat) : (s.touchC team off n).port1 = s.port1 := by
  unfold State.touchC; split <;> rfl
@[simp] theorem State.touchC_log0 (s : State) (team off n : Nat) : (s.touchC team off n).log0 = s.log0 := by
  unfold State.touchC; split <;> rfl
@[simp] theorem State.touchC_log1 (s : State) (team off n : Nat) : (s.touchC team off n).log1 = s.log1 := by
  unfold State.touchC; split <;> rfl
@[simp] theorem State.touchC_near (s : State) (team off n : Nat) : (s.touchC team off n).near = s.near := by
  unfold State.touchC; split <;> rfl
@[simp] theorem State.touchC_links (s : State) (team off n : Nat) : (s.touchC team off n).links = s.links := by
  unfold State.touchC; split <;> rfl
@[simp] theorem State.touchC_node (s : State) (team off n : Nat) : (s.touchC team off n).node = s.node := by
  unfold State.touchC; split <;> rfl
@[simp] theorem State.touchC_routes (s : State) (team off n : Nat) : (s.touchC team off n).routes = s.routes := by
  unfold State.touchC; split <;> rfl
@[simp] theorem State.touchC_bindings (s : State) (team off n : Nat) : (s.touchC team off n).bindings = s.bindings := by
  unfold State.touchC; split <;> rfl
@[simp] theorem State.touchC_bindSeen (s : State) (team off n : Nat) : (s.touchC team off n).bindSeen = s.bindSeen := by
  unfold State.touchC; split <;> rfl
@[simp] theorem State.touchC_unbinds (s : State) (team off n : Nat) : (s.touchC team off n).unbinds = s.unbinds := by
  unfold State.touchC; split <;> rfl
@[simp] theorem State.touchC_ats (s : State) (team off n : Nat) : (s.touchC team off n).ats = s.ats := by
  unfold State.touchC; split <;> rfl
@[simp] theorem State.touchC_ucie (s : State) (team off n : Nat) : (s.touchC team off n).ucie = s.ucie := by
  unfold State.touchC; split <;> rfl
@[simp] theorem State.touchC_boot (s : State) (team off n : Nat) : (s.touchC team off n).boot = s.boot := by
  unfold State.touchC; split <;> rfl
@[simp] theorem State.touchC_images (s : State) (team off n : Nat) : (s.touchC team off n).images = s.images := by
  unfold State.touchC; split <;> rfl
@[simp] theorem State.touchC_gated (s : State) (team off n : Nat) : (s.touchC team off n).gated = s.gated := by
  unfold State.touchC; split <;> rfl
@[simp] theorem State.touchC_msix (s : State) (team off n : Nat) : (s.touchC team off n).msix = s.msix := by
  unfold State.touchC; split <;> rfl
@[simp] theorem State.touchC_checks (s : State) (team off n : Nat) : (s.touchC team off n).checks = s.checks := by
  unfold State.touchC; split <;> rfl

/-! ### State.atomicPub -/

@[simp] theorem State.atomicPub_clock (s : State) (k : Nat) (pub : Bool) (scope : Nat) : (s.atomicPub k pub scope).clock = s.clock := by
  unfold State.atomicPub; split <;> rfl
@[simp] theorem State.atomicPub_agenda (s : State) (k : Nat) (pub : Bool) (scope : Nat) : (s.atomicPub k pub scope).agenda = s.agenda := by
  unfold State.atomicPub; split <;> rfl
@[simp] theorem State.atomicPub_free (s : State) (k : Nat) (pub : Bool) (scope : Nat) : (s.atomicPub k pub scope).free = s.free := by
  unfold State.atomicPub; split <;> rfl
@[simp] theorem State.atomicPub_fresh (s : State) (k : Nat) (pub : Bool) (scope : Nat) : (s.atomicPub k pub scope).fresh = s.fresh := by
  unfold State.atomicPub; split <;> rfl
@[simp] theorem State.atomicPub_turn (s : State) (k : Nat) (pub : Bool) (scope : Nat) : (s.atomicPub k pub scope).turn = s.turn := by
  unfold State.atomicPub; split <;> rfl
@[simp] theorem State.atomicPub_issue (s : State) (k : Nat) (pub : Bool) (scope : Nat) : (s.atomicPub k pub scope).issue = s.issue := by
  unfold State.atomicPub; split <;> rfl
@[simp] theorem State.atomicPub_runs (s : State) (k : Nat) (pub : Bool) (scope : Nat) : (s.atomicPub k pub scope).runs = s.runs := by
  unfold State.atomicPub; split <;> rfl
@[simp] theorem State.atomicPub_rr (s : State) (k : Nat) (pub : Bool) (scope : Nat) : (s.atomicPub k pub scope).rr = s.rr := by
  unfold State.atomicPub; split <;> rfl
@[simp] theorem State.atomicPub_mem (s : State) (k : Nat) (pub : Bool) (scope : Nat) : (s.atomicPub k pub scope).mem = s.mem := by
  unfold State.atomicPub; split <;> rfl
@[simp] theorem State.atomicPub_keyB (s : State) (k : Nat) (pub : Bool) (scope : Nat) : (s.atomicPub k pub scope).keyB = s.keyB := by
  unfold State.atomicPub; split <;> rfl
@[simp] theorem State.atomicPub_keyL (s : State) (k : Nat) (pub : Bool) (scope : Nat) : (s.atomicPub k pub scope).keyL = s.keyL := by
  unfold State.atomicPub; split <;> rfl
@[simp] theorem State.atomicPub_poison (s : State) (k : Nat) (pub : Bool) (scope : Nat) : (s.atomicPub k pub scope).poison = s.poison := by
  unfold State.atomicPub; split <;> rfl
@[simp] theorem State.atomicPub_badSlot (s : State) (k : Nat) (pub : Bool) (scope : Nat) : (s.atomicPub k pub scope).badSlot = s.badSlot := by
  unfold State.atomicPub; split <;> rfl
@[simp] theorem State.atomicPub_badCore (s : State) (k : Nat) (pub : Bool) (scope : Nat) : (s.atomicPub k pub scope).badCore = s.badCore := by
  unfold State.atomicPub; split <;> rfl
@[simp] theorem State.atomicPub_order (s : State) (k : Nat) (pub : Bool) (scope : Nat) : (s.atomicPub k pub scope).order = s.order := by
  unfold State.atomicPub; split <;> rfl
@[simp] theorem State.atomicPub_teams (s : State) (k : Nat) (pub : Bool) (scope : Nat) : (s.atomicPub k pub scope).teams = s.teams := by
  unfold State.atomicPub; split <;> rfl
@[simp] theorem State.atomicPub_engines (s : State) (k : Nat) (pub : Bool) (scope : Nat) : (s.atomicPub k pub scope).engines = s.engines := by
  unfold State.atomicPub; split <;> rfl
@[simp] theorem State.atomicPub_copyq (s : State) (k : Nat) (pub : Bool) (scope : Nat) : (s.atomicPub k pub scope).copyq = s.copyq := by
  unfold State.atomicPub; split <;> rfl
@[simp] theorem State.atomicPub_bars (s : State) (k : Nat) (pub : Bool) (scope : Nat) : (s.atomicPub k pub scope).bars = s.bars := by
  unfold State.atomicPub; split <;> rfl
@[simp] theorem State.atomicPub_contribs (s : State) (k : Nat) (pub : Bool) (scope : Nat) : (s.atomicPub k pub scope).contribs = s.contribs := by
  unfold State.atomicPub; split <;> rfl
@[simp] theorem State.atomicPub_demands (s : State) (k : Nat) (pub : Bool) (scope : Nat) : (s.atomicPub k pub scope).demands = s.demands := by
  unfold State.atomicPub; split <;> rfl
@[simp] theorem State.atomicPub_ctxs (s : State) (k : Nat) (pub : Bool) (scope : Nat) : (s.atomicPub k pub scope).ctxs = s.ctxs := by
  unfold State.atomicPub; split <;> rfl
@[simp] theorem State.atomicPub_draws (s : State) (k : Nat) (pub : Bool) (scope : Nat) : (s.atomicPub k pub scope).draws = s.draws := by
  unfold State.atomicPub; split <;> rfl
@[simp] theorem State.atomicPub_port0 (s : State) (k : Nat) (pub : Bool) (scope : Nat) : (s.atomicPub k pub scope).port0 = s.port0 := by
  unfold State.atomicPub; split <;> rfl
@[simp] theorem State.atomicPub_port1 (s : State) (k : Nat) (pub : Bool) (scope : Nat) : (s.atomicPub k pub scope).port1 = s.port1 := by
  unfold State.atomicPub; split <;> rfl
@[simp] theorem State.atomicPub_log0 (s : State) (k : Nat) (pub : Bool) (scope : Nat) : (s.atomicPub k pub scope).log0 = s.log0 := by
  unfold State.atomicPub; split <;> rfl
@[simp] theorem State.atomicPub_log1 (s : State) (k : Nat) (pub : Bool) (scope : Nat) : (s.atomicPub k pub scope).log1 = s.log1 := by
  unfold State.atomicPub; split <;> rfl
@[simp] theorem State.atomicPub_near (s : State) (k : Nat) (pub : Bool) (scope : Nat) : (s.atomicPub k pub scope).near = s.near := by
  unfold State.atomicPub; split <;> rfl
@[simp] theorem State.atomicPub_links (s : State) (k : Nat) (pub : Bool) (scope : Nat) : (s.atomicPub k pub scope).links = s.links := by
  unfold State.atomicPub; split <;> rfl
@[simp] theorem State.atomicPub_node (s : State) (k : Nat) (pub : Bool) (scope : Nat) : (s.atomicPub k pub scope).node = s.node := by
  unfold State.atomicPub; split <;> rfl
@[simp] theorem State.atomicPub_routes (s : State) (k : Nat) (pub : Bool) (scope : Nat) : (s.atomicPub k pub scope).routes = s.routes := by
  unfold State.atomicPub; split <;> rfl
@[simp] theorem State.atomicPub_bindings (s : State) (k : Nat) (pub : Bool) (scope : Nat) : (s.atomicPub k pub scope).bindings = s.bindings := by
  unfold State.atomicPub; split <;> rfl
@[simp] theorem State.atomicPub_bindSeen (s : State) (k : Nat) (pub : Bool) (scope : Nat) : (s.atomicPub k pub scope).bindSeen = s.bindSeen := by
  unfold State.atomicPub; split <;> rfl
@[simp] theorem State.atomicPub_unbinds (s : State) (k : Nat) (pub : Bool) (scope : Nat) : (s.atomicPub k pub scope).unbinds = s.unbinds := by
  unfold State.atomicPub; split <;> rfl
@[simp] theorem State.atomicPub_ats (s : State) (k : Nat) (pub : Bool) (scope : Nat) : (s.atomicPub k pub scope).ats = s.ats := by
  unfold State.atomicPub; split <;> rfl
@[simp] theorem State.atomicPub_ucie (s : State) (k : Nat) (pub : Bool) (scope : Nat) : (s.atomicPub k pub scope).ucie = s.ucie := by
  unfold State.atomicPub; split <;> rfl
@[simp] theorem State.atomicPub_boot (s : State) (k : Nat) (pub : Bool) (scope : Nat) : (s.atomicPub k pub scope).boot = s.boot := by
  unfold State.atomicPub; split <;> rfl
@[simp] theorem State.atomicPub_images (s : State) (k : Nat) (pub : Bool) (scope : Nat) : (s.atomicPub k pub scope).images = s.images := by
  unfold State.atomicPub; split <;> rfl
@[simp] theorem State.atomicPub_gated (s : State) (k : Nat) (pub : Bool) (scope : Nat) : (s.atomicPub k pub scope).gated = s.gated := by
  unfold State.atomicPub; split <;> rfl
@[simp] theorem State.atomicPub_msix (s : State) (k : Nat) (pub : Bool) (scope : Nat) : (s.atomicPub k pub scope).msix = s.msix := by
  unfold State.atomicPub; split <;> rfl
@[simp] theorem State.atomicPub_checks (s : State) (k : Nat) (pub : Bool) (scope : Nat) : (s.atomicPub k pub scope).checks = s.checks := by
  unfold State.atomicPub; split <;> rfl

/-! ### State.atomicRef -/

@[simp] theorem State.atomicRef_clock (s : State) (k : Nat) (ref : Bool) (scope : Nat) : (s.atomicRef k ref scope).clock = s.clock := by
  unfold State.atomicRef; split <;> rfl
@[simp] theorem State.atomicRef_agenda (s : State) (k : Nat) (ref : Bool) (scope : Nat) : (s.atomicRef k ref scope).agenda = s.agenda := by
  unfold State.atomicRef; split <;> rfl
@[simp] theorem State.atomicRef_free (s : State) (k : Nat) (ref : Bool) (scope : Nat) : (s.atomicRef k ref scope).free = s.free := by
  unfold State.atomicRef; split <;> rfl
@[simp] theorem State.atomicRef_fresh (s : State) (k : Nat) (ref : Bool) (scope : Nat) : (s.atomicRef k ref scope).fresh = s.fresh := by
  unfold State.atomicRef; split <;> rfl
@[simp] theorem State.atomicRef_turn (s : State) (k : Nat) (ref : Bool) (scope : Nat) : (s.atomicRef k ref scope).turn = s.turn := by
  unfold State.atomicRef; split <;> rfl
@[simp] theorem State.atomicRef_issue (s : State) (k : Nat) (ref : Bool) (scope : Nat) : (s.atomicRef k ref scope).issue = s.issue := by
  unfold State.atomicRef; split <;> rfl
@[simp] theorem State.atomicRef_runs (s : State) (k : Nat) (ref : Bool) (scope : Nat) : (s.atomicRef k ref scope).runs = s.runs := by
  unfold State.atomicRef; split <;> rfl
@[simp] theorem State.atomicRef_rr (s : State) (k : Nat) (ref : Bool) (scope : Nat) : (s.atomicRef k ref scope).rr = s.rr := by
  unfold State.atomicRef; split <;> rfl
@[simp] theorem State.atomicRef_mem (s : State) (k : Nat) (ref : Bool) (scope : Nat) : (s.atomicRef k ref scope).mem = s.mem := by
  unfold State.atomicRef; split <;> rfl
@[simp] theorem State.atomicRef_keyB (s : State) (k : Nat) (ref : Bool) (scope : Nat) : (s.atomicRef k ref scope).keyB = s.keyB := by
  unfold State.atomicRef; split <;> rfl
@[simp] theorem State.atomicRef_keyL (s : State) (k : Nat) (ref : Bool) (scope : Nat) : (s.atomicRef k ref scope).keyL = s.keyL := by
  unfold State.atomicRef; split <;> rfl
@[simp] theorem State.atomicRef_poison (s : State) (k : Nat) (ref : Bool) (scope : Nat) : (s.atomicRef k ref scope).poison = s.poison := by
  unfold State.atomicRef; split <;> rfl
@[simp] theorem State.atomicRef_badSlot (s : State) (k : Nat) (ref : Bool) (scope : Nat) : (s.atomicRef k ref scope).badSlot = s.badSlot := by
  unfold State.atomicRef; split <;> rfl
@[simp] theorem State.atomicRef_badCore (s : State) (k : Nat) (ref : Bool) (scope : Nat) : (s.atomicRef k ref scope).badCore = s.badCore := by
  unfold State.atomicRef; split <;> rfl
@[simp] theorem State.atomicRef_order (s : State) (k : Nat) (ref : Bool) (scope : Nat) : (s.atomicRef k ref scope).order = s.order := by
  unfold State.atomicRef; split <;> rfl
@[simp] theorem State.atomicRef_teams (s : State) (k : Nat) (ref : Bool) (scope : Nat) : (s.atomicRef k ref scope).teams = s.teams := by
  unfold State.atomicRef; split <;> rfl
@[simp] theorem State.atomicRef_engines (s : State) (k : Nat) (ref : Bool) (scope : Nat) : (s.atomicRef k ref scope).engines = s.engines := by
  unfold State.atomicRef; split <;> rfl
@[simp] theorem State.atomicRef_copyq (s : State) (k : Nat) (ref : Bool) (scope : Nat) : (s.atomicRef k ref scope).copyq = s.copyq := by
  unfold State.atomicRef; split <;> rfl
@[simp] theorem State.atomicRef_bars (s : State) (k : Nat) (ref : Bool) (scope : Nat) : (s.atomicRef k ref scope).bars = s.bars := by
  unfold State.atomicRef; split <;> rfl
@[simp] theorem State.atomicRef_contribs (s : State) (k : Nat) (ref : Bool) (scope : Nat) : (s.atomicRef k ref scope).contribs = s.contribs := by
  unfold State.atomicRef; split <;> rfl
@[simp] theorem State.atomicRef_demands (s : State) (k : Nat) (ref : Bool) (scope : Nat) : (s.atomicRef k ref scope).demands = s.demands := by
  unfold State.atomicRef; split <;> rfl
@[simp] theorem State.atomicRef_ctxs (s : State) (k : Nat) (ref : Bool) (scope : Nat) : (s.atomicRef k ref scope).ctxs = s.ctxs := by
  unfold State.atomicRef; split <;> rfl
@[simp] theorem State.atomicRef_draws (s : State) (k : Nat) (ref : Bool) (scope : Nat) : (s.atomicRef k ref scope).draws = s.draws := by
  unfold State.atomicRef; split <;> rfl
@[simp] theorem State.atomicRef_port0 (s : State) (k : Nat) (ref : Bool) (scope : Nat) : (s.atomicRef k ref scope).port0 = s.port0 := by
  unfold State.atomicRef; split <;> rfl
@[simp] theorem State.atomicRef_port1 (s : State) (k : Nat) (ref : Bool) (scope : Nat) : (s.atomicRef k ref scope).port1 = s.port1 := by
  unfold State.atomicRef; split <;> rfl
@[simp] theorem State.atomicRef_log0 (s : State) (k : Nat) (ref : Bool) (scope : Nat) : (s.atomicRef k ref scope).log0 = s.log0 := by
  unfold State.atomicRef; split <;> rfl
@[simp] theorem State.atomicRef_log1 (s : State) (k : Nat) (ref : Bool) (scope : Nat) : (s.atomicRef k ref scope).log1 = s.log1 := by
  unfold State.atomicRef; split <;> rfl
@[simp] theorem State.atomicRef_near (s : State) (k : Nat) (ref : Bool) (scope : Nat) : (s.atomicRef k ref scope).near = s.near := by
  unfold State.atomicRef; split <;> rfl
@[simp] theorem State.atomicRef_links (s : State) (k : Nat) (ref : Bool) (scope : Nat) : (s.atomicRef k ref scope).links = s.links := by
  unfold State.atomicRef; split <;> rfl
@[simp] theorem State.atomicRef_node (s : State) (k : Nat) (ref : Bool) (scope : Nat) : (s.atomicRef k ref scope).node = s.node := by
  unfold State.atomicRef; split <;> rfl
@[simp] theorem State.atomicRef_routes (s : State) (k : Nat) (ref : Bool) (scope : Nat) : (s.atomicRef k ref scope).routes = s.routes := by
  unfold State.atomicRef; split <;> rfl
@[simp] theorem State.atomicRef_bindings (s : State) (k : Nat) (ref : Bool) (scope : Nat) : (s.atomicRef k ref scope).bindings = s.bindings := by
  unfold State.atomicRef; split <;> rfl
@[simp] theorem State.atomicRef_bindSeen (s : State) (k : Nat) (ref : Bool) (scope : Nat) : (s.atomicRef k ref scope).bindSeen = s.bindSeen := by
  unfold State.atomicRef; split <;> rfl
@[simp] theorem State.atomicRef_unbinds (s : State) (k : Nat) (ref : Bool) (scope : Nat) : (s.atomicRef k ref scope).unbinds = s.unbinds := by
  unfold State.atomicRef; split <;> rfl
@[simp] theorem State.atomicRef_ats (s : State) (k : Nat) (ref : Bool) (scope : Nat) : (s.atomicRef k ref scope).ats = s.ats := by
  unfold State.atomicRef; split <;> rfl
@[simp] theorem State.atomicRef_ucie (s : State) (k : Nat) (ref : Bool) (scope : Nat) : (s.atomicRef k ref scope).ucie = s.ucie := by
  unfold State.atomicRef; split <;> rfl
@[simp] theorem State.atomicRef_boot (s : State) (k : Nat) (ref : Bool) (scope : Nat) : (s.atomicRef k ref scope).boot = s.boot := by
  unfold State.atomicRef; split <;> rfl
@[simp] theorem State.atomicRef_images (s : State) (k : Nat) (ref : Bool) (scope : Nat) : (s.atomicRef k ref scope).images = s.images := by
  unfold State.atomicRef; split <;> rfl
@[simp] theorem State.atomicRef_gated (s : State) (k : Nat) (ref : Bool) (scope : Nat) : (s.atomicRef k ref scope).gated = s.gated := by
  unfold State.atomicRef; split <;> rfl
@[simp] theorem State.atomicRef_msix (s : State) (k : Nat) (ref : Bool) (scope : Nat) : (s.atomicRef k ref scope).msix = s.msix := by
  unfold State.atomicRef; split <;> rfl
@[simp] theorem State.atomicRef_checks (s : State) (k : Nat) (ref : Bool) (scope : Nat) : (s.atomicRef k ref scope).checks = s.checks := by
  unfold State.atomicRef; split <;> rfl

/-! ### State.outstanding -/

@[simp] theorem State.outstanding_clock (s : State) (k min : Nat) (ready : Bool) (ws : List RegWrite) : (s.outstanding k min ready ws).clock = s.clock := by
  unfold State.outstanding; split <;> rfl
@[simp] theorem State.outstanding_agenda (s : State) (k min : Nat) (ready : Bool) (ws : List RegWrite) : (s.outstanding k min ready ws).agenda = s.agenda := by
  unfold State.outstanding; split <;> rfl
@[simp] theorem State.outstanding_free (s : State) (k min : Nat) (ready : Bool) (ws : List RegWrite) : (s.outstanding k min ready ws).free = s.free := by
  unfold State.outstanding; split <;> rfl
@[simp] theorem State.outstanding_fresh (s : State) (k min : Nat) (ready : Bool) (ws : List RegWrite) : (s.outstanding k min ready ws).fresh = s.fresh := by
  unfold State.outstanding; split <;> rfl
@[simp] theorem State.outstanding_turn (s : State) (k min : Nat) (ready : Bool) (ws : List RegWrite) : (s.outstanding k min ready ws).turn = s.turn := by
  unfold State.outstanding; split <;> rfl
@[simp] theorem State.outstanding_issue (s : State) (k min : Nat) (ready : Bool) (ws : List RegWrite) : (s.outstanding k min ready ws).issue = s.issue := by
  unfold State.outstanding; split <;> rfl
@[simp] theorem State.outstanding_runs (s : State) (k min : Nat) (ready : Bool) (ws : List RegWrite) : (s.outstanding k min ready ws).runs = s.runs := by
  unfold State.outstanding; split <;> rfl
@[simp] theorem State.outstanding_rr (s : State) (k min : Nat) (ready : Bool) (ws : List RegWrite) : (s.outstanding k min ready ws).rr = s.rr := by
  unfold State.outstanding; split <;> rfl
@[simp] theorem State.outstanding_mem (s : State) (k min : Nat) (ready : Bool) (ws : List RegWrite) : (s.outstanding k min ready ws).mem = s.mem := by
  unfold State.outstanding; split <;> rfl
@[simp] theorem State.outstanding_keyB (s : State) (k min : Nat) (ready : Bool) (ws : List RegWrite) : (s.outstanding k min ready ws).keyB = s.keyB := by
  unfold State.outstanding; split <;> rfl
@[simp] theorem State.outstanding_keyL (s : State) (k min : Nat) (ready : Bool) (ws : List RegWrite) : (s.outstanding k min ready ws).keyL = s.keyL := by
  unfold State.outstanding; split <;> rfl
@[simp] theorem State.outstanding_poison (s : State) (k min : Nat) (ready : Bool) (ws : List RegWrite) : (s.outstanding k min ready ws).poison = s.poison := by
  unfold State.outstanding; split <;> rfl
@[simp] theorem State.outstanding_badSlot (s : State) (k min : Nat) (ready : Bool) (ws : List RegWrite) : (s.outstanding k min ready ws).badSlot = s.badSlot := by
  unfold State.outstanding; split <;> rfl
@[simp] theorem State.outstanding_badCore (s : State) (k min : Nat) (ready : Bool) (ws : List RegWrite) : (s.outstanding k min ready ws).badCore = s.badCore := by
  unfold State.outstanding; split <;> rfl
@[simp] theorem State.outstanding_order (s : State) (k min : Nat) (ready : Bool) (ws : List RegWrite) : (s.outstanding k min ready ws).order = s.order := by
  unfold State.outstanding; split <;> rfl
@[simp] theorem State.outstanding_teams (s : State) (k min : Nat) (ready : Bool) (ws : List RegWrite) : (s.outstanding k min ready ws).teams = s.teams := by
  unfold State.outstanding; split <;> rfl
@[simp] theorem State.outstanding_engines (s : State) (k min : Nat) (ready : Bool) (ws : List RegWrite) : (s.outstanding k min ready ws).engines = s.engines := by
  unfold State.outstanding; split <;> rfl
@[simp] theorem State.outstanding_copyq (s : State) (k min : Nat) (ready : Bool) (ws : List RegWrite) : (s.outstanding k min ready ws).copyq = s.copyq := by
  unfold State.outstanding; split <;> rfl
@[simp] theorem State.outstanding_bars (s : State) (k min : Nat) (ready : Bool) (ws : List RegWrite) : (s.outstanding k min ready ws).bars = s.bars := by
  unfold State.outstanding; split <;> rfl
@[simp] theorem State.outstanding_contribs (s : State) (k min : Nat) (ready : Bool) (ws : List RegWrite) : (s.outstanding k min ready ws).contribs = s.contribs := by
  unfold State.outstanding; split <;> rfl
@[simp] theorem State.outstanding_demands (s : State) (k min : Nat) (ready : Bool) (ws : List RegWrite) : (s.outstanding k min ready ws).demands = s.demands := by
  unfold State.outstanding; split <;> rfl
@[simp] theorem State.outstanding_ctxs (s : State) (k min : Nat) (ready : Bool) (ws : List RegWrite) : (s.outstanding k min ready ws).ctxs = s.ctxs := by
  unfold State.outstanding; split <;> rfl
@[simp] theorem State.outstanding_draws (s : State) (k min : Nat) (ready : Bool) (ws : List RegWrite) : (s.outstanding k min ready ws).draws = s.draws := by
  unfold State.outstanding; split <;> rfl
@[simp] theorem State.outstanding_port0 (s : State) (k min : Nat) (ready : Bool) (ws : List RegWrite) : (s.outstanding k min ready ws).port0 = s.port0 := by
  unfold State.outstanding; split <;> rfl
@[simp] theorem State.outstanding_port1 (s : State) (k min : Nat) (ready : Bool) (ws : List RegWrite) : (s.outstanding k min ready ws).port1 = s.port1 := by
  unfold State.outstanding; split <;> rfl
@[simp] theorem State.outstanding_log0 (s : State) (k min : Nat) (ready : Bool) (ws : List RegWrite) : (s.outstanding k min ready ws).log0 = s.log0 := by
  unfold State.outstanding; split <;> rfl
@[simp] theorem State.outstanding_log1 (s : State) (k min : Nat) (ready : Bool) (ws : List RegWrite) : (s.outstanding k min ready ws).log1 = s.log1 := by
  unfold State.outstanding; split <;> rfl
@[simp] theorem State.outstanding_near (s : State) (k min : Nat) (ready : Bool) (ws : List RegWrite) : (s.outstanding k min ready ws).near = s.near := by
  unfold State.outstanding; split <;> rfl
@[simp] theorem State.outstanding_links (s : State) (k min : Nat) (ready : Bool) (ws : List RegWrite) : (s.outstanding k min ready ws).links = s.links := by
  unfold State.outstanding; split <;> rfl
@[simp] theorem State.outstanding_node (s : State) (k min : Nat) (ready : Bool) (ws : List RegWrite) : (s.outstanding k min ready ws).node = s.node := by
  unfold State.outstanding; split <;> rfl
@[simp] theorem State.outstanding_routes (s : State) (k min : Nat) (ready : Bool) (ws : List RegWrite) : (s.outstanding k min ready ws).routes = s.routes := by
  unfold State.outstanding; split <;> rfl
@[simp] theorem State.outstanding_bindings (s : State) (k min : Nat) (ready : Bool) (ws : List RegWrite) : (s.outstanding k min ready ws).bindings = s.bindings := by
  unfold State.outstanding; split <;> rfl
@[simp] theorem State.outstanding_bindSeen (s : State) (k min : Nat) (ready : Bool) (ws : List RegWrite) : (s.outstanding k min ready ws).bindSeen = s.bindSeen := by
  unfold State.outstanding; split <;> rfl
@[simp] theorem State.outstanding_unbinds (s : State) (k min : Nat) (ready : Bool) (ws : List RegWrite) : (s.outstanding k min ready ws).unbinds = s.unbinds := by
  unfold State.outstanding; split <;> rfl
@[simp] theorem State.outstanding_ats (s : State) (k min : Nat) (ready : Bool) (ws : List RegWrite) : (s.outstanding k min ready ws).ats = s.ats := by
  unfold State.outstanding; split <;> rfl
@[simp] theorem State.outstanding_ucie (s : State) (k min : Nat) (ready : Bool) (ws : List RegWrite) : (s.outstanding k min ready ws).ucie = s.ucie := by
  unfold State.outstanding; split <;> rfl
@[simp] theorem State.outstanding_boot (s : State) (k min : Nat) (ready : Bool) (ws : List RegWrite) : (s.outstanding k min ready ws).boot = s.boot := by
  unfold State.outstanding; split <;> rfl
@[simp] theorem State.outstanding_images (s : State) (k min : Nat) (ready : Bool) (ws : List RegWrite) : (s.outstanding k min ready ws).images = s.images := by
  unfold State.outstanding; split <;> rfl
@[simp] theorem State.outstanding_gated (s : State) (k min : Nat) (ready : Bool) (ws : List RegWrite) : (s.outstanding k min ready ws).gated = s.gated := by
  unfold State.outstanding; split <;> rfl
@[simp] theorem State.outstanding_msix (s : State) (k min : Nat) (ready : Bool) (ws : List RegWrite) : (s.outstanding k min ready ws).msix = s.msix := by
  unfold State.outstanding; split <;> rfl
@[simp] theorem State.outstanding_checks (s : State) (k min : Nat) (ready : Bool) (ws : List RegWrite) : (s.outstanding k min ready ws).checks = s.checks := by
  unfold State.outstanding; split <;> rfl

/-! ### State.writeResult -/

@[simp] theorem State.writeResult_clock (s : State) (k lat : Nat) (ws : List RegWrite) : (s.writeResult k lat ws).clock = s.clock := by
  unfold State.writeResult State.outstanding State.landNow; split <;> (try split) <;> rfl
@[simp] theorem State.writeResult_agenda (s : State) (k lat : Nat) (ws : List RegWrite) : (s.writeResult k lat ws).agenda = s.agenda := by
  unfold State.writeResult State.outstanding State.landNow; split <;> (try split) <;> rfl
@[simp] theorem State.writeResult_free (s : State) (k lat : Nat) (ws : List RegWrite) : (s.writeResult k lat ws).free = s.free := by
  unfold State.writeResult State.outstanding State.landNow; split <;> (try split) <;> rfl
@[simp] theorem State.writeResult_fresh (s : State) (k lat : Nat) (ws : List RegWrite) : (s.writeResult k lat ws).fresh = s.fresh := by
  unfold State.writeResult State.outstanding State.landNow; split <;> (try split) <;> rfl
@[simp] theorem State.writeResult_turn (s : State) (k lat : Nat) (ws : List RegWrite) : (s.writeResult k lat ws).turn = s.turn := by
  unfold State.writeResult State.outstanding State.landNow; split <;> (try split) <;> rfl
@[simp] theorem State.writeResult_issue (s : State) (k lat : Nat) (ws : List RegWrite) : (s.writeResult k lat ws).issue = s.issue := by
  unfold State.writeResult State.outstanding State.landNow; split <;> (try split) <;> rfl
@[simp] theorem State.writeResult_runs (s : State) (k lat : Nat) (ws : List RegWrite) : (s.writeResult k lat ws).runs = s.runs := by
  unfold State.writeResult State.outstanding State.landNow; split <;> (try split) <;> rfl
@[simp] theorem State.writeResult_rr (s : State) (k lat : Nat) (ws : List RegWrite) : (s.writeResult k lat ws).rr = s.rr := by
  unfold State.writeResult State.outstanding State.landNow; split <;> (try split) <;> rfl
@[simp] theorem State.writeResult_mem (s : State) (k lat : Nat) (ws : List RegWrite) : (s.writeResult k lat ws).mem = s.mem := by
  unfold State.writeResult State.outstanding State.landNow; split <;> (try split) <;> rfl
@[simp] theorem State.writeResult_keyB (s : State) (k lat : Nat) (ws : List RegWrite) : (s.writeResult k lat ws).keyB = s.keyB := by
  unfold State.writeResult State.outstanding State.landNow; split <;> (try split) <;> rfl
@[simp] theorem State.writeResult_keyL (s : State) (k lat : Nat) (ws : List RegWrite) : (s.writeResult k lat ws).keyL = s.keyL := by
  unfold State.writeResult State.outstanding State.landNow; split <;> (try split) <;> rfl
@[simp] theorem State.writeResult_poison (s : State) (k lat : Nat) (ws : List RegWrite) : (s.writeResult k lat ws).poison = s.poison := by
  unfold State.writeResult State.outstanding State.landNow; split <;> (try split) <;> rfl
@[simp] theorem State.writeResult_badSlot (s : State) (k lat : Nat) (ws : List RegWrite) : (s.writeResult k lat ws).badSlot = s.badSlot := by
  unfold State.writeResult State.outstanding State.landNow; split <;> (try split) <;> rfl
@[simp] theorem State.writeResult_badCore (s : State) (k lat : Nat) (ws : List RegWrite) : (s.writeResult k lat ws).badCore = s.badCore := by
  unfold State.writeResult State.outstanding State.landNow; split <;> (try split) <;> rfl
@[simp] theorem State.writeResult_order (s : State) (k lat : Nat) (ws : List RegWrite) : (s.writeResult k lat ws).order = s.order := by
  unfold State.writeResult State.outstanding State.landNow; split <;> (try split) <;> rfl
@[simp] theorem State.writeResult_teams (s : State) (k lat : Nat) (ws : List RegWrite) : (s.writeResult k lat ws).teams = s.teams := by
  unfold State.writeResult State.outstanding State.landNow; split <;> (try split) <;> rfl
@[simp] theorem State.writeResult_engines (s : State) (k lat : Nat) (ws : List RegWrite) : (s.writeResult k lat ws).engines = s.engines := by
  unfold State.writeResult State.outstanding State.landNow; split <;> (try split) <;> rfl
@[simp] theorem State.writeResult_copyq (s : State) (k lat : Nat) (ws : List RegWrite) : (s.writeResult k lat ws).copyq = s.copyq := by
  unfold State.writeResult State.outstanding State.landNow; split <;> (try split) <;> rfl
@[simp] theorem State.writeResult_bars (s : State) (k lat : Nat) (ws : List RegWrite) : (s.writeResult k lat ws).bars = s.bars := by
  unfold State.writeResult State.outstanding State.landNow; split <;> (try split) <;> rfl
@[simp] theorem State.writeResult_contribs (s : State) (k lat : Nat) (ws : List RegWrite) : (s.writeResult k lat ws).contribs = s.contribs := by
  unfold State.writeResult State.outstanding State.landNow; split <;> (try split) <;> rfl
@[simp] theorem State.writeResult_demands (s : State) (k lat : Nat) (ws : List RegWrite) : (s.writeResult k lat ws).demands = s.demands := by
  unfold State.writeResult State.outstanding State.landNow; split <;> (try split) <;> rfl
@[simp] theorem State.writeResult_ctxs (s : State) (k lat : Nat) (ws : List RegWrite) : (s.writeResult k lat ws).ctxs = s.ctxs := by
  unfold State.writeResult State.outstanding State.landNow; split <;> (try split) <;> rfl
@[simp] theorem State.writeResult_draws (s : State) (k lat : Nat) (ws : List RegWrite) : (s.writeResult k lat ws).draws = s.draws := by
  unfold State.writeResult State.outstanding State.landNow; split <;> (try split) <;> rfl
@[simp] theorem State.writeResult_port0 (s : State) (k lat : Nat) (ws : List RegWrite) : (s.writeResult k lat ws).port0 = s.port0 := by
  unfold State.writeResult State.outstanding State.landNow; split <;> (try split) <;> rfl
@[simp] theorem State.writeResult_port1 (s : State) (k lat : Nat) (ws : List RegWrite) : (s.writeResult k lat ws).port1 = s.port1 := by
  unfold State.writeResult State.outstanding State.landNow; split <;> (try split) <;> rfl
@[simp] theorem State.writeResult_log0 (s : State) (k lat : Nat) (ws : List RegWrite) : (s.writeResult k lat ws).log0 = s.log0 := by
  unfold State.writeResult State.outstanding State.landNow; split <;> (try split) <;> rfl
@[simp] theorem State.writeResult_log1 (s : State) (k lat : Nat) (ws : List RegWrite) : (s.writeResult k lat ws).log1 = s.log1 := by
  unfold State.writeResult State.outstanding State.landNow; split <;> (try split) <;> rfl
@[simp] theorem State.writeResult_near (s : State) (k lat : Nat) (ws : List RegWrite) : (s.writeResult k lat ws).near = s.near := by
  unfold State.writeResult State.outstanding State.landNow; split <;> (try split) <;> rfl
@[simp] theorem State.writeResult_links (s : State) (k lat : Nat) (ws : List RegWrite) : (s.writeResult k lat ws).links = s.links := by
  unfold State.writeResult State.outstanding State.landNow; split <;> (try split) <;> rfl
@[simp] theorem State.writeResult_node (s : State) (k lat : Nat) (ws : List RegWrite) : (s.writeResult k lat ws).node = s.node := by
  unfold State.writeResult State.outstanding State.landNow; split <;> (try split) <;> rfl
@[simp] theorem State.writeResult_routes (s : State) (k lat : Nat) (ws : List RegWrite) : (s.writeResult k lat ws).routes = s.routes := by
  unfold State.writeResult State.outstanding State.landNow; split <;> (try split) <;> rfl
@[simp] theorem State.writeResult_bindings (s : State) (k lat : Nat) (ws : List RegWrite) : (s.writeResult k lat ws).bindings = s.bindings := by
  unfold State.writeResult State.outstanding State.landNow; split <;> (try split) <;> rfl
@[simp] theorem State.writeResult_bindSeen (s : State) (k lat : Nat) (ws : List RegWrite) : (s.writeResult k lat ws).bindSeen = s.bindSeen := by
  unfold State.writeResult State.outstanding State.landNow; split <;> (try split) <;> rfl
@[simp] theorem State.writeResult_unbinds (s : State) (k lat : Nat) (ws : List RegWrite) : (s.writeResult k lat ws).unbinds = s.unbinds := by
  unfold State.writeResult State.outstanding State.landNow; split <;> (try split) <;> rfl
@[simp] theorem State.writeResult_ats (s : State) (k lat : Nat) (ws : List RegWrite) : (s.writeResult k lat ws).ats = s.ats := by
  unfold State.writeResult State.outstanding State.landNow; split <;> (try split) <;> rfl
@[simp] theorem State.writeResult_ucie (s : State) (k lat : Nat) (ws : List RegWrite) : (s.writeResult k lat ws).ucie = s.ucie := by
  unfold State.writeResult State.outstanding State.landNow; split <;> (try split) <;> rfl
@[simp] theorem State.writeResult_boot (s : State) (k lat : Nat) (ws : List RegWrite) : (s.writeResult k lat ws).boot = s.boot := by
  unfold State.writeResult State.outstanding State.landNow; split <;> (try split) <;> rfl
@[simp] theorem State.writeResult_images (s : State) (k lat : Nat) (ws : List RegWrite) : (s.writeResult k lat ws).images = s.images := by
  unfold State.writeResult State.outstanding State.landNow; split <;> (try split) <;> rfl
@[simp] theorem State.writeResult_gated (s : State) (k lat : Nat) (ws : List RegWrite) : (s.writeResult k lat ws).gated = s.gated := by
  unfold State.writeResult State.outstanding State.landNow; split <;> (try split) <;> rfl
@[simp] theorem State.writeResult_msix (s : State) (k lat : Nat) (ws : List RegWrite) : (s.writeResult k lat ws).msix = s.msix := by
  unfold State.writeResult State.outstanding State.landNow; split <;> (try split) <;> rfl
@[simp] theorem State.writeResult_checks (s : State) (k lat : Nat) (ws : List RegWrite) : (s.writeResult k lat ws).checks = s.checks := by
  unfold State.writeResult State.outstanding State.landNow; split <;> (try split) <;> rfl

/-! ### State.setLog -/

@[simp] theorem State.setLog_clock (s : State) (p : Nat) (l : List LogRec) : (s.setLog p l).clock = s.clock := by
  unfold State.setLog; split <;> rfl
@[simp] theorem State.setLog_agenda (s : State) (p : Nat) (l : List LogRec) : (s.setLog p l).agenda = s.agenda := by
  unfold State.setLog; split <;> rfl
@[simp] theorem State.setLog_free (s : State) (p : Nat) (l : List LogRec) : (s.setLog p l).free = s.free := by
  unfold State.setLog; split <;> rfl
@[simp] theorem State.setLog_fresh (s : State) (p : Nat) (l : List LogRec) : (s.setLog p l).fresh = s.fresh := by
  unfold State.setLog; split <;> rfl
@[simp] theorem State.setLog_turn (s : State) (p : Nat) (l : List LogRec) : (s.setLog p l).turn = s.turn := by
  unfold State.setLog; split <;> rfl
@[simp] theorem State.setLog_issue (s : State) (p : Nat) (l : List LogRec) : (s.setLog p l).issue = s.issue := by
  unfold State.setLog; split <;> rfl
@[simp] theorem State.setLog_runs (s : State) (p : Nat) (l : List LogRec) : (s.setLog p l).runs = s.runs := by
  unfold State.setLog; split <;> rfl
@[simp] theorem State.setLog_rr (s : State) (p : Nat) (l : List LogRec) : (s.setLog p l).rr = s.rr := by
  unfold State.setLog; split <;> rfl
@[simp] theorem State.setLog_mem (s : State) (p : Nat) (l : List LogRec) : (s.setLog p l).mem = s.mem := by
  unfold State.setLog; split <;> rfl
@[simp] theorem State.setLog_keyB (s : State) (p : Nat) (l : List LogRec) : (s.setLog p l).keyB = s.keyB := by
  unfold State.setLog; split <;> rfl
@[simp] theorem State.setLog_keyL (s : State) (p : Nat) (l : List LogRec) : (s.setLog p l).keyL = s.keyL := by
  unfold State.setLog; split <;> rfl
@[simp] theorem State.setLog_poison (s : State) (p : Nat) (l : List LogRec) : (s.setLog p l).poison = s.poison := by
  unfold State.setLog; split <;> rfl
@[simp] theorem State.setLog_badSlot (s : State) (p : Nat) (l : List LogRec) : (s.setLog p l).badSlot = s.badSlot := by
  unfold State.setLog; split <;> rfl
@[simp] theorem State.setLog_badCore (s : State) (p : Nat) (l : List LogRec) : (s.setLog p l).badCore = s.badCore := by
  unfold State.setLog; split <;> rfl
@[simp] theorem State.setLog_order (s : State) (p : Nat) (l : List LogRec) : (s.setLog p l).order = s.order := by
  unfold State.setLog; split <;> rfl
@[simp] theorem State.setLog_groups (s : State) (p : Nat) (l : List LogRec) : (s.setLog p l).groups = s.groups := by
  unfold State.setLog; split <;> rfl
@[simp] theorem State.setLog_teams (s : State) (p : Nat) (l : List LogRec) : (s.setLog p l).teams = s.teams := by
  unfold State.setLog; split <;> rfl
@[simp] theorem State.setLog_engines (s : State) (p : Nat) (l : List LogRec) : (s.setLog p l).engines = s.engines := by
  unfold State.setLog; split <;> rfl
@[simp] theorem State.setLog_copyq (s : State) (p : Nat) (l : List LogRec) : (s.setLog p l).copyq = s.copyq := by
  unfold State.setLog; split <;> rfl
@[simp] theorem State.setLog_bars (s : State) (p : Nat) (l : List LogRec) : (s.setLog p l).bars = s.bars := by
  unfold State.setLog; split <;> rfl
@[simp] theorem State.setLog_contribs (s : State) (p : Nat) (l : List LogRec) : (s.setLog p l).contribs = s.contribs := by
  unfold State.setLog; split <;> rfl
@[simp] theorem State.setLog_demands (s : State) (p : Nat) (l : List LogRec) : (s.setLog p l).demands = s.demands := by
  unfold State.setLog; split <;> rfl
@[simp] theorem State.setLog_ctxs (s : State) (p : Nat) (l : List LogRec) : (s.setLog p l).ctxs = s.ctxs := by
  unfold State.setLog; split <;> rfl
@[simp] theorem State.setLog_draws (s : State) (p : Nat) (l : List LogRec) : (s.setLog p l).draws = s.draws := by
  unfold State.setLog; split <;> rfl
@[simp] theorem State.setLog_port0 (s : State) (p : Nat) (l : List LogRec) : (s.setLog p l).port0 = s.port0 := by
  unfold State.setLog; split <;> rfl
@[simp] theorem State.setLog_port1 (s : State) (p : Nat) (l : List LogRec) : (s.setLog p l).port1 = s.port1 := by
  unfold State.setLog; split <;> rfl
@[simp] theorem State.setLog_near (s : State) (p : Nat) (l : List LogRec) : (s.setLog p l).near = s.near := by
  unfold State.setLog; split <;> rfl
@[simp] theorem State.setLog_links (s : State) (p : Nat) (l : List LogRec) : (s.setLog p l).links = s.links := by
  unfold State.setLog; split <;> rfl
@[simp] theorem State.setLog_node (s : State) (p : Nat) (l : List LogRec) : (s.setLog p l).node = s.node := by
  unfold State.setLog; split <;> rfl
@[simp] theorem State.setLog_routes (s : State) (p : Nat) (l : List LogRec) : (s.setLog p l).routes = s.routes := by
  unfold State.setLog; split <;> rfl
@[simp] theorem State.setLog_bindings (s : State) (p : Nat) (l : List LogRec) : (s.setLog p l).bindings = s.bindings := by
  unfold State.setLog; split <;> rfl
@[simp] theorem State.setLog_bindSeen (s : State) (p : Nat) (l : List LogRec) : (s.setLog p l).bindSeen = s.bindSeen := by
  unfold State.setLog; split <;> rfl
@[simp] theorem State.setLog_unbinds (s : State) (p : Nat) (l : List LogRec) : (s.setLog p l).unbinds = s.unbinds := by
  unfold State.setLog; split <;> rfl
@[simp] theorem State.setLog_ats (s : State) (p : Nat) (l : List LogRec) : (s.setLog p l).ats = s.ats := by
  unfold State.setLog; split <;> rfl
@[simp] theorem State.setLog_ucie (s : State) (p : Nat) (l : List LogRec) : (s.setLog p l).ucie = s.ucie := by
  unfold State.setLog; split <;> rfl
@[simp] theorem State.setLog_boot (s : State) (p : Nat) (l : List LogRec) : (s.setLog p l).boot = s.boot := by
  unfold State.setLog; split <;> rfl
@[simp] theorem State.setLog_images (s : State) (p : Nat) (l : List LogRec) : (s.setLog p l).images = s.images := by
  unfold State.setLog; split <;> rfl
@[simp] theorem State.setLog_gated (s : State) (p : Nat) (l : List LogRec) : (s.setLog p l).gated = s.gated := by
  unfold State.setLog; split <;> rfl
@[simp] theorem State.setLog_msix (s : State) (p : Nat) (l : List LogRec) : (s.setLog p l).msix = s.msix := by
  unfold State.setLog; split <;> rfl
@[simp] theorem State.setLog_checks (s : State) (p : Nat) (l : List LogRec) : (s.setLog p l).checks = s.checks := by
  unfold State.setLog; split <;> rfl

/-! ### The changed field -/

@[simp] theorem State.setGroup_groups (s : State) (k : Nat) (g : Group) : (s.setGroup k g).groups = Map.set s.groups k g := rfl
@[simp] theorem State.updGroup_groups (s : State) (k : Nat) (f : Group → Group) : (s.updGroup k f).groups = Map.upd s.groups k f := rfl
@[simp] theorem State.updTeam_teams (s : State) (k : Nat) (f : Team → Team) : (s.updTeam k f).teams = Map.upd s.teams k f := rfl
@[simp] theorem State.updCtx_ctxs (s : State) (k : Nat) (f : Ctx → Ctx) : (s.updCtx k f).ctxs = Map.upd s.ctxs k f := rfl
@[simp] theorem State.setEngine_engines (s : State) (core : Nat) (e : Engine) :
    (s.setEngine core e).engines = Map.put {} s.engines core e := rfl
theorem State.msi_msix (s : State) (port vector : Nat) (h : vector < 2048) : (s.msi port vector).msix = s.msix ++ [(port, vector)] := by
  simp [State.msi, vectorsOf, h]

end Sys2Proof.Machine
end

