-- ==== Sys2Proof/Laws/Memory.lean ====
section
/-! SUPPORT. Memory: the canonical form that every operation keeps, and what a byte reads as after a write. -/
namespace Sys2Proof.Machine

/-! ### Runs of writes into a table -/

theorem Map.wf_foldl_put {α β : Type} [DecidableEq α] {d : α} (key : β → Nat) (val : β → α) (l : List β) :
    ∀ m : Map α, Map.wf d m = true → Map.wf d (l.foldl (fun m x => Map.put d m (key x) (val x)) m) = true := by
  induction l with
  | nil => intro m h; exact h
  | cons x l ih => intro m h; exact ih _ (Map.wf_put _ _ h)

/-- The bytes of a run, written from `loc` on: what each address reads as. -/
theorem Map.get_foldl_bytes (bs : List Byte) : ∀ (loc : Nat) (m : Map Byte) (a : Nat),
    Map.get 0 ((bs.zipIdx loc).foldl (fun m (x : Byte × Nat) => Map.put 0 m x.2 x.1) m) a
      = if loc ≤ a ∧ a < loc + bs.length then (bs[a - loc]?).getD 0 else Map.get 0 m a := by
  induction bs with
  | nil =>
    intro loc m a
    have h : ¬ (loc ≤ a ∧ a < loc + ([] : List Byte).length) := by simp only [List.length_nil]; omega
    rw [if_neg h]
    rfl
  | cons b bs ih =>
    intro loc m a
    simp only [List.zipIdx_cons, List.foldl_cons, List.length_cons]
    rw [ih (loc + 1) _ a, Map.get_put]
    by_cases h1 : a = loc
    · subst h1
      have h2 : ¬ (a + 1 ≤ a ∧ a < a + 1 + bs.length) := by omega
      have h3 : a ≤ a ∧ a < a + (bs.length + 1) := by omega
      rw [if_neg h2, if_pos h3]
      simp
    · by_cases h2 : loc ≤ a ∧ a < loc + (bs.length + 1)
      · have h3 : loc + 1 ≤ a ∧ a < loc + 1 + bs.length := by omega
        rw [if_pos h2, if_pos h3]
        have h4 : a - loc = (a - (loc + 1)) + 1 := by omega
        rw [h4, List.getElem?_cons_succ]
      · have h3 : ¬ (loc + 1 ≤ a ∧ a < loc + 1 + bs.length) := by omega
        rw [if_neg h2, if_neg h3, if_neg h1]

/-! ### State.putBytes -/

theorem State.putBytes_memWf (s : State) (stamp loc : Nat) (bs : List Byte) (h : s.memWf = true) :
    (s.putBytes stamp loc bs).memWf = true :=
  Map.wf_foldl_put (fun x : Byte × Nat => x.2) (fun x => x.1) (bs.zipIdx loc) s.mem h

/-- A byte after a write: the written one inside the range, and the old one outside. -/
theorem State.byte_putBytes (s : State) (stamp loc : Nat) (bs : List Byte) (a : Nat) :
    (s.putBytes stamp loc bs).byte a = if loc ≤ a ∧ a < loc + bs.length then (bs[a - loc]?).getD 0 else s.byte a :=
  Map.get_foldl_bytes bs loc s.mem a

/-! ### Stores -/

theorem State.store_memWf (s : State) (agent : Nat) (rels : Map Rel) (eng : View) (stamp loc : Nat) (bs : List Byte)
    (group : Nat) (op : Option Nat) (line : Bool) (h : s.memWf = true) : (s.store agent rels eng stamp loc bs group op line).memWf = true :=
  s.putBytes_memWf stamp loc bs h

theorem State.byte_store (s : State) (agent : Nat) (rels : Map Rel) (eng : View) (stamp loc : Nat) (bs : List Byte)
    (group : Nat) (op : Option Nat) (line : Bool) (a : Nat) :
    (s.store agent rels eng stamp loc bs group op line).byte a
      = if loc ≤ a ∧ a < loc + bs.length then (bs[a - loc]?).getD 0 else s.byte a :=
  s.byte_putBytes stamp loc bs a

theorem State.storeBy_memWf (s : State) (core : Nat) (w : Seen) (stamp loc : Nat) (bs : List Byte) (line : Bool) (h : s.memWf = true) :
    (s.storeBy core w stamp loc bs line).memWf = true := State.store_memWf _ _ _ _ _ _ _ _ _ _ h

theorem State.byte_storeBy (s : State) (core : Nat) (w : Seen) (stamp loc : Nat) (bs : List Byte) (line : Bool) (a : Nat) :
    (s.storeBy core w stamp loc bs line).byte a = if loc ≤ a ∧ a < loc + bs.length then (bs[a - loc]?).getD 0 else s.byte a :=
  State.byte_store _ _ _ _ _ _ _ _ _ _ _

theorem State.storeAtomic_memWf (s : State) (core : Nat) (w : Seen) (stamp loc : Nat) (bs : List Byte) (h : s.memWf = true) :
    (s.storeAtomic core w stamp loc bs).memWf = true := State.store_memWf _ _ _ _ _ _ _ _ _ _ h

theorem State.byte_storeAtomic (s : State) (core : Nat) (w : Seen) (stamp loc : Nat) (bs : List Byte) (a : Nat) :
    (s.storeAtomic core w stamp loc bs).byte a = if loc ≤ a ∧ a < loc + bs.length then (bs[a - loc]?).getD 0 else s.byte a :=
  State.byte_store _ _ _ _ _ _ _ _ _ _ _

theorem State.storePub_memWf (s : State) (stamp loc : Nat) (bs : List Byte) (h : s.memWf = true) :
    (s.storePub stamp loc bs).memWf = true := State.store_memWf _ _ _ _ _ _ _ _ _ _ h

/-! ### What leaves for another package (R378, R393) -/

theorem State.log_memWf (s : State) (r : LogRec) (h : s.memWf = true) : (s.log r).memWf = true := by
  have w : ∀ {t u : State}, t.mem = u.mem → u.memWf = true → t.memWf = true := fun e h => by simpa only [State.memWf, e] using h
  unfold State.log
  have p : ∀ q l stamp loc bs, ((s.setLog q l).storePub stamp loc bs).memWf = true := fun q l _ _ _ =>
    State.storePub_memWf _ _ _ _ (w (State.setLog_mem s q l) h)
  simp only
  repeat' split
  all_goals simp only [State.memWf, State.updPort_mem, State.msi_mem]
  all_goals first
    | exact p _ _ _ _ _
    | exact h

@[simp] theorem State.request_mem (s : State) (w : Work) : (s.request w).mem = s.mem := by
  unfold State.request
  split
  · rfl
  · split <;> rfl

theorem State.lost_memWf (s : State) (w : Work) (cause : Nat) (h : s.memWf = true) : (s.lost w cause).memWf = true := by
  unfold State.lost
  have g := State.log_memWf s { cause, kind := 5, ctx := some w.ctx, die := w.core / 128, core := w.core % 128, slot := w.slot, gid := w.gid, loc := w.loc } h
  revert g
  generalize s.log _ = t
  intro g
  simp only
  split
  · exact g
  · exact g

theorem State.goesOut_memWf (s : State) (w : Work) (h : s.memWf = true) : (s.goesOut w).2.memWf = true := by
  unfold State.goesOut; split
  · exact State.lost_memWf _ _ _ h
  · simpa only [State.memWf, State.request_mem] using h

/-- An access to this package or to a host goes out and changes nothing. -/
theorem State.goesOut_local (s : State) (w : Work) (h : nodeOf w.loc = none) : s.goesOut w = (true, s) := by
  simp only [State.goesOut, State.remoteFail, State.request, h]

theorem State.storePieces_memWf (id : Ident) (w : Seen) (bs : List Byte) (ps : List (Nat × Nat × Nat × Nat)) :
    ∀ s : State, s.memWf = true → (storePieces s id w bs ps).memWf = true := by
  unfold storePieces
  induction ps with
  | nil => intro s h; exact h
  | cons p ps ih =>
    intro s h
    refine ih _ ?_
    have g := s.goesOut_memWf (s.workOf id p.1) h
    simp only
    split
    · exact State.storeBy_memWf _ _ _ _ _ _ _ g
    · exact g

/-! ### Operations that drop memory -/

theorem State.clear_memWf (s : State) (p : Nat × Byte → Bool) (h : s.memWf = true) :
    ({ s with mem := s.mem.filter p } : State).memWf = true := Map.wf_filter p h

/-- Memory right after reset lists nothing. -/
theorem State.reset_memWf : State.reset.memWf = true := rfl

/-- An operation that leaves the list of bytes alone leaves every byte alone. -/
theorem State.byte_congr {s t : State} (h : t.mem = s.mem) (a : Nat) : t.byte a = s.byte a := by simp only [State.byte, h]

theorem State.memWf_congr {s t : State} (h : t.mem = s.mem) : t.memWf = s.memWf := by simp only [State.memWf, h]

end Sys2Proof.Machine
end

