-- ==== Sys2Proof/Laws/Issue.lean ====
section
/-! SUPPORT. What surrounds every instruction: what withIssue answers, what the split that issues is, and that settling, commits
and traps leave memory alone. -/
namespace Sys2Proof.Machine

/-! ### The split that issues -/

theorem poisonRead_clean {i : Iss} (h : i.g.bad = []) (ctl : Ctl) (srcs : List (Operand × Nat)) (m : Lanes) :
    poisonRead i ctl srcs m = none := by
  simp [poisonRead, Group.poisoned, h, Map.find]

/-- A word that issues has the effect of its meaning, and that effect retires. -/
theorem withIssue_issues {s : State} {ctl : Ctl} {i : Iss} (h : Issues s ctl i) (srcs : List (Operand × Nat))
    (f : Iss → State → Eff) (d : Operand) (who : Lanes → Lanes) :
    withIssue ctl srcs s f d who = .next ((f i (i.start s)).retire ctl i) := by
  simp only [withIssue, h.1, poisonRead_clean h.2]

/-- A poisoned source kills the group instead (R380). -/
theorem withIssue_poisoned {s : State} {ctl : Ctl} {i : Iss} {c l : Nat} (h : s.issuing ctl = some i)
    (srcs : List (Operand × Nat)) (f : Iss → State → Eff) (d : Operand) (who : Lanes → Lanes)
    (hp : poisonRead i ctl srcs (who i.lanes) = some (c, l)) :
    withIssue ctl srcs s f d who = .next ((Eff.kill (i.start s) c l).retire ctl i) := by
  simp only [withIssue, h, hp]

theorem withIssue_noIssuer {s : State} {ctl : Ctl} (h : s.issuing ctl = none) (srcs : List (Operand × Nat))
    (f : Iss → State → Eff) (d : Operand) (who : Lanes → Lanes) : withIssue ctl srcs s f d who = .fault .noIssuer := by
  simp only [withIssue, h]

/-- What the record of the issuing split holds. -/
theorem issuing_spec {s : State} {ctl : Ctl} {i : Iss} (h : s.issuing ctl = some i) :
    s.issue = some (i.k, i.slot) ∧ s.group i.k = some i.g ∧ Map.find i.g.live i.slot = some i.sp
      ∧ i.lanes = execLanes ctl i.g i.sp ∧ i.again = (i.g.replays i.sp != 0) := by
  unfold State.issuing at h
  split at h
  · cases h
  · rename_i k slot hk
    split at h
    · cases h
    · rename_i g hg
      cases hf : Map.find g.live slot with
      | none => simp [hf] at h
      | some sp =>
        simp only [hf, Option.map_some, Option.some.injEq] at h
        subst h
        exact ⟨hk, hg, hf, rfl, rfl⟩

@[simp] theorem Iss.start_mem (i : Iss) (s : State) : (i.start s).mem = s.mem := by
  unfold Iss.start; split <;> rfl
@[simp] theorem Iss.start_issue (i : Iss) (s : State) : (i.start s).issue = none := by
  unfold Iss.start; split <;> rfl
@[simp] theorem Iss.start_clock (i : Iss) (s : State) : (i.start s).clock = s.clock := by
  unfold Iss.start; split <;> rfl
@[simp] theorem Iss.start_runs (i : Iss) (s : State) : (i.start s).runs = s.runs := by
  unfold Iss.start; split <;> rfl
@[simp] theorem Iss.start_ctxs (i : Iss) (s : State) : (i.start s).ctxs = s.ctxs := by
  unfold Iss.start; split <;> rfl
@[simp] theorem Iss.start_teams (i : Iss) (s : State) : (i.start s).teams = s.teams := by
  unfold Iss.start; split <;> rfl
@[simp] theorem Iss.start_bars (i : Iss) (s : State) : (i.start s).bars = s.bars := by
  unfold Iss.start; split <;> rfl
@[simp] theorem Iss.start_engines (i : Iss) (s : State) : (i.start s).engines = s.engines := by
  unfold Iss.start; split <;> rfl
@[simp] theorem Iss.start_fresh (i : Iss) (s : State) : (i.start s).fresh = s.fresh := by
  unfold Iss.start; split <;> rfl

/-- Outside a replay the state starts as it is, with nothing issuing. -/
theorem Iss.start_plain {i : Iss} (h : i.again = false) (s : State) : i.start s = { s with issue := none } := by
  simp [Iss.start, h]

/-! ### Memory through settling, barriers and the accounting of a run -/

@[simp] theorem State.contextFault_mem (s : State) (c e : Nat) : (s.contextFault c e).mem = s.mem := rfl

@[simp] theorem State.raiseTrap_mem (s : State) (k : Nat) (t : Trap) : (s.raiseTrap k t).mem = s.mem := by
  unfold State.raiseTrap
  split
  · rfl
  · (repeat' split) <;> rfl

@[simp] theorem State.settleOne_mem (s : State) (k : Nat) : (s.settleOne k).mem = s.mem := by
  unfold State.settleOne
  split
  · rfl
  · simp only []
    split
    · rfl
    · split
      · rfl
      · split
        · rfl
        · rw [State.raiseTrap_mem]; rfl

theorem foldl_mem {α : Type} (f : State → α → State) (h : ∀ s a, (f s a).mem = s.mem) (l : List α) :
    ∀ s : State, (l.foldl f s).mem = s.mem := by
  induction l with
  | nil => intro s; rfl
  | cons a l ih => intro s; rw [List.foldl_cons, ih, h]

@[simp] theorem State.depart_mem (s : State) (key : Nat) (b : Bar) : (s.depart key b).mem = s.mem := by
  unfold State.depart
  exact foldl_mem _ (fun s k => by rw [State.settleOne_mem]; rfl) _ s

@[simp] theorem State.setBar_mem (s : State) (key : Nat) (b : Bar) : (s.setBar key b).mem = s.mem := by
  unfold State.setBar; split
  · rw [State.depart_mem]
  · rfl

@[simp] theorem State.exited_mem (s : State) (k : Nat) : (s.exited k).mem = s.mem := by
  unfold State.exited
  split
  · rfl
  · split
    · rfl
    · split
      · split
        · rw [State.setBar_mem]
        · rfl
      · rfl

@[simp] theorem State.settle_mem (s : State) (k : Nat) : (s.settle k).mem = s.mem := by
  unfold State.settle
  split
  · rfl
  · simp only []
    split
    · split
      · rw [State.exited_mem, State.settleOne_mem]
      · rw [State.settleOne_mem]
    · rw [State.settleOne_mem]

@[simp] theorem State.endRun_mem (s : State) (k : Nat) : (s.endRun k).mem = s.mem := by
  unfold State.endRun; rw [State.settle_mem]

@[simp] theorem State.account_mem (s : State) (k : Nat) (e : Bool) : (s.account k e).mem = s.mem := by
  unfold State.account
  split
  · rw [State.settle_mem]
  · split
    · rw [State.endRun_mem]
    · rfl

@[simp] theorem State.quietly_mem (n : Nat) (s : State) (k : Nat) (e : Bool) : (State.quietly n s k e).mem = s.mem := by
  unfold State.quietly
  split
  · rw [State.settle_mem]
  · split
    · rw [State.account_mem]
    · rw [State.settle_mem]

@[simp] theorem updSplit_mem (s : State) (i : Iss) (f : Split → Split) : (updSplit s i f).mem = s.mem := rfl

/-! ### Memory through the effects that report nothing and kill nothing -/

@[simp] theorem retire_ok_mem (ctl : Ctl) (i : Iss) (s : State) : ((Eff.ok s).retire ctl i).mem = s.mem := by
  simp [Eff.retire, Eff.carry]

@[simp] theorem retire_endRun_mem (ctl : Ctl) (i : Iss) (s : State) : ((Eff.endRun s).retire ctl i).mem = s.mem := by
  simp [Eff.retire, Eff.carry]

@[simp] theorem retire_move_mem (ctl : Ctl) (i : Iss) (s : State) (ps : List Part) (t : Bool) :
    ((Eff.move s ps t).retire ctl i).mem = s.mem := by simp [Eff.retire, Eff.carry]

@[simp] theorem retire_park_mem (ctl : Ctl) (i : Iss) (s : State) (p : Park) : ((Eff.park s p).retire ctl i).mem = s.mem := by
  simp [Eff.retire, Eff.carry]

@[simp] theorem retire_wait_mem (ctl : Ctl) (i : Iss) (s : State) (p : Park) : ((Eff.wait s p).retire ctl i).mem = s.mem := by
  simp [Eff.retire, Eff.carry]

@[simp] theorem retire_hold_mem (ctl : Ctl) (i : Iss) (s : State) (p : Park) : ((Eff.hold s p).retire ctl i).mem = s.mem := by
  simp [Eff.retire, Eff.carry]

@[simp] theorem retire_stall_mem (ctl : Ctl) (i : Iss) (s : State) (p : Park) (c : Bool) :
    ((Eff.stall s p c).retire ctl i).mem = s.mem := by
  cases c <;> simp [Eff.retire, Eff.carry]

@[simp] theorem retire_trap_mem (ctl : Ctl) (i : Iss) (s : State) (c : Nat) (m : Lanes) (a x : Nat) :
    ((Eff.trap s c m a x).retire ctl i).mem = s.mem := by simp [Eff.retire, Eff.carry]

@[simp] theorem retire_after_mem (ctl : Ctl) (i : Iss) (s : State) (c : Nat) (m : Lanes) (a x : Nat) :
    ((Eff.after s c m a x).retire ctl i).mem = s.mem := by simp [Eff.retire, Eff.carry]

/-- An instruction whose effect leaves memory alone leaves every byte alone. -/
theorem sameMemory_of_mem {s t : State} (h : t.mem = s.mem) : SameMemory s t := fun a => State.byte_congr h a

end Sys2Proof.Machine
end

