-- ==== Sys2Proof/Laws/Calm.lean ====
section
/-! SUPPORT. What settling, departures, raised traps and the accounting of a run leave alone. -/
namespace Sys2Proof.Machine

/-! ### Waiting at a barrier -/

def Split.barred (e : Split) : Bool :=
  match e.park with
  | some (.barrier ..) => true
  | _ => false

theorem Group.awaits_eq (g : Group) : g.awaits = g.entries.any Split.barred := rfl

theorem Group.awaits_false {g : Group} : g.awaits = false ↔ ∀ e ∈ g.entries, Split.barred e = false := by
  rw [Group.awaits_eq, List.any_eq_false]
  simp only [Bool.not_eq_true]

theorem Split.barred_none (e : Split) (h : e.park = none) : Split.barred e = false := by simp [Split.barred, h]
theorem Split.barred_merge (e : Split) (h : e.park = some .merge) : Split.barred e = false := by simp [Split.barred, h]

theorem combine_barred (a b : Split) : Split.barred (combine a b) = false := by
  unfold combine Split.barred
  dsimp only
  split
  · rename_i h; split at h <;> simp at h
  · rfl

/-! ### settle -/

/-- No entry waits at a barrier. -/
def FreeEnts (es : Ents) : Prop := ∀ x ∈ es, Split.barred x.2 = false

theorem FreeEnts.filter {es : Ents} (h : FreeEnts es) (p : Nat × Split → Bool) : FreeEnts (es.filter p) :=
  fun x hx => h x ((List.mem_filter.mp hx).1)

theorem FreeEnts.append {es fs : Ents} (h : FreeEnts es) (h' : FreeEnts fs) : FreeEnts (es ++ fs) :=
  fun x hx => (List.mem_append.mp hx).elim (h x) (h' x)

theorem endSpans_free {es : Ents} (keep : Lanes) (h : FreeEnts es) : FreeEnts (endSpans keep es) := by
  intro x hx
  obtain ⟨y, hy, rfl⟩ := List.mem_map.mp hx
  dsimp only
  split
  · exact Split.barred_none _ rfl
  · exact h y hy

theorem FreeEnts.single {n : Nat} {e : Split} (h : Split.barred e = false) : FreeEnts [(n, e)] := by
  intro x hx
  simp only [List.mem_singleton] at hx
  subst hx
  exact h

/-- A change that keeps entries free keeps them free however often it is repeated. -/
theorem whileSome_free {f : Ents → Option Ents} (hf : ∀ es fs, FreeEnts es → f es = some fs → FreeEnts fs) (n : Nat) :
    ∀ es : Ents, FreeEnts es → FreeEnts (whileSome f n es) := by
  induction n with
  | zero => intro es h; exact h
  | succ n ih =>
    intro es h
    unfold whileSome
    split
    · rename_i fs hs; exact ih fs (hf _ _ h hs)
    · exact h

theorem settleRemove_free {es : Ents} (h : FreeEnts es) : FreeEnts (settleRemove es) := by
  unfold settleRemove
  split
  · exact endSpans_free _ (h.filter _)
  · exact h

theorem settleCombine_free {g : Group} (es fs : Ents) (h : FreeEnts es) (hs : settleCombine g es = some fs) : FreeEnts fs := by
  unfold settleCombine at hs
  split at hs
  · split at hs
    · cases hs
      refine endSpans_free _ ?_
      intro x hx
      obtain ⟨y, hy, rfl⟩ := List.mem_map.mp hx
      dsimp only
      split
      · exact combine_barred _ _
      · exact h y ((List.mem_filter.mp hy).1)
    · cases hs
  · cases hs

theorem settleExchange_free {g : Group} (es fs : Ents) (h : FreeEnts es) (hs : settleExchange g es = some fs) : FreeEnts fs := by
  unfold settleExchange at hs
  split at hs
  · rename_i l p hl hp
    cases hs
    have hl' : Split.barred l.2 = false := h l (List.mem_of_find?_eq_some hl)
    have hp' : Split.barred p.2 = false := h p (List.mem_of_find?_eq_some hp)
    exact ((((h.filter _).filter _).append (FreeEnts.single hp')).append ((h.filter _).filter _)).append (FreeEnts.single hl')
  · cases hs

theorem settleMove_free (es fs : Ents) (h : FreeEnts es) (hs : settleMove es = some fs) : FreeEnts fs := by
  unfold settleMove at hs
  split at hs
  · rename_i i p _ hp
    cases hs
    have hp' : Split.barred p.2 = false := h p (List.mem_of_find?_eq_some hp)
    exact (((h.filter _).filter _).append (FreeEnts.single hp')).append ((h.filter _).filter _)
  · cases hs

theorem settleRelease_free {es : Ents} (h : FreeEnts es) : FreeEnts (settleRelease es) := by
  unfold settleRelease
  split
  · exact h
  · split
    · intro x hx
      obtain ⟨y, hy, rfl⟩ := List.mem_map.mp hx
      exact Split.barred_none _ rfl
    · exact h

theorem settlePass_free {g : Group} {es : Ents} (h : FreeEnts es) : FreeEnts (settlePass g es) :=
  settleRelease_free (whileSome_free settleMove_free _ _ (whileSome_free settleExchange_free _ _
    (whileSome_free settleCombine_free _ _ (settleRemove_free h))))

theorem settleLoop_free (g : Group) (n : Nat) : ∀ es : Ents, FreeEnts es → FreeEnts (settleLoop n g es) := by
  induction n with
  | zero => intro es h; exact h
  | succ n ih =>
    intro es h
    unfold settleLoop
    simp only []
    split
    · exact h
    · exact ih _ (settlePass_free h)

theorem Group.ents_free {g : Group} (h : g.awaits = false) : FreeEnts g.ents := by
  rw [Group.awaits_false] at h
  intro x hx
  unfold Group.ents at hx
  rcases List.mem_append.mp hx with hx | hx
  · exact h x.2 (List.mem_append_left _ (List.mem_map_of_mem hx))
  · obtain ⟨⟨e, i⟩, hy, rfl⟩ := List.mem_map.mp hx
    exact h e (List.mem_append_right _ (List.fst_mem_of_mem_zipIdx hy))

theorem Group.setEnts_awaits {g : Group} {es : Ents} (h : FreeEnts es) : (g.setEnts es).awaits = false := by
  rw [Group.awaits_false]
  intro e he
  unfold Group.entries Group.setEnts at he
  rcases List.mem_append.mp he with he | he
  · obtain ⟨x, hx, rfl⟩ := List.mem_map.mp he
    exact h x ((List.mem_filter.mp hx).1)
  · obtain ⟨x, hx, rfl⟩ := List.mem_map.mp he
    exact h x ((List.mem_filter.mp hx).1)

@[simp] theorem Group.settle_regs (g : Group) : g.settle.regs = g.regs := by unfold Group.settle; simp only []; split <;> rfl
@[simp] theorem Group.settle_sr (g : Group) : g.settle.sr = g.sr := by unfold Group.settle; simp only []; split <;> rfl
@[simp] theorem Group.settle_ident (g : Group) : g.settle.ident = g.ident := by unfold Group.settle; simp only []; split <;> rfl

theorem Group.settle_awaits {g : Group} (h : g.awaits = false) : g.settle.awaits = false := by
  have h1 := Group.setEnts_awaits (g := g) (settleLoop_free g 64 g.ents (Group.ents_free h))
  unfold Group.settle
  simp only []
  split
  · rw [Group.awaits_eq] at *; exact h1
  · exact h1

/-! ### One group against another -/

/-- What Calm says of one group. -/
def Group.Calm (g g' : Group) : Prop :=
  g'.ident = g.ident ∧ (∀ key, (g.awaits = true → key < 256 ∨ 512 ≤ key) → g'.readReg key = g.readReg key)
    ∧ (∃ b, g'.sr = { g.sr with barstat := b } ∧ (g.awaits = false → b = g.sr.barstat))
    ∧ (g.awaits = false → g'.awaits = false)

theorem Group.Calm.refl (g : Group) : g.Calm g := ⟨rfl, fun _ _ => rfl, ⟨g.sr.barstat, rfl, fun _ => rfl⟩, id⟩

theorem Group.Calm.trans {a b c : Group} (h : a.Calm b) (h' : b.Calm c) : a.Calm c := by
  obtain ⟨h1, h2, ⟨x, h3, h4⟩, h5⟩ := h
  obtain ⟨k1, k2, ⟨y, k3, k4⟩, k5⟩ := h'
  refine ⟨k1.trans h1, fun key hk => ?_, ⟨y, ?_, fun ha => ?_⟩, fun ha => k5 (h5 ha)⟩
  · by_cases ha : a.awaits = true
    · rw [k2 key fun _ => hk ha, h2 key hk]
    · have ha' : a.awaits = false := by simpa using ha
      rw [k2 key fun hb => absurd hb (by rw [h5 ha']; decide), h2 key hk]
  · rw [k3, h3]
  · rw [k4 (h5 ha), h3]; exact h4 ha

/-- A change of everything but registers, special registers and identity. -/
theorem Group.Calm.of_same {g g' : Group} (h1 : g'.ident = g.ident) (h2 : g'.regs = g.regs) (h3 : g'.sr = g.sr)
    (h4 : g.awaits = false → g'.awaits = false) : g.Calm g' :=
  ⟨h1, fun _ _ => by simp only [Group.readReg, h1, h2], ⟨g.sr.barstat, h3, fun _ => rfl⟩, h4⟩

theorem Group.settle_calm (g : Group) : g.Calm g.settle :=
  .of_same g.settle_ident g.settle_regs g.settle_sr Group.settle_awaits

/-! ### The order of states -/

theorem calm_iff {s t : State} : Calm s t ↔
    SameMemory s t ∧ ∀ k g', t.group k = some g' → ∃ g, s.group k = some g ∧ g.Calm g' := Iff.rfl

theorem Calm.refl (s : State) : Calm s s := calm_iff.mpr ⟨fun _ => rfl, fun _ g h => ⟨g, h, .refl g⟩⟩

theorem Calm.trans {s t u : State} (h : Calm s t) (h' : Calm t u) : Calm s u := by
  rw [calm_iff] at *
  refine ⟨fun a => (h'.1 a).trans (h.1 a), fun k g'' hu => ?_⟩
  obtain ⟨g', ht, hc'⟩ := h'.2 k g'' hu
  obtain ⟨g, hs, hc⟩ := h.2 k g' ht
  exact ⟨g, hs, hc.trans hc'⟩

theorem Calm.of_groups {s t : State} (hm : t.mem = s.mem) (h : ∀ k g', t.group k = some g' → ∃ g, s.group k = some g ∧ g.Calm g') :
    Calm s t := calm_iff.mpr ⟨sameMemory_of_mem hm, h⟩

theorem Calm.of_same {s t : State} (hm : t.mem = s.mem) (hg : t.groups = s.groups) : Calm s t :=
  .of_groups hm fun k g' h => ⟨g', by simpa only [State.group, hg] using h, .refl g'⟩

theorem State.group_setGroup (s : State) (k j : Nat) (g : Group) :
    (s.setGroup k g).group j = if j = k then some g else s.group j := Map.find_set _ _ _ _

theorem State.group_updGroup (s : State) (k j : Nat) (f : Group → Group) :
    (s.updGroup k f).group j = if j = k then (s.group j).map f else s.group j := Map.find_upd _ _ _ _

theorem State.setGroup_calm {s : State} {k : Nat} {g g' : Group} (h : s.group k = some g) (hc : g.Calm g') :
    Calm s (s.setGroup k g') := by
  refine .of_groups rfl fun j x hx => ?_
  rw [State.group_setGroup] at hx
  split at hx
  · rename_i e; subst e; cases hx; exact ⟨g, h, hc⟩
  · exact ⟨x, hx, .refl x⟩

theorem State.updGroup_calm (s : State) (k : Nat) (f : Group → Group) (hc : ∀ g, s.group k = some g → g.Calm (f g)) :
    Calm s (s.updGroup k f) := by
  refine .of_groups rfl fun j x hx => ?_
  rw [State.group_updGroup] at hx
  split at hx
  · rename_i e
    subst e
    cases hg : s.group j with
    | none => simp [hg] at hx
    | some g => rw [hg] at hx; cases hx; exact ⟨g, rfl, hc g hg⟩
  · exact ⟨x, hx, .refl x⟩

theorem Map.mem_of_find {α : Type} {m : Map α} {a : Nat} {v : α} (h : Map.find m a = some v) : (a, v) ∈ m := by
  induction m with
  | nil => simp [Map.find] at h
  | cons q m ih =>
    obtain ⟨k, w⟩ := q
    simp only [Map.find] at h
    split at h
    · rename_i e; subst e; cases h; simp
    · exact List.mem_cons_of_mem _ (ih h)

theorem Map.find_erases {α β : Type} (l : List (Nat × β)) : ∀ (m : Map α) (a : Nat) (v : α),
    Map.find (l.foldl (fun m x => Map.erase m x.1) m) a = some v → Map.find m a = some v := by
  induction l with
  | nil => intro m a v h; exact h
  | cons x l ih =>
    intro m a v h
    have := ih _ a v h
    rw [Map.find_erase] at this
    split at this
    · cases this
    · exact this

theorem Split.unblock_free {e : Split} (h : Split.barred e = false) : Split.barred e.unblock = false := by
  unfold Split.unblock
  split
  · exact Split.barred_none _ rfl
  · exact h

theorem Group.unblock_calm (g : Group) : g.Calm g.unblock := by
  refine .of_same rfl rfl rfl fun h => ?_
  rw [Group.awaits_false] at h ⊢
  intro e he
  unfold Group.entries at h he
  simp only [Group.unblock, List.map_map, List.mem_append, List.mem_map, Function.comp] at h he
  rcases he with ⟨x, hx, rfl⟩ | ⟨x, hx, rfl⟩
  · exact Split.unblock_free (h _ (.inl ⟨x, hx, rfl⟩))
  · exact Split.unblock_free (h _ (.inr hx))

theorem Map.find_mapped {α : Type} (f : Nat → α → α) (m : Map α) (k : Nat) :
    Map.find (m.map fun x => (x.1, f x.1 x.2)) k = (Map.find m k).map (f k) := by
  induction m with
  | nil => rfl
  | cons x m ih =>
    obtain ⟨j, v⟩ := x
    simp only [List.map_cons, Map.find]
    split
    · rename_i e; subst e; rfl
    · exact ih

theorem State.unblock_calm (s : State) : Calm s s.unblock := by
  refine .of_groups rfl fun k g' h => ?_
  unfold State.group State.unblock at h
  simp only [] at h
  rw [Map.find_mapped (fun k (g : Group) =>
    if (Map.find s.runs (portKey k)).any (·.group == k) then g.unblock else g.unblock.settle)] at h
  cases hg : Map.find s.groups k with
  | none => rw [hg] at h; cases h
  | some g =>
    rw [hg] at h
    cases h
    refine ⟨g, hg, ?_⟩
    dsimp only
    split
    · exact g.unblock_calm
    · exact g.unblock_calm.trans (Group.settle_calm _)

theorem stopContext_calm (s : State) (c : Nat) : Calm s (stopContext s c) := by
  refine Calm.trans (Calm.of_groups ?_ fun k g' h => ⟨g', ?_, .refl g'⟩) (State.unblock_calm _)
  · rfl
  · exact Map.find_erases _ _ _ _ h

theorem State.contextFault_calm (s : State) (c e : Nat) : Calm s (s.contextFault c e) :=
  (stopContext_calm s c).trans (.of_same rfl rfl)

/-! ### Raised traps, settling, barriers, runs -/

theorem State.raiseTrap_calm (s : State) (k : Nat) (t : Trap) : Calm s (s.raiseTrap k t) := by
  unfold State.raiseTrap
  split
  · exact .refl s
  · rename_i g hg
    have h : Calm s (s.setGroup k { g with traps := insertTrap { t with clock := s.clock } g.traps }) :=
      State.setGroup_calm hg (.of_same rfl rfl rfl id)
    split
    · split
      · exact s.contextFault_calm _ _
      · exact h
    · exact h

theorem Group.updLive_free {g : Group} {n : Nat} {f : Split → Split} (hf : ∀ e, Split.barred (f e) = false ∨ Split.barred (f e) = Split.barred e)
    (h : g.awaits = false) : (g.updLive n f).awaits = false := by
  rw [Group.awaits_false] at *
  intro e he
  unfold Group.updLive Group.entries at he
  rcases List.mem_append.mp he with he | he
  · obtain ⟨x, hx, rfl⟩ := List.mem_map.mp he
    unfold Map.upd at hx
    split at hx
    · rename_i v hv
      rcases Map.mem_set _ _ _ x hx with e | hx
      · subst e
        have hv' : Split.barred v = false := by
          refine h v (List.mem_append_left _ (List.mem_map.mpr ⟨(n, v), ?_, rfl⟩))
          exact Map.mem_of_find hv
        rcases hf v with e | e
        · exact e
        · exact e.trans hv'
      · exact h x.2 (List.mem_append_left _ (List.mem_map_of_mem hx))
    · exact h x.2 (List.mem_append_left _ (List.mem_map_of_mem hx))
  · exact h e (List.mem_append_right _ he)

/-- The group in which a span trap is raised: it has the same entries, perhaps at other places. -/
theorem Group.spanTrap_same {g g' : Group} {n : Nat} (h : g.spanTrap = some (n, g')) :
    g'.ident = g.ident ∧ g'.regs = g.regs ∧ g'.sr = g.sr ∧ (g.awaits = false → g'.awaits = false) := by
  unfold Group.spanTrap at h
  simp only [] at h
  split at h
  · split at h
    · cases h
    · rename_i m e he
      split at h
      · cases h; exact ⟨rfl, rfl, rfl, id⟩
      · split at h
        · cases h
        · rename_i k x r hl
          cases h
          refine ⟨rfl, rfl, rfl, fun ha => ?_⟩
          have he' : Split.barred e = false := Group.ents_free ha _ (List.mem_of_find?_eq_some he)
          rw [Group.awaits_false] at ha ⊢
          intro y hy
          unfold Group.entries at ha hy
          rw [hl] at ha
          simp only [List.map_cons, List.cons_append, List.mem_cons, List.mem_append] at hy ha
          rcases hy with rfl | hy | hy | hy
          · exact he'
          · exact ha y (.inr (.inl hy))
          · exact ha y (.inr (.inr (List.mem_of_mem_eraseIdx hy)))
          · have hy' : y = x := by simpa using hy
            exact ha y (.inl hy')
  · cases h

theorem State.settleOne_calm (s : State) (k : Nat) : Calm s (s.settleOne k) := by
  unfold State.settleOne
  split
  · exact .refl s
  · rename_i g hg
    have hg : s.group k = some g := by
      split at hg
      · cases hg
      · exact hg
    simp only []
    have h1 : Calm s (s.setGroup k g.settle) := State.setGroup_calm hg g.settle_calm
    split
    · exact h1
    · rename_i n g' hs
      have hs' : g.settle.spanTrap = some (n, g') := by
        split at hs
        · exact hs
        · cases hs
      obtain ⟨i1, i2, i3, i4⟩ := Group.spanTrap_same hs'
      split
      · exact h1
      · split
        · exact h1
        · refine .trans (.trans h1 ?_) (State.raiseTrap_calm _ _ _)
          refine State.setGroup_calm (g := g.settle) (by simp [State.group_setGroup]) ?_
          exact .of_same i1 i2 i3 fun ha => Group.updLive_free (fun e => Or.inl rfl) (i4 ha)

theorem leaves_unbarred {key : Nat} {b : Bar} {e : Split} (h : Split.barred e = false) : leaves key b e = none := by
  unfold leaves
  split
  · rename_i h'; simp [Split.barred, h'] at h
  · rfl

/-- Only predicates and BARSTAT differ. -/
def Group.PredOnly (g g' : Group) : Prop :=
  g'.ident = g.ident ∧ (∀ key, key < 256 ∨ 512 ≤ key → g'.readReg key = g.readReg key) ∧ ∃ b, g'.sr = { g.sr with barstat := b }

theorem Group.PredOnly.refl (g : Group) : g.PredOnly g := ⟨rfl, fun _ _ => rfl, g.sr.barstat, rfl⟩

theorem Group.PredOnly.trans {a b c : Group} (h : a.PredOnly b) (h' : b.PredOnly c) : a.PredOnly c := by
  obtain ⟨h1, h2, x, h3⟩ := h
  obtain ⟨k1, k2, y, k3⟩ := h'
  exact ⟨k1.trans h1, fun key hk => (k2 key hk).trans (h2 key hk), y, by rw [k3, h3]⟩

@[simp] theorem Group.writeReg_ident (g : Group) (k : Nat) (v : Word) : (g.writeReg k v).ident = g.ident := by
  unfold Group.writeReg; split <;> rfl
@[simp] theorem Group.writeReg_sr (g : Group) (k : Nat) (v : Word) : (g.writeReg k v).sr = g.sr := by
  unfold Group.writeReg; split <;> rfl
@[simp] theorem Group.writeReg_live (g : Group) (k : Nat) (v : Word) : (g.writeReg k v).live = g.live := by
  unfold Group.writeReg; split <;> rfl
@[simp] theorem Group.writeReg_pend (g : Group) (k : Nat) (v : Word) : (g.writeReg k v).pend = g.pend := by
  unfold Group.writeReg; split <;> rfl

/-- A register that the write does not name reads as before. -/
theorem Group.readReg_writeReg (g : Group) (k key : Nat) (v : Word) (h : ringKey g.ident.rows k ≠ ringKey g.ident.rows key) :
    (g.writeReg k v).readReg key = g.readReg key := by
  unfold Group.readReg
  rw [Group.writeReg_ident]
  unfold Group.writeReg
  split
  · rfl
  · dsimp only
    rw [Map.get_put, if_neg (Ne.symm h)]

/-- A register that is written reads as what was written, p0 apart. -/
theorem Group.readReg_written (g : Group) (k : Nat) (v : Word) (h : ¬ (256 ≤ k ∧ k < 288)) : (g.writeReg k v).readReg k = v := by
  unfold Group.readReg
  rw [Group.writeReg_ident]
  unfold Group.writeReg
  rw [if_neg h]
  dsimp only
  rw [Map.get_put, if_pos rfl]

@[simp] theorem Group.writeAll_ident (ws : List RegWrite) : ∀ g : Group, (g.writeAll ws).ident = g.ident := by
  induction ws with
  | nil => intro g; rfl
  | cons w ws ih => intro g; exact (ih _).trans (g.writeReg_ident _ _)
@[simp] theorem Group.writeAll_sr (ws : List RegWrite) : ∀ g : Group, (g.writeAll ws).sr = g.sr := by
  induction ws with
  | nil => intro g; rfl
  | cons w ws ih => intro g; exact (ih _).trans (g.writeReg_sr _ _)
@[simp] theorem Group.writeAll_live (ws : List RegWrite) : ∀ g : Group, (g.writeAll ws).live = g.live := by
  induction ws with
  | nil => intro g; rfl
  | cons w ws ih => intro g; exact (ih _).trans (g.writeReg_live _ _)
@[simp] theorem Group.writeAll_pend (ws : List RegWrite) : ∀ g : Group, (g.writeAll ws).pend = g.pend := by
  induction ws with
  | nil => intro g; rfl
  | cons w ws ih => intro g; exact (ih _).trans (g.writeReg_pend _ _)

theorem Group.readReg_writeAll (ws : List RegWrite) (key : Nat) : ∀ g : Group,
    (∀ w ∈ ws, ringKey g.ident.rows w.key ≠ ringKey g.ident.rows key) → (g.writeAll ws).readReg key = g.readReg key := by
  induction ws with
  | nil => intro g _; rfl
  | cons w ws ih =>
    intro g h
    have h1 := g.readReg_writeReg w.key key w.val (h w (by simp))
    have h2 := ih (g.writeReg w.key w.val) (by
      intro v hv
      rw [Group.writeReg_ident]
      exact h v (List.mem_cons_of_mem _ hv))
    exact h2.trans h1

theorem ringKey_low {rows k : Nat} (h : k < 1024) : ringKey rows k = k := by simp [ringKey, h]

theorem ringKey_high {rows k : Nat} (h : 1024 ≤ k) : 1024 ≤ ringKey rows k := by
  unfold ringKey
  rw [if_neg (by omega)]
  omega

theorem mem_lanesOf {m : Lanes} {l : Nat} (h : l ∈ lanesOf m) : l < 32 := by
  have := (List.mem_filter.mp h).1
  simpa using this

theorem predWrites_key {pd : PDest} {l : Nat} {b : Bool} {w : RegWrite} (hl : l < 32) (h : w ∈ predWrites pd l b) :
    256 ≤ w.key ∧ w.key < 512 := by
  unfold predWrites at h
  split at h
  · simp only [List.mem_singleton] at h
    subst h
    have := pd.reg.isLt
    unfold predKey
    dsimp only
    omega
  · cases h

theorem departSplit_predOnly (g : Group) (key : Nat) (b : Bar) (wait : Option Nat) (pd : PDest) (lanes : Lanes)
    (sc : Nat) :
    g.PredOnly (departSplit g key b wait pd lanes sc) := by
  unfold departSplit
  refine ⟨by simp, fun k hk => ?_, barstatOf key b, by simp⟩
  have : (g.writeAll ((lanesOf lanes).flatMap fun l => predWrites pd l b.abandoned.isNone)).readReg k = g.readReg k := by
    apply Group.readReg_writeAll
    intro w hw
    obtain ⟨l, hl, hw⟩ := List.mem_flatMap.mp hw
    have := predWrites_key (mem_lanesOf hl) hw
    rw [ringKey_low (by omega)]
    intro e
    by_cases h : k < 1024
    · rw [ringKey_low h] at e; omega
    · have := ringKey_high (rows := g.ident.rows) (show 1024 ≤ k by omega); omega
  exact this

/-- What departGroup does to one entry. -/
def departStep (key : Nat) (b : Bar) (g : Group) (e : Split) : Group × Split :=
  match leaves key b e with
  | some (wait, pd, lanes, sc) => (departSplit g key b wait pd lanes sc, { e with park := none, pc := e.pc + 12, wait := 0 })
  | none => (g, e)

theorem departStep_predOnly (key : Nat) (b : Bar) (g : Group) (e : Split) : g.PredOnly (departStep key b g e).1 := by
  unfold departStep
  split
  · exact departSplit_predOnly _ _ _ _ _ _ _
  · exact .refl g

theorem departStep_free {key : Nat} {b : Bar} {g : Group} {e : Split} (h : Split.barred e = false) : departStep key b g e = (g, e) := by
  unfold departStep; rw [leaves_unbarred h]

theorem departGroup_eq (key : Nat) (b : Bar) (g : Group) : departGroup key b g =
    let p := g.live.foldl (fun (acc : Group × Map Split) x => ((departStep key b acc.1 x.2).1, acc.2 ++ [(x.1, (departStep key b acc.1 x.2).2)])) (g, [])
    let q := p.1.pend.foldl (fun (acc : Group × List Split) e => ((departStep key b acc.1 e).1, acc.2 ++ [(departStep key b acc.1 e).2])) (p.1, [])
    { q.1 with live := p.2, pend := q.2 } := rfl

theorem fold_predOnly {α β : Type} (f : Group → α → Group × β) (hf : ∀ (g : Group) a, g.PredOnly (f g a).1) (l : List α) :
    ∀ (g : Group) (acc : List β), g.PredOnly (l.foldl (fun (acc : Group × List β) a => ((f acc.1 a).1, acc.2 ++ [(f acc.1 a).2])) (g, acc)).1 := by
  induction l with
  | nil => intro g _; exact .refl g
  | cons a l ih => intro g acc; exact (hf g a).trans (ih _ _)

theorem fold_free {α β : Type} (f : Group → α → Group × β) (h : α → β) (l : List α) :
    ∀ (g : Group) (acc : List β), (∀ g, ∀ a ∈ l, f g a = (g, h a)) →
      l.foldl (fun (acc : Group × List β) a => ((f acc.1 a).1, acc.2 ++ [(f acc.1 a).2])) (g, acc) = (g, acc ++ l.map h) := by
  induction l with
  | nil => intro g acc _; simp
  | cons a l ih =>
    intro g acc hf
    rw [List.foldl_cons, hf g a (by simp), ih g _ fun g b hb => hf g b (List.mem_cons_of_mem _ hb)]
    simp

theorem departGroup_free {key : Nat} {b : Bar} {g : Group} (h : g.awaits = false) : departGroup key b g = g := by
  rw [Group.awaits_false] at h
  rw [departGroup_eq]
  have h1 := fold_free (fun g (x : Nat × Split) => ((departStep key b g x.2).1, ((x.1, (departStep key b g x.2).2) : Nat × Split))) id g.live g []
    (fun g' x hx => by
      rw [departStep_free (h x.2 (List.mem_append_left _ (List.mem_map_of_mem hx)))]; rfl)
  have h2 := fold_free (fun g (e : Split) => departStep key b g e) id g.pend g []
    (fun g' e he => departStep_free (h e (List.mem_append_right _ he)))
  simp only [List.map_id, List.nil_append] at h1 h2
  simp only [h1, h2]

theorem departGroup_calm (key : Nat) (b : Bar) (g : Group) : g.Calm (departGroup key b g) := by
  by_cases h : g.awaits = true
  · have hp : g.PredOnly (departGroup key b g) := by
      rw [departGroup_eq]
      have h1 := fold_predOnly (fun g (x : Nat × Split) => ((departStep key b g x.2).1, ((x.1, (departStep key b g x.2).2) : Nat × Split)))
        (fun g x => departStep_predOnly key b g x.2) g.live g []
      simp only [] at h1 ⊢
      generalize (g.live.foldl (fun (acc : Group × Map Split) x => ((departStep key b acc.1 x.2).1, acc.2 ++ [(x.1, (departStep key b acc.1 x.2).2)])) (g, [])) = p at h1 ⊢
      have h2 := fold_predOnly (fun g (e : Split) => departStep key b g e) (fun g e => departStep_predOnly key b g e) p.1.pend p.1 []
      exact h1.trans h2
    obtain ⟨p1, p2, x, p3⟩ := hp
    exact ⟨p1, fun key hk => p2 key (hk h), ⟨x, p3, fun hf => by rw [h] at hf; cases hf⟩, fun hf => by rw [h] at hf; cases hf⟩
  · have h' : g.awaits = false := by simpa using h
    rw [departGroup_free h']
    exact .refl g

theorem foldl_calm {α : Type} (f : State → α → State) (h : ∀ s a, Calm s (f s a)) (l : List α) :
    ∀ s : State, Calm s (l.foldl f s) := by
  induction l with
  | nil => intro s; exact .refl s
  | cons a l ih => intro s; exact (h s a).trans (ih _)

theorem State.depart_calm (s : State) (key : Nat) (b : Bar) : Calm s (s.depart key b) := by
  unfold State.depart
  exact foldl_calm _ (fun s k => (s.updGroup_calm k _ fun g _ => departGroup_calm key b g).trans (State.settleOne_calm _ k)) _ s

theorem State.setBar_calm (s : State) (key : Nat) (b : Bar) : Calm s (s.setBar key b) := by
  unfold State.setBar
  split
  · exact Calm.trans (.of_same rfl rfl) (State.depart_calm _ _ _)
  · exact .of_same rfl rfl

theorem State.exited_calm (s : State) (k : Nat) : Calm s (s.exited k) := by
  unfold State.exited
  split
  · exact .refl s
  · split
    · exact .refl s
    · split
      · split
        · exact s.setBar_calm _ _
        · exact .refl s
      · exact .refl s

theorem State.settle_calm (s : State) (k : Nat) : Calm s (s.settle k) := by
  unfold State.settle
  split
  · exact .refl s
  · simp only []
    split
    · split
      · exact (s.settleOne_calm k).trans (State.exited_calm _ k)
      · exact s.settleOne_calm k
    · exact s.settleOne_calm k

theorem State.endRun_calm (s : State) (k : Nat) : Calm s (s.endRun k) := by
  unfold State.endRun
  exact Calm.trans (.of_same rfl rfl) (State.settle_calm _ k)

theorem State.account_calm (s : State) (k : Nat) (e : Bool) : Calm s (s.account k e) := by
  unfold State.account
  split
  · exact s.settle_calm k
  · split
    · exact s.endRun_calm k
    · exact .of_same rfl rfl

theorem State.quietly_calm (n : Nat) (s : State) (k : Nat) (e : Bool) : Calm s (State.quietly n s k e) := by
  unfold State.quietly
  split
  · exact s.settle_calm k
  · split
    · exact Calm.trans (.of_same rfl rfl) (State.account_calm _ k e)
    · exact s.settle_calm k

/-! ### Everything outside groups, barriers and runs -/

theorem Settles.refl (s : State) : Settles s s := rfl

theorem Settles.trans {s t u : State} (h : Settles s t) (h' : Settles t u) : Settles s u := by
  unfold Settles at *
  rw [h] at h'
  exact h'

theorem Settles.of_updGroup (s : State) (k : Nat) (f : Group → Group) : Settles s (s.updGroup k f) := rfl
theorem Settles.of_setGroup (s : State) (k : Nat) (g : Group) : Settles s (s.setGroup k g) := rfl

/-- The split in a live slot has no privilege. -/
def State.unprivileged (s : State) (k slot : Nat) : Prop :=
  ∀ g e, s.group k = some g → Map.find g.live slot = some e → e.priv = false

theorem State.raiseTrap_settles {s : State} {k : Nat} {t : Trap} (h : s.unprivileged k t.slot) : Settles s (s.raiseTrap k t) := by
  unfold State.raiseTrap
  split
  · rfl
  · rename_i g hg
    split
    · rename_i e he
      rw [if_neg (by rw [h g e hg he]; decide)]
      rfl
    · rfl

theorem State.settleOne_settles (s : State) (k : Nat) : Settles s (s.settleOne k) := by
  unfold State.settleOne
  split
  · rfl
  · simp only []
    split
    · rfl
    · split
      · rfl
      · rename_i g _ slot _ e he
        split
        · rfl
        · rename_i hp
          refine .trans (.trans (.of_setGroup s k _) (.of_setGroup _ k _)) (State.raiseTrap_settles ?_)
          intro g' e' hg' he'
          simp only [State.group_setGroup, if_true] at hg'
          cases hg'
          unfold Group.updLive at he'
          dsimp only at he'
          rw [Map.find_upd, if_pos rfl, he] at he'
          cases he'
          simpa using hp

theorem foldl_settles {α : Type} (f : State → α → State) (h : ∀ s a, Settles s (f s a)) (l : List α) :
    ∀ s : State, Settles s (l.foldl f s) := by
  induction l with
  | nil => intro s; rfl
  | cons a l ih => intro s; exact (h s a).trans (ih _)

theorem State.depart_settles (s : State) (key : Nat) (b : Bar) : Settles s (s.depart key b) :=
  foldl_settles _ (fun s k => Settles.trans (.of_updGroup s k _) (State.settleOne_settles _ k)) _ s

theorem State.setBar_settles (s : State) (key : Nat) (b : Bar) : Settles s (s.setBar key b) := by
  unfold State.setBar
  split
  · refine Settles.trans (t := { s with bars := _ }) rfl (State.depart_settles _ _ _)
  · rfl

theorem State.exited_settles (s : State) (k : Nat) : Settles s (s.exited k) := by
  unfold State.exited
  split
  · rfl
  · split
    · rfl
    · split
      · split
        · exact s.setBar_settles _ _
        · rfl
      · rfl

theorem State.settle_settles (s : State) (k : Nat) : Settles s (s.settle k) := by
  unfold State.settle
  split
  · rfl
  · simp only []
    split
    · split
      · exact (s.settleOne_settles k).trans (State.exited_settles _ k)
      · exact s.settleOne_settles k
    · exact s.settleOne_settles k

theorem Settles.still {s t : State} (h : Settles s t) : Still s t := by
  unfold Settles at h
  unfold Still
  rw [h]

theorem State.settle_still (s : State) (k : Nat) : Still s (s.settle k) := (s.settle_settles k).still

@[simp] theorem State.settle_runs (s : State) (k : Nat) : (s.settle k).runs = s.runs := by rw [s.settle_settles k]
@[simp] theorem State.settle_rr (s : State) (k : Nat) : (s.settle k).rr = s.rr := by rw [s.settle_settles k]

theorem Still.refl (s : State) : Still s s := rfl

theorem Still.trans {s t u : State} (h : Still s t) (h' : Still t u) : Still s u := by
  unfold Still at *
  rw [h] at h'
  exact h'

theorem State.endRun_still (s : State) (k : Nat) : Still s (s.endRun k) :=
  Still.trans (t := { s with runs := Map.erase s.runs (portKey k), rr := Map.set s.rr (portKey k) (k % 16 + 1) }) rfl (State.settle_still _ k)

theorem State.account_still (s : State) (k : Nat) (e : Bool) : Still s (s.account k e) := by
  unfold State.account
  split
  · exact s.settle_still k
  · split
    · exact s.endRun_still k
    · rfl

end Sys2Proof.Machine
end

