-- ==== Sys2Proof/Laws/Frame.lean ====
section
/-! SUPPORT. What the effects of instructions leave alone once they retire. -/
namespace Sys2Proof.Machine

/-- What an effect that commits without a report, a kill or a privileged trap does between its own state and the next. -/
theorem KeptBut.kept_of {s u t : State} {i : Iss} {dest : List Nat} (h : KeptBut s u i dest) (hc : Calm u t)
    (hs : i.sp.priv = false → Still u t) (ha : ∀ k g', u.group k = some g' → ∀ g, s.group k = some g → g.awaits = false → g'.awaits = false) :
    KeptBut s t i dest := by
  obtain ⟨hm, hst, hg⟩ := h
  refine ⟨fun a => (hc.1 a).trans (hm a), fun hp => (hst hp).trans (hs hp), fun k g'' hk => ?_⟩
  obtain ⟨g', hg', c1, c2, ⟨b, c3, c4⟩, _⟩ := hc.2 k g'' hk
  obtain ⟨g, hg0, e1, e2, b0, c0, f0, e3, e4, e5⟩ := hg k g' hg'
  have haw := ha k g' hg' g hg0
  refine ⟨g, hg0, c1.trans e1, fun key h1 h2 => ?_, b, c0, f0, ?_, e4, fun hf => ?_⟩
  · rw [c2 key ?_, e2 key h1 h2]
    intro h'
    by_cases hg1 : g.awaits = true
    · exact h2 hg1
    · rw [haw (by simpa using hg1)] at h'; cases h'
  · rw [c3, e3]
  · rw [c4 (haw hf), e3]; exact e5 hf

theorem KeptBut.of_group {s : State} {i : Iss} {dest : List Nat} {t : State} (hm : t.mem = s.mem)
    (hst : i.sp.priv = false → Still { s with issue := none } t) (ho : ∀ k, k ≠ i.k → t.group k = s.group k)
    (hg : ∀ g', t.group i.k = some g' → ∃ g, s.group i.k = some g ∧ g'.ident = g.ident
      ∧ (∀ key, (∀ d ∈ dest, ringKey g.ident.rows d ≠ ringKey g.ident.rows key) → g'.readReg key = g.readReg key)
      ∧ ∃ c f, g'.sr = { g.sr with icount := c, fpflags := f }) : KeptBut s t i dest := by
  refine ⟨sameMemory_of_mem hm, hst, fun k g' hk => ?_⟩
  by_cases e : k = i.k
  · subst e
    obtain ⟨g, h1, h2, h3, c, f, h4⟩ := hg g' hk
    exact ⟨g, h1, h2, fun key hd _ => h3 key (hd rfl), g.sr.barstat, c, f, h4, fun h => absurd rfl h, fun _ => rfl⟩
  · rw [ho k e] at hk
    exact ⟨g', hk, rfl, fun _ _ _ => rfl, g'.sr.barstat, g'.sr.icount, g'.sr.fpflags, rfl, fun _ => ⟨rfl, rfl⟩, fun _ => rfl⟩

/-- Groups of the state in which an instruction takes effect. -/
theorem Iss.start_group (i : Iss) (s : State) (k : Nat) :
    (i.start s).group k = if k = i.k ∧ i.again = true then (s.group k).map fun g => { g with fmask := g.fmask &&& ~~~ i.sp.mask } else s.group k := by
  unfold Iss.start
  cases i.again with
  | false => simp [State.group]
  | true =>
    simp only [if_true, and_true]
    exact Map.find_upd _ _ _ _

/-- A chain of changes to the issuing group. -/
theorem State.updGroup_updGroup (s : State) (k : Nat) (f h : Group → Group) :
    (s.updGroup k f).updGroup k h = s.updGroup k fun g => h (f g) := by
  unfold State.updGroup
  congr 1
  unfold Map.upd
  cases hg : Map.find s.groups k with
  | none => simp [hg]
  | some g => simp [Map.find_set_same, Map.set_set]

/-- The whole of an instruction of the common class is one change of the issuing group, and the accounting. -/
theorem Iss.start_eq (i : Iss) (s : State) :
    i.start s = { s with issue := none } ∨ i.start s = ({ s with issue := none } : State).updGroup i.k fun g => { g with fmask := g.fmask &&& ~~~ i.sp.mask } := by
  unfold Iss.start
  cases i.again with
  | false => exact Or.inl rfl
  | true => exact Or.inr rfl

/-- A state that differs from the start of the instruction in its own group alone. -/
def OwnGroup (s t : State) (i : Iss) : Prop :=
  t = { s with issue := none, groups := t.groups } ∧ ∀ k, k ≠ i.k → t.group k = s.group k

theorem OwnGroup.start (i : Iss) (s : State) : OwnGroup s (i.start s) i := by
  constructor
  · unfold Iss.start; split <;> rfl
  · intro k hk
    rw [Iss.start_group, if_neg (fun h => hk h.1)]

theorem OwnGroup.updGroup {s t : State} {i : Iss} (h : OwnGroup s t i) (f : Group → Group) : OwnGroup s (t.updGroup i.k f) i := by
  obtain ⟨h1, h2⟩ := h
  constructor
  · unfold State.updGroup; rw [h1]
  · intro k hk
    rw [State.group_updGroup, if_neg hk, h2 k hk]

theorem OwnGroup.kept {s t : State} {i : Iss} {dest : List Nat} (h : OwnGroup s t i)
    (hg : ∀ g', t.group i.k = some g' → ∃ g, s.group i.k = some g ∧ g'.ident = g.ident
      ∧ (∀ key, (∀ d ∈ dest, ringKey g.ident.rows d ≠ ringKey g.ident.rows key) → g'.readReg key = g.readReg key)
      ∧ ∃ c f, g'.sr = { g.sr with icount := c, fpflags := f }) : KeptBut s t i dest :=
  .of_group (by rw [h.1]) (fun _ => by unfold Still; rw [h.1]) h.2 hg

/-- What the own changes of an instruction keep of its group. -/
def Group.KeptBut (dest : List Nat) (g g' : Group) : Prop :=
  g'.ident = g.ident
    ∧ (∀ key, (∀ d ∈ dest, ringKey g.ident.rows d ≠ ringKey g.ident.rows key) → g'.readReg key = g.readReg key)
    ∧ (∃ c f, g'.sr = { g.sr with icount := c, fpflags := f }) ∧ (g.awaits = false → g'.awaits = false)

theorem Group.KeptBut.refl (dest : List Nat) (g : Group) : g.KeptBut dest g := ⟨rfl, fun _ _ => rfl, ⟨_, _, rfl⟩, id⟩

theorem Group.KeptBut.trans {dest : List Nat} {a b c : Group} (h : a.KeptBut dest b) (h' : b.KeptBut dest c) : a.KeptBut dest c := by
  obtain ⟨h1, h2, ⟨x, y, h3⟩, h4⟩ := h
  obtain ⟨k1, k2, ⟨x', y', k3⟩, k4⟩ := h'
  refine ⟨k1.trans h1, fun key hk => ?_, ⟨x', y', by rw [k3, h3]⟩, fun h => k4 (h4 h)⟩
  rw [k2 key (by rw [h1]; exact hk), h2 key hk]

theorem Group.KeptBut.of_same {dest : List Nat} {g g' : Group} (h1 : g'.ident = g.ident) (h2 : g'.regs = g.regs)
    (h3 : ∃ c f, g'.sr = { g.sr with icount := c, fpflags := f }) (h4 : g.awaits = false → g'.awaits = false) : g.KeptBut dest g' :=
  ⟨h1, fun _ _ => by simp only [Group.readReg, h1, h2], h3, h4⟩

theorem Group.writeAll_keptBut (dest : List Nat) (g : Group) (ws : List RegWrite) (h : ∀ w ∈ ws, w.key ∈ dest) :
    g.KeptBut dest (g.writeAll ws) := by
  refine ⟨by simp, fun key hk => ?_, ⟨g.sr.icount, g.sr.fpflags, by simp⟩, fun ha => ?_⟩
  · exact Group.readReg_writeAll ws key g fun w hw => hk w.key (h w hw)
  · rw [Group.awaits_eq] at *
    simpa [Group.entries] using ha

theorem commitGroup_keptBut (dest : List Nat) (ctl : Ctl) (again : Bool) (g : Group) : g.KeptBut dest (commitGroup ctl again g) :=
  .of_same rfl rfl ⟨_, _, rfl⟩ id

theorem updLive_keptBut (dest : List Nat) (g : Group) (n : Nat) (f : Split → Split)
    (hf : ∀ e, Split.barred (f e) = false ∨ Split.barred (f e) = Split.barred e) : g.KeptBut dest (g.updLive n f) :=
  .of_same rfl rfl ⟨g.sr.icount, g.sr.fpflags, rfl⟩ (Group.updLive_free hf)

/-- An instruction whose own state differs from the start in its own group alone, and there only as `dest` allows. -/
structure OwnKept (s u : State) (i : Iss) (dest : List Nat) : Prop where
  own  : OwnGroup s u i
  kept : ∀ g', u.group i.k = some g' → ∃ g, s.group i.k = some g ∧ g.KeptBut dest g'

theorem OwnKept.start (s : State) (i : Iss) (dest : List Nat) : OwnKept s (i.start s) i dest := by
  refine ⟨.start i s, fun g' h => ?_⟩
  rw [Iss.start_group] at h
  split at h
  · cases hg : s.group i.k with
    | none => simp [hg] at h
    | some g => rw [hg] at h; cases h; exact ⟨g, rfl, .of_same rfl rfl ⟨_, _, rfl⟩ id⟩
  · exact ⟨g', h, .refl _ _⟩

theorem OwnKept.updGroup {s u : State} {i : Iss} {dest : List Nat} (h : OwnKept s u i dest) (f : Group → Group)
    (hf : ∀ g : Group, g.KeptBut dest (f g)) : OwnKept s (u.updGroup i.k f) i dest := by
  refine ⟨h.own.updGroup f, fun g' hg => ?_⟩
  rw [State.group_updGroup, if_pos rfl] at hg
  cases hu : u.group i.k with
  | none => simp [hu] at hg
  | some g1 =>
    rw [hu] at hg
    cases hg
    obtain ⟨g, h1, h2⟩ := h.kept g1 hu
    exact ⟨g, h1, h2.trans (hf g1)⟩

theorem OwnKept.raiseFlags {s u : State} {i : Iss} {dest : List Nat} (h : OwnKept s u i dest) (fl : Nat) :
    OwnKept s (u.raiseFlags i.k fl) i dest :=
  h.updGroup _ fun _ => .of_same rfl rfl ⟨_, _, rfl⟩ id

theorem OwnKept.landNow {s u : State} {i : Iss} {dest : List Nat} (h : OwnKept s u i dest) (ws : List RegWrite)
    (hw : ∀ w ∈ ws, w.key ∈ dest) : OwnKept s (u.landNow i.k ws) i dest :=
  h.updGroup _ fun g => g.writeAll_keptBut dest ws hw

theorem OwnKept.outstanding {s u : State} {i : Iss} {dest : List Nat} (h : OwnKept s u i dest) (min : Nat) (ready : Bool)
    (ws : List RegWrite) : OwnKept s (u.outstanding i.k min ready ws) i dest := by
  unfold State.outstanding
  split
  · exact h
  · exact h.updGroup _ fun _ => .of_same rfl rfl ⟨_, _, rfl⟩ id

theorem OwnKept.writeResult {s u : State} {i : Iss} {dest : List Nat} (h : OwnKept s u i dest) (lat : Nat) (ws : List RegWrite)
    (hw : lat = 0 → ∀ w ∈ ws, w.key ∈ dest) : OwnKept s (u.writeResult i.k lat ws) i dest := by
  unfold State.writeResult
  split
  · rename_i hl; exact h.landNow ws (hw hl)
  · exact h.outstanding lat true ws

theorem OwnKept.keptBut {s u t : State} {i : Iss} {dest : List Nat} (h : OwnKept s u i dest) (hc : Calm u t)
    (hs : i.sp.priv = false → Still u t) : KeptBut s t i dest := by
  refine (h.own.kept (dest := dest) fun g' hg => ?_).kept_of hc hs fun k g' hg g hg0 ha => ?_
  · obtain ⟨g, h1, h2, h3, ⟨c, f, h4⟩, _⟩ := h.kept g' hg
    exact ⟨g, h1, h2, h3, c, f, h4⟩
  · by_cases e : k = i.k
    · subst e
      obtain ⟨g1, h1, h2⟩ := h.kept g' hg
      rw [hg0] at h1
      cases h1
      exact h2.2.2.2 ha
    · rw [h.own.2 k e, hg0] at hg
      cases hg
      exact ha

theorem State.account_keptBut {s u : State} {i : Iss} {dest : List Nat} (h : OwnKept s u i dest) (e : Bool) :
    KeptBut s (u.account i.k e) i dest := h.keptBut (u.account_calm i.k e) fun _ => u.account_still i.k e

/-- A commit of an instruction that changes its own group alone. -/
theorem OwnKept.retire_ok {s u : State} {i : Iss} {dest : List Nat} (h : OwnKept s u i dest) (ctl : Ctl) :
    KeptBut s ((Eff.ok u).retire ctl i) i dest := by
  refine State.account_keptBut (OwnKept.updGroup (h.updGroup _ fun g => commitGroup_keptBut dest ctl i.again g) _ fun g => ?_) _
  exact updLive_keptBut dest g i.slot (fun e => { e with pc := i.sp.pc + 12, park := none, quiet := false, defer := false, fault := false }) fun _ => Or.inl rfl

theorem OwnKept.retire_endRun {s u : State} {i : Iss} {dest : List Nat} (h : OwnKept s u i dest) (ctl : Ctl) :
    KeptBut s ((Eff.endRun u).retire ctl i) i dest := by
  refine State.account_keptBut (OwnKept.updGroup (h.updGroup _ fun g => commitGroup_keptBut dest ctl i.again g) _ fun g => ?_) _
  exact updLive_keptBut dest g i.slot (fun e => { e with pc := i.sp.pc + 12, park := none, quiet := false, defer := false, fault := false }) fun _ => Or.inl rfl

/-- A precise trap. -/
theorem OwnKept.retire_trap {s u : State} {i : Iss} {dest : List Nat} (h : OwnKept s u i dest) (ctl : Ctl)
    (hp : i.sp.priv = false → u.unprivileged i.k i.slot) (c : Nat) (m : Lanes) (a x : Nat) :
    KeptBut s ((Eff.trap u c m a x).retire ctl i) i dest := by
  have h1 : OwnKept s (updSplit u i fun e => { e with park := none }) i dest :=
    h.updGroup _ fun g => updLive_keptBut dest g i.slot (fun e => { e with park := none, quiet := false, defer := false, fault := false }) fun _ => Or.inl rfl
  refine h1.keptBut ((State.raiseTrap_calm _ i.k _).trans (State.account_calm _ i.k true)) fun hpr => ?_
  refine Still.trans (Settles.still (State.raiseTrap_settles ?_)) (State.account_still _ i.k true)
  intro g e hg he
  dsimp only at he
  unfold updSplit at hg
  rw [State.group_updGroup, if_pos rfl] at hg
  cases hu : u.group i.k with
  | none => simp [hu] at hg
  | some g1 =>
    rw [hu] at hg
    cases hg
    unfold Group.updLive at he
    dsimp only at he
    rw [Map.find_upd, if_pos rfl] at he
    cases hf : Map.find g1.live i.slot with
    | none => simp [hf] at he
    | some e1 =>
      rw [hf] at he
      cases he
      exact hp hpr g1 e1 hu hf

end Sys2Proof.Machine
end

