-- ==== Sys2Proof/Laws/Alu.lean ====
section
/-! SUPPORT. The common class: an instruction in which every lane computes alone commits its lanes' results or traps. -/
namespace Sys2Proof.Machine

/-- What ends an instruction of the common class: the two clauses of Commits. -/
theorem commits_of_aluEff {ins : Instr} {ctl : Ctl} {lat cls : Nat} {outs : List (Nat × LaneOut)}
    {wr : Nat → LaneOut → List RegWrite} {i : Iss} {s : State}
    (h : exec ins s = .next ((aluEff lat cls wr outs i (i.start s)).retire ctl i)) : Commits ins ctl lat cls outs wr i s := by
  refine ⟨fun hn => ?_, fun c m aux hs => ?_⟩
  · rw [h]; simp only [aluEff, hn]
  · rw [h]; simp only [aluEff, hs]

theorem aluOp3_commits {ins : Instr} {opc lat cls ta tb tc : Nat} {f : AluSrc → LaneOut} {x : Alu} {s : State} {i : Iss}
    (hx : exec ins s = aluOp3 opc lat cls ta tb tc f x s) (h : Issues s x.ctl i) :
    Commits ins x.ctl lat cls (aluOuts x opc ta tb tc f i) (aluWrites x (Alu.row x opc) i.sp.wb) i s := by
  refine commits_of_aluEff ?_
  rw [hx, aluOp3, withIssue_issues h]
  rfl

/-- A law of every lane from the function that the meaning names. -/
theorem laneRule_of_op {ins : Alu → Instr} {opc lat : Nat} {cls ta tb tc : Alu → Nat} {f : Alu → AluSrc → LaneOut}
    {P : Alu → AluSrc → LaneOut → Prop}
    (hx : ∀ x s, exec (ins x) s = aluOp3 opc lat (cls x) (ta x) (tb x) (tc x) (f x) x s) (hP : ∀ x v, P x v (f x v)) :
    LaneRule ins opc lat cls ta tb tc P :=
  fun x s _ h => ⟨f x, aluOp3_commits (hx x s) h, hP x⟩

theorem laneLaw_of_op {ins : Alu → Instr} {opc lat : Nat} {cls ta tb tc : Alu → Nat} {f : Alu → AluSrc → LaneOut}
    (hx : ∀ x s, exec (ins x) s = aluOp3 opc lat (cls x) (ta x) (tb x) (tc x) (f x) x s) :
    LaneLaw ins opc lat cls ta tb tc f :=
  fun x s _ h => aluOp3_commits (hx x s) h

/-- The split that issues keeps its privilege in the state in which the instruction takes effect. -/
theorem Issues.unprivileged {s : State} {ctl : Ctl} {i : Iss} (h : Issues s ctl i) (hp : i.sp.priv = false) :
    (i.start s).unprivileged i.k i.slot := by
  obtain ⟨_, hg, hf, _⟩ := issuing_spec h.1
  intro g e hg' he
  rw [Iss.start_group] at hg'
  split at hg'
  · rw [hg] at hg'; cases hg'
    rw [hf] at he; cases he; exact hp
  · rw [hg] at hg'; cases hg'
    rw [hf] at he; cases he; exact hp

/-- The frame of an instruction of the common class whose writes stay in `dest`, or whose results land later. -/
theorem aluEff_keptBut {s : State} {ctl : Ctl} {i : Iss} (h : Issues s ctl i) (lat cls : Nat) (wr : Nat → LaneOut → List RegWrite)
    (outs : List (Nat × LaneOut)) (dest : List Nat)
    (hw : lat = 0 → ∀ w ∈ outs.flatMap (fun o => wr o.1 o.2), w.key ∈ dest) :
    KeptBut s ((aluEff lat cls wr outs i (i.start s)).retire ctl i) i dest := by
  unfold aluEff
  split
  · exact (OwnKept.start s i dest).retire_trap ctl (fun hp => h.unprivileged hp) _ _ _ _
  · exact (((OwnKept.start s i dest).raiseFlags _).writeResult lat _ hw).retire_ok ctl

/-- The keys that a lane's writes name. -/
theorem mem_destWrites {wb w l x : Nat} {o : Operand} {r : RegWrite} (h : r ∈ destWrites wb o w l x) : r.key ∈ operandKeys wb o w l := by
  unfold destWrites at h
  obtain ⟨⟨k, j⟩, hk, rfl⟩ := List.mem_map.mp h
  exact List.fst_mem_of_mem_zipIdx hk

theorem mem_predWrites {pd : PDest} {l : Nat} {b : Bool} {r : RegWrite} (h : r ∈ predWrites pd l b) :
    pd.valid = true ∧ r.key = predKey pd.reg.val l := by
  unfold predWrites at h
  split at h
  · rename_i hv
    simp only [List.mem_singleton] at h
    subst h
    exact ⟨hv, rfl⟩
  · cases h

theorem mem_aluWrites {x : Alu} {opc : Nat} {i : Iss} {l : Nat} {o : LaneOut} {r : RegWrite} (hl : l ∈ lanesOf i.lanes)
    (h : r ∈ aluWrites x (Alu.row x opc) i.sp.wb l o) : r.key ∈ aluDest x opc i := by
  unfold aluDest
  refine List.mem_flatMap.mpr ⟨l, hl, ?_⟩
  unfold aluWrites at h
  rcases List.mem_append.mp h with h | h
  · refine List.mem_append_left _ ?_
    split at h
    · rename_i w hw
      first
        | exact mem_destWrites h
        | rw [hw]; exact mem_destWrites h
    · cases h
  · obtain ⟨hv, hk⟩ := mem_predWrites h
    refine List.mem_append_right _ ?_
    rw [if_pos hv, hk]
    simp

theorem mem_lanesOf_iff {m : Lanes} {l : Nat} : l ∈ lanesOf m ↔ m.getLsbD l = true := by
  unfold lanesOf
  rw [List.mem_filter, List.mem_range]
  constructor
  · exact fun h => h.2
  · exact fun h => ⟨BitVec.lt_of_getLsbD h, h⟩

theorem lanesOf_ne_nil {m : Lanes} (h : m ≠ 0) : lanesOf m ≠ [] := by
  intro he
  apply h
  apply BitVec.eq_of_getLsbD_eq
  intro l hl
  have : l ∉ lanesOf m := by rw [he]; simp
  rw [mem_lanesOf_iff] at this
  simpa using this

theorem lowest_mem {m : Lanes} (h : m ≠ 0) : lowest m ∈ lanesOf m := by
  unfold lowest
  cases he : lanesOf m with
  | nil => exact absurd he (lanesOf_ne_nil h)
  | cons l ls => simp

/-- With a scalar destination the one lane that computes is an executing lane. -/
theorem destLanes_sub {o : Operand} {m : Lanes} {l : Nat} (h : l ∈ lanesOf (destLanes o m)) : l ∈ lanesOf m := by
  unfold destLanes at h
  split at h
  · rename_i hc
    have hm : m ≠ 0 := by simp at hc; exact hc.2
    rw [mem_lanesOf_iff] at h
    have : l = lowest m := by
      have hl := BitVec.lt_of_getLsbD h
      simp only [BitVec.getLsbD_shiftLeft] at h
      have h1 : (1#32).getLsbD (l - lowest m) = true ∧ lowest m ≤ l := by
        simp only [Bool.and_eq_true, Bool.not_eq_true', decide_eq_false_iff_not] at h
        exact ⟨h.2, by omega⟩
      have h2 : l - lowest m = 0 := by
        have := h1.1
        simp only [BitVec.getLsbD_one] at this
        simpa using this
      omega
    subst this
    exact lowest_mem hm
  · exact h

/-- The frame of aluOp3. -/
theorem aluOp3_keptBut {ins : Instr} {opc lat cls ta tb tc : Nat} {f : AluSrc → LaneOut} {x : Alu} {s t : State} {i : Iss}
    (hx : exec ins s = aluOp3 opc lat cls ta tb tc f x s) (h : Issues s x.ctl i) (ht : exec ins s = .next t) :
    KeptBut s t i (if lat = 0 then aluDest x opc i else []) := by
  rw [hx, aluOp3, withIssue_issues h] at ht
  cases ht
  refine aluEff_keptBut h lat cls _ _ _ fun hl r hr => ?_
  rw [if_pos hl]
  obtain ⟨o, ho, hr⟩ := List.mem_flatMap.mp hr
  obtain ⟨l, hl', rfl⟩ := List.mem_map.mp ho
  exact mem_aluWrites (destLanes_sub hl') hr

end Sys2Proof.Machine
end

