-- ==== Sys2Proof/Laws/Encoding.lean ====
section
/-! SUPPORT. The fields of an instruction survive being packed into a word and cut out of it again. -/
namespace Sys2Proof

theorem cutFields_packFields : ∀ (ws vs : List Nat), ws.length = vs.length → (∀ p ∈ ws.zip vs, p.2 < 2 ^ p.1) →
    cutFields ws (packFields ws vs) = vs := by
  intro ws
  induction ws with
  | nil => intro vs h _; cases vs <;> simp_all [cutFields]
  | cons w ws ih =>
    intro vs h hb
    cases vs with
    | nil => simp at h
    | cons v vs =>
      simp only [List.length_cons, Nat.add_right_cancel_iff] at h
      simp only [List.zip_cons_cons, List.mem_cons, forall_eq_or_imp] at hb
      have hv : v % 2 ^ w = v := Nat.mod_eq_of_lt hb.1
      simp only [packFields, cutFields, hv]
      rw [Nat.add_mul_mod_self_left, hv, Nat.add_mul_div_left _ _ (Nat.two_pow_pos w), Nat.div_eq_of_lt hb.1, Nat.zero_add,
        ih vs h hb.2]

theorem packFields_lt : ∀ (ws vs : List Nat), packFields ws vs < 2 ^ ws.sum := by
  intro ws
  induction ws with
  | nil => intro vs; simp [packFields]
  | cons w ws ih =>
    intro vs
    cases vs with
    | nil => simp only [packFields]; exact Nat.two_pow_pos _
    | cons v vs =>
      simp only [packFields, List.sum_cons, Nat.pow_add]
      have h1 : v % 2 ^ w < 2 ^ w := Nat.mod_lt _ (Nat.two_pow_pos w)
      have h2 := ih vs
      calc v % 2 ^ w + 2 ^ w * packFields ws vs < 2 ^ w + 2 ^ w * packFields ws vs := Nat.add_lt_add_right h1 _
        _ = 2 ^ w * (packFields ws vs + 1) := by rw [Nat.mul_add, Nat.mul_one, Nat.add_comm]
        _ ≤ 2 ^ w * 2 ^ ws.sum := Nat.mul_le_mul_left _ h2

/-- Every field of a word is below the bound of its width. -/
def Raw.Fits (r : Raw) : Prop :=
  r.opc < 256 ∧ r.gp < 8 ∧ r.gn < 2 ∧ r.d < 256 ∧ r.a < 256 ∧ r.b < 256 ∧ r.sw < 2 ∧ r.rb < 2 ∧ r.hint < 64 ∧ r.tail < 2 ^ 32
    ∧ (modWidths (clsOf r.opc)).length = r.mod.length ∧ ∀ p ∈ (modWidths (clsOf r.opc)).zip r.mod, p.2 < 2 ^ p.1

theorem modWidths_sum (c : Cls) : (modWidths c).sum = 20 := by cases c <;> rfl

theorem Raw.ofWord_word (r : Raw) (h : r.Fits) : Raw.ofWord r.word = r := by
  obtain ⟨h0, h1, h2, h3, h4, h5, h6, h7, h8, h9, hl, hm⟩ := h
  have hp : packFields (modWidths (clsOf r.opc)) r.mod < 2 ^ 20 := by
    have := packFields_lt (modWidths (clsOf r.opc)) r.mod
    rwa [modWidths_sum] at this
  have hc : cutFields [8, 3, 1, 8, 8, 8, 20, 1, 1, 6, 32] r.word
      = [r.opc, r.gp, r.gn, r.d, r.a, r.b, packFields (modWidths (clsOf r.opc)) r.mod, r.sw, r.rb, r.hint, r.tail] := by
    apply cutFields_packFields
    · rfl
    · intro p hp'
      simp only [List.zip_cons_cons, List.zip_nil_left, List.mem_cons, List.not_mem_nil, or_false] at hp'
      rcases hp' with e | e | e | e | e | e | e | e | e | e | e <;> subst e <;> simp only <;> omega
  have ho : r.word % 256 = r.opc := by
    have := congrArg List.head? hc
    simpa [cutFields] using this
  simp only [Raw.ofWord, hc, ho]
  rw [cutFields_packFields _ _ hl hm]

theorem Operand.code_lt (o : Operand) : o.code < 256 := by cases o <;> simp [Operand.code] <;> omega

theorem Tail.raw_lt (t : Tail) : t.raw < 2 ^ 32 := by
  cases t with
  | imm x => exact x.isLt
  | reg c aux =>
    have h1 := c.code_lt
    have h2 := aux.isLt
    simp only [Tail.raw]
    omega

theorem Tail.creg_lt (t : Tail) : t.creg < 2 := by cases t <;> simp [Tail.creg]

theorem Rnd.code_lt (x : Rnd) : x.code < 4 := by cases x <;> simp [Rnd.code]

theorem Scope.code_lt (x : Scope) : x.code < 16 := by cases x <;> simp [Scope.code]

theorem Bool.toNat_lt_two (b : Bool) : b.toNat < 2 := by cases b <;> decide

/-- The fields that every class shares fit; what remains is the MOD field. -/
theorem Ctl.raw_fits (x : Ctl) (opc d a b tail : Nat) (mod : List Nat) (ho : opc < 256) (hd : d < 256) (ha : a < 256) (hb : b < 256)
    (ht : tail < 2 ^ 32) (hl : (modWidths (clsOf opc)).length = mod.length)
    (hm : ∀ p ∈ (modWidths (clsOf opc)).zip mod, p.2 < 2 ^ p.1) : (x.raw opc d a b mod tail).Fits :=
  ⟨ho, x.pred.isLt, Bool.toNat_lt_two _, hd, ha, hb, Bool.toNat_lt_two _, Bool.toNat_lt_two _, Nat.two_pow_pos 6, ht, hl, hm⟩

theorem Alu.raw_fits (x : Alu) (opc : Nat) (ho : opc < 256) (hc : clsOf opc = .alu) : (x.raw opc).Fits := by
  refine Ctl.raw_fits _ _ _ _ _ _ _ ho x.d.code_lt x.a.code_lt x.b.code_lt x.tail.raw_lt (by rw [hc]; rfl) ?_
  rw [hc]
  intro p hp
  simp only [modWidths, List.zip_cons_cons, List.zip_nil_left, List.mem_cons, List.not_mem_nil, or_false] at hp
  have := x.ty.isLt; have := x.sub.isLt; have := x.pd.reg.isLt; have := x.rnd.code_lt; have := x.tail.creg_lt
  have := Bool.toNat_lt_two x.sat; have := Bool.toNat_lt_two x.negA; have := Bool.toNat_lt_two x.absA
  have := Bool.toNat_lt_two x.negB; have := Bool.toNat_lt_two x.absB; have := Bool.toNat_lt_two x.pd.valid
  rcases hp with e | e | e | e | e | e | e | e | e | e | e <;> subst e <;> simp only <;> omega

theorem MemW.raw_fits (x : MemW) (opc : Nat) (ho : opc < 256) (hc : clsOf opc = .mem) : (x.raw opc).Fits := by
  refine Ctl.raw_fits _ _ _ _ _ _ _ ho x.d.code_lt x.a.code_lt x.b.code_lt x.tail.raw_lt (by rw [hc]; rfl) ?_
  rw [hc]
  intro p hp
  simp only [modWidths, List.zip_cons_cons, List.zip_nil_left, List.mem_cons, List.not_mem_nil, or_false] at hp
  have := x.width.isLt; have := x.aop.isLt; have := x.pd.reg.isLt; have := x.scope.code_lt; have := x.tail.creg_lt
  have := Bool.toNat_lt_two x.inC; have := Bool.toNat_lt_two x.sx; have := Bool.toNat_lt_two x.pub
  have := Bool.toNat_lt_two x.ref; have := Bool.toNat_lt_two x.pd.valid
  rcases hp with e | e | e | e | e | e | e | e | e | e <;> subst e <;> simp only <;> omega

theorem SyncW.raw_fits (x : SyncW) (opc bop : Nat) (ho : opc < 256) (hc : clsOf opc = .sync) (hb : bop < 4) :
    (x.raw opc bop).Fits := by
  refine Ctl.raw_fits _ _ _ _ _ _ _ ho x.d.code_lt x.a.code_lt x.b.code_lt x.imm.isLt (by rw [hc]; rfl) ?_
  rw [hc]
  intro p hp
  simp only [modWidths, List.zip_cons_cons, List.zip_nil_left, List.mem_cons, List.not_mem_nil, or_false] at hp
  have := x.pd.reg.isLt; have := x.scope.code_lt
  have := Bool.toNat_lt_two x.pub; have := Bool.toNat_lt_two x.ref; have := Bool.toNat_lt_two x.pd.valid
  rcases hp with e | e | e | e | e | e | e | e | e <;> subst e <;> simp only <;> omega

theorem MatW.raw_fits (x : MatW) (opc : Nat) (ho : opc < 256) (hc : clsOf opc = .mat) : (x.raw opc).Fits := by
  refine Ctl.raw_fits _ _ _ _ _ _ _ ho x.d.code_lt x.a.code_lt x.b.code_lt x.tail.raw_lt (by rw [hc]; rfl) ?_
  rw [hc]
  intro p hp
  simp only [modWidths, List.zip_cons_cons, List.zip_nil_left, List.mem_cons, List.not_mem_nil, or_false] at hp
  have := x.fmt.isLt; have := x.pd.reg.isLt; have := x.tail.creg_lt
  have := Bool.toNat_lt_two x.inC; have := Bool.toNat_lt_two x.tr; have := Bool.toNat_lt_two x.acc
  have := Bool.toNat_lt_two x.clr; have := Bool.toNat_lt_two x.pd.valid
  rcases hp with e | e | e | e | e | e | e | e | e | e <;> subst e <;> simp only <;> omega

theorem SurfW.parts_fits (x : SurfW) (opc : Nat) (ho : opc < 256) (hc : clsOf opc = .surf) : (x.parts opc).Fits := by
  refine Ctl.raw_fits _ _ _ _ _ _ _ ho x.d.code_lt x.a.code_lt x.b.code_lt x.tail.raw_lt (by rw [hc]; rfl) ?_
  rw [hc]
  intro p hp
  simp only [modWidths, List.zip_cons_cons, List.zip_nil_left, List.mem_cons, List.not_mem_nil, or_false] at hp
  have := x.sop.isLt; have := x.chan.isLt; have := x.wmask.isLt; have := x.pd.reg.isLt; have := x.tail.creg_lt
  have := Bool.toNat_lt_two x.raw; have := Bool.toNat_lt_two x.ord; have := Bool.toNat_lt_two x.pd.valid
  rcases hp with e | e | e | e | e | e | e | e | e <;> subst e <;> simp only <;> omega

theorem RastW.raw_fits (x : RastW) (opc : Nat) (ho : opc < 256) (hc : clsOf opc = .rast) : (x.raw opc).Fits := by
  refine Ctl.raw_fits _ _ _ _ _ _ _ ho x.d.code_lt x.a.code_lt x.b.code_lt x.tail.raw_lt (by rw [hc]; rfl) ?_
  rw [hc]
  intro p hp
  simp only [modWidths, List.zip_cons_cons, List.zip_nil_left, List.mem_cons, List.not_mem_nil, or_false] at hp
  have := x.sel.isLt; have := x.pd.reg.isLt; have := x.tail.creg_lt; have := Bool.toNat_lt_two x.pd.valid
  rcases hp with e | e | e | e | e | e <;> subst e <;> simp only <;> omega

theorem SysW.raw_fits_ctrl (x : SysW) (opc : Nat) (ho : opc < 256) (hc : clsOf opc = .ctrl) (hx : x.shape opc = true) :
    (x.raw opc).Fits := by
  simp only [SysW.shape, hc, Bool.and_eq_true, decide_eq_true_eq] at hx
  simp only [SysW.raw, hc]
  refine Ctl.raw_fits _ _ _ _ _ _ _ ho x.d.code_lt x.a.code_lt x.b.code_lt x.imm.isLt (by rw [hc]; rfl) ?_
  rw [hc]
  intro p hp
  simp only [modWidths, List.zip_cons_cons, List.zip_nil_left, List.mem_cons, List.not_mem_nil, or_false] at hp
  rcases hp with e | e | e | e | e | e <;> subst e <;> simp only <;> omega

theorem SysW.raw_fits_sreg (x : SysW) (opc : Nat) (ho : opc < 256) (hc : clsOf opc = .sreg) : (x.raw opc).Fits := by
  simp only [SysW.raw, hc]
  refine Ctl.raw_fits _ _ _ _ _ _ _ ho x.d.code_lt x.a.code_lt x.b.code_lt x.imm.isLt (by rw [hc]; rfl) ?_
  rw [hc]
  intro p hp
  simp only [modWidths, List.zip_cons_cons, List.zip_nil_left, List.mem_cons, List.not_mem_nil, or_false] at hp
  have := x.arg.isLt
  rcases hp with e | e | e | e | e | e <;> subst e <;> simp only <;> omega

theorem SysW.raw_fits_ctx (x : SysW) (opc : Nat) (ho : opc < 256) (hc : clsOf opc = .ctx) (hx : x.shape opc = true) :
    (x.raw opc).Fits := by
  simp only [SysW.shape, hc, decide_eq_true_eq] at hx
  simp only [SysW.raw, hc]
  refine Ctl.raw_fits _ _ _ _ _ _ _ ho x.d.code_lt x.a.code_lt x.b.code_lt x.imm.isLt (by rw [hc]; rfl) ?_
  rw [hc]
  intro p hp
  simp only [modWidths, List.zip_cons_cons, List.zip_nil_left, List.mem_cons, List.not_mem_nil, or_false] at hp
  have := x.pd.reg.isLt; have := Bool.toNat_lt_two x.pd.valid
  rcases hp with e | e | e | e | e | e | e <;> subst e <;> simp only <;> omega

end Sys2Proof
end

