-- ==== Sys2Proof/Laws/PerInstr.lean ====
section
/-! SUPPORT. The family Encoding: for every instruction, the word that its fields make gives those fields back. -/
namespace Sys2Proof.Laws

/-- The fields of an instruction that fits its encoding survive in its word; an event has no word. -/
def Encoding.Statement (i : Instr) : Prop := i.fits = true → ∀ r, i.raw = some r → Raw.ofWord r.word = r

theorem Encoding.of_fits {r : Raw} (h : r.Fits) : ∀ q, some r = some q → Raw.ofWord q.word = q := by
  intro q e; cases e; exact Raw.ofWord_word r h

theorem Encoding.of_none : ∀ q : Raw, (none : Option Raw) = some q → Raw.ofWord q.word = q := by
  intro q e; cases e

theorem Encoding.nop (x : SysW) : Encoding.Statement (.nop x) := fun h => of_fits (x.raw_fits_ctrl _ (by decide) rfl h)

theorem Encoding.bra (x : SysW) : Encoding.Statement (.bra x) := fun h => of_fits (x.raw_fits_ctrl _ (by decide) rfl h)

theorem Encoding.brx (x : SysW) : Encoding.Statement (.brx x) := fun h => of_fits (x.raw_fits_ctrl _ (by decide) rfl h)

theorem Encoding.call (x : SysW) : Encoding.Statement (.call x) := fun h => of_fits (x.raw_fits_ctrl _ (by decide) rfl h)

theorem Encoding.calli (x : SysW) : Encoding.Statement (.calli x) := fun h => of_fits (x.raw_fits_ctrl _ (by decide) rfl h)

theorem Encoding.ret (x : SysW) : Encoding.Statement (.ret x) := fun h => of_fits (x.raw_fits_ctrl _ (by decide) rfl h)

theorem Encoding.merge (x : SysW) : Encoding.Statement (.merge x) := fun h => of_fits (x.raw_fits_ctrl _ (by decide) rfl h)

theorem Encoding.exit (x : SysW) : Encoding.Statement (.exit x) := fun h => of_fits (x.raw_fits_ctrl _ (by decide) rfl h)

theorem Encoding.trap (x : SysW) : Encoding.Statement (.trap x) := fun h => of_fits (x.raw_fits_ctrl _ (by decide) rfl h)

theorem Encoding.eret (x : SysW) : Encoding.Statement (.eret x) := fun h => of_fits (x.raw_fits_ctrl _ (by decide) rfl h)

theorem Encoding.yield (x : SysW) : Encoding.Statement (.yield x) := fun h => of_fits (x.raw_fits_ctrl _ (by decide) rfl h)

theorem Encoding.add (x : Alu) : Encoding.Statement (.add x) := fun _ => of_fits (x.raw_fits _ (by decide) rfl)

theorem Encoding.sub (x : Alu) : Encoding.Statement (.sub x) := fun _ => of_fits (x.raw_fits _ (by decide) rfl)

theorem Encoding.addc (x : Alu) : Encoding.Statement (.addc x) := fun _ => of_fits (x.raw_fits _ (by decide) rfl)

theorem Encoding.subb (x : Alu) : Encoding.Statement (.subb x) := fun _ => of_fits (x.raw_fits _ (by decide) rfl)

theorem Encoding.mul (x : Alu) : Encoding.Statement (.mul x) := fun _ => of_fits (x.raw_fits _ (by decide) rfl)

theorem Encoding.mulh (x : Alu) : Encoding.Statement (.mulh x) := fun _ => of_fits (x.raw_fits _ (by decide) rfl)

theorem Encoding.mad (x : Alu) : Encoding.Statement (.mad x) := fun _ => of_fits (x.raw_fits _ (by decide) rfl)

theorem Encoding.madw (x : Alu) : Encoding.Statement (.madw x) := fun _ => of_fits (x.raw_fits _ (by decide) rfl)

theorem Encoding.div (x : Alu) : Encoding.Statement (.div x) := fun _ => of_fits (x.raw_fits _ (by decide) rfl)

theorem Encoding.rem (x : Alu) : Encoding.Statement (.rem x) := fun _ => of_fits (x.raw_fits _ (by decide) rfl)

theorem Encoding.min (x : Alu) : Encoding.Statement (.min x) := fun _ => of_fits (x.raw_fits _ (by decide) rfl)

theorem Encoding.max (x : Alu) : Encoding.Statement (.max x) := fun _ => of_fits (x.raw_fits _ (by decide) rfl)

theorem Encoding.abs (x : Alu) : Encoding.Statement (.abs x) := fun _ => of_fits (x.raw_fits _ (by decide) rfl)

theorem Encoding.neg (x : Alu) : Encoding.Statement (.neg x) := fun _ => of_fits (x.raw_fits _ (by decide) rfl)

theorem Encoding.lea (x : Alu) : Encoding.Statement (.lea x) := fun _ => of_fits (x.raw_fits _ (by decide) rfl)

theorem Encoding.sad (x : Alu) : Encoding.Statement (.sad x) := fun _ => of_fits (x.raw_fits _ (by decide) rfl)

theorem Encoding.and (x : Alu) : Encoding.Statement (.and x) := fun _ => of_fits (x.raw_fits _ (by decide) rfl)

theorem Encoding.or (x : Alu) : Encoding.Statement (.or x) := fun _ => of_fits (x.raw_fits _ (by decide) rfl)

theorem Encoding.xor (x : Alu) : Encoding.Statement (.xor x) := fun _ => of_fits (x.raw_fits _ (by decide) rfl)

theorem Encoding.not (x : Alu) : Encoding.Statement (.not x) := fun _ => of_fits (x.raw_fits _ (by decide) rfl)

theorem Encoding.lut3 (x : Alu) : Encoding.Statement (.lut3 x) := fun _ => of_fits (x.raw_fits _ (by decide) rfl)

theorem Encoding.shl (x : Alu) : Encoding.Statement (.shl x) := fun _ => of_fits (x.raw_fits _ (by decide) rfl)

theorem Encoding.shr (x : Alu) : Encoding.Statement (.shr x) := fun _ => of_fits (x.raw_fits _ (by decide) rfl)

theorem Encoding.sar (x : Alu) : Encoding.Statement (.sar x) := fun _ => of_fits (x.raw_fits _ (by decide) rfl)

theorem Encoding.rot (x : Alu) : Encoding.Statement (.rot x) := fun _ => of_fits (x.raw_fits _ (by decide) rfl)

theorem Encoding.funsh (x : Alu) : Encoding.Statement (.funsh x) := fun _ => of_fits (x.raw_fits _ (by decide) rfl)

theorem Encoding.bfe (x : Alu) : Encoding.Statement (.bfe x) := fun _ => of_fits (x.raw_fits _ (by decide) rfl)

theorem Encoding.bfi (x : Alu) : Encoding.Statement (.bfi x) := fun _ => of_fits (x.raw_fits _ (by decide) rfl)

theorem Encoding.popc (x : Alu) : Encoding.Statement (.popc x) := fun _ => of_fits (x.raw_fits _ (by decide) rfl)

theorem Encoding.clz (x : Alu) : Encoding.Statement (.clz x) := fun _ => of_fits (x.raw_fits _ (by decide) rfl)

theorem Encoding.ctz (x : Alu) : Encoding.Statement (.ctz x) := fun _ => of_fits (x.raw_fits _ (by decide) rfl)

theorem Encoding.brev (x : Alu) : Encoding.Statement (.brev x) := fun _ => of_fits (x.raw_fits _ (by decide) rfl)

theorem Encoding.fadd (x : Alu) : Encoding.Statement (.fadd x) := fun _ => of_fits (x.raw_fits _ (by decide) rfl)

theorem Encoding.fsub (x : Alu) : Encoding.Statement (.fsub x) := fun _ => of_fits (x.raw_fits _ (by decide) rfl)

theorem Encoding.fmul (x : Alu) : Encoding.Statement (.fmul x) := fun _ => of_fits (x.raw_fits _ (by decide) rfl)

theorem Encoding.ffma (x : Alu) : Encoding.Statement (.ffma x) := fun _ => of_fits (x.raw_fits _ (by decide) rfl)

theorem Encoding.fmin (x : Alu) : Encoding.Statement (.fmin x) := fun _ => of_fits (x.raw_fits _ (by decide) rfl)

theorem Encoding.fmax (x : Alu) : Encoding.Statement (.fmax x) := fun _ => of_fits (x.raw_fits _ (by decide) rfl)

theorem Encoding.fdiv (x : Alu) : Encoding.Statement (.fdiv x) := fun _ => of_fits (x.raw_fits _ (by decide) rfl)

theorem Encoding.fsqrt (x : Alu) : Encoding.Statement (.fsqrt x) := fun _ => of_fits (x.raw_fits _ (by decide) rfl)

theorem Encoding.frcp (x : Alu) : Encoding.Statement (.frcp x) := fun _ => of_fits (x.raw_fits _ (by decide) rfl)

theorem Encoding.frsq (x : Alu) : Encoding.Statement (.frsq x) := fun _ => of_fits (x.raw_fits _ (by decide) rfl)

theorem Encoding.fexp2 (x : Alu) : Encoding.Statement (.fexp2 x) := fun _ => of_fits (x.raw_fits _ (by decide) rfl)

theorem Encoding.flog2 (x : Alu) : Encoding.Statement (.flog2 x) := fun _ => of_fits (x.raw_fits _ (by decide) rfl)

theorem Encoding.fsin (x : Alu) : Encoding.Statement (.fsin x) := fun _ => of_fits (x.raw_fits _ (by decide) rfl)

theorem Encoding.fcos (x : Alu) : Encoding.Statement (.fcos x) := fun _ => of_fits (x.raw_fits _ (by decide) rfl)

theorem Encoding.frnd (x : Alu) : Encoding.Statement (.frnd x) := fun _ => of_fits (x.raw_fits _ (by decide) rfl)

theorem Encoding.ffrac (x : Alu) : Encoding.Statement (.ffrac x) := fun _ => of_fits (x.raw_fits _ (by decide) rfl)

theorem Encoding.fclass (x : Alu) : Encoding.Statement (.fclass x) := fun _ => of_fits (x.raw_fits _ (by decide) rfl)

theorem Encoding.fdot2 (x : Alu) : Encoding.Statement (.fdot2 x) := fun _ => of_fits (x.raw_fits _ (by decide) rfl)

theorem Encoding.flerp (x : Alu) : Encoding.Statement (.flerp x) := fun _ => of_fits (x.raw_fits _ (by decide) rfl)

theorem Encoding.fscale (x : Alu) : Encoding.Statement (.fscale x) := fun _ => of_fits (x.raw_fits _ (by decide) rfl)

theorem Encoding.cvt (x : Alu) : Encoding.Statement (.cvt x) := fun _ => of_fits (x.raw_fits _ (by decide) rfl)

theorem Encoding.kpack (x : Alu) : Encoding.Statement (.kpack x) := fun _ => of_fits (x.raw_fits _ (by decide) rfl)

theorem Encoding.kunpk (x : Alu) : Encoding.Statement (.kunpk x) := fun _ => of_fits (x.raw_fits _ (by decide) rfl)

theorem Encoding.bytsel (x : Alu) : Encoding.Statement (.bytsel x) := fun _ => of_fits (x.raw_fits _ (by decide) rfl)

theorem Encoding.mov (x : Alu) : Encoding.Statement (.mov x) := fun _ => of_fits (x.raw_fits _ (by decide) rfl)

theorem Encoding.movi (x : Alu) : Encoding.Statement (.movi x) := fun _ => of_fits (x.raw_fits _ (by decide) rfl)

theorem Encoding.movh (x : Alu) : Encoding.Statement (.movh x) := fun _ => of_fits (x.raw_fits _ (by decide) rfl)

theorem Encoding.sel (x : Alu) : Encoding.Statement (.sel x) := fun _ => of_fits (x.raw_fits _ (by decide) rfl)

theorem Encoding.icmp (x : Alu) : Encoding.Statement (.icmp x) := fun _ => of_fits (x.raw_fits _ (by decide) rfl)

theorem Encoding.fcmp (x : Alu) : Encoding.Statement (.fcmp x) := fun _ => of_fits (x.raw_fits _ (by decide) rfl)

theorem Encoding.plop (x : Alu) : Encoding.Statement (.plop x) := fun _ => of_fits (x.raw_fits _ (by decide) rfl)

theorem Encoding.pmov (x : Alu) : Encoding.Statement (.pmov x) := fun _ => of_fits (x.raw_fits _ (by decide) rfl)

theorem Encoding.shfl (x : Alu) : Encoding.Statement (.shfl x) := fun _ => of_fits (x.raw_fits _ (by decide) rfl)

theorem Encoding.vote (x : Alu) : Encoding.Statement (.vote x) := fun _ => of_fits (x.raw_fits _ (by decide) rfl)

theorem Encoding.redux (x : Alu) : Encoding.Statement (.redux x) := fun _ => of_fits (x.raw_fits _ (by decide) rfl)

theorem Encoding.scan (x : Alu) : Encoding.Statement (.scan x) := fun _ => of_fits (x.raw_fits _ (by decide) rfl)

theorem Encoding.ld (x : MemW) : Encoding.Statement (.ld x) := fun _ => of_fits (x.raw_fits _ (by decide) rfl)

theorem Encoding.st (x : MemW) : Encoding.Statement (.st x) := fun _ => of_fits (x.raw_fits _ (by decide) rfl)

theorem Encoding.ldp (x : MemW) : Encoding.Statement (.ldp x) := fun _ => of_fits (x.raw_fits _ (by decide) rfl)

theorem Encoding.at (x : MemW) : Encoding.Statement (.at x) := fun _ => of_fits (x.raw_fits _ (by decide) rfl)

theorem Encoding.atc (x : MemW) : Encoding.Statement (.atc x) := fun _ => of_fits (x.raw_fits _ (by decide) rfl)

theorem Encoding.red (x : MemW) : Encoding.Statement (.red x) := fun _ => of_fits (x.raw_fits _ (by decide) rfl)

theorem Encoding.reds (x : MemW) : Encoding.Statement (.reds x) := fun _ => of_fits (x.raw_fits _ (by decide) rfl)

theorem Encoding.pub (x : MemW) : Encoding.Statement (.pub x) := fun _ => of_fits (x.raw_fits _ (by decide) rfl)

theorem Encoding.ref (x : MemW) : Encoding.Statement (.ref x) := fun _ => of_fits (x.raw_fits _ (by decide) rfl)

theorem Encoding.phase (x : MemW) : Encoding.Statement (.phase x) := fun _ => of_fits (x.raw_fits _ (by decide) rfl)

theorem Encoding.cflush (x : MemW) : Encoding.Statement (.cflush x) := fun _ => of_fits (x.raw_fits _ (by decide) rfl)

theorem Encoding.pref (x : MemW) : Encoding.Statement (.pref x) := fun _ => of_fits (x.raw_fits _ (by decide) rfl)

theorem Encoding.copy (x : MemW) : Encoding.Statement (.copy x) := fun _ => of_fits (x.raw_fits _ (by decide) rfl)

theorem Encoding.copy2 (x : MemW) : Encoding.Statement (.copy2 x) := fun _ => of_fits (x.raw_fits _ (by decide) rfl)

theorem Encoding.bar (x : SyncW) : Encoding.Statement (.bar x) := fun _ => of_fits (x.raw_fits _ _ (by decide) rfl (by decide))

theorem Encoding.bara (x : SyncW) : Encoding.Statement (.bara x) := fun _ => of_fits (x.raw_fits _ _ (by decide) rfl (by decide))

theorem Encoding.barw (x : SyncW) : Encoding.Statement (.barw x) := fun _ => of_fits (x.raw_fits _ _ (by decide) rfl (by decide))

theorem Encoding.barnAlloc (x : SyncW) : Encoding.Statement (.barnAlloc x) := fun _ => of_fits (x.raw_fits _ _ (by decide) rfl (by decide))

theorem Encoding.barnFree (x : SyncW) : Encoding.Statement (.barnFree x) := fun _ => of_fits (x.raw_fits _ _ (by decide) rfl (by decide))

theorem Encoding.barnGen (x : SyncW) : Encoding.Statement (.barnGen x) := fun _ => of_fits (x.raw_fits _ _ (by decide) rfl (by decide))

theorem Encoding.swinit (x : SyncW) : Encoding.Statement (.swinit x) := fun _ => of_fits (x.raw_fits _ _ (by decide) rfl (by decide))

theorem Encoding.swadd (x : SyncW) : Encoding.Statement (.swadd x) := fun _ => of_fits (x.raw_fits _ _ (by decide) rfl (by decide))

theorem Encoding.swait (x : SyncW) : Encoding.Statement (.swait x) := fun _ => of_fits (x.raw_fits _ _ (by decide) rfl (by decide))

theorem Encoding.swtest (x : SyncW) : Encoding.Statement (.swtest x) := fun _ => of_fits (x.raw_fits _ _ (by decide) rfl (by decide))

theorem Encoding.mresv (x : MatW) : Encoding.Statement (.mresv x) := fun _ => of_fits (x.raw_fits _ (by decide) rfl)

theorem Encoding.mfree (x : MatW) : Encoding.Statement (.mfree x) := fun _ => of_fits (x.raw_fits _ (by decide) rfl)

theorem Encoding.mclaim (x : MatW) : Encoding.Statement (.mclaim x) := fun _ => of_fits (x.raw_fits _ (by decide) rfl)

theorem Encoding.mrel (x : MatW) : Encoding.Statement (.mrel x) := fun _ => of_fits (x.raw_fits _ (by decide) rfl)

theorem Encoding.mld (x : MatW) : Encoding.Statement (.mld x) := fun _ => of_fits (x.raw_fits _ (by decide) rfl)

theorem Encoding.mlds (x : MatW) : Encoding.Statement (.mlds x) := fun _ => of_fits (x.raw_fits _ (by decide) rfl)

theorem Encoding.mzero (x : MatW) : Encoding.Statement (.mzero x) := fun _ => of_fits (x.raw_fits _ (by decide) rfl)

theorem Encoding.mma (x : MatW) : Encoding.Statement (.mma x) := fun _ => of_fits (x.raw_fits _ (by decide) rfl)

theorem Encoding.mst (x : MatW) : Encoding.Statement (.mst x) := fun _ => of_fits (x.raw_fits _ (by decide) rfl)

theorem Encoding.msts (x : MatW) : Encoding.Statement (.msts x) := fun _ => of_fits (x.raw_fits _ (by decide) rfl)

theorem Encoding.mmov (x : MatW) : Encoding.Statement (.mmov x) := fun _ => of_fits (x.raw_fits _ (by decide) rfl)

theorem Encoding.mstat (x : MatW) : Encoding.Statement (.mstat x) := fun _ => of_fits (x.raw_fits _ (by decide) rfl)

theorem Encoding.mcfg (x : MatW) : Encoding.Statement (.mcfg x) := fun _ => of_fits (x.raw_fits _ (by decide) rfl)

theorem Encoding.salloc (x : SurfW) : Encoding.Statement (.salloc x) := fun _ => of_fits (x.parts_fits _ (by decide) rfl)

theorem Encoding.sfree (x : SurfW) : Encoding.Statement (.sfree x) := fun _ => of_fits (x.parts_fits _ (by decide) rfl)

theorem Encoding.sld (x : SurfW) : Encoding.Statement (.sld x) := fun _ => of_fits (x.parts_fits _ (by decide) rfl)

theorem Encoding.sst (x : SurfW) : Encoding.Statement (.sst x) := fun _ => of_fits (x.parts_fits _ (by decide) rfl)

theorem Encoding.satop (x : SurfW) : Encoding.Statement (.satop x) := fun _ => of_fits (x.parts_fits _ (by decide) rfl)

theorem Encoding.sblend (x : SurfW) : Encoding.Statement (.sblend x) := fun _ => of_fits (x.parts_fits _ (by decide) rfl)

theorem Encoding.squery (x : SurfW) : Encoding.Statement (.squery x) := fun _ => of_fits (x.parts_fits _ (by decide) rfl)

theorem Encoding.spin (x : SurfW) : Encoding.Statement (.spin x) := fun _ => of_fits (x.parts_fits _ (by decide) rfl)

theorem Encoding.tex (x : SurfW) : Encoding.Statement (.tex x) := fun _ => of_fits (x.parts_fits _ (by decide) rfl)

theorem Encoding.texq (x : SurfW) : Encoding.Statement (.texq x) := fun _ => of_fits (x.parts_fits _ (by decide) rfl)

theorem Encoding.vemit (x : RastW) : Encoding.Statement (.vemit x) := fun _ => of_fits (x.raw_fits _ (by decide) rfl)

theorem Encoding.fattr (x : RastW) : Encoding.Statement (.fattr x) := fun _ => of_fits (x.raw_fits _ (by decide) rfl)

theorem Encoding.femit (x : RastW) : Encoding.Statement (.femit x) := fun _ => of_fits (x.raw_fits _ (by decide) rfl)

theorem Encoding.fkill (x : RastW) : Encoding.Statement (.fkill x) := fun _ => of_fits (x.raw_fits _ (by decide) rfl)

theorem Encoding.rxsnap (x : RastW) : Encoding.Statement (.rxsnap x) := fun _ => of_fits (x.raw_fits _ (by decide) rfl)

theorem Encoding.rxbox (x : RastW) : Encoding.Statement (.rxbox x) := fun _ => of_fits (x.raw_fits _ (by decide) rfl)

theorem Encoding.rxtri (x : RastW) : Encoding.Statement (.rxtri x) := fun _ => of_fits (x.raw_fits _ (by decide) rfl)

theorem Encoding.sread (x : SysW) : Encoding.Statement (.sread x) := fun _ => of_fits (x.raw_fits_sreg _ (by decide) rfl)

theorem Encoding.swrite (x : SysW) : Encoding.Statement (.swrite x) := fun _ => of_fits (x.raw_fits_sreg _ (by decide) rfl)

theorem Encoding.qappend (x : SysW) : Encoding.Statement (.qappend x) := fun h => of_fits (x.raw_fits_ctx _ (by decide) rfl h)

theorem Encoding.svwin (x : SysW) : Encoding.Statement (.svwin x) := fun h => of_fits (x.raw_fits_ctx _ (by decide) rfl h)

theorem Encoding.ldwin (x : SysW) : Encoding.Statement (.ldwin x) := fun h => of_fits (x.raw_fits_ctx _ (by decide) rfl h)

theorem Encoding.savereg (x : SysW) : Encoding.Statement (.savereg x) := fun h => of_fits (x.raw_fits_ctx _ (by decide) rfl h)

theorem Encoding.loadreg (x : SysW) : Encoding.Statement (.loadreg x) := fun h => of_fits (x.raw_fits_ctx _ (by decide) rfl (Bool.and_eq_true_iff.mp h).1)

theorem Encoding.loadregGroup (x : SysW) : Encoding.Statement (.loadregGroup x) := fun h => of_fits (x.raw_fits_ctx _ (by decide) rfl (Bool.and_eq_true_iff.mp h).1)

theorem Encoding.brk (x : SysW) : Encoding.Statement (.brk x) := fun h => of_fits (x.raw_fits_ctrl _ (by decide) rfl h)

theorem Encoding.resultLands (g : Nat) (seq : Nat) (lanes : Lanes) : Encoding.Statement (.resultLands g seq lanes) := fun _ => of_none

theorem Encoding.runGrant (core : Nat) (port : Nat) : Encoding.Statement (.runGrant core port) := fun _ => of_none

theorem Encoding.transferWaitEnd (g : Nat) (slot : Nat) : Encoding.Statement (.transferWaitEnd g slot) := fun _ => of_none

theorem Encoding.handlerEntry (g : Nat) : Encoding.Statement (.handlerEntry g) := fun _ => of_none

theorem Encoding.eccCorrected (x : EccAt) : Encoding.Statement (.eccCorrected x) := fun _ => of_none

theorem Encoding.eccUncorrectable (x : EccAt) : Encoding.Statement (.eccUncorrectable x) := fun _ => of_none

theorem Encoding.remoteAccessFailure (x : RemFail) : Encoding.Statement (.remoteAccessFailure x) := fun _ => of_none

theorem Encoding.remoteRequestTimeout (x : RemFail) : Encoding.Statement (.remoteRequestTimeout x) := fun _ => of_none

theorem Encoding.remoteRequestServe (x : RemReq) : Encoding.Statement (.remoteRequestServe x) := fun _ => of_none

theorem Encoding.redsContribution (id : Nat) : Encoding.Statement (.redsContribution id) := fun _ => of_none

theorem Encoding.orderedItem (ctx : Nat) (ste : Nat) (key : Nat) : Encoding.Statement (.orderedItem ctx ste key) := fun _ => of_none

theorem Encoding.copyEngineLine (quad : Nat) : Encoding.Statement (.copyEngineLine quad) := fun _ => of_none

theorem Encoding.mmaPass (core : Nat) (idx : Nat) (quarter : Nat) : Encoding.Statement (.mmaPass core idx quarter) := fun _ => of_none

theorem Encoding.matrixFillStoreDone (core : Nat) (idx : Nat) : Encoding.Statement (.matrixFillStoreDone core idx) := fun _ => of_none

theorem Encoding.tileEvicted (ctx : Nat) (ste : Nat) (stack : Nat) (tile : Nat) : Encoding.Statement (.tileEvicted ctx ste stack tile) := fun _ => of_none

theorem Encoding.tileRefilled (ctx : Nat) (ste : Nat) (stack : Nat) (tile : Nat) : Encoding.Statement (.tileRefilled ctx ste stack tile) := fun _ => of_none

theorem Encoding.launchPacket (ctx : Nat) (q : Nat) : Encoding.Statement (.launchPacket ctx q) := fun _ => of_none

theorem Encoding.drawPacket (ctx : Nat) (q : Nat) : Encoding.Statement (.drawPacket ctx q) := fun _ => of_none

theorem Encoding.copyPacket (ctx : Nat) (q : Nat) (ranges : List (Nat × Nat)) : Encoding.Statement (.copyPacket ctx q ranges) := fun _ => of_none

theorem Encoding.waitswPacket (ctx : Nat) (q : Nat) : Encoding.Statement (.waitswPacket ctx q) := fun _ => of_none

theorem Encoding.waitswReread (ctx : Nat) (q : Nat) : Encoding.Statement (.waitswReread ctx q) := fun _ => of_none

theorem Encoding.signalPacket (ctx : Nat) (q : Nat) : Encoding.Statement (.signalPacket ctx q) := fun _ => of_none

theorem Encoding.condPacket (ctx : Nat) (q : Nat) : Encoding.Statement (.condPacket ctx q) := fun _ => of_none

theorem Encoding.loopPacket (ctx : Nat) (q : Nat) : Encoding.Statement (.loopPacket ctx q) := fun _ => of_none

theorem Encoding.jumpPacket (ctx : Nat) (q : Nat) : Encoding.Statement (.jumpPacket ctx q) := fun _ => of_none

theorem Encoding.stopPacket (ctx : Nat) (q : Nat) : Encoding.Statement (.stopPacket ctx q) := fun _ => of_none

theorem Encoding.packetComplete (ctx : Nat) (q : Nat) (seq : Nat) : Encoding.Statement (.packetComplete ctx q seq) := fun _ => of_none

theorem Encoding.teamPlace (ctx : Nat) (q : Nat) (core : Nat) (ob : Nat) (ab : Nat) : Encoding.Statement (.teamPlace ctx q core ob ab) := fun _ => of_none

theorem Encoding.placementStarvation (ctx : Nat) (q : Nat) : Encoding.Statement (.placementStarvation ctx q) := fun _ => of_none

theorem Encoding.groupFreed (g : Nat) : Encoding.Statement (.groupFreed g) := fun _ => of_none

theorem Encoding.teamReplaced (ctx : Nat) (idx : Nat) (core : Nat) : Encoding.Statement (.teamReplaced ctx idx core) := fun _ => of_none

theorem Encoding.primitiveAssemble (draw : Nat) : Encoding.Statement (.primitiveAssemble draw) := fun _ => of_none

theorem Encoding.fragmentGroupLaunch (draw : Nat) (core : Nat) : Encoding.Statement (.fragmentGroupLaunch draw core) := fun _ => of_none

theorem Encoding.earlyDepthStencil (draw : Nat) : Encoding.Statement (.earlyDepthStencil draw) := fun _ => of_none

theorem Encoding.fragmentApply (draw : Nat) : Encoding.Statement (.fragmentApply draw) := fun _ => of_none

theorem Encoding.build (port : Bool) (ctx : Nat) (record : Nat) (host : Bool) : Encoding.Statement (.build port ctx record host) := fun _ => of_none

theorem Encoding.admission (port : Bool) (ctx : Nat) : Encoding.Statement (.admission port ctx) := fun _ => of_none

theorem Encoding.preempt (port : Bool) (ctx : Nat) : Encoding.Statement (.preempt port ctx) := fun _ => of_none

theorem Encoding.destroy (port : Bool) (ctx : Nat) : Encoding.Statement (.destroy port ctx) := fun _ => of_none

theorem Encoding.drainLimitExpired (ctx : Nat) : Encoding.Statement (.drainLimitExpired ctx) := fun _ => of_none

theorem Encoding.forcedSaveEntry (g : Nat) : Encoding.Statement (.forcedSaveEntry g) := fun _ => of_none

theorem Encoding.contextSaved (ctx : Nat) : Encoding.Statement (.contextSaved ctx) := fun _ => of_none

theorem Encoding.contextReleased (ctx : Nat) : Encoding.Statement (.contextReleased ctx) := fun _ => of_none

theorem Encoding.doorbellRing (port : Bool) (vf : Nat) (ctx : Nat) (q : Nat) : Encoding.Statement (.doorbellRing port vf ctx q) := fun _ => of_none

theorem Encoding.doorbellStart (port : Bool) (ctx : Nat) (q : Nat) : Encoding.Statement (.doorbellStart port ctx q) := fun _ => of_none

theorem Encoding.doorbellReset (port : Bool) (ctx : Nat) (q : Nat) : Encoding.Statement (.doorbellReset port ctx q) := fun _ => of_none

theorem Encoding.nowWrite (port : Bool) (value : BitVec 64) : Encoding.Statement (.nowWrite port value) := fun _ => of_none

theorem Encoding.resume (port : Bool) (ctx : Nat) (token : Nat) : Encoding.Statement (.resume port ctx token) := fun _ => of_none

theorem Encoding.resumeall (port : Bool) (ctx : Nat) : Encoding.Statement (.resumeall port ctx) := fun _ => of_none

theorem Encoding.inval (port : Bool) (ctx : Nat) : Encoding.Statement (.inval port ctx) := fun _ => of_none

theorem Encoding.invalall (port : Bool) (ctx : Nat) : Encoding.Statement (.invalall port ctx) := fun _ => of_none

theorem Encoding.migratingRewalk (ctx : Nat) : Encoding.Statement (.migratingRewalk ctx) := fun _ => of_none

theorem Encoding.faultRingRetry (ctx : Nat) : Encoding.Statement (.faultRingRetry ctx) := fun _ => of_none

theorem Encoding.setbp (x : Dbg) : Encoding.Statement (.setbp x) := fun _ => of_none

theorem Encoding.setwp (x : Dbg) : Encoding.Statement (.setwp x) := fun _ => of_none

theorem Encoding.clear (x : Dbg) : Encoding.Statement (.clear x) := fun _ => of_none

theorem Encoding.stepon (x : Dbg) : Encoding.Statement (.stepon x) := fun _ => of_none

theorem Encoding.stepoff (x : Dbg) : Encoding.Statement (.stepoff x) := fun _ => of_none

theorem Encoding.inject (x : Dbg) : Encoding.Statement (.inject x) := fun _ => of_none

theorem Encoding.nearset (port : Bool) (stack : Nat) (count : Nat) : Encoding.Statement (.nearset port stack count) := fun _ => of_none

theorem Encoding.portctlEnable (port : Bool) (p : Nat) : Encoding.Statement (.portctlEnable port p) := fun _ => of_none

theorem Encoding.portctlDisable (port : Bool) (p : Nat) : Encoding.Statement (.portctlDisable port p) := fun _ => of_none

theorem Encoding.portctlRetrain (port : Bool) (p : Nat) : Encoding.Statement (.portctlRetrain port p) := fun _ => of_none

theorem Encoding.podbind (port : Bool) (ctx : Nat) : Encoding.Statement (.podbind port ctx) := fun _ => of_none

theorem Encoding.image (port : Bool) (bytes : List Byte) : Encoding.Statement (.image port bytes) := fun _ => of_none

theorem Encoding.registerWrite (port : Bool) (offset : Nat) (size : Nat) (value : Nat) : Encoding.Statement (.registerWrite port offset size value) := fun _ => of_none

theorem Encoding.flitReceive (p : Nat) (bytes : List Byte) : Encoding.Statement (.flitReceive p bytes) := fun _ => of_none

theorem Encoding.shadowRotation (p : Nat) : Encoding.Statement (.shadowRotation p) := fun _ => of_none

theorem Encoding.laneCalibration (p : Nat) (lane : Nat) : Encoding.Statement (.laneCalibration p lane) := fun _ => of_none

theorem Encoding.lossOfLock (p : Nat) : Encoding.Statement (.lossOfLock p) := fun _ => of_none

theorem Encoding.trainingEnd (p : Nat) (good : Nat) (peer : Nat) : Encoding.Statement (.trainingEnd p good peer) := fun _ => of_none

theorem Encoding.trainingTimeout (p : Nat) (good : Nat) : Encoding.Statement (.trainingTimeout p good) := fun _ => of_none

theorem Encoding.routeTableWrite (node : Nat) (port : Nat) : Encoding.Statement (.routeTableWrite node port) := fun _ => of_none

theorem Encoding.hello (x : Msg) : Encoding.Statement (.hello x) := fun _ => of_none

theorem Encoding.share (x : Msg) : Encoding.Statement (.share x) := fun _ => of_none

theorem Encoding.finish (x : Msg) : Encoding.Statement (.finish x) := fun _ => of_none

theorem Encoding.bind (x : Msg) : Encoding.Statement (.bind x) := fun _ => of_none

theorem Encoding.bindack (x : Msg) : Encoding.Statement (.bindack x) := fun _ => of_none

theorem Encoding.unbind (x : Msg) : Encoding.Statement (.unbind x) := fun _ => of_none

theorem Encoding.ucieModuleRetire (m : Nat) : Encoding.Statement (.ucieModuleRetire m) := fun _ => of_none

theorem Encoding.atsInvalidation (port : Bool) (addr : Nat) : Encoding.Statement (.atsInvalidation port addr) := fun _ => of_none

theorem Encoding.packageReset : Encoding.Statement (.packageReset) := fun _ => of_none

theorem Encoding.bootStage (error : Nat) (kind : Nat) : Encoding.Statement (.bootStage error kind) := fun _ => of_none

theorem Encoding.powerGate (unit : Nat) : Encoding.Statement (.powerGate unit) := fun _ => of_none

theorem Encoding.wakeComplete (unit : Nat) : Encoding.Statement (.wakeComplete unit) := fun _ => of_none

theorem Encoding.completionParkEnd (g : Nat) (slot : Nat) : Encoding.Statement (.completionParkEnd g slot) := fun _ => of_none

end Sys2Proof.Laws
end

