-- ==== Sys2Proof/Laws/Translate.lean ====
section
/-! SUPPORT. Translation reads memory, the context but for its queues, the near units and the node alone; with no write on record it
changes the cached host pages alone, and what it answers depends on nothing else of the state. -/
namespace Sys2Proof.Machine

/-- Two states that no walk tells apart (their contexts may have other queues), in neither of which a replaced entry may still be used. -/
def SameWalks (s u : State) : Prop :=
  s.order.writes = [] ∧ u.order.writes = [] ∧ u.mem = s.mem ∧ (∀ n, u.ctx n = { s.ctx n with queues := (u.ctx n).queues }) ∧ u.near = s.near ∧ u.node = s.node
    ∧ u.keyB = s.keyB ∧ u.keyL = s.keyL ∧ u.links = s.links ∧ u.routes = s.routes ∧ u.ats = s.ats

/-- Engines and groups do not matter to a walk. -/
theorem sameWalks_of {s u : State} (hs : s.order.writes = []) (h : u = { s with engines := u.engines, groups := u.groups }) : SameWalks s u := by
  rw [h]; exact ⟨hs, hs, rfl, fun _ => rfl, rfl, rfl, rfl, rfl, rfl, rfl, rfl⟩

theorem readPte_calm {s : State} (h : s.order.writes = []) (c : Ctx) (va l t : Nat) :
    s.readPte c va l t = (ofBytes (s.peek 0 t 8), s) := by
  simp [State.readPte, h, State.pick]

theorem peek_same {s u : State} (h : SameWalks s u) (stamp loc n : Nat) : u.peek stamp loc n = s.peek stamp loc n := by
  simp [State.peek, State.bytes, State.byte, State.decrypt, h.2.2.1, h.2.2.2.2.2.2.1, h.2.2.2.2.2.2.2.1]

theorem leafOk_same {s u : State} (h : SameWalks s u) (c : Ctx) (l e : Nat) : u.leafOk c l e = s.leafOk c l e := by
  simp [State.leafOk, h.2.2.2.2.1, h.2.2.2.2.2.1]

theorem walk_same {s u : State} (h : SameWalks s u) (c : Ctx) (va : Nat) (k : AccKind) :
    ∀ fuel l t, walk fuel u c va k l t = ((walk fuel s c va k l t).1, u)
  | 0, _, _ => rfl
  | fuel + 1, l, t => by
    have ih := walk_same h c va k fuel
    simp only [walk, readPte_calm h.1, readPte_calm h.2.1, peek_same h, leafOk_same h]
    split
    · rfl
    · split
      · split
        · rfl
        · exact ih _ _
      · split
        · rfl
        · split
          · rfl
          · split
            · rfl
            · split
              · rfl
              · cases k <;> simp only <;> split <;> rfl

/-- No walk looks at a context's queues. -/
theorem walk_queues (s : State) (c : Ctx) (qs : Map Queue) (va : Nat) (k : AccKind) :
    ∀ fuel l t, walk fuel s { c with queues := qs } va k l t = walk fuel s c va k l t := by
  intro fuel
  induction fuel generalizing s with
  | zero => intro _ _; rfl
  | succ fuel ih =>
    intro l t
    have hr : ∀ a, s.readPte { c with queues := qs } va l a = s.readPte c va l a := fun _ => rfl
    have hl : ∀ (u : State) e, u.leafOk { c with queues := qs } l e = u.leafOk c l e := fun _ _ => rfl
    have hp : ∀ e, leafLoc { c with queues := qs } l e va = leafLoc c l e va := fun _ => rfl
    simp only [walk, hr, hl, hp, ih]

theorem translate_same {s u : State} (h : SameWalks s u) (ctx va : Nat) (k : AccKind) :
    u.translate ctx va k = ((s.translate ctx va k).1, u) := by
  have hc := h.2.2.2.1 ctx
  generalize (u.ctx ctx).queues = qs at hc
  simp only [State.translate, hc, walk_queues]
  exact walk_same h _ _ _ _ _ _

theorem translate_calm {s : State} (h : s.order.writes = []) (ctx va : Nat) (k : AccKind) :
    s.translate ctx va k = ((s.translate ctx va k).1, s) := translate_same ⟨h, h, rfl, fun _ => rfl, rfl, rfl, rfl, rfl, rfl, rfl, rfl⟩ ctx va k

/-- An access caches the host page that it meets in both alike. -/
theorem cacheAts_same {s u : State} (h : u.ats = s.ats) (loc : Nat) : u.cacheAts loc = { u with ats := (s.cacheAts loc).ats } := by
  unfold State.cacheAts
  rw [h]
  split
  · split <;> simp [← h]
  · simp [← h]

/-- Nor do the links and the routes differ: an access waits for its port in both or in neither. -/
theorem access_same {s u : State} (h : SameWalks s u) (ctx va : Nat) (k : AccKind) :
    u.access ctx va k = ((s.access ctx va k).1, { u with ats := (s.access ctx va k).2.ats }) := by
  have hf : ∀ loc, u.portFull loc = s.portFull loc := fun loc => by
    have hl := h.2.2.2.2.2.2.2.2.1
    have hr := h.2.2.2.2.2.2.2.2.2.1
    unfold State.portFull State.link
    rw [hl, hr]
  have ha := h.2.2.2.2.2.2.2.2.2.2
  simp only [State.access]
  rw [translate_same h, translate_calm h.1]
  generalize (s.translate ctx va k).1 = r
  cases r <;> simp [hf, cacheAts_same ha, ← ha]

/-- With no write on record an access changes the cached host pages alone. -/
theorem access_calm {s : State} (h : s.order.writes = []) (ctx va : Nat) (k : AccKind) :
    s.access ctx va k = ((s.access ctx va k).1, { s with ats := (s.access ctx va k).2.ats }) :=
  access_same ⟨h, h, rfl, fun _ => rfl, rfl, rfl, rfl, rfl, rfl, rfl, rfl⟩ ctx va k

theorem SameWalks.withAts {s u : State} (h : SameWalks s u) (a : List (Nat × Nat)) : SameWalks { s with ats := a } { u with ats := a } := by
  obtain ⟨h1, h2, h3, h4, h5, h6, h7, h8, h9, h10, _⟩ := h
  exact ⟨h1, h2, h3, h4, h5, h6, h7, h8, h9, h10, rfl⟩

theorem mapPieces_same (ctx va : Nat) (k : AccKind) : ∀ ps acc {s u : State}, SameWalks s u →
    mapPieces u ctx va k ps acc = ((mapPieces s ctx va k ps acc).1, { u with ats := (mapPieces s ctx va k ps acc).2.ats })
  | [], _, s, u, h => by simp only [mapPieces]; rw [← h.2.2.2.2.2.2.2.2.2.2]
  | (off, len) :: ps, acc, s, u, h => by
    simp only [mapPieces]
    rw [access_same h, access_calm h.1]
    generalize (s.access ctx (va + off) k).1 = r
    generalize (s.access ctx (va + off) k).2.ats = a
    cases r with
    | ok loc stamp pte level size => exact mapPieces_same ctx va k ps _ (h.withAts a)
    | bad c => rfl
    | stall => rfl

theorem mapRange_same {s u : State} (h : SameWalks s u) (ctx va n : Nat) (k : AccKind) :
    u.mapRange ctx va n k = ((s.mapRange ctx va n k).1, { u with ats := (s.mapRange ctx va n k).2.ats }) := mapPieces_same ctx va k _ _ h

/-- Nor does it matter which queues a context has. -/
theorem mapRange_queues {s : State} (hs : s.order.writes = []) (c : Nat) (qs : Map Queue) (ctx va n : Nat) (k : AccKind)
    (ha : (s.mapRange ctx va n k).2.ats = s.ats) :
    let u := s.updCtx c fun c => { c with queues := qs }
    u.mapRange ctx va n k = ((s.mapRange ctx va n k).1, u) := by
  intro u
  have h : SameWalks s u := by
    refine ⟨hs, hs, rfl, fun m => ?_, rfl, rfl, rfl, rfl, rfl, rfl, rfl⟩
    simp only [u, State.ctx, State.updCtx, Map.get, Map.find_upd]
    by_cases hm : m = c
    · subst hm; cases Map.find s.ctxs m <;> simp
    · simp [hm]
  rw [mapRange_same h, ha]; rfl

end Sys2Proof.Machine
end

