-- ==== Sys2Proof/Tests/Slice0.lean ====
section
/-! SUPPORT. Tests of the model: words of the spec's examples, terms that WellFormed refuses, the spec's worked examples, and, for
each statement with hypotheses, a state and operands that meet them. -/
namespace Sys2Proof.Tests

set_option Elab.async false
open Sys2Proof Sys2Proof.Machine

/-! ### Decoding: the bytes of the spec's examples -/

def bytes (l : List Nat) : List Byte := l.map fun n => BitVec.ofNat 8 n

def decodesTo (l : List Nat) (i : Instr) : Bool :=
  match decodeBytes .all (bytes l) with
  | .ok (j, rest) => i == j && rest == []
  | .error _ => false

def raises (x : DecCtx) (w c : Nat) : Bool :=
  match decodeWord x w with
  | .ok _ => false
  | .error d => d == c

/-- Control: R216, R234, R375, R376. -/
theorem test_decode_control :
    decodesTo [0x01, 0x01, 0, 0, 0, 0, 0, 0, 5, 0, 0, 0] (.bra { ctl := { pred := 1 }, imm := 5 })
      ∧ decodesTo [0x03, 0, 0, 0, 0x50, 0, 0, 0, 3, 0, 0, 0] (.call { arg := 5, imm := 3 })
      ∧ decodesTo [0x06, 0, 0, 0, 0, 0, 0, 0, 0, 0, 0, 0] (.merge {})
      ∧ decodesTo [0x09, 0, 0, 0, 0, 0, 0, 0, 0, 0, 0, 0] (.eret {})
      ∧ decodesTo [0x08, 0, 0, 0, 0x30, 0, 0, 0, 0x55, 0, 0, 0] (.trap { arg := 3, imm := 0x55 }) := by decide +kernel

/-- Integer: add.i32 v3, v1, v2 under the guard !p2 with the switch marker, field by field from R46, R50 and R56. -/
theorem test_decode_integer :
    raises .all (0x10 + 8 * 2 ^ 8 + 3 * 2 ^ 12 + 2 ^ 20 + 2 * 2 ^ 28 + 2 ^ 58) 0x05
      ∧ decodesTo [0x10, 0x3A, 0x10, 0x20, 0, 0, 0, 1, 0, 0, 0, 0]
          (.add { ctl := { pred := 2, neg := true, sw := true }, d := .v 3, a := .v 1, b := .v 2 }) := by decide +kernel

/-- Logic: R95. -/
theorem test_decode_logic : decodesTo [0x24, 0x90, 0x10, 0x20, 0x40, 0x80, 0, 0, 0x03, 0x78, 0, 0]
    (.lut3 { d := .v 9, a := .v 1, b := .v 2, ty := 4, tail := .reg (.v 3) 0x78 }) := by decide +kernel

/-- Float: the word of 03_words, from its fields: OPC 0x33, TYPE 8, RND 1, NEGA, CREG, SW. -/
theorem test_decode_float : decodesTo [0x33, 0xCA, 0xD0, 0x20, 0x87, 0x89, 0, 1, 0x0E, 0, 0, 0]
    (.ffma { ctl := { pred := 2, neg := true, sw := true }, d := .v 12, a := .v 13, b := .k 2, ty := 8, rnd := .rz, negA := true,
             tail := .reg (.v 14) 0 }) := by decide +kernel

/-- Convert: cvt.f32.f16 v1, 3 (R76): TYPE 8 in MOD[39:36], the source format in SUB, A 0x73. -/
theorem test_decode_convert : decodesTo [0x50, 0x10, 0x30, 0x07, 0x80, 0, 0x90, 0, 0, 0, 0, 0]
    (.cvt { d := .v 1, a := .k 3, b := .v 0, ty := 8, sub := 9 }) := by decide +kernel

/-- Move: movi.b64 v4:v5, 7 (R108). -/
theorem test_decode_move : decodesTo [0x61, 0x40, 0x00, 0x08, 0x50, 0, 0, 0, 7, 0, 0, 0]
    (.movi { d := .v 4, a := .lit, ty := 5, tail := .imm 7 }) := by decide +kernel

/-- Memory: R143. -/
theorem test_decode_memory : decodesTo [0x70, 0x40, 0x20, 0, 0x20, 0, 0, 0, 0x40, 0, 0, 0]
    (.ld { d := .v 4, a := .v 2, width := 2, tail := .imm 0x40 }) := by decide +kernel

/-- Sync: R253. -/
theorem test_decode_sync : decodesTo [0x90, 0, 0, 0x08, 0, 0, 0x19, 0, 0x40, 0, 0, 0]
    (.bar { a := .lit, pd := { valid := true, reg := 1 }, scope := .quad, imm := 0x40 }) := by decide +kernel

/-- Matrix: the three examples of 12_matrix. -/
theorem test_decode_matrix :
    decodesTo [0xA7, 0, 0x90, 0, 0, 0, 0, 0, 0, 0, 0, 0] (.mma { a := .v 9 })
      ∧ decodesTo [0xA4, 0, 0x40, 0x20, 0, 0, 0, 0, 0, 1, 0, 0] (.mld { a := .v 4, b := .v 2, tail := .imm 256 })
      ∧ decodesTo [0xA2, 0x60, 0x40, 0x07, 0, 2, 0x0A, 0, 0, 0, 0, 0]
          (.mclaim { d := .v 6, a := .k 4, acc := true, pd := { valid := true, reg := 2 } }) := by decide +kernel

/-- Surface: the two examples of 13_surface. -/
theorem test_decode_surface :
    decodesTo [0xC2, 0xC0, 0x20, 0x90, 0, 0, 0, 0, 0, 0, 0, 0] (.sld { d := .v 12, a := .v 2, b := .v 9 })
      ∧ decodesTo [0xC5, 0, 0x20, 0x90, 0, 0xFC, 0, 0, 0x0C, 0x71, 0x88, 0x03]
          (.sblend { a := .v 2, b := .v 9, wmask := 0xF, ord := true, tail := .reg (.v 12) 0x38871 }) := by decide +kernel

/-- Ray: the example of 14_raster. -/
theorem test_decode_ray : decodesTo [0xD6, 0x40, 0x81, 0x20, 0, 0x80, 9, 0, 0x0C, 0, 0, 0]
    (.rxtri { d := .v 20, a := .v 8, b := .v 2, pd := { valid := true, reg := 1 }, tail := .reg (.v 12) 0 }) := by decide +kernel

/-- System: R168, R186, R219, R376. -/
theorem test_decode_system :
    decodesTo [0xE0, 0xC0, 0, 0, 0, 4, 0, 0, 0, 0, 0, 0] (.sread { d := .v 12, arg := 0x40 })
      ∧ decodesTo [0xE2, 0x60, 0x20, 0x40, 0, 0, 9, 0, 0, 0, 0, 0]
          (.qappend { d := .v 6, a := .v 2, b := .v 4, pd := { valid := true, reg := 1 } })
      ∧ decodesTo [0xE5, 0xA0, 0x20, 0x40, 0x10, 1, 0, 0, 0, 0, 0, 0] (.savereg { d := .v 10, a := .v 2, b := .v 4, arg := 0x11 })
      ∧ decodesTo [0xE7, 0, 0, 0, 0, 0, 0, 0, 0x1F, 0, 0, 0] (.brk { imm := 0x1F }) := by decide +kernel

/-- R61, R62, R219: what is refused, and in which order; `sread v13, now` raises 0x04, and trapaddr without privilege 0x06. -/
theorem test_decode_refusals :
    raises .all 0xF0 0x07 ∧ raises .all 0x0B 0x01 ∧ raises .all 0xEF 0x01 ∧ raises { priv := false } 0xE5 0x06
      ∧ raises .all (0x10 + 2 ^ 63) 0x05 ∧ raises .all (0xE0 + 13 * 2 ^ 12 + 0x40 * 2 ^ 36) 0x04
      ∧ raises { priv := false } (0xE0 + 13 * 2 ^ 12 + 0x33 * 2 ^ 36) 0x06 := by decide +kernel

/-! ### Ill-formed terms -/

/-- Checks of words: a type that ADD does not have, a D that is no register, an odd pair, a reserved scope of PREF, an MMA with a
predicate destination, RND on an integer word, SAT where there is none; and a control word with a field of another class. -/
theorem test_wf_words :
    (Instr.add { ty := 4 }).wf = false ∧ (Instr.add { d := .k 1 }).wf = false ∧ (Instr.madw { d := .v 5, tail := .reg (.v 2) 0 }).wf = false
      ∧ (Instr.pref { scope := .die }).wf = false ∧ (Instr.mma { pd := { valid := true } }).wf = false
      ∧ (Instr.add { rnd := .rd }).wf = false ∧ (Instr.min { sat := true }).wf = false ∧ (Instr.bra { arg := 1 }).wf = false
      ∧ (Instr.nop { arg := 9 }).wf = false ∧ (Instr.sread { pd := { valid := true }, d := .v 2, arg := 0x40 }).wf = false
      ∧ (Instr.savereg { arg := 64 }).wf = false ∧ (Instr.loadreg { arg := 4 }).wf = false ∧ (Instr.loadregGroup {}).wf = false := by
  decide +kernel

/-- Checks of events: each number beyond what the package has. -/
theorem test_wf_events :
    (Instr.resultLands 16384 0 0).wf = false ∧ (Instr.runGrant 256 0).wf = false ∧ (Instr.runGrant 0 4).wf = false
      ∧ (Instr.transferWaitEnd 0 4).wf = false ∧ (Instr.eccCorrected { core := 256 }).wf = false
      ∧ (Instr.remoteAccessFailure { kind := 8 }).wf = false ∧ (Instr.remoteRequestServe { write := some [], atomic := some (0, 4, 0) }).wf = false
      ∧ (Instr.copyEngineLine 64).wf = false ∧ (Instr.tileEvicted 0 0 2 0).wf = false ∧ (Instr.launchPacket 256 0).wf = false
      ∧ (Instr.launchPacket 0 64).wf = false ∧ (Instr.build false 0 (2 ^ 47) false).wf = false ∧ (Instr.resume false 0 (2 ^ 32)).wf = false
      ∧ (Instr.setbp { index := 8 }).wf = false ∧ (Instr.nearset false 2 0).wf = false ∧ (Instr.portctlEnable false 24).wf = false
      ∧ (Instr.registerWrite false 0x2000 4 0).wf = false ∧ (Instr.laneCalibration 0 5).wf = false ∧ (Instr.routeTableWrite 1024 0).wf = false
      ∧ (Instr.hello { port := 24 }).wf = false ∧ (Instr.bootStage 6 0).wf = false := by decide +kernel

/-! ### The spec's worked examples -/

/-- A machine in which one group of 32 lanes issues (log entry 30), with one page of 4 KiB at 0x1000_0000. -/
def tables : List (Nat × Nat) := bootTables.take 3 ++ [(0x40000, 3 + 0xF0 + 0x10000000 + 2 ^ 54)]
def demo : State :=
  { State.reset.booted with
    issue := some (0, 0)
    mem := (tables.foldl (fun (s : State) e => s.putBytes 0 e.1 (toBytes 8 e.2)) State.reset).mem }
def withG (f : Group → Group) : State := demo.updGroup 0 f
def issOf (s : State) (ctl : Ctl := {}) : Iss := (s.issuing ctl).getD {}

/-- The same with a split of lane 0 only, its vector registers (number, words, value) as given. -/
def fill (n words x : Nat) : List RegWrite := destWrites 0 (.v (Fin.ofNat 64 n)) (32 * words) 0 x
def regs (l : List (Nat × Nat × Nat)) : State :=
  withG fun g => ({ g with live := [(0, { pc := 0x10000000, mask := 1 })] } : Group).writeAll (l.flatMap fun e => fill e.1 e.2.1 e.2.2)

/-- The state after one instruction. -/
def after (i : Instr) (s : State) : State := match exec i s with | .next t => t | _ => s
/-- A vector register of lane 0 of group 0. -/
def reg (n : Nat) (s : State) : Nat := ((s.group 0).getD {}).value 0 (.v (Fin.ofNat 64 n)) 32 0
def flagsOf (s : State) : Nat := ((s.group 0).getD {}).sr.fpflags
/-- What an instruction leaves in v4 of lane 0, and FPFLAGS; the operands in v1, v2 and v3. -/
def run3 (i : Instr) (a b c : Nat) : Nat × Nat := let t := after i (regs [(1, 1, a), (2, 1, b), (3, 1, c)]); (reg 4 t, flagsOf t)

def cvtOf (dst src : BitVec 4) (sat : Bool) (a : Nat) (rnd : Rnd := .rne) : Nat × Nat :=
  run3 (.cvt { d := .v 4, a := .v 1, ty := dst, sub := src, sat, rnd }) a 0 0

/-- R38's example: f32 to .i8. -/
theorem test_cvt_int8 : cvtOf 4 8 false 0x42FECCCD = (127, 16) ∧ cvtOf 4 8 false 0x42FF3333 = (0xFFFFFF80, 1)
    ∧ cvtOf 4 8 true 0x42FF3333 = (127, 32) := by decide +kernel

/-- The worked conversions of 02_formats. -/
theorem test_cvt_narrow :
    cvtOf 11 8 false 0x3E99999A = (0x32, 16) ∧ cvtOf 11 8 false 0x3E99999A .rz = (0x31, 16)
      ∧ cvtOf 11 8 false 0x43960000 = (0x7F, 20) ∧ cvtOf 11 8 false 0xB9D1B717 = (0, 24)
      ∧ cvtOf 11 8 false 0x7F800000 = (0x80, 1) ∧ cvtOf 11 8 true 0x7F800000 = (0x7F, 32)
      ∧ cvtOf 12 8 false 0x447A0000 = (0x68, 16) ∧ cvtOf 8 11 false 0x80 = (0x7FC00000, 0) := by decide +kernel

/-- R36: KPACK of scaled pairs, and R34: their decoding. -/
theorem test_kpack_pairs :
    packPair .rne (f32.decode 0x4059999A) (f32.decode 0xC0D33333) = (0x93, 0, 0)
      ∧ packPair .rne (f32.decode 0x40266666) (f32.decode 0xC2140000) = (0x8E, 0, 1)
      ∧ packPair .rne (f32.decode 0x41100000) (f32.decode 0xC2C80000) = (0x58, 1, 0)
      ∧ (k4Pair 0x8E).1.isZero ∧ (k4Pair 0x8E).2.cmp (.ofInt (-32)) = 0 ∧ (k4Pair 0x58).1.cmp (.ofInt 8) = 0 := by decide +kernel

/-- The F8 chunk of 02_formats: 57,600.0078125 with one underflow; in A40 0x43B0800100. -/
theorem test_chunk_f8 :
    (let ps := [(f8.decode 0x7F, f8.decode 0x7F), (f8.decode 0x01, f8.decode 0x01), (f8.decode 0x08, f8.decode 0x40)]
      ++ List.replicate 13 (FV.zero, FV.zero)
     (toA40 (chunkSum .f8 ps).1, (chunkSum .f8 ps).2) = (0x43B0800100, 0, 1)) ∧ promote 0 (.fin false 7 4096) (-273) = 4 := by decide +kernel

/-- R95, R96, R106: LUT3, FUNSH with n = 32, BYTSEL. -/
theorem test_logic_examples :
    run3 (.lut3 { d := .v 4, a := .v 1, b := .v 2, ty := 4, tail := .reg (.v 3) 0x78 }) 0xF0F0 0xFF00 0x1234 = (0xE234, 0)
      ∧ run3 (.funsh { d := .v 4, a := .v 1, b := .v 2, ty := 4, tail := .reg (.v 3) 0 }) 5 9 40 = (9, 0)
      ∧ run3 (.bytsel { d := .v 4, a := .v 1, b := .v 2, ty := 4, tail := .reg (.v 3) 0 }) 0x44332211 0x88776655 0x08181707
          = (0x0088FF88, 0) := by decide +kernel

/-- R52's example: cvt.f32.f16 v1, 3 writes 3.0. -/
theorem test_inline_constant : reg 1 (after (.cvt { d := .v 1, a := .k 3, ty := 8, sub := 9 }) (regs [])) = 0x40400000 := by decide +kernel

/-- R92: −2^31 / −1 wraps with no flag, a zero divisor gives all ones; the results are outstanding. -/
def landed (s : State) : Nat := (((s.group 0).getD {}).outst.flatMap (·.writes)).find? (·.lane == 0) |>.map (·.val.toNat) |>.getD 0
theorem test_division_corners :
    landed (after (.div { d := .v 4, a := .v 1, b := .v 2 }) (regs [(1, 1, 0x80000000), (2, 1, 0xFFFFFFFF)])) = 0x80000000
      ∧ landed (after (.div { d := .v 4, a := .v 1, b := .v 2, ty := 1 }) (regs [(1, 1, 7)])) = 0xFFFFFFFF
      ∧ landed (after (.rem { d := .v 4, a := .v 1, b := .v 2 }) (regs [(1, 1, 0xFFFFFFF9), (2, 1, 2)])) = 0xFFFFFFFF := by decide +kernel

/-- R266 and R377's example: FPCTL 2, a lane that divides 6.0 by 0 traps with 0x51, TRAPMASK of that lane, TRAPAUX 2, TRAPPC at the
FDIV; nothing is outstanding. -/
theorem test_divide_by_zero_trap :
    (let s := withG fun g => ({ g with sr := { g.sr with fpctl := 2 }, live := [(0, { pc := 0x10000000, mask := 0xFF })] } : Group).writeAll ((List.range 8).flatMap fun l => destWrites 0 (.v 4) 32 l 0x40C00000
        ++ destWrites 0 (.v 5) 32 l (if l = 3 then 0 else 0x3F800000))
     let g := ((after (.fdiv { d := .v 9, a := .v 4, b := .v 5, ty := 8 }) s).group 0).getD {}
     g.traps.map (fun t => (t.cause, t.mask, t.aux, t.pc)) = [(0x51, 8, 2, 0x10000000)] ∧ g.outst = []) := by decide +kernel

/-- R345's example: the two triangles that share the edge under the ray; RXBOX's empty ray. -/
theorem test_ray_triangles :
    (let ray := rayOf (0x41200000 * 2 ^ 96) (2 ^ 64 + 0x41200000 * 2 ^ 96)
     let tri (l : List Int) : Nat := joinElems 32 (l.map (wrap 32))
     triTest ray (tri [0, -4, 10, 0, 4, 10, -4, 0, 10]) = (0x7F800000, false)
       ∧ triTest ray (tri [0, 4, 10, 0, -4, 10, 4, 0, 10]) = (0x41200000 + 0x3F000000 * 2 ^ 32 + 2 ^ 96, true)) := by decide +kernel

/-- R297's example: the surface of 100 × 50 pixels has 8 pages, 4 on each stack; pixel (70, 40) lies in tile 209 of stack 1. -/
theorem test_surface_storage :
    (let f : Surf := { width := 100, height := 50, chk := 2 }
     f.side = 32 ∧ f.pages 0 = 4 ∧ f.pages 1 = 4 ∧ (f.locate 70 40 0).1 = 1 ∧ (f.locate 70 40 0).2.1 * f.tileBytes = 0x7440 - 16384) := by
  decide +kernel

/-- R310's example: the two blends in the order of their keys give 5.25. -/
theorem test_blend_in_order :
    blendSample 3 0x38871 0xF true [.ofInt 4, .zero, .zero, .fin false 1 2]
      (blendSample 3 0x38871 0xF true [.ofInt 2, .zero, .zero, .fin false 1 2] 0x3F800000) = 0x40A80000 := by decide +kernel

/-- R313's example: the bilinear sample of the 2 × 2 texture. -/
theorem test_bilinear :
    (let t : Tex := { base := 0, width := 2, height := 2, levels := 1, fmt := 0, filter := 1 }
     let red (e : Nat × Nat × Int × Int) : FV := FV.mk2 false ([0, 255, 51, 102].getD (e.2.2.1.toNat % 2 + 2 * (e.2.2.2.toNat % 2)) 0) 255
     let r := sampleTexels t 0x3E99999A 0x3F000000 0
     (f32.round .rne (weigh r.2 (r.1.map fun e => (e.1, red e)))).1 = 0x3E24CCCD) := by decide +kernel

/-- R166's example: the image of 1 KiB of C-space has 320 bytes, its tags at 32 to 35. -/
theorem test_image_example :
    (let gs : List (Bool × List Nat) := [(true, 0x100 :: List.replicate 63 0), (true, List.replicate 64 0x3F800000), (false, List.replicate 64 0),
        (true, (List.range 64).map (· + 1))]
     let bs := encodeImage 0 0 0 gs
     bs.length = 320 ∧ (bs.drop 32).take 4 = bytes [2, 1, 0, 3] ∧ (bs.drop 48).take 12 = bytes [1, 0, 0, 0, 0, 0, 0, 0, 0, 1, 0, 0]
       ∧ (bs.drop 60).take 4 = bytes [0, 0, 0x80, 0x3F]) := by decide +kernel

/-- R251: 384 bytes and then 128 into a target of 256 give two generations. -/
theorem test_sync_word_counts : countOf 256 0 0 384 = (128, 1) ∧ countOf 256 128 1 128 = (0, 2) := by decide +kernel

/-- R388: the check value of the CRC. -/
theorem test_crc_check : crc64 (bytes [0x31, 0x32, 0x33, 0x34, 0x35, 0x36, 0x37, 0x38, 0x39]) = 0x62EC59E3F1A4F00A := by decide +kernel

/-! ### States that meet the hypotheses of the statements

Each theorem names the statement whose hypotheses it shows to be met. `one` is a machine in which a split of lane 0 issues; its registers
hold zero unless the test sets them. -/

def one : State := regs []
def at1 (s : State) (x : Ctl := {}) : Iss := issOf s x
/-- The guard p1, which no lane has. -/
def never : Ctl := { pred := 1 }
theorem lane0_only {l : Nat} (h : hasLane 1#32 l = true) : l = 0 := by
  unfold hasLane at h
  by_cases hl : l = 0
  · exact hl
  · rw [BitVec.getLsbD_one] at h; simp_all

/-- A machine whose run is about to fetch: no word issues, the run of group 0 is in progress. -/
def fetching (w : Nat := 0) : State := ({ one with issue := none } : State).putBytes 1 0x10000000 (toBytes 12 w)
def nextOf (s : State) : Iss := match s.nextRun with | some (_, r) => (s.issuer r).getD {} | none => {}
def pieces (s : State) : RangeTr × State :=
  State.mapRange { s with clock := max s.clock 1 } 1 (nextOf s).sp.pc 12 .fetch

/-- StepRunsWhatIsFetched: a run with a page for its PC, whose word is NOP; one whose word is no instruction; no agenda. -/
theorem test_meets_step :
    (fetching).agenda = [] ∧ (fetching).nextRun = some (0, { clock := 1 }) ∧ (fetching).issuer { clock := 1 } = some (nextOf fetching)
      ∧ (nextOf fetching).g.parked = false ∧ (nextOf fetching).sp.park = none ∧ (fetching).checks = []
      ∧ (nextOf fetching).sp.pc = 0x10000000 ∧ ((fetching).ctx 1).stepping = false ∧ ((fetching).ctx 1).bps = []
      ∧ pieces fetching = (.ok [(0x10000000, 1, 0, 12)], { fetching with clock := 1 }) ∧ (fetching).poisonedAt 0x10000000 12 = none
      ∧ (fetching).poisonedOn (nextOf fetching).g.ident.core true 0x10000000 12 = none ∧ nodeOf 0x10000000 = none
      ∧ (fetching).order.writes = [] ∧ ofBytes ((fetching).peek 1 0x10000000 12) = 0 := by decide +kernel
theorem test_meets_step_decodes :
    (decodeWord ((fetching).decCtx (nextOf fetching)) 0 = .ok (.nop {})) ∧ (decodeWord ((fetching).decCtx (nextOf fetching)) 0xFF = .error 0x07)
      ∧ ofBytes ((fetching 0xFF).peek 1 0x10000000 12) = 0xFF := ⟨rfl, rfl, by decide +kernel⟩

/-- StepRunsWhatIsFetched: an agenda with an event, and one with a store from outside. -/
theorem test_meets_agenda :
    ({ State.reset with agenda := [.event .packageReset] } : State).agenda = [.event .packageReset] ∧ encode .packageReset = none
      ∧ ({ State.reset with agenda := [.store 64 0 [1, 2] 0] } : State).agenda = [.store 64 0 [1, 2] 0] := ⟨rfl, rfl, rfl⟩

def stopsAt (pc : Nat) (f : Ctx → Ctx := id) (s : State := fetching) : State :=
  (s.updGroup 0 fun g => { g with live := [(0, { pc, mask := 1 })] }).updCtx 1 f

/-- StepRunsWhatIsFetched: a word that a checker watches, with a mismatch in its lane at its port and none after it, and with a second
one; one whose mismatch is at another port. -/
def checking (cs : List Check) : State := { fetching 0x10 with checks := cs }
theorem test_meets_checks :
    (∀ cs ∈ [[{ lanes := 1 }], [{ lanes := 1 }, { kind := 5, lanes := 3 }], [{ lanes := 1 }, { port := 1, lanes := 1 }]], let s := checking cs
      (match fetchInstr (nextOf s) { s with clock := max s.clock 1 } with
        | .ok (ins, u) => (checkedWord ins).isSome && u.checks == cs
        | .error _ => false) = true
        ∧ execLanes {} (nextOf s).g (nextOf s).sp = 1 ∧ (nextOf s).g.parked = false ∧ (nextOf s).sp.park = none
        ∧ s.nextRun = some (0, { clock := 1 }) ∧ s.issuer { clock := 1 } = some (nextOf s)) := by decide +kernel

/-- StepRunsWhatIsFetched: what stops a fetch: a parked group, a parked split; STEP; a PC at 2^52; a breakpoint; a PC that is no word's; no
page; a page that migrates; poison. -/
theorem test_meets_parked :
    (let s := fetching.updGroup 0 fun g => { g with swPark := true }; s.nextRun.isSome ∧ (nextOf s).g.parked = true)
      ∧ (let s := fetching.updGroup 0 fun g => { g with live := [(0, { pc := 0x10000000, mask := 1, park := some .span })] }
         s.nextRun.isSome ∧ (nextOf s).sp.park ≠ none)
      ∧ (let s := (stopsAt 0x10000000).putBytes 0 0x40000 (toBytes 8 (3 + 8 + 0xF0 + 0x10000000 + 2 ^ 54)); (pieces s).1 = .stall) := by
  decide +kernel
/-- The same. -/
theorem test_meets_fetch_stops :
    ((stopsAt 0 fun c => { c with stepping := true }).ctx 1).stepping = true
      ∧ (nextOf (stopsAt (2 ^ 52))).sp.pc = 2 ^ 52
      ∧ breakAt ((stopsAt 0x10000000 fun c => { c with bps := [(7, 0x10000000)] }).ctx 1) 0x10000000 = some 7
      ∧ (nextOf (stopsAt 0x10000002)).sp.pc % 4 ≠ 0
      ∧ (pieces (stopsAt 0x20000000)).1 = .bad 0x22 0x20000000
      ∧ (let s := stopsAt 0x10000000 id { fetching with poison := [(0x2000000, 0x9D)] }
         (pieces s).1 = .ok [(0x10000000, 1, 0, 12)] ∧ s.poisonedAt 0x10000000 12 ≠ none) := by decide +kernel

/-- MemoryFormKept: reset, whose step is a next state. -/
theorem test_meets_memory_form : State.reset.memWf = true ∧ step State.reset = .next State.reset := ⟨rfl, rfl⟩

/-- IntegerResults, DivisionAndArithmeticTraps, LogicAndBitResults, FloatingPointResults, TranscendentalAndConversion, MovesComparesPredicates,
LaneExchangeAndReductions, CommonFrameAndRegisters and every statement over words that issue: one that issues with a lane, and one
whose guard holds in none (CommitAndGuard). -/
theorem test_meets_issues : Executes one {} (at1 one) ∧ Issues one never (at1 one never) ∧ (at1 one never).lanes = 0 :=
  ⟨⟨⟨by decide +kernel, by decide +kernel⟩, by decide +kernel⟩, ⟨by decide +kernel, by decide +kernel⟩, by decide +kernel⟩

/-- The same: outcomes that trap, by an enabled flag and by a zero divisor, and outcomes that do not. -/
theorem test_meets_arith_trap :
    arithTrap 2 0 [(3, { fl := 2 })] = some (0x51, 8, 2) ∧ arithTrap 32 0 [(31, { dz := true })] = some (0x5F, 0x80000000, 0)
      ∧ arithTrap 31 0 [(0, { fl := 32, dz := true })] = none := by decide +kernel

/-- FloatingPointResults: finite values, one of them zero, an infinity; a denominator. -/
theorem test_meets_finite :
    (FV.fin false 3 2).IsFinite 3 2 ∧ (FV.fin true 1 4).IsFinite (-1) 4 ∧ (FV.zero).IsFinite 0 1 ∧ (0 : Nat) < 1 :=
  ⟨⟨⟨_, _, rfl⟩, rfl, by decide⟩, ⟨⟨_, _, rfl⟩, rfl, by decide⟩, ⟨⟨_, _, rfl⟩, rfl, by decide⟩, by decide⟩

/-- LaneExchangeAndReductions: a lane that takes part; MovesComparesPredicates: both directions of PMOV. -/
theorem test_meets_lanes : 0 ∈ lanesOf (at1 one).lanes ∧ hasLane (at1 one).lanes 0 = true ∧ tyOf { ty := 8 } = 8
    ∧ ({ sub := 1 } : Alu).sub = 1 ∧ ({} : Alu).sub ≠ 1 := by decide +kernel

/-- CommonFrameAndRegisters: a next state of a word; a key that is no predicate p0, and two keys of different registers. -/
theorem test_meets_frame :
    (match exec (.add { d := .v 4, a := .v 1, b := .v 2 }) one with | .next t => (t.group 0).isSome | _ => false) = true
      ∧ 0 < (at1 one).g.ident.rows ∧ ringKey 8 (rowKey 0 7 31) ≠ ringKey 8 (fixedKey 7 31) ∧ ¬ (256 ≤ rowKey 0 0 0 ∧ rowKey 0 0 0 < 288)
      ∧ vecKey 0 63 31 = rowKey 6 7 31 := by decide +kernel

/-- CommitAndGuard: the issuing group and its split; a run that goes on, and one at its 24th instruction. -/
theorem test_meets_accounting :
    ((at1 one).start one).group 0 = some (at1 one).g ∧ Map.find (at1 one).g.live 0 = some (at1 one).sp
      ∧ Map.find one.runs (portKey 0) = some { clock := 1 } ∧ (0 : Nat) + 1 < 24
      ∧ Map.find ({ one with runs := [(0, { count := 23, clock := 9 })] } : State).runs (portKey 0) = some { count := 23, clock := 9 } := by
  decide +kernel

/-! #### Memory -/

def placesOf (ts : List (LaneOp × Tr)) : List Place :=
  ts.filterMap fun t => match t.2 with
    | .ok loc stamp pte level size => some { op := t.1, loc, stamp, pte, level, size }
    | _ => none

/-- The premise of the lane accesses, with the places that the walks give. -/
def Meets (s : State) (a : Access) (rd wr : Bool) (ops : Iss → List LaneOp) : Prop :=
  Passes a rd wr (at1 s) ((at1 s).start s) (ops (at1 s)) (placesOf (placeLanes (at1 s) a (ops (at1 s)) ((at1 s).start s) []).1)
    (placeLanes (at1 s) a (ops (at1 s)) ((at1 s).start s) []).2

def walked (s : State) (a : Access) (ops : Iss → List LaneOp) : List (LaneOp × Tr) × State :=
  placeLanes (at1 s) a (ops (at1 s)) ((at1 s).start s) []
def passes (s : State) (a : Access) (rd wr : Bool) (ops : Iss → List LaneOp) : Bool :=
  (((at1 s).start s).tileStores (at1 s).g).isEmpty && decide (accessTrap (at1 s) ((at1 s).start s) a.inC a.width (ops (at1 s)) = none)
    && decide (watchTrap (at1 s) ((at1 s).start s) a.inC rd wr a.width (ops (at1 s)) = none)
    && decide ((walked s a ops).1 = (placesOf (walked s a ops).1).map Place.tr)
    && (placesOf (walked s a ops).1).all fun p => decide ((walked s a ops).2.remoteFail (at1 s).g.ident.ctx p.loc = none)
      && decide ((walked s a ops).2.poisonedAt p.loc a.width = none) && decide ((walked s a ops).2.poisonedOn (at1 s).g.ident.core false p.loc a.width = none)
theorem meets_of {s : State} {a : Access} {rd wr : Bool} {ops : Iss → List LaneOp} (h : passes s a rd wr ops = true) : Meets s a rd wr ops := by
  simp only [passes, Bool.and_eq_true, decide_eq_true_eq, List.all_eq_true, List.isEmpty_iff] at h
  obtain ⟨⟨⟨⟨h1, h2⟩, h3⟩, h4⟩, h5⟩ := h
  exact ⟨fun t ht => by simp [h1] at ht, h2, h3, Prod.ext h4 rfl, fun p hp => ⟨(h5 p hp).1.1, fun _ => ⟨(h5 p hp).1.2, fun _ => (h5 p hp).2⟩⟩⟩

/-- The address of v2:v3 in the page of the test's group; v1 is the data. -/
def at_ (va : Nat) (data : Nat := 7) : State := regs [(1, 2, data), (2, 2, va)]
def mem (w : BitVec 3 := 2) (inC : Bool := false) : MemW := { d := .v 4, a := .v 2, b := .v 1, width := w, inC, tail := .reg (.v 5) 0 }

/-- LaneAccessesComplete, StoresAndAtomics, SequencedReductions: LD, ST, AT, RED, ATC and REDS of 4 bytes, ST of 16 bytes at the last legal place of the page,
and in C-space at its last word. -/
theorem test_meets_passes :
    Meets (at_ 0x10000000) (loadAccess mem) true false (addressOps · mem 1) ∧ Meets (at_ 0x10000FFC) (storeAccess mem) false true (storeOps · mem)
      ∧ Meets (at_ 0x10000000) (atAccess mem true) true true (atomicOps · mem 1)
      ∧ Meets (at_ 0x10000FFC) (atAccess mem false) true true (atomicOps · mem 1)
      ∧ Meets (at_ 0x10000000) (atcAccess mem) true true (atomicOps · mem 1)
      ∧ Meets (at_ 0x10000FF0) (storeAccess (mem 4)) false true (storeOps · (mem 4))
      ∧ Meets (at_ 4092) (loadAccess (mem 2 true)) true false (addressOps · (mem 2 true) 1)
      ∧ Meets (at_ 0x10000000) (redsAccess mem) true true (redsOps · mem) :=
  ⟨meets_of (by decide +kernel), meets_of (by decide +kernel), meets_of (by decide +kernel), meets_of (by decide +kernel),
   meets_of (by decide +kernel), meets_of (by decide +kernel), meets_of (by decide +kernel), meets_of (by decide +kernel)⟩

/-- AddressChecks: each check fails first, at its boundary: 0x41 at 2^52, 0x42 at the end of the allocation, 0x40 off by one. -/
theorem test_meets_address_checks :
    (let s := at_ (2 ^ 52); accessTrap (at1 s) s false 4 (addressOps (at1 s) mem 1) = some (0x41, 1, 2 ^ 52))
      ∧ (let s := at_ 4096; accessTrap (at1 s) s true 4 (addressOps (at1 s) (mem 2 true) 1) = some (0x42, 1, 4096))
      ∧ (let s := at_ 0x10000001; accessTrap (at1 s) s false 4 (addressOps (at1 s) mem 1) = some (0x40, 1, 0x10000001))
      ∧ (let s := at_ 0x10000000; accessTrap (at1 s) s false 4 (addressOps (at1 s) mem 1) = none
          ∧ ((at1 s).start s).tileStores (at1 s).g = [] ∧ (addressOps (at1 s) mem 1).all (·.lane < 32)) := by decide +kernel

def rec1 : WriteRec := { id := 1, loc := 0x10000000, old := [1, 2, 3, 4], agent := 0 }

/-- LoadedValues: no recorded write at the range; one that meets it and must be seen; one that a load may miss. -/
theorem test_meets_loads :
    mem.width.toNat ≤ 4 ∧ one.order.writes = []
      ∧ ({ one with order := { one.order with writes := [rec1] } } : State).order.writes.filter (fun r => overlap r.loc r.old.length 0x10000000 4) = [rec1]
      ∧ mayMiss (one.viewOf 1 { own := [(0, 2)] }) { view := { own := [(0, 2)] } } 0x10000000 rec1 = false
      ∧ mayMiss (one.viewOf 1 {}) {} 0x10000000 rec1 = true := by decide +kernel

/-- StoresAndAtomics: an ATC whose old value equals its compare value, and one whose does not. -/
theorem test_meets_compare :
    (let s := (at_ 0x10000000).putBytes 1 0x10000000 (toBytes 4 7)
     ofBytes (s.peek 1 0x10000000 4) = ((atomicOps (at1 s) mem 1).headD {}).b) ∧ (7 : Nat) ≠ 8 := by decide +kernel

/-- ProbesAndFences: LDP of a page, and of no page; a fence and a flush that complete. -/
theorem test_meets_probe :
    (∀ va ∈ [0x10000000, 0x20000000], let s := at_ va; let i := at1 s; let r := placeLanes i (loadAccess mem) (addressOps i mem 1) (i.start s) []
      (i.start s).tileStores i.g = [] ∧ accessTrap i (i.start s) false 4 (addressOps i mem 1) = none
        ∧ watchTrap i (i.start s) false true false 4 (addressOps i mem 1) = none ∧ (∀ t ∈ r.1, t.2 ≠ .stall)
        ∧ (∀ p ∈ placesOf r.1, r.2.readKills (some 0) 1 p.loc 4 = none))
      ∧ (let s := at_ 0x10000001; let i := at1 s; let r := placeLanes i (flushAccess mem) (addressOps i mem 1) (i.start s) []
         accessTrap i (i.start s) false 1 (addressOps i mem 1) = none ∧ r.1 = (placesOf r.1).map Place.tr
           ∧ ∀ p ∈ placesOf r.1, r.2.remoteFail 1 p.loc = none) := by decide +kernel

/-- A stream record at 0x1000_0000, VALUE, NEXT, COUNT, FMT, and contributions to it. -/
def stream (value next count fmt : Nat) (cs : List Contrib) : State :=
  ({ State.reset.booted with contribs := cs } : State).putBytes 1 0x10000000 (toBytes 64 (value + next * 2 ^ 64 + count * 2 ^ 96 + fmt * 2 ^ 128))
def contrib (index : Nat) (id : Nat := 5) (held : Bool := false) : Contrib :=
  { id, ctx := 1, addr := 0x10000000, value := 0x3F800000, index, held, loc := if held then some 0x10000000 else none }

/-- SequencedReductions: a contribution beyond COUNT, below NEXT, already held, 64 ahead, 63 ahead, and due; one behind a lower
lane. -/
theorem test_meets_reductions :
    (∀ e ∈ [(3, true), (1, false), (66, false), (65, false), (2, false)], let c := contrib e.1
          let s := stream 0 2 (if e.1 = 3 then 3 else 100) 0 [c]
          (s.contribs.find? fun d => d.id == c.id && !d.held) = some c ∧ (s.placeHeld.translate 1 0x10000000 .atomic).2.behind c 0x10000000 = false
              ∧ (s.placeHeld.translate 1 0x10000000 .atomic).2.order.writes.all (fun w => decide (w.id < s.order.next)) = true
            ∧ (match (s.placeHeld.translate 1 0x10000000 .atomic).1 with | .ok l st _ _ _ => (l, st) | _ => (0, 0)) = (0x10000000, 1)
            ∧ streamBad (ofBytes (s.peek 1 0x10000000 64)) false e.1 = e.2 ∧ bits (ofBytes (s.peek 1 0x10000000 64)) 64 32 = 2)
      ∧ (let c := contrib 4; let s := stream 0 2 100 0 [c, contrib 4 6 true]
         (s.contribs.find? fun d => d.id == c.id && !d.held) = some c
           ∧ (s.placeHeld.contribs.any fun d => d.held && d.loc == some 0x10000000 && d.index == c.index) = true)
      ∧ (let c : Contrib := { contrib 4 with lane := 1 }; (stream 0 2 100 0 [contrib 3 6, c]).behind c 0x10000000 = true) := by decide +kernel


/-! #### Control, windows, special registers, traps, errors -/

/-- A mask of lanes that fail a predicate, by a check of the 32 lanes. -/
theorem fails_of {m : Lanes} {p : Nat → Bool} {bad : Lanes} {l : Nat} (hb : hasLane bad l = true)
    (h : ((List.range 32).all fun n => (hasLane bad n == (hasLane m n && p n)) && (!hasLane bad n || decide (l ≤ n))) = true) : Fails m p bad l := by
  have big (x : Lanes) (n : Nat) (hn : ¬ n < 32) : hasLane x n = false := BitVec.getLsbD_of_ge x n (by omega)
  rw [List.all_eq_true] at h
  refine ⟨fun n => ?_, hb, fun n hn => ?_⟩
  · by_cases hl : n < 32
    · have := h n (List.mem_range.2 hl); simp only [Bool.and_eq_true, beq_iff_eq] at this; rw [this.1, Bool.and_eq_true]
    · simp [big _ n hl]
  · by_cases hl : n < 32
    · have := h n (List.mem_range.2 hl); simp [hn] at this; exact this.2
    · simp [big _ n hl] at hn

/-- Parts that divide a split, by a check of the 32 lanes. -/
theorem divides_of {i : Iss} {f : Nat → Nat × Nat} {ps : List Part}
    (h : (ps.all fun p => (p.mask != 0) && (List.range 32).all fun l => hasLane p.mask l == (hasLane i.sp.mask l && f l == (p.pc, p.wb))) = true)
    (h2 : ((List.range 32).all fun l => !hasLane i.sp.mask l || ps.any fun p => f l == (p.pc, p.wb)) = true)
    (h3 : ps.Pairwise fun p q => lowest p.mask < lowest q.mask) : Divides i f ps := by
  have big (x : Lanes) (n : Nat) (hn : ¬ n < 32) : hasLane x n = false := BitVec.getLsbD_of_ge x n (by omega)
  rw [List.all_eq_true] at h h2
  refine ⟨fun p hp => ?_, fun l hl => ?_, h3⟩
  · have := h p hp
    simp only [Bool.and_eq_true, bne_iff_ne, ne_eq, List.all_eq_true, beq_iff_eq] at this
    refine ⟨this.1, fun l => ?_⟩
    by_cases hl : l < 32
    · rw [this.2 l (List.mem_range.2 hl)]; simp
    · simp [big _ l hl]
  · by_cases hn : l < 32
    · have := h2 l (List.mem_range.2 hn); simp [hl] at this; simpa using this
    · simp [big _ l hn] at hl

/-- A walk of a range that is in the page, whatever the groups and the engines. -/
theorem reads_of {s : State} {ctx va n : Nat} {k : AccKind} {ps : List (Nat × Nat × Nat × Nat)} (hw : s.order.writes = [])
    (h : (s.mapRange ctx va n k).1 = .ok ps ∧ (s.mapRange ctx va n k).2.ats = s.ats) (g : Map Group) (e : Map Engine) :
    State.mapRange { s with groups := g, engines := e } ctx va n k = (.ok ps, { s with groups := g, engines := e }) := by
  rw [mapRange_same (sameWalks_of hw rfl), h.1, h.2]

theorem maps_of {s u : State} {ctx va n : Nat} {k : AccKind} {ps : List (Nat × Nat × Nat × Nat)} (hw : s.order.writes = [])
    (hu : u = { s with engines := u.engines, groups := u.groups })
    (h : (s.mapRange ctx va n k).1 = .ok ps ∧ (s.mapRange ctx va n k).2.ats = s.ats) : u.mapRange ctx va n k = (.ok ps, u) := by
  have ha : u.ats = s.ats := (sameWalks_of hw hu).2.2.2.2.2.2.2.2.2.2
  rw [mapRange_same (sameWalks_of hw hu), h.1, h.2, ← ha]

/-- One split of lane 0 at a PC, changed by f. -/
def splitAt (pc : Nat) (f : Split → Split := id) (h : Group → Group := id) (l : List (Nat × Nat × Nat) := []) : State :=
  withG fun g => h (({ g with live := [(0, f { pc, mask := 1 })] } : Group).writeAll (l.flatMap fun e => fill e.1 e.2.1 e.2.2))

/-- ControlTransfers: branch targets at the ends of the address space and one beyond each; BRX to a far and to an odd address, and
to a legal one; a split outside a handler. -/
theorem test_meets_transfers :
    (∀ e ∈ ([(0, 0, 0), (2 ^ 52 - 16, 1, 2 ^ 52 - 4), (0, -1, -12), (2 ^ 52 - 12, 1, 2 ^ 52)] : List (Nat × Int × Int)),
        (((at1 (splitAt e.1)).sp.pc : Nat) : Int) + 12 * (BitVec.ofInt 32 e.2.1).toInt = e.2.2)
      ∧ (∀ e ∈ [(2 ^ 52 - 4, false, false), (2 ^ 52, true, false), (6, false, true)],
          let i := at1 (regs [(2, 2, e.1)])
          (decide (2 ^ 52 ≤ i.g.value i.sp.wb (.v 2) 64 0), i.g.value i.sp.wb (.v 2) 64 0 % 4 != 0) = (e.2.1, e.2.2))
      ∧ (at1 one).g.handler = none := by decide +kernel
theorem test_meets_transfer_masks :
    Fails 0xF#32 (fun l => l % 2 == 1) 0xA#32 1 ∧ (∀ l, hasLane (at1 (regs [(2, 2, 8)])).lanes l = true →
      (decide (2 ^ 52 ≤ (at1 (regs [(2, 2, 8)])).g.value 0 (.v 2) 64 l)) = false) :=
  ⟨fails_of (by decide +kernel) (by decide +kernel), fun l h => by
    have : (at1 (regs [(2, 2, 8)])).lanes = 1#32 := by decide +kernel
    rw [this] at h; rw [lane0_only h]; decide +kernel⟩

/-- DivisionSettlingControlFrame: five parts and two free live slots; a group whose live slots are below 4 and differ. -/
theorem test_meets_division :
    (let g : Group := { live := [(0, { mask := 0xFF }), (2, { mask := 0xF00, pc := 4 })] }
     let ps : List Part := (List.range 5).map fun n => { pc := 12 * n, mask := BitVec.ofNat 32 (2 ^ n) }
     Map.find g.live 0 = some { mask := 0xFF } ∧ ((List.range 4).filter fun n => (Map.find g.live n).isNone) = [1, 3] ∧ ps.length = 5
       ∧ (∀ e ∈ g.live, e.1 < 4) ∧ (g.live.map (·.1)).Nodup ∧ (g.entries.filter fun e => hasLane e.mask 8).length ≤ 1) := by decide +kernel

/-- DivisionSettlingControlFrame: a control word that ends in a next state. -/
theorem test_meets_control_frame : (match exec (.bra { imm := 1 }) one with | .next _ => true | _ => false) = true := by decide +kernel

/-- RegisterWindows: windows over 9 rows of a ring of 8, and over 8; a slide up that spills, one down that fills. -/
theorem test_meets_adjust :
    adjust 0 8 [0, 2] = .defer ∧ adjust 0 8 [0, 1] = .commit [] [] 0 [] ∧ adjust 0 8 [2] = .commit [0] [] 1 [] ∧ adjust 2 8 [1] = .commit [] [1] 1 [9] := by
  decide +kernel

/-- A group with one row of backing and a record that ends with the page, at window base 1: its rows from SPR on may be dirty. -/
def backed (f : Group → Group := id) : State :=
  splitAt 0x10000000 (fun e => { e with wb := 1 }) fun g => f { g with ident := { g.ident with rows := 16, bsp := 0x10000400, bsl := 0x10000800 } }

/-- RegisterWindows, SaveWindowsComplete: rows of the backing that can be stored and loaded; dirty and clean rows, a row beyond the backing. -/
theorem test_meets_rows :
    (let s := backed fun g => { g with dirty := [0, 1] }
     let g := (at1 s).g
     let m := s.mapRange 1 0x10000400 1024 .write
     g.dirty.contains 2 = false ∧ g.ident.bsl < g.ident.bsp + 1024 * (1 + 1) ∧ g.dirty.contains 1 = true
       ∧ g.ident.bsp + 1024 * (0 + 1) ≤ g.ident.bsl ∧ m.2 = s ∧ (s.mapRange 1 0x10000400 1024 .read) = m
       ∧ s.order.writes = [] ∧ 0 < g.ident.rows
       ∧ (match m.1 with | .ok ps => ps.length == 8 && decide (ps.Pairwise (fun p q => p.1 + p.2.2.2 ≤ q.1 ∨ q.1 + q.2.2.2 ≤ p.1)) | _ => false) = true) := by
  decide +kernel

/-- A page after the first, whose entry is e. -/
def withPte (n e : Nat) (s : State) : State := s.putBytes 0 (0x40000 + 8 * n) (toBytes 8 e)

/-- SaveWindowsComplete: SVWIN with no dirty row and with one whose backing is mapped; LDWIN, all of whose rows have mapped backing. -/
def windowed (f : Group → Group := id) : State := backed fun g => f { g with ident := { g.ident with bsp := 0x10000000, bsl := 0x10004000 } }
def windowsMapped : State := withPte 1 (3 + 0xF0 + 0x10001000 + 2 ^ 54) (withPte 2 (3 + 0xF0 + 0x10002000 + 2 ^ 54) (withPte 3 (3 + 0xF0 + 0x10003000 + 2 ^ 54) windowed))
theorem test_meets_save_rows :
    (let g := (at1 windowed).g; g.rowsBusy = false ∧ ((at1 windowed).start windowed).backingClear g = true ∧ (∀ r ∈ g.windowRows, g.dirty.contains r = false))
      ∧ (let s := windowed fun g => { g with dirty := [0] }; let g := (at1 s).g
         g.dirty = [0] ∧ 0 ∈ g.windowRows ∧ g.windowRows.Nodup ∧ g.ident.bsp + 1024 * (0 + 1) ≤ g.ident.bsl
           ∧ (match s.mapRange 1 g.ident.bsp 1024 .write with | (.ok _, u) => u == s | _ => false) = true) := by decide +kernel
def pieceOf (s : State) (va n : Nat) : Option (List (Nat × Nat × Nat × Nat)) :=
  match (s.mapRange 1 va n .read).1 with
  | .ok ps => if (ps.all fun p => (nodeOf p.1).isNone) && (s.mapRange 1 va n .read).2.ats == s.ats then some ps else none
  | _ => none
theorem pieceOf_spec {s : State} {va n : Nat} (h : (pieceOf s va n).isSome = true) :
    ∃ ps, Local ps ∧ (s.mapRange 1 va n .read).1 = .ok ps ∧ (s.mapRange 1 va n .read).2.ats = s.ats := by
  unfold pieceOf at h
  split at h
  · rename_i ps hp
    split at h
    · rename_i hl; simp only [Bool.and_eq_true, beq_iff_eq] at hl
      exact ⟨ps, fun p hm => Option.isNone_iff_eq_none.1 (List.all_eq_true.1 hl.1 p hm), hp, hl.2⟩
    · simp at h
  · simp at h
theorem test_meets_row_backing : (at1 windowsMapped).g.windowRows.all (· < 16) = true ∧ windowsMapped.order.writes = []
    ∧ ((List.range 16).all fun r => (pieceOf windowsMapped (0x10000000 + 1024 * r) 1024).isSome) = true := by decide +kernel
theorem test_meets_load_rows (r : Nat) (h : r < 16) : ∃ ps, Local ps ∧ ∀ (g : Map Group) (e : Map Engine),
    State.mapRange { windowsMapped with groups := g, engines := e } 1 (0x10000000 + 1024 * r) 1024 .read
      = (.ok ps, { windowsMapped with groups := g, engines := e }) :=
  have t := test_meets_row_backing
  have ⟨ps, hl, hp⟩ := pieceOf_spec (List.all_eq_true.1 t.2.2 r (List.mem_range.2 h))
  ⟨ps, hl, reads_of t.2.1 hp⟩

/-- SaveWindowsComplete: SVWIN and LDWIN with rows busy, with a tile store to the backing, and each way in which the rows end. -/
theorem test_meets_window_runs :
    Executes backed {} (at1 backed)
      ∧ (at1 (backed fun g => { g with outst := [{ writes := [{ key := rowKey 1 0 0 }] }] })).g.rowsBusy = true ∧ (at1 backed).g.rowsBusy = false
      ∧ (let s := { backed with engines := [(0, { queue := [{ op := .store 0 0 false 0x10000400 64, uid := 3 }] })] }
         ((at1 s).start s).backingClear (at1 s).g = false)
      ∧ ((at1 backed).start backed).backingClear (at1 backed).g = true :=
  ⟨⟨⟨by decide +kernel, by decide +kernel⟩, by decide +kernel⟩, by decide +kernel, by decide +kernel, by decide +kernel, by decide +kernel⟩
def endOf (save : Bool) (s : State) : Option RowStop := (windowRun save 0 (at1 s).g.windowRows ((at1 s).start s)).1
theorem test_meets_window_ends :
    endOf true backed = none ∧ endOf true (backed fun g => { g with dirty := [1] }) = some (.limit 0x10000800)
      ∧ endOf false backed = some (.bad 0x23 0x10001000)
      ∧ endOf true (backed fun g => { g with dirty := [0], ident := { g.ident with bsp := 0x10001000, bsl := 0x10002000 } }) = some (.bad 0x27 0x10001000)
      ∧ (let s := withPte 1 (3 + 8 + 0xF0 + 0x10001000 + 2 ^ 54) backed
         endOf false s = some .stall) := by decide +kernel

/-- CallsAndReturns: a privileged split; targets out of range; a slide by 1 that fits, one that is deferred by another window. -/
def callee (v14 : Nat) (wb : Nat := 1) (rows : Nat := 16) (others : Map Split := []) : State :=
  withG fun g => ({ g with ident := { g.ident with rows }, live := (0, { pc := 0x10000000, mask := 1, wb }) :: others } : Group).writeAll
    (destWrites wb (.v 14) 64 0 v14)
def backOf (s : State) : Nat := (at1 s).g.value (at1 s).sp.wb (.v 14) 64 0
theorem test_meets_slides :
    Executes (callee 0) {} (at1 (callee 0)) ∧ (at1 (callee 0)).sp.priv = false
      ∧ (at1 (splitAt 0x10000000 fun e => { e with priv := true })).sp.priv = true
      ∧ backOf (callee (0x10000040 + 2 ^ 60)) = 0x10000040 + 2 ^ 60 ∧ backOf (callee (2 ^ 61)) = 2 ^ 61 ∧ backOf (callee (2 ^ 60 + 2)) = 2 ^ 60 + 2
      ∧ ((at1 (callee 0)).g.ents.filter (·.1 != 0)) = []
      ∧ ((at1 (callee 0 1 8 [(1, { mask := 2, wb := 0 })])).g.ents.filter (·.1 != 0)).map (·.2.wb) = [0]
      ∧ ((at1 (callee 0)).start (callee 0)).backingClear (at1 (callee 0)).g = true
      ∧ adjust 0 16 [2] = .commit [] [] 0 [] ∧ adjust 0 16 [0] = .commit [] [] 0 [] ∧ adjust 0 8 [2, 0] = .defer :=
  ⟨⟨⟨by decide +kernel, by decide +kernel⟩, by decide +kernel⟩, by decide +kernel, by decide +kernel, by decide +kernel, by decide +kernel,
   by decide +kernel, by decide +kernel, by decide +kernel, by decide +kernel, rfl, rfl, rfl⟩
theorem test_meets_slide_parts :
    Divides (at1 (callee 0)) (lanesGo (at1 (callee 0)) (at1 (callee 0)).lanes fun _ => (0x1000000C, 2)) [{ pc := 0x1000000C, wb := 2, mask := 1 }] :=
  divides_of (by decide +kernel) (by decide +kernel) (by decide +kernel)

/-- CallsAndReturns: CALLI with an index at STABN, and one below it, whose record is in memory. -/
def tabled (rec16 : Nat) (stabn : Nat := 1) : State :=
  (splitAt 0x10000000 (h := fun g => { g with ident := { g.ident with rows := 16 }, sr := { g.sr with stab := 0x10000100, stabn } })).putBytes 1 0x10000100
    (toBytes 16 rec16)
theorem test_meets_calli :
    (∀ r ∈ [0x10000040 + (1 + 2 ^ 8) * 2 ^ 64, 0, 0x10000042 + 2 ^ 64, 0x10000040 + 8 * 2 ^ 64],
        let s := tabled r
        ofBytes (((at1 s).start s).peek 1 0x10000100 16) = r
          ∧ ((at1 s).start s).readKills (some 0) 1 0x10000100 16 = none ∧ ((at1 s).start s).tileStores (at1 s).g = [] ∧ s.order.writes = []
          ∧ ((at1 s).start s).backingClear (at1 s).g = true ∧ ((((at1 s).start s).engine (at1 s).g.ident.core).queue.all fun e => e.uid != (at1 s).g.seen.uid))
      ∧ nodeOf 0x10000100 = none ∧ (at1 (tabled 0 0)).g.sr.stabn ≤ 0
      ∧ (let s := (at1 (tabled 0)).start (tabled 0); s.mapRange 1 0x10000100 16 .read = (.ok [(0x10000100, 1, 0, 16)], s)) := by decide +kernel

/-- SpecialRegisters: the operand of SWRITE as an immediate, at the limits of STABN, STABS and of the split's lanes. -/
theorem test_meets_swrite :
    (∀ e ∈ [0, 1048576, 1048577, 16, 256, 272, 24], (at1 one).g.operand 0 .lit 32 (lowest (at1 one).lanes) id e = e)
      ∧ (at1 one).sp.mask = 1 ∧ (∀ n ∈ [0x06, 0x07, 0x08, 0x21, 0x22, 0x31, 0x32, 0xFF], (BitVec.ofNat 8 n).toNat = n)
      ∧ bit 2 1 = true ∧ hasLane (at1 one).sp.mask 1 = false := by decide +kernel

/-- SoftwareTrapsAndReturn: in a handler with TRAPPC legal, odd, and beyond 2^52; in the save handler. -/
def handling (cause trappc : Nat) : State :=
  splitAt 0x10000000 (fun e => { e with priv := true })
    fun g => { g with handler := some { cause, slot := 0, rpc := 0 }, sr := { g.sr with trappc } }
theorem test_meets_eret :
    (∀ e ∈ [0x10000000, 2 ^ 52 - 4, 2, 2 ^ 52], (at1 (handling 0x51 e)).g.sr.trappc = e ∧ (at1 (handling 0x51 e)).sp.priv = true
        ∧ (at1 (handling 0x51 e)).lanes ≠ 0 ∧ (at1 (handling 0x51 e)).g.handler = some { cause := 0x51, slot := 0, rpc := 0 })
      ∧ (at1 (handling 0xA1 0)).g.handler = some { cause := 0xA1, slot := 0, rpc := 0 } ∧ (at1 one).sp.priv = false
      ∧ (handling 0x51 0).group 0 = some (at1 (handling 0x51 0)).g
      ∧ Map.find (at1 (handling 0x51 0)).g.live 0 = some (at1 (handling 0x51 0)).sp := by decide +kernel

/-- TrapEntryAndEnd: a group whose trap waits, and whose record can be stored; one whose handler is about to end. -/
def trapping : State := ({ · with runs := [] }) <| backed fun g => { g with traps := [{ cause := 0x51, mask := 1, pc := 0x10000000 }] }
theorem test_meets_entry :
    (let s := trapping; let g := (at1 s).g
     s.group 0 = some g ∧ g.traps = [{ cause := 0x51, mask := 1, pc := 0x10000000 }] ∧ g.handler = none ∧ g.fault = none ∧ g.saving = false
       ∧ g.phase = .active ∧ g.outst = [] ∧ g.stalled = false ∧ s.running 0 = false ∧ (g.live.all fun x => x.1 == 0 || !x.2.priv) = true
       ∧ g.bad = [] ∧ s.backingClear g = true ∧ Map.find g.live 0 = some (at1 s).sp
       ∧ (match s.storeParts g g.ident.bsl g.recordFields with | .ok _ => true | _ => false) = true) := by decide +kernel
theorem test_meets_entry_place :
    (let s := trapping; let g := (at1 s).g
     ∀ f ∈ [(0, 0x4A0), (0x4A4, 0x18), (0x4C0, 8)], s.mapRange g.ident.ctx (g.ident.bsl + f.1) f.2 .write
       = (.ok ((linePieces (f.2 / 128 + 2) (g.ident.bsl + f.1) 0 f.2).map fun p => (0x10000800 + f.1 + p.1, 1, p.1, p.2)), s)) := by decide +kernel
theorem test_meets_entry_local (o : Nat) (h : o < 0x4C8) : nodeOf (0x10000800 + o) = none := if_neg fun c => by
  have := c.1; unfold remoteBase at this; omega
def ending : State := backed fun g => { g with live := [(0, { pc := 0x10000000, mask := 1, wb := 1, priv := true, park := some (.completion .handlerEnd) })],
                                               handler := some { cause := 0x51, slot := 0, rpc := 0 } }
theorem test_meets_end :
    (let s := ending; let g := (at1 s).g; let m := s.mapRange 1 g.ident.bsl 0x4C8 .read
     s.group 0 = some g ∧ Map.find g.live 0 = some (at1 s).sp ∧ (at1 s).sp.park = some (.completion .handlerEnd) ∧ g.fault = none ∧ g.outst = []
       ∧ s.backingClear g = true ∧ (match m.1 with | .ok ps => ps.all fun p => (nodeOf p.1).isNone | _ => false) = true ∧ m.2.poison = [] ∧ m.2.order.writes = [] ∧ m.2.group 0 = some g
       ∧ 0 < g.ident.rows ∧ ((m.2.engine g.ident.core).queue.all fun e => e.uid != g.seen.uid) = true ∧ (g.live.map (·.1)).Nodup ∧ g.pend = []) := by
  decide +kernel

/-- PoisonKills: a poisoned guard. ErrorEventsComplete: a log ring with room, a full one whose records are unread; a failure that a
packet of a context waits for; a binding whose keys have come, and the ends of GDDR7. -/
theorem test_meets_errors :
    (let s := splitAt 0x10000000 (h := fun g => { g with bad := [(predKey 1 0, 0x97)] })
     s.issuing never = some (at1 s never) ∧ hasLane (at1 s never).sp.mask 0 = true ∧ Map.find (at1 s never).g.bad (predKey never.pred.val 0) = some 0x97
       ∧ (∀ e ∈ (at1 s never).g.bad, e.2 = 0x97))
      ∧ one.group (groupKey 0 0) = some (at1 one).g
      ∧ (State.reset.port 0).logwr + 1 ≠ (State.reset.port 0).logrd
      ∧ (let r : LogRec := { cause := 0x9D }
         let s : State := (State.reset.updPort 0 fun p => { p with logwr := 15 }).setLog 0 [{ r with index := 3 }]
         s.logOf 0 = [{ r with index := 3 }] ∧ (3 + 16 - (s.port 0).logrd) % 16 < (15 + 16 - (s.port 0).logrd) % 16
           ∧ (((s.port 0).logwr + 1) % 2 ^ ((s.port 0).logctl % 16 + 4) = (s.port 0).logrd) ∧ r.ctx = none) := by decide +kernel
theorem test_meets_failures :
    (let q : Packet := { seq := 4 }
     let s : State := ({ State.reset with ctxs := [(1, { queues := [(0, { open_ := [q] })] })] } : State)
     (match s.queue? 1 0 with | some qu => qu.open_.map (·.seq) | none => []) = [4])
      ∧ (let b : Binding := { ctx := 1, node := 2, theirs := 3, stamp := some 1 }
         let s : State := ({ State.reset with bindings := [b] } : State)
         (s.bindings.find? fun b => b.node == 2 && b.theirs == 3 && b.stamp.isSome) = some b
           ∧ (s.bindings.find? fun b => b.node == 2 && b.theirs == 4 && b.stamp.isSome) = none)
      ∧ Config.gddr7 - 8 + 8 ≤ Config.gddr7 ∧ Config.gddr7 < Config.gddr7 - 4 + 8 := by decide +kernel
/-- ErrorEventsComplete: a request that a flit has brought, to a frame at the end of GDDR7 and to one beyond; a compare that holds and one
that does not. -/
theorem test_meets_requests :
    (let s : State := { State.reset with links := [(3, { asked := 1 })] }
     (s.links.any fun l => l.2.asked > 0) = true ∧ (State.reset.links.any fun l => l.2.asked > 0) = false
       ∧ s.frameLoc { addr := Config.gddr7 - 8 } 8 = some (Config.gddr7 - 8) ∧ s.frameLoc { addr := Config.gddr7 - 4 } 8 = none
       ∧ s.frameLoc { addr := 64, near := true } 8 = none ∧ ofBytes ((s.putBytes 1 64 (toBytes 8 5)).peek 1 64 8) = 5 % 2 ^ (8 * 8)
       ∧ ofBytes ((s.putBytes 1 64 (toBytes 8 5)).peek 1 64 8) ≠ 4 % 2 ^ (8 * 8)) := by decide +kernel

/-! #### Barriers, sync words, copies, the matrix engine -/

/-- The machine `one`, or a variation of it, with these barriers. -/
def bars (l : Map Bar) (s : State := one) : State := { s with bars := l }
def netBar : Nat := netBarKey 1 5

/-- BarrierHandlesAndAllocation: each kind of handle, at the ends of its range, present and absent, ours and another's. -/
theorem test_meets_handles :
    (let s := (bars [(2, { scope := 0, isTeam := true }), (15, { ctx := 1 }), (netBar, { ctx := 1, scope := 2 })]).updTeam 2 fun t => { t with barKey := some 2 }
     (s.team 2).barKey = some 2 ∧ Map.find s.bars 2 = some { scope := 0, isTeam := true } ∧ (s.team 2).cores.length = 1
       ∧ Map.find s.bars 15 = some { ctx := 1 } ∧ Map.find s.bars 16384 = none ∧ Map.find s.bars netBar = some { ctx := 1, scope := 2 }
       ∧ Map.find s.bars (netBar + 1) = none)
      ∧ (64 : Nat) / 64 = 1 ∧ (127 : Nat) / 64 = 1 ∧ (127 : Nat) % 64 ≠ 0 ∧ (16 : Nat) % 64 > 15 ∧ (63 : Nat) < 64
      ∧ 1 < ((one.updTeam 2 fun t => { t with cores := [0, 1] }).team 2).cores.length
      ∧ one.handle (at1 one).g 0 64 = .first ∧ (match one.useBar (at1 one).g 0 64 true with | .ok .. => true | _ => false) = true := by decide +kernel

/-- The same: BARN with no free unit, with the first one taken; a barrier with an arrival, without, and abandoned; no barrier. -/
def ours (arrived : Nat) (abandoned : Option Nat := none) : Bar := { ctx := 1, arrived, abandoned }
theorem test_meets_barn :
    (let s := bars ((List.range 16).map fun n => (n, ours 0))
     ∀ n < 16, (Map.find s.bars (16 * 0 + n)).isSome = true)
      ∧ (let s := bars [(0, ours 1), (2, ours 0), (3, ours 1 (some 7))]
         (Map.find s.bars 0).isSome = true ∧ Map.find s.bars 1 = none
           ∧ ((at1 s).start s).handle (at1 s).g 0 0 = .ok 0 (ours 1) ∧ ((at1 s).start s).handle (at1 s).g 0 2 = .ok 2 (ours 0)
           ∧ (ours 1).isTeam = false ∧ (({ ours 0 with isTeam := true } : Bar).isTeam) = true
           ∧ ((at1 s).start s).handle (at1 s).g 0 3 = .ok 3 (ours 1 (some 7)) ∧ ((at1 s).start s).handle (at1 s).g 0 4 = .bad 0x80)
      ∧ (∀ e ∈ [0, 64, 65], (at1 one).g.operand 0 .lit 32 (lowest (at1 one).lanes) id e = e) := by decide +kernel

/-- BarrierArrivals: what BAR meets: no unit, a bad handle, and barriers that the arrival does not complete, completes, or finds abandoned;
a second split that has not arrived; an open record that holds the split; four records. -/
def used (s : State) (h : Nat := 0) : BarUse := ((at1 s).start s).useBar (at1 s).g 0 h true
def expecting (n : Nat) (f : Group → Group := id) (abandoned : Option Nat := none) : State :=
  bars [(0, { ctx := 1, expect := n, abandoned })] (one.updGroup 0 f)
theorem test_meets_arrivals :
    used one 1 = .bad 0x80 ∧ used (bars ((List.range 16).map fun n => (n, ours 0))) 64 = .wait
      ∧ used (expecting 2) = .ok 0 { ctx := 1, expect := 2 } ((at1 (expecting 2)).start (expecting 2))
      ∧ used (expecting 1) = .ok 0 { ctx := 1, expect := 1 } ((at1 (expecting 1)).start (expecting 1))
      ∧ used (expecting 1 id (some 9)) = .ok 0 { ctx := 1, expect := 1, abandoned := some 9 } ((at1 (expecting 1 id (some 9))).start (expecting 1 id (some 9)))
      ∧ Map.find ((at1 (expecting 1)).start (expecting 1)).bars 0 = some { ctx := 1, expect := 1 }
      ∧ ((at1 one).start one).tileStores (at1 one).g = [] ∧ (at1 one).sp.mask &&& (at1 one).g.lanes = (at1 one).g.lanes := by decide +kernel
theorem test_meets_arrival_records :
    (let g := (at1 (expecting 2 fun g => { g with live := g.live ++ [(1, { mask := 2 })] })).g
     (0#32 ||| 1#32) &&& g.lanes ≠ g.lanes ∧ g.arrivals.find? (·.key == 0) = none)
      ∧ (let g := (at1 (expecting 2 fun g => { g with arrivals := [{ key := 0, mask := 1 }] })).g
         (g.arrivals.find? (·.key == 0)).map (·.mask) = some 1 ∧ ¬ (∀ a ∈ g.arrivals, a.key ≠ 0))
      ∧ 4 ≤ (at1 (expecting 2 fun g => { g with arrivals := (List.range 4).map fun n => { key := n + 1 } })).g.arrivals.length
      ∧ (at1 one).sp.mask = (at1 one).g.lanes ∧ (at1 one).g.arrivals = []
      ∧ ((at1 (expecting 1)).start (expecting 1)).handle (at1 (expecting 1)).g 0 0 = .ok 0 { ctx := 1, expect := 1 } := by decide +kernel

/-- SyncWords: the ends of an allocation of 4,096 bytes; a GEN of zero. -/
theorem test_meets_sync :
    ((at1 one).start one).tileStores (at1 one).g = [] ∧ (one.team (at1 one).g.ident.team).csize ≤ 4096 ∧ 4095 < (one.team (at1 one).g.ident.team).csize
      ∧ 4088 % 16 ≠ 0 ∧ 4080 % 16 = 0 ∧ (0 : Nat) < 256 ∧ ofBytes (one.bytes (one.cLoc 2 4080 + 8) 4) = 0
      ∧ (at1 one).g.operand 0 .lit 32 (lowest (at1 one).lanes) id 4080 = 4080 := by decide +kernel

/-- CopiesCheckedAndIssued: a request for each answer of the checks, two of them at a boundary. -/
theorem test_meets_copy_checks :
    (let g2g : MemW := {}
     let c2c : MemW := { inC := true, sx := true }
     copyCheck g2g false 0 { dst := 2 ^ 52 - 64, src := 0, n := 64 } = none ∧ copyCheck g2g false 0 { dst := 2 ^ 52 - 63, src := 0, n := 64 } = some (0x41, 2 ^ 52 - 63)
       ∧ copyCheck g2g true 0 { dst := 0, src := 4096, n := 64, rows := 2, dst2 := 63, sst := 64 } = some (0x43, 0)
       ∧ copyCheck g2g true 0 { dst := 0, src := 4096, n := 64, rows := 2, dst2 := -64, sst := 64 } = some (0x41, 2 ^ 64 - 64)
       ∧ copyCheck g2g true 0 { dst := 0, src := 4096, n := 64, rows := 2, dst2 := 64, sst := 64 } = none
       ∧ copyCheck g2g false 0 { dst := 0, src := 63, n := 64 } = some (0x43, 0) ∧ copyCheck g2g false 0 { dst := 0, src := 64, n := 64 } = none
       ∧ copyCheck c2c false 128 { dst := 0, src := 65, n := 64 } = some (0x42, 65) ∧ copyCheck c2c false 128 { dst := 0, src := 64, n := 64, sync := some 128 } = some (0x42, 128)
       ∧ copyCheck c2c false 128 { dst := 0, src := 64, n := 64, sync := some 120 } = some (0x40, 120)
       ∧ copyCheck g2g false 0 { dst := 5, src := 5, n := 0 } = none) := by decide +kernel

/-- The same: a queue with 15 copies of the quad, and with 16; the operands of a word in v4 to v7. -/
theorem test_meets_copy_issue :
    (∀ n ∈ [15, 16], ({ one with copyq := List.replicate n { core := 3 } } : State).quadLoad ((at1 one).g.ident.core / 4) = n)
      ∧ (at1 (regs [(4, 4, 0x10000000 + 0x10000800 * 2 ^ 64)])).g.operand 0 (.v 4) 128 (lowest (at1 one).lanes) id 0 = 0x10000000 + 0x10000800 * 2 ^ 64 := by
  decide +kernel

/-- CopiesPerformed: a copy of 200 bytes whose first line, and last line, is next; one with no page at its source, one with none at its
destination, one that counts in a sync word. -/
def copying (c : Copy) : State := { one with copyq := [c] }
def copy1 : Copy := { id := 9, ctx := 1, team := some 2, dst := 0x10000080, src := 0x10000800, bytes := 200 }
def lineOf (c : Copy) : Nat × Nat × Nat :=
  let d := (c.dst + c.dstride * c.row).toNat + c.next
  (d, (c.src + c.sstride * c.row).toNat + c.next, min (c.bytes - c.next) (128 - d % 128))
theorem test_meets_copy_lines :
    (∀ c ∈ [copy1, { copy1 with next := 128 }, { copy1 with sync := some 16 }], let s := copying c; let l := lineOf c
          (s.copyq.find? fun c => c.core / 4 == 0 && c.wait.isNone) = some c ∧ s.order.writes = [] ∧ s.poison = []
            ∧ s.place 1 (some 2) false l.2.1 l.2.2 .read = (.ok [(l.2.1, 1, 0, l.2.2)], s)
            ∧ s.place 1 (some 2) false l.1 l.2.2 .write = (.ok [(l.1, 1, 0, l.2.2)], s) ∧ nodeOf l.1 = none ∧ nodeOf l.2.1 = none)
      ∧ copy1.bytes ≤ 128 + (lineOf { copy1 with next := 128 }).2.2 ∧ copy1.rows ≤ copy1.row + 1 := by decide +kernel
theorem test_meets_copy_faults :
    ((copying { copy1 with src := 0x20000000 }).place 1 (some 2) false 0x20000000 128 .read).1 = .bad 0x22 0x20000000
      ∧ ((copying { copy1 with dst := 0x20000000 }).place 1 (some 2) false 0x20000000 128 .write).1 = .bad 0x26 0x20000000 := by decide +kernel

/-- CopiesPerformed: a packet of 300 bytes handed over in two ranges; one that is late and is dropped. -/
def queued (p : Packet) (f : Ctx → Ctx := id) (st : QState := .ready) : State :=
  one.updCtx 1 fun c => f { c with queues := [(0, { cur := some p, state := st, size := 4, rbase := 0x10000000, cplbase := 0x10000400 })] }
def copyRaw (drop : Nat) : Nat := 3 + drop * 2 ^ 8 + 0x10000040 * 2 ^ 128 + 0x10000800 * 2 ^ 192 + 300 * 2 ^ 256
theorem test_meets_copy_packet :
    lineCount 0x10000040 300 = 3 ∧ ([(0, 1), (1, 2)] : List (Nat × Nat)).foldl (fun t r => t + r.2) 0 = 3
      ∧ ((queued { raw := copyRaw 0 }).startable 1 0 3).map (·.2) = some { raw := copyRaw 0 }
      ∧ (one.startable 1 0 3) = none ∧ ({ raw := copyRaw 0 } : Packet).body 256 64 = 300
      ∧ (let s := (queued { raw := copyRaw 1 }).updPort 0 fun p => { p with now := 1 }
         s.late 1 ({ raw := copyRaw 1 } : Packet).deadline = true ∧ ({ raw := copyRaw 1 } : Packet).drop = true) := by decide +kernel

/-- An engine of core 0 held by the test's team, with operand slots 0 and 1 and accumulator slots 0 and 1 claimed. -/
def eng0 : Engine :=
  { holder := some 2, oslots := [(0, { owner := some 2 }), (1, { owner := some 2 })], aslots := [(0, { owner := some 2 }), (1, { owner := some 2 })] }
def withEng (e : Engine) (s : State := one) : State := { s with engines := [(0, e)] }
def entry (op : MOp) (mark : Nat := 0) : MEntry := { id := 7, op, uid := 3, team := 2, ctx := 1, mark }
def mma0 (f : MFmt := .bf16) (w0 w1 : Nat := 0) : MEntry := entry (.mma 0 1 0 w0 w1 f 0)
def engOf (s : State) : Engine := ((at1 s).start s).engine 0

/-- MatrixIssue: a full queue and one with an MMA; an engine that is free, ours, another's; runs of slots with room and without. -/
theorem test_meets_reservations :
    (engOf (withEng { eng0 with queue := (List.range 16).map fun n => { id := n } })).instrs.length = 16
      ∧ (engOf (withEng { eng0 with queue := [mma0] })).queue.any (·.op.isMma) = true
      ∧ (engOf one).holder = none ∧ (engOf (withEng eng0)).holder = some 2 ∧ (engOf (withEng { eng0 with holder := some 5 })).holder = some 5
      ∧ (engOf one).instrs.length < 16 ∧ heldSlots one 2 0 false = (0, 4) ∧ heldSlots one 2 0 true = (0, 4)
      ∧ ((List.range 5).map fun n => eng0.claimed 2 false n) = [true, true, false, false, false]
      ∧ eng0.queue = [] := by decide +kernel
/-- The same: MCLAIM of 2 slots fits at the third place and of 3 at none; operands of MCFG and MSTAT that are valid, and that are not. -/
theorem test_meets_slots :
    (2 + 2 ≤ (heldSlots one 2 0 false).2 ∧ (∀ j < 2, ¬ eng0.claimed 2 false (0 + 2 + j) = true)
        ∧ ∀ m < 2, ∃ j < 2, eng0.claimed 2 false (0 + m + j) = true)
      ∧ (∀ k < 2, ∃ j < 3, eng0.claimed 2 false (0 + k + j) = true)
      ∧ (∀ e ∈ [(24, 3, true), (25, 3, false), (24, 0, false), (4, 3, true), (3, 3, false)],
          decide (4 ≤ (e.1 + 3 * 2 ^ 8 + e.2.1 * 2 ^ 10) % 32 ∧ (e.1 + 3 * 2 ^ 8 + e.2.1 * 2 ^ 10) % 32 ≤ 24
            ∧ (ladder (.ofCode (bits (e.1 + 3 * 2 ^ 8 + e.2.1 * 2 ^ 10) 8 2))).contains (.ofCode (bits (e.1 + 3 * 2 ^ 8 + e.2.1 * 2 ^ 10) 10 2)) = true) = e.2.2) := by
  decide +kernel

/-- MatrixIssue: an issuing quarter whose operands name claimed slots and a legal tile at the end of C-space; a tile descriptor of an MMA. -/
def tile (inC : Bool := true) : MatW := { a := .v 1, b := .v 2, fmt := 3, inC, tail := .imm 16 }
def mat (a b : Nat) (e : Engine := eng0) : State := withEng e (regs [(1, 1, a), (2, 2, b)])
theorem test_meets_tiles :
    quartersOf (at1 one).lanes = [(0, 0, 1)] ∧ engOf (mat 0 0) = eng0 ∧ eng0.instrs.length < 16
      ∧ (let s := mat 1 (4096 - 16 * 15 - 64); let i := at1 s
         i.val (.v 1) 32 0 0 = 1 ∧ tileStride i tile 0 = 16 ∧ ∀ r < (16 : Nat), ∀ k < 64,
           wrap 32 ((tileBase i tile (.v 2) 0 : Int) + 16 * ((r : Nat) : Int) + ((k * matSize 3 : Nat) : Int)) < (s.team 2).csize)
      ∧ (let s := mat (2 ^ 8) 0; (at1 s).val (.v 1) 32 0 0 = 2 ^ 8 ∧ bits (2 ^ 8) 8 7 = 1
          ∧ (Map.get {} eng0.oslots 1).issued.permits (.ofCode (bits eng0.w1 8 2)) = true)
      ∧ (at1 (mat 0 15)).val (.v 2) 32 0 0 = 15 := by decide +kernel
/-- MatrixEngine: MMAs at and below their ceilings; that a pass may count is `test_chunk_f8`. -/
def full : Engine :=
  { eng0 with oslots := [(0, { owner := some 2, data := [(0, 0x7F80)] }), (1, { owner := some 2, data := [(0, 0x3F80)] })] }
theorem test_meets_passes_of_mma :
    (∀ e ∈ [mma0, mma0 .f8 0 0xD18, mma0 .f8 0 0x518], let s := withEng { full with queue := [e] }
        (s.engine 0).instrs[0]? = some 7
          ∧ ((s.engine 0).queue.find? fun q => q.id == 7 && q.quarter == 0 && Engine.mayRun (s.engine 0).queue q && (s.ctx q.ctx).state != .saving) = some e)
      ∧ ceilingOf .f8 .bf16 (Map.get {} full.oslots 0) (Map.get {} full.oslots 1) = .bf16
      ∧ ceilingOf .f8 .f8 (Map.get {} full.oslots 0) (Map.get {} full.oslots 1) = .f8 := by decide +kernel

/-- MatrixEngine: each operation that is next, and where its lines are. -/
theorem test_meets_operations :
    (∀ op ∈ [.clear true 0 2, .zero 1, .fill 0 3 true false 0 64, .store 0 3 true 0 16, .store 0 3 false 0x10000000 16, .move 0 [(0, 0, 0, 0)] 1, .fillSurf 0 0 0, .storeSurf 0 0],
        let s := withEng { eng0 with queue := [entry op] }
        (s.engine 0).instrs[0]? = some 7
          ∧ ((s.engine 0).queue.find? fun q => q.id == 7 && !q.op.isMma && Engine.mayRun (s.engine 0).queue q) = some (entry op)
          ∧ s.order.writes = [] ∧ s.poison = [] ∧ s.badSlot = [] ∧ s.group 0 = some (at1 s).g ∧ (at1 s).g.ident.uid = 3 ∧ (at1 s).g.awaits = false) := by
  decide +kernel
theorem test_meets_fill_lines (u : State) (r : Nat) (_ : r < 16) :
    u.place 1 (some 2) true (matAddr true 0 64 r) 64 .read = (.ok [(u.cLoc 2 (matAddr true 0 64 r), 0, 0, 64)], u) := by
  have h : ∀ r < 16, linePieces 2 (matAddr true 0 64 r) 0 64 = [(0, 64)] := by decide +kernel
  simp [State.place, State.cPieces, h r ‹_›]
theorem test_meets_fill_pages (u : State) (h : u = { one with engines := u.engines, groups := u.groups }) (r : Nat) (hr : r < 16) :
    u.place 1 (some 2) false (matAddr false 0x10000000 64 r) 64 .read = (.ok [(0x10000000 + 64 * r, 1, 0, 64)], u) := by
  have hw : one.order.writes = [] := by decide +kernel
  have he : ∀ r < 16, (one.mapRange 1 (matAddr false 0x10000000 64 r) 64 .read).1 = .ok [(0x10000000 + 64 * r, 1, 0, 64)]
      ∧ (one.mapRange 1 (matAddr false 0x10000000 64 r) 64 .read).2.ats = one.ats := by decide +kernel
  exact maps_of hw h (he r hr)
theorem test_meets_fill_here (o : Nat) (h : o < 4096) : nodeOf (0x10000000 + o) = none := if_neg fun c => by
  have := c.1; unfold remoteBase at this; omega
theorem test_meets_store_rows :
    (one.place 1 (some 2) false (matAddr false 0x10000000 16 15) 16 .write) = (.ok [(0x100000F0, 1, 0, 16)], one)
      ∧ (∀ r < 16, (one.place 1 (some 2) true (matAddr true 0 16 r) 16 .write) = (.ok [(one.cLoc 2 (16 * r), 0, 0, 16)], one)
          ∧ nodeOf (one.cLoc 2 (16 * r)) = none) := by decide +kernel

/-! #### Surfaces, textures, raster and ray words, draws, images -/

/-- The machine with surfaces of its context; v1:v2 are a pixel, v3 a surface operand. -/
def surfs (l : Map Surf) (s : State := one) : State := s.updCtx 1 fun c => { c with surfs := l }
def surf1 : Surf := { uid := 50, width := 16, height := 16, fmt := 0, samples := 1, spages := 1, back := 0x10000000 }
def pixel (x y so : Nat) (fs : Map Surf := [(2, surf1)]) : State := surfs fs (regs [(1, 2, x + y * 2 ^ 32), (3, 1, so)])
def surfW : SurfW := { d := .v 8, a := .v 1, b := .v 3, tail := .reg (.v 4) 0 }

/-- SurfacesAndTextures: two different samples; operands that name no surface, one that is not LIVE, a sample that there is not, and a
resident sample at the corner of the surface; a pixel beyond it; formats with and without a blend. -/
theorem test_meets_surface_operands :
    (∀ e ∈ [(2, true), (2 + 2 ^ 15, false), (3, false), (2 + 2 ^ 12, true)], let s := pixel 15 15 e.1; let so := (at1 s).val (.v 3) 32 0 0
        so = e.1 ∧ (!bit so 15 && (((at1 s).start s).liveSurf 1 (so % 4096)).isSome) = e.2)
      ∧ ((surfs [(2, { surf1 with freeing := true })]).liveSurf 1 2) = none
      ∧ bits (2 + 2 * 2 ^ 12) 12 3 ≥ surf1.count ∧ bits (2 + 2 ^ 12) 12 3 < surf1.count
      ∧ (at1 (pixel 15 15 2)).val (.v 1) 64 0 0 % 2 ^ 32 < surf1.width ∧ ¬ (16 < surf1.width)
      ∧ surf1.tile (surf1.locate 15 15 1).1 (surf1.locate 15 15 1).2.1 = none
      ∧ (3 : Nat) < (channels 0).length ∧ ¬ (7 ≤ surf1.fmt ∧ surf1.fmt ≤ 9) ∧ blendOk 0 = true ∧ blendOk 11 = false
      ∧ ((0, 0, 0) : Nat × Nat × Nat) ≠ (15, 15, 1) ∧ surfW.ord = false ∧ (1#32 : Lanes) ≠ 0
      ∧ ((at1 (pixel 15 15 2)).start (pixel 15 15 2)).tileStores (at1 (pixel 15 15 2)).g = [] ∧ (pixel 15 15 2).order.writes = []
      ∧ (pixel 15 15 2).poison = [] := by decide +kernel
theorem test_meets_surface_mask (l : Nat) : hasLane 1#32 l = true ↔ l ∈ [0] ∧ True :=
  ⟨fun h => ⟨by rw [lane0_only h]; exact List.mem_singleton.2 rfl, trivial⟩, fun h => by rw [List.mem_singleton.1 h.1]; decide⟩

/-- SurfacesAndTextures: a descriptor in the page whose 2 × 2 texture lies there too; one that is misaligned, one beyond 2^52, one that is
not valid. -/
def texDesc : Nat := 0x10000200 + 2 * 2 ^ 64 + 2 * 2 ^ 80 + 2 ^ 96 + 2 ^ 104
def textured (desc : Nat) : State :=
  ((regs [(1, 2, 0x3E99999A + 0x3F000000 * 2 ^ 32), (3, 2, desc)]).putBytes 1 0x10000100 (toBytes 32 texDesc)).putBytes 1 0x10000200
    (toBytes 16 0xFF00FF00FF00FF00FF00FF00FF00FF00)
def read1 (s : State) (va n : Nat) : Option (List (Nat × Nat × Nat × Nat)) :=
  match (s.mapRange 1 va n .read).1 with
  | .ok ps => if ps.all fun p => (s.readKills (some 0) 1 p.1 p.2.2.2).isNone && (nodeOf p.1).isNone then some ps else none
  | _ => none
theorem test_meets_texture :
    (let s := (at1 (textured 0x10000100)).start (textured 0x10000100)
     s.order.writes = [] ∧ s.tileStores (at1 (textured 0x10000100)).g = [] ∧ read1 s 0x10000100 32 = some [(0x10000100, 1, 0, 32)]
       ∧ ofBytes (s.peek 1 0x10000100 32) = texDesc
       ∧ (match texOf texDesc with
         | none => false
         | some t => (sampleTexels t 0x3E99999A 0x3F000000 0).1.all fun e =>
             let a := t.addr e.2.1 e.2.2.1 e.2.2.2
             decide (a + sampleBytes t.fmt ≤ 2 ^ 52) && (read1 s a (sampleBytes t.fmt)).isSome) = true)
      ∧ texOf (texDesc + 3 * 2 ^ 106) = none
      ∧ (at1 (textured (2 ^ 52))).val (.v 3) 64 0 0 = 2 ^ 52 ∧ (at1 (textured 0x10000110)).val (.v 3) 64 0 0 % 32 ≠ 0 := by decide +kernel

/-- SurfaceAllocation: an entry number at STCOUNT, one in use, one that is free, whose record allocates; a record that is not well formed;
a quota of no page; LIVE surfaces that may be pinned and may not. -/
def entryRaw (w : Nat := 16) : Nat := w + 16 * 2 ^ 16 + 0x10000000 * 2 ^ 128
def alloc (raw : Nat) (squota : Nat := 1024) : State :=
  (one.updCtx 1 fun c => { c with rc := { c.rc with stbase := 0x10000800, squota } }).putBytes 1 0x10000820 (toBytes 32 raw)
theorem test_meets_alloc :
    (one.ctx 1).rc.stcount ≤ 4 ∧ ((surfs [(2, surf1)]).surf? 1 2).isSome = true ∧ (surfs [(2, surf1)]).liveSurf 1 2 = some surf1
      ∧ one.liveSurf 1 2 = none ∧ (surfs [(2, surf1)]).pinFits 1 2 surf1 = true
      ∧ ((surfs [(2, surf1)]).updCtx 1 fun c => { c with rc := { c.rc with squota := 1 } }).pinFits 1 2 surf1 = false ∧ surf1.tiles = []
      ∧ (let s := (alloc (entryRaw)).updCtx 1 id; 1 < (s.ctx 1).rc.stcount ∧ s.surf? 1 1 = none ∧ s.demands = [] ∧ s.order.writes = []
          ∧ (s.ctx 1).state ≠ .saving ∧ s.mapRange 1 0x10000820 32 .read = (.ok [(0x10000820, 1, 0, 32)], s)
          ∧ s.readKills none 1 0x10000820 32 = none ∧ nodeOf 0x10000820 = none ∧ s.owed 1 1 3 = none ∧ ofBytes (s.peek 1 0x10000820 32) = entryRaw)
      ∧ surfOfEntry (entryRaw 0) 0 = none
      ∧ (match surfOfEntry (entryRaw) 9 with
          | some f => (alloc (entryRaw)).canAlloc 1 1 f == some (0, 0) && decide ((alloc (entryRaw)).charge 1 + f.spages ≤ 1024) && (alloc (entryRaw) 0).canAlloc 1 1 f == none
          | none => false) = true := by decide +kernel
theorem test_meets_no_victim (st : Nat) : ({ State.reset with ctxs := [(1, { state := .running })] } : State).savingVictim st = none := rfl
/-- The same: a surface whose SALLOC took its pages before the group was saved, and whose entry is still to be written. -/
theorem test_meets_owed : (surfs [(2, { surf1 with redo := some (at1 one).g.ident.uid })]).owed 1 2 (at1 one).g.ident.uid
    = some { surf1 with redo := some (at1 one).g.ident.uid } := by decide +kernel
/-- MatrixEngine: a store to a surface that is bound. -/
theorem test_meets_store_surface : (surfs [(2, surf1)]).surf? 1 (bits 2 0 12) = some surf1 := by decide +kernel

/-- OrderedStreamsAndTiles: an item whose turn it is, of no lane and of one lane, and one ahead of its turn; keys at 0, 63, 64 and 2^15 ahead,
a key in use, two lanes with different surfaces. -/
def item (key : Nat) (ops : List LaneOp := []) : OrdItem := { key, id := 70, instr := .satop surfW, ops }
def streamed (m : OrdItem) (next : Nat := 5) : State := surfs [(2, { surf1 with nextKey := next, items := [m] })]
theorem test_meets_items :
    (∀ e ∈ [item 5, item 6, item 5 [{ lane := 0, x := 15, y := 15, b := 2 }]], let s := streamed e
        (s.ctx 1).surfs = [(2, { surf1 with nextKey := 5, items := [e] })] ∧ (Map.find s.ctxs 1).isSome = true
          ∧ ([e].find? fun m => m.key == e.key && !m.held) = some e ∧ (surfAct e.instr).isSome = true ∧ s.poison = [])
      ∧ (channels surf1.fmt)[0]?.isSome = true ∧ (15 : Nat) < surf1.width ∧ 2 % 4096 = 2 := by decide +kernel
def ordered (so : Nat) : State := pixel 3 3 so [(2, { surf1 with nextKey := 5, items := [item 9] })]
theorem test_meets_keys :
    (∀ e ∈ [(5, 0), (68, 63), (69, 64), (5 + 2 ^ 15, 2 ^ 15), (9, 4)], let s := ordered (2 + e.1 * 2 ^ 16)
        let ops := satopOps (at1 s) { surfW with ord := true } ((at1 s).start s) 1
        (surfTrap ((at1 s).start s) 1 (fun f => (0 : Nat) ≥ (channels f.fmt).length) ops).isNone = true
          ∧ (ops.headD {}).b % 4096 = 2 ∧ (bits (ops.headD {}).b 16 16 + 2 ^ 16 - 5) % 2 ^ 16 = e.2)
      ∧ ([{ b := 2 }, { lane := 1, b := 3 }] : List LaneOp).any (·.b % 4096 != 2) = true := by decide +kernel

/-- The same: a tile that is EVICTING, one that is REFILLING, with their backing in the page, and without. -/
def tiled (state : Nat) (back : Nat := 0x10000000) : State := surfs [(2, { surf1 with back, tiles := [(tileKey 0 0, { state, cls := 1 })] })]
theorem test_meets_tiles_moving :
    (∀ e ∈ [(1, AccKind.write), (3, AccKind.read)], let s := tiled e.1
        (s.ctx 1).state ≠ .saving ∧ (s.surf? 1 2).map (fun f => f.tile 0 0) = some (some { state := e.1, cls := 1 }) ∧ s.demands = []
          ∧ s.mapRange 1 0x10000000 8 e.2 = (.ok [(0x10000000, 1, 0, 8)], s)
          ∧ ((tiled e.1 0x20000000).mapRange 1 0x20000000 8 e.2).1 = .bad (0x22 + 4 * (if e.1 = 1 then 1 else 0)) 0x20000000)
      ∧ (surf1.items = [] ∧ ∀ g ∈ one.groups, ∀ e ∈ g.2.live, e.2.park = none) := by decide +kernel

/-- RasterWords: groups of both kinds, with slots at NATTR and beyond, targets below and at NTGT, depth writes on and off. -/
def rast (kind slot : Nat) (depthW : Bool := false) : State :=
  let s := regs [(1, 1, slot), (2, 4, 7 + 8 * 2 ^ 32)]
  { s with groups := s.groups.map fun x => (x.1, { x.2 with ident := { x.2.ident with kind, depthW, draw := some 60 } }),
           draws := [(60, { ctx := 1, record := 2 * 2 ^ 135 + 2 ^ 139 })] }
theorem test_meets_raster :
    (∀ e ∈ [(1, 2), (1, 3), (2, 2), (2, 3), (0, 0)], let s := rast e.1 e.2
        (at1 s).g.ident.kind = e.1 ∧ (at1 s).val (.v 1) 32 0 0 = e.2 ∧ (((at1 s).start s).drawOf (at1 s).g).nattr = 2
          ∧ (((at1 s).start s).drawOf (at1 s).g).ntgt = 1)
      ∧ (at1 (rast 2 0 true)).g.ident.depthW = true ∧ (at1 (rast 2 0)).g.ident.depthW = false := by decide +kernel
theorem test_meets_raster_issue : Executes (rast 1 0) {} (at1 (rast 1 0)) ∧ Executes (rast 2 0) {} (at1 (rast 2 0)) :=
  ⟨⟨⟨by decide +kernel, by decide +kernel⟩, by decide +kernel⟩, ⟨⟨by decide +kernel, by decide +kernel⟩, by decide +kernel⟩⟩

/-- RayWords: points that are finite, a NaN, equal and unequal infinities; records in the page, one with a coordinate beyond the grid; an
empty ray; a box that a ray meets at num ÷ den = 10. -/
theorem test_meets_snap :
    (f32.decode 0x3F800000).IsFinite 8388608 8388608 ∧ (f32.decode 0x7FC00000).isNan = true ∧ f32.decode 0x7F800000 = .inf false
      ∧ (f32.decode 0x7F800000).isInf = true ∧ f32.decode 0x7F800000 ≠ f32.decode 0xFF800000 ∧ f32.decode 0xFF800000 = .inf true
      ∧ (f32.decode 0).isNan = false ∧ (f32.decode 0).isInf = false ∧ (-2 ^ 31 : Int) ≤ -2 ^ 31 :=
  ⟨⟨⟨_, _, rfl⟩, rfl, by decide⟩, by decide +kernel, by decide +kernel, by decide +kernel, by decide +kernel, by decide +kernel, by decide +kernel, by decide +kernel,
   by decide⟩
def rayRec (x : Nat) : State :=
  (regs [(8, 4, 0x41200000 * 2 ^ 96), (12, 4, 2 ^ 64 + 0x41200000 * 2 ^ 96), (2, 2, 0x10000100)]).putBytes 1 0x10000100 (toBytes 48 x)
theorem test_meets_rays :
    (∀ e ∈ ([(5, false), (2 ^ 30 + 1, true)] : List (Nat × Bool)), let s := rayRec e.1
        read1 s 0x10000100 48 = some [(0x10000100, 1, 0, 48)] ∧ read1 s 0x10000100 36 = some [(0x10000100, 1, 0, 36)]
          ∧ outOfGrid (ints (ofBytes (s.peek 1 0x10000100 48)) 12) = e.2 ∧ s.order.writes = []) := by decide +kernel
theorem test_meets_ray_checks :
    (rayOf 0 0).d = [0, 0, 0] ∧ 0 < (f32.decode 0x3F800000).cmp (f32.decode 0) ∧ 2 ^ 52 < 2 ^ 52 - 47 + 48 ∧ 0x10000108 % 16 ≠ 0 := by decide +kernel
def ray1 : RayQ := rayOf (0x3F800000 * 2 ^ 96) (2 ^ 64 + 0x41200000 * 2 ^ 96)
theorem test_meets_box :
    ray1.empty = false ∧ ray1.tmin.cmp (ratio 10 1) ≤ 0 ∧ (ratio 10 1).cmp ray1.tmax ≤ 0
      ∧ ((List.range 3).all fun n => decide (([-1, -1, 10] : List Int).getD n 0 * 1 ≤ ray1.o.getD n 0 * 1 + 10 * ray1.d.getD n 0)
          && decide (ray1.o.getD n 0 * 1 + 10 * ray1.d.getD n 0 ≤ ([1, 1, 10] : List Int).getD n 0 * 1)) = true := by decide +kernel

/-- DrawStages: two vertices apart; a triangle inside the planes; a draw with depth, stencil, and their surfaces bound. -/
def depthRec : Nat := 2 ^ 142 + 1 * 2 ^ 144 + 2 ^ 143 + 3 * 2 ^ 156 + (2 ^ 4 + 2 ^ 17) * 2 ^ 192
def depthSurfs : State := surfs [(1, { surf1 with fmt := 8, uid := 51 }), (3, { surf1 with fmt := 9, uid := 52 })]
theorem test_meets_depth :
    (let d : Draw := { ctx := 1, record := depthRec }
     bit (d.field 192 64) 4 = true ∧ bit (d.field 192 64) 17 = true
       ∧ depthSurfs.bound? d (bit d.record 142) (d.field 144 12) = some (1, { surf1 with fmt := 8, uid := 51 })
       ∧ depthSurfs.bound? d (bit d.record 143) (d.field 156 12) = some (3, { surf1 with fmt := 9, uid := 52 })
       ∧ sampleBytes 9 = 1 ∧ depthSurfs.poison = []
       ∧ ({ surf1 with fmt := 8, uid := 51 } : Surf).pixelLoc 3 3 1 + sampleBytes 8 ≤ ({ surf1 with fmt := 9, uid := 52 } : Surf).pixelLoc 3 3 1)
      ∧ depthSurfs.bound? { ctx := 1 } false 0 = none
      ∧ (∀ n < 5, (({} : Draw).plane n [.zero, .zero, .zero, .fin false 1 1]).inside = true) ∧ ((0, 0) : Int × Int) ≠ (0, 1) := by decide +kernel

/-- The same: a triangle whose vertices are final, whose vertex was killed, whose vertex is not there; quads that wait for a group, for an early step, and for
their turn. -/
def quad (state : Nat) (f : Frag) : Quad := { id := 4, x := 2, y := 2, state, frags := [f] }
def drawing (d : Draw) : State := surfs [(2, surf1)] { one with draws := [(60, { d with ctx := 1 })] }
def tri1 : Draw :=
  { ctx := 1, vcount := 3, insts := 1, verts := [(0, [(3, 0x3F800000)]), (1, [(3, 0x3F800000)]), (2, [(3, 0x3F800000)])] }
theorem test_meets_assembly :
    (let s := drawing tri1
     tri1.nextPrim < tri1.insts * tri1.prims ∧ (s.ctx 1).active = true
       ∧ (primVerts (tri1.field 128 3) 0).map (fun n => s.vertex 60 tri1 n) = List.replicate 3 (some (some [0, 0, 0, 0x3F800000]))
       ∧ drawable (List.replicate 3 ([0, 0, 0, 0x3F800000].map f32.decode)) = true
       ∧ (∀ n < 5, (tri1.plane n ([0, 0, 0, 0x3F800000].map f32.decode)).inside = true))
      ∧ (drawing { tri1 with dead := [1] }).vertex 60 { tri1 with dead := [1] } 1 = some none
      ∧ ({ tri1 with verts := [] } : Draw).verts = [] := by decide +kernel
theorem test_meets_quads :
    (let d : Draw := { tri1 with quads := [quad 1 {}] }
     let s := drawing d
     d.nextQuads = [quad 1 {}] ∧ d.fk.groups = 1 ∧ d.fk.scalars = 0 ∧ 5 / 128 = d.quadOwner (quad 1 {}) ∧ s.dispatching 1 = true
       ∧ s.fitAt d.fk 5 = true ∧ s.mayPlace { ctx := 1, queue := d.queue, deadline := d.deadline, kd := d.fk, die := some (d.quadOwner (quad 1 {})), starved := d.starved } = true)
      ∧ (let d : Draw := { tri1 with nextPrim := 1, quads := [quad 0 { early := 1, cover := 1, z := [0x3F000000] }] }
         let s := drawing d
         (d.quads.find? (·.state == 0)).isSome = true ∧ s.earlierDraw 60 d 0 0 = false ∧ s.pixelTaken 60 d 0 0 = false
           ∧ (s.pixelReady d 0 0).1 = true ∧ (s.pixelReady d 0 0).2.draws = s.draws)
      ∧ (let d : Draw := { tri1 with record := 2 ^ 139 + 2 * 2 ^ 256, nextPrim := 1, quads := [quad 3 { cover := 1, colour := [(0, 7)] }] }
         let s := drawing d
         (d.quads.findSome? fun q => (q.frags.find? fun f => d.turn q f && !s.earlierDraw 60 d f.x f.y && !s.pixelTaken 60 d f.x f.y)).isSome = true
           ∧ (s.pixelReady d 0 0).1 = true ∧ (s.pixelReady d 0 0).2.draws = s.draws ∧ d.ntgt = 1
           ∧ ((s.pixelReady d 0 0).2.liveSurf 1 (d.field 256 12)).isSome = true ∧ (s.pixelReady d 0 0).2.poison = []) := by decide +kernel

/-- ImagesComeBack: two granules, one dirty. ImagesComplete: a team that is saved and one that is not; an image of C-space in the page, and one whose header is wrong;
a record in the page. -/
theorem test_meets_image :
    (let gs : List (Bool × List Nat) := [(true, List.replicate 64 1), (false, List.replicate 64 0)]
     gs.length < 2 ^ 16 ∧ (∀ g ∈ gs, g.2.length = 64 ∧ ∀ w ∈ g.2, w < 2 ^ 32)) := by decide +kernel
def savedTeam (saved : Bool) : State := one.updGroup 0 fun g => { g with saved }
def imaged (bs : List Byte) : State := (regs [(2, 2, 0x10000000)]).putBytes 1 0x10000000 bs
def image1 : List Byte := encodeImage 0 0 0 ((List.range 16).map fun n => (n == 0, List.replicate 64 n))
theorem test_meets_images :
    (∀ b ∈ [true, false], (savedTeam b).teamSaved ((savedTeam b).team 2) = b)
      ∧ (let s := imaged image1
         let m := s.regionOf (s.team 2) 0 0
         s.order.writes = [] ∧ (s.mapRange 1 0x10000000 32 .read).1 = .ok [(0x10000000, 1, 0, 32)]
           ∧ bits (ofBytes (s.peek 1 0x10000000 32)) 32 32 = image1.length ∧ 32 ≤ image1.length ∧ image1.length ≤ 48 + 257 * m.2.length + 32
           ∧ (read1 s 0x10000000 image1.length).isSome = true ∧ image1.length ≤ 4096
           ∧ (decodeImage 0 0 m.1 m.2.length image1).isSome = true ∧ decodeImage 0 0 m.1 m.2.length (1 :: image1.drop 1) = none
           ∧ (at1 s).low (.v 2) 64 0 = 0x10000000 ∧ (encodeImage 0 0 m.1 m.2).length ≤ 4096) := by decide +kernel
theorem test_meets_load_region (s : State) (g : Map Group) (e : Map Engine) (t : Team) (gs : List (List Nat)) :
    (State.loadRegion { s with groups := g, engines := e } t 0 0 gs).isSome = true := rfl
/-- The same: the rows of the windows of a record, whose backing is mapped, whatever the groups and the engines. -/
theorem mapRows_of {s : State} {g : Group} {f : Nat → List (Nat × Nat × Nat × Nat)} (hw : s.order.writes = []) (gs : Map Group) (e : Map Engine) :
    ∀ (ks : List Nat) (acc : List (Nat × List (Nat × Nat × Nat × Nat))),
      (∀ k ∈ ks, (s.mapRange g.ident.ctx (g.rowAddr k) 1024 .read).1 = .ok (f k) ∧ (s.mapRange g.ident.ctx (g.rowAddr k) 1024 .read).2.ats = s.ats) →
      mapRows { s with groups := gs, engines := e } g .read ks acc
        = (.ok (acc.reverse ++ ks.map fun k => (k, f k)), { s with groups := gs, engines := e })
  | [], acc, _ => by simp [mapRows]
  | k :: ks, acc, h => by
    rw [mapRows, reads_of hw (h k (List.mem_cons_self ..))]
    simp only [mapRows_of hw gs e ks _ fun j hj => h j (List.mem_cons_of_mem _ hj), List.reverse_cons, List.append_assoc,
      List.map_cons, List.singleton_append]
def rowOf (k : Nat) : List (Nat × Nat × Nat × Nat) := (List.range 8).map fun n => (0x10000000 + 1024 * k + 128 * n, 1, 128 * n, 128)
theorem test_meets_record_rows : windowsMapped.order.writes = [] ∧ rangeFrom 0 (min (0 + 16) (([(0, ({} : Split))] : List (Nat × Split)).foldl (fun m e => max m (e.2.wb + 7)) 0))
      = List.range 7
    ∧ ∀ k ∈ List.range 7, (windowsMapped.mapRange 1 ((at1 windowsMapped).g.rowAddr k) 1024 .read).1 = .ok (rowOf k)
      ∧ (windowsMapped.mapRange 1 ((at1 windowsMapped).g.rowAddr k) 1024 .read).2.ats = windowsMapped.ats := by decide +kernel
theorem test_meets_record :
    (let s := backed; let g := (at1 s).g
     g.rowsBusy = false ∧ s.order.writes = [] ∧ s.poison = [] ∧ (read1 s g.ident.bsl 2048).isSome = true ∧ (s.mapRange 1 g.ident.bsl 2048 .read).2 = s
       ∧ recordEnts 16 (List.replicate 2048 0) = none
       ∧ (match recordEnts 16 (List.replicate 0x500 0 ++ toBytes 16 (0x10000000 + 1 * 2 ^ 64 + 3 * 2 ^ 120) ++ List.replicate (2048 - 0x510) 0) with
          | some es => es.map (·.2.mask) == [1]
          | none => false) = true) := by decide +kernel

/-! #### Results, saves, the front end, translation, the host, links, the package

Where a hypothesis asks for the answer of a primitive that Config leaves open (a signature, an unwrapped key), for a boot image or for a
free value, the claim has a clause for each answer, and no test picks one. -/

/-- ResultsAndWaits: a result that lands, one that is not ready, one that a run may still precede; a port with no run and one group that
may issue; each kind of wait; an EXITING group. -/
def holding (o : Outst) (f : Group → Group := id) : State := splitAt 0x10000000 (h := fun g => f { g with outst := [o] })
def parkedOn (p : Park) : State := splitAt 0x10000000 fun e => { e with park := some p }
theorem test_meets_results :
    (let o : Outst := { seq := 7, issue := 1, min := 28, writes := [{ key := rowKey 0 0 0, val := 5 }] }
     let s := holding o
     (s.group 0).map (fun g => g.outst.find? (·.seq == 7)) = some (some o) ∧ s.runs = [(0, { clock := 1 })] ∧ ({ s with runs := [] } : State).runs = []
       ∧ (o.writes.filter fun w => hasLane (1 : Lanes) w.lane) = o.writes ∧ (at1 s).g.resident ((rowKey 0 0 0 - 1024) / 256) = true)
      ∧ ({ ready := false } : Outst).ready = false
      ∧ (let s := one.updGroup 0 fun g => { g with live := [(0, { pc := 0x10000000, mask := 1, park := some (.migrating {}) })] }
         s.blocked { clock := 1 } = true ∧ one.blocked { clock := 1 } = false)
      ∧ landsBefore { seq := 7, writes := [{ key := rowKey 0 0 0 }] } [{ key := rowKey 0 0 0 }] { seq := 6, writes := [{ key := rowKey 0 0 0 }] } = true := by
  decide +kernel
theorem test_meets_grant :
    (let s : State := { one with runs := [], rr := [(0, 9)] }
     Map.find s.runs (4 * 0 + 0) = none ∧ groupKey 0 (16 * 0) + (9 + 7) % 16 = 0 ∧ (∀ n < 7, s.group (groupKey 0 (16 * 0) + (9 + n) % 16) = none)
       ∧ (at1 s).g.choose = some 0 ∧ (at1 s).g.notes = [])
      ∧ (∀ e ∈ ([(0x51, .handler), (0x97, .kill), (0xA6, .system), (0x20, .fault)] : List (Nat × Delivery)),
          let g := (at1 (one.updGroup 0 fun g => { g with notes := [(e.1, 3)] })).g
          deliveryOf e.1 = e.2 ∧ g.notes = [(e.1, 3)] ∧ g.handler = none ∧ g.choose = some 0)
      ∧ Map.find one.runs 0 = some { clock := 1 }
      ∧ (∀ p ∈ ([.completion .done, .completion (.readFlags (.v 4) 1), .completion (.writeFlags 3), .transfer { instr := .call {} }] : List Park),
          (at1 (parkedOn p)).sp.park = some p ∧ (at1 (parkedOn p)).g.fault = none ∧ (at1 (parkedOn p)).g.outst = [])
      ∧ (at1 (holding {} fun g => { g with phase := .exiting })).g.phase = .exiting
      ∧ (at1 (holding {} fun g => { g with phase := .exiting, outst := [] })).g.outst = [] := by decide +kernel

/-- ForcedSaveAndContexts: a group that waits before it may be saved, and one that may; its record. Contexts in each state; a saved team that
fits on core 0, and on no core of the other stack. -/
def saving (f : Group → Group := id) : State := backed fun g => f { g with saving := true, outst := [] }
theorem test_meets_forced_save :
    (let s := { saving with runs := [] }
     let g := (at1 s).g
     (g.ents.all fun x => g.savable x.1 x.2) = true ∧ s.itemsOpen 1 3 = false ∧ g.saving = true ∧ g.saved = false ∧ g.phase ≠ .exiting ∧ s.running 0 = false
       ∧ s.backingClear g = true ∧ g.fault = none ∧ g.bad = [] ∧ (s.withdraw 0).group 0 = some g
       ∧ (match (s.withdraw 0).storeParts g g.ident.bsl g.saveFields with | .ok v => decide (v.group 0 = some g) | _ => false) = true)
      ∧ (at1 backed).g.saving = false ∧ one.running 0 = true := by decide +kernel
def inState (st : CState) (f : State → State := id) : State := f (one.updCtx 1 fun c => { c with state := st })
def savedAway : State := inState .resident fun s =>
  { s with groups := [], runs := [], teams := [(2, { s.team 2 with saved := true, gsaved := [(at1 one).g] })] }
theorem test_meets_context_states :
    (∀ st ∈ [CState.draining, .saving, .destroyed, .running], ((inState st).ctx 1).state = st)
      ∧ ((inState .draining).teams.any fun x => x.2.ctx == 1 && !x.2.ended && !x.2.saved) = true
      ∧ (let s := inState .saving fun s => { s with groups := [] }
         (s.groups.any fun x => x.2.ident.ctx == 1) = false ∧ s.copyq = [] ∧ s.engines = [] ∧ s.demands = [] ∧ (s.ctx 1).surfs = []
           ∧ (s.payQueues 1) = s ∧ ((s.ctx 1).queues.all fun q => !q.2.owes) = true)
      ∧ (savedAway.ctx 1).dispatching = true ∧ (((savedAway.teams.map (·.2)).filter fun t => t.ctx == 1 && t.saved).map (·.uid)) = [2]
      ∧ savedAway.refits (savedAway.team 2) 0 = true ∧ savedAway.refits (savedAway.team 2) Config.cores = false
      ∧ ((savedAway.team 2).gsaved.map (·.ident.ctx)) = [1] := by decide +kernel

/-- QappendCompletes: QAPPEND of a packet in the page to a queue with room, to one that is full, to one that takes none. -/
def appending (raw tail : Nat) (kapp : Bool := true) : State :=
  (((regs [(2, 2, 0x10000000)]).updCtx 1 fun c => { c with
    rc := { c.rc with qcount := 1, qtbase := 0x10000C00 }, queues := [(0, { rbase := 0x10000800, kapp, tail, state := .active })] }).putBytes 1 0x10000000
      (toBytes 64 raw)).putBytes 1 0x10000C0C (toBytes 4 tail)
theorem test_meets_append :
    (∀ e ∈ [(1, 0), (9, 14), (9, 15), (0, 0), (10, 0)], let s := appending e.1 e.2
        let qu : Queue := { rbase := 0x10000800, kapp := true, tail := e.2, state := .active }
        0 < (s.ctx 1).rc.qcount ∧ Map.find (s.ctx 1).queues 0 = some qu ∧ read1 s 0x10000000 64 = some [(0x10000000, 1, 0, 64)]
          ∧ ofBytes (s.peek 1 0x10000000 1) = e.1 ∧ decide ((qu.tail + 1) % qu.n = qu.head) = (e.2 == 15)
          ∧ (s.mapRange 1 (0x10000800 + 64 * e.2) 64 .write).1 = .ok [(0x10000800 + 64 * e.2, 1, 0, 64)]
          ∧ (s.mapRange 1 (0x10000C00 + 12) 4 .write).1 = .ok [(0x10000C0C, 1, 0, 4)] ∧ nodeOf (0x10000800 + 64 * e.2) = none ∧ s.order.writes = []
          ∧ (qu.state == .idle || qu.state == .blocked) = false ∧ qu.due = false)
      ∧ (at1 (appending 1 0)).low (.v 2) 64 0 = 0x10000000 ∧ 0x10000020 % 64 ≠ 0 := by decide +kernel
theorem test_meets_append_tail :
    ∀ n ∈ [0, 14, 15], read1 (appending 1 n) 0x10000C0C 4 = some [(0x10000C0C, 1, 0, 4)] ∧ ofBytes ((appending 1 n).peek 1 0x10000C0C 4) = n := by
  decide +kernel

/-- ControlPackets: each control packet at the head of a queue, with its word in the page; one that is late and dropped; a WAITSW that is blocked, whose
comparison holds and does not. -/
def ctlRaw (kind : Nat) (more : Nat := 0) : Nat := kind + 0x10000100 * 2 ^ 128 + more
theorem test_meets_control_packets :
    (∀ k ∈ [4, 5, 6, 7, 8, 9], ((queued { raw := ctlRaw k }).startable 1 0 k).map (·.2) = some { raw := ctlRaw k })
      ∧ (queued { raw := ctlRaw 4 }).startable 1 0 5 = none
      ∧ (∀ w ∈ [0, 2], let s := (queued { raw := ctlRaw 7 }).putBytes 1 0x10000100 (toBytes 4 w)
         s.frontRead 1 0x10000100 4 (some (0, 0)) = (.ok w, s) ∧ nodeOf 0x10000100 = none ∧ ({ raw := ctlRaw 7 } : Packet).name = some (0, 0) ∧ (s.mapRange 1 0x10000100 4 .atomic) = (.ok [(0x10000100, 1, 0, 4)], s)
           ∧ (s.mapRange 1 0x10000100 8 .write) = (.ok [(0x10000100, 1, 0, 8)], s))
      ∧ (∀ e ∈ [(0, 0), (1, 1), (2, 2)], (({ raw := ctlRaw 5 (e.1 * 2 ^ 256) } : Packet).body 256 2) = e.2)
      ∧ bit (ctlRaw 7 (2 ^ 224)) 224 = true ∧ bit (ctlRaw 7) 224 = false ∧ ({ raw := ctlRaw 4 (2 ^ 8) } : Packet).drop = true := by decide +kernel
def waiting (word : Nat) : State := (queued { raw := ctlRaw 4 (7 * 2 ^ 192 + 0xFF * 2 ^ 224) } (fun c => c) .blocked |>.updQueue 1 0 fun q => { q with tail := 1 }).putBytes 1
  0x10000100 (toBytes 4 word)
theorem test_meets_waitsw :
    (∀ w ∈ [7, 8], let s := waiting w
        (s.queue? 1 0).map (fun q => (q.state, q.wait, q.head, q.tail)) = some (.blocked, none, 0, 1) ∧ (s.ctx 1).dispatching = true
          ∧ s.frontRead 1 0x10000100 4 (some (0, 0)) = (.ok w, s)) := by decide +kernel

/-- WorkPackets: a LAUNCH of one team, which fits, fits nowhere, and ranks below another; one that has no team; a packet that is done. -/
def launching (kd : KDesc) (teams : Nat := 1) (more : Map Queue := []) : State :=
  (queued { raw := 1, kd := [kd], teams }).updCtx 1 fun c => { c with queues := c.queues ++ more }
theorem test_meets_launch :
    (let s := launching { groups := 2 }
     ((s.startable 1 0 1).map fun x => x.2.kd) = some [{ groups := 2 }] ∧ s.firstFit { groups := 2 } none = some 0
       ∧ s.mayPlace (Packet.bid { raw := 1, kd := [{ groups := 2 }], teams := 1 } 1 0) = true ∧ (s.placeable 1 0).isSome = true
       ∧ s.fits { groups := 2 } 3 (fun _ => 0) (fun _ => 0) = true ∧ s.fits { groups := 2, cores := 1 } 3 (fun _ => 0) (fun _ => 0) = false)
      ∧ (launching {} 0).startable 1 0 1 ≠ none ∧ (launching {} 0).placeable 1 0 = none := by decide +kernel
theorem test_meets_no_fit :
    (launching { groups := 32, rows := 64 }).firstFit { groups := 32, rows := 64 } (some 2) = none := by decide +kernel
theorem test_meets_rank :
    (let s := launching {} 1 [(1, { cur := some { raw := 1, kd := [{}], teams := 1, starved := true }, state := .ready, size := 4 })]
     s.mayPlace (Packet.bid { raw := 1 + 2 ^ 64, kd := [{}], teams := 1 } 1 1) = false) := by decide +kernel
theorem test_meets_complete :
    (let p : Packet := { raw := 1 + 2 ^ 9, seq := 4 }
     let s := one.updCtx 1 fun c => { c with rc := { c.rc with qtbase := 0x10000C00 }, queues := [(0, { cplbase := 0x10000400, open_ := [p] })] }
     (s.queue? 1 0).map (fun q => q.open_.find? fun p => p.seq == 4 && s.packetDone 1 p) = some (some p) ∧ p.cpl = true ∧ (s.ctx 1).state ≠ .saved ∧ nodeOf 0x10000400 = none
       ∧ s.mapRange 1 (0x10000400 + 16 * p.slot) 16 .write = (.ok [(0x10000400, 1, 0, 16)], s)
       ∧ (match (s.storePub 1 0x10000400 (toBytes 16 4)).writeQueue 1 0 with | (.ok n, _) => n == 0 | _ => false) = true) := by decide +kernel

/-- ContextCommands: a package that is READY and one that is not; a context in each state, ours and of the other port; a record that passes R156 and one
that does not; 16 residents and 15; rings that can be read. -/
def record1 (extra : Nat := 0) : State :=
  ({ State.reset with boot := 4 } : State).putBytes 0 0x8000 (toBytes 128 (0x10000 + extra))
def many (n : Nat) : State :=
  { State.reset with boot := 4, ctxs := (1, { state := .built, keyId := 1 }) :: (List.range n).map fun k => (k + 2, { state := .running, keyId := k + 2 }) }
theorem test_meets_commands :
    (State.reset.boot ≠ 4 ∧ (record1).boot = 4)
      ∧ (∀ st ∈ [CState.empty, .built, .resident, .running, .draining, .saving, .saved, .faulted, .destroyed], ((inState st).ctx 1).state = st)
      ∧ ((inState .built fun s => s.updCtx 1 fun c => { c with port := 1 }).ctx 1).port ≠ (false).toNat
      ∧ ofBytes ((record1).peek 0 (128 * 0x100) 128) = 0x10000 ∧ bits 0x10000 0 64 % 4096 = 0 ∧ bits 0x10000 0 64 + 65536 ≤ Config.gddr7
      ∧ ofBytes ((record1 1).peek 0 (128 * 0x100) 128) % 4096 ≠ 0
      ∧ ((inState .built).port 0).entering = none ∧ (({ State.reset with port0 := { entering := some 1 } } : State).port 0).entering ≠ none
      ∧ (many 15).severed = false ∧ ({ many 15 with ucie := List.range 16 } : State).severed = true
      ∧ (many 16).residents = 16 ∧ (many 15).residents = 15 ∧ ((many 15).ctx 1).state = .built ∧ 31 % 32 ≠ 0 := by decide +kernel
def ringed : State :=
  inState .built fun s => ((s.updCtx 1 fun c => { c with rc := { c.rc with fqbase := 0x10000400, fbbase := 0x10000440 } }).putBytes 1 0x10000400
    (toBytes 64 0x10000800)).putBytes 1 0x10000440 (toBytes 64 0x10000A00)
theorem test_meets_rings :
    (∀ va ∈ [0x10000400, 0x10000440], (match (ringed.readRing 1 va).1 with | .ok _ => true | _ => false) = true ∧ (ringed.readRing 1 va).2 = ringed) ∧ (ringed.ctx 1).rc.qcount = 0
      ∧ ((ringed.ctx 1).rc.stbase % 32 = 0 ∧ ringed.residents < 16) := by decide +kernel

/-- TranslationWalks: entries that are not valid at each level, a malformed table, and leaves of each kind; PageCommands: spans, tokens. -/
theorem test_meets_walks :
    (∀ e ∈ [(0, 0), (1, 0x20000), (2, 0x30000), (3, 0x40000)], tableAt one (one.ctx 1) 0x10000000 e.1 = some (if e.1 = 0 then 0x10000 else e.2))
      ∧ one.order.writes = []
      ∧ (∀ e ∈ [(0, false), (1 + 2 ^ 62, false), (3 + 0xF0 + 0x10001000 + 2 ^ 54, true), (3 + 0xF0 + 0x10001000, false), (7 + 0x10001000 + 2 ^ 54, true)],
          one.leafOk (one.ctx 1) 3 e.1 = e.2)
      ∧ one.leafOk (one.ctx 1) 2 (3 + 0x200000 + 2 ^ 54) = true ∧ one.leafOk (one.ctx 1) 2 (3 + 0x1000 + 2 ^ 54) = false := by decide +kernel
theorem test_meets_pages :
    (let s := one.updGroup 0 fun g => { g with fault := some { token := 5 } }
     s.waitsOn 1 5 = true ∧ s.waitsOn 1 6 = false ∧ ((s.group 0).bind fun g => g.fault) = some { token := 5, retry := .reissue })
      ∧ (one.stalled 1 = [] ∧ (∀ x ∈ one.groups, x.2.phase ≠ .placing) ∧ (one.ctx 1).queues = []
          ∧ one.port0.entering ≠ some 1 ∧ one.port1.entering ≠ some 1)
      ∧ (let s := ringed.updCtx 1 fun c => { c with rc := { c.rc with fqbase := 0x10000400 }, held := [{ cause := 0x20 }] }
         (s.ctx 1).held = [{ cause := 0x20 }] ∧ (s.readRing 1 0x10000400).2 = s
           ∧ (match (s.readRing 1 0x10000400).1 with
              | .ok r => (r.put + 1) % r.n != r.get && decide (r.loc + 16 ≤ r.base) && decide (s.ringPlace 1 (r.base + r.put * 32) .write = (.ok (0x10000800 - 0x10000000 + r.loc - 0x400, 1), s))
                  && decide (s.ringPlace 1 r.va .write = (.ok (r.loc, 1), s))
              | _ => false) = true)
      ∧ 40 < 41 ∧ 1 % 2 ^ 1 ≠ 0 := by decide +kernel

/-- HostAccess: a doorbell of a queue of a resident context, whose TAIL can be read, in each state; a number that VFMAP maps and one that it does not. -/
def rung (st : QState) : State :=
  one.updCtx 1 fun c => { c with rc := { c.rc with qcount := 1, qtbase := 0x10000C00 }, queues := [(0, { state := st })] }
theorem test_meets_doorbells :
    (∀ st ∈ [QState.stopped, .faulted, .idle], (Map.find ((rung st).ctx 1).queues 0) = some { state := st } ∧ ((rung st).ctx 1).dispatching = true
        ∧ (rung st).mapRange 1 (0x10000C00 + 12) 4 .read = (.ok [(0x10000C0C, 1, 0, 4)], rung st)
        ∧ nodeOf 0x10000C0C = none ∧ ({ state := st } : Queue).wait = none ∧ ({ state := st } : Queue).bells = [])
      ∧ ({ wait := some 4 } : Queue).wait ≠ none ∧ ({} : Queue).head = ({} : Queue).tail
      ∧ (let s := one.updPort 0 fun p => { p with vfmap := [(1, 3)] }; Map.get 0 (s.port 0).vfmap 1 = 3)
      ∧ 2 ^ 64 - 1 < 2 ^ 64 := by decide +kernel

/-- DebugCommands: the group and the context that commands name; watchpoints of the least and greatest size. -/
theorem test_meets_debug :
    Map.find one.ctxs 1 = some (one.ctx 1) ∧ (one.ctx 1).state ≠ .empty ∧ one.group (groupKey (128 * 0 + 0) 0) = some (at1 one).g
      ∧ one.group (groupKey (128 * 0 + 0) 1) = none ∧ (at1 one).g.ident.ctx = 1 ∧ 4096 % 2 ^ 12 = 0 ∧ 2048 % 2 ^ 12 ≠ 0
      ∧ 0xBF ≤ 0xBF ∧ 0xC0 > 0xBF := by decide +kernel

/-- LinksAndPorts: flits of each type that open, in order and out of order; a fragment; a request that leaves; ports in each state. -/
def flit1 : List Byte := toBytes 8 (2 ^ 25) ++ List.replicate 224 0 ++ toBytes 24 1362669734741038931088921517794117747017468045135217877561
def flit3 : List Byte :=
  toBytes 8 (3 * 2 ^ 25) ++ toBytes 16 (6 + 2 ^ 16 + 4 * 2 ^ 32 + 9 * 2 ^ 64) ++ List.replicate 208 0
    ++ toBytes 24 1965109450598964986601974410279544879885598574061515607119
set_option maxRecDepth 1000000 in
theorem test_meets_flits :
    (openFlit flit1).map (fun b => (bits (ofBytes (b.take 8)) 0 12, bits (ofBytes (b.take 8)) 25 3)) = some (0, 1) ∧ openFlit [] = none := by
  decide +kernel
def flitNak : List Byte := [0, 240, 255, 1, 0, 0, 0, 0] ++ List.replicate 224 0 ++ toBytes 24 1578913256068839312037594042910467793903860229600353858996
set_option maxRecDepth 1000000 in
theorem test_meets_nak :
    (openFlit flitNak).map (fun b => (bits (ofBytes (b.take 8)) 12 12, bit (ofBytes (b.take 8)) 24, bits (ofBytes (b.take 8)) 25 3)) = some (4095, true, 0)
      ∧ (let l : Link := { state := 2, nakSeq := 4095, naks := 7, replay := [(0, flit1)] }
         l.nakSeq = 4095 ∧ 8 ≤ l.naks + 1 ∧ 2048 ≤ (4095 + 4096 - 0) % 4096)
      ∧ ({} : Link).last = 4095 ∧ (4095 + 1) % 4096 = 0 := by decide +kernel
/-- A page of another package behind the test's page, node 9 by port 5. -/
def remote (l : Link) (bound : Bool := true) : State :=
  { withPte 1 (3 + 0xF0 + 4 * 2 ^ 9 + 9 * 2 ^ 42 + 0x1000 + 2 ^ 54) one with
    links := [(5, l)], routes := [(9, 6)], bindings := if bound then [{ ctx := 1, node := 9, state := 1 }] else [] }
theorem test_meets_leaving :
    (∀ l ∈ [({ state := 2 } : Link), { state := 1 }, { state := 2, replay := List.replicate 512 (0, []) }], let s := remote l
        s.translate 1 0x10001000 .read = (.ok (remoteBase + 9 * 2 ^ 42 + 0x1000) 1 0x40008 3 4096, s)
          ∧ s.remoteFail 1 (remoteBase + 9 * 2 ^ 42 + 0x1000) = none ∧ Map.get 0 s.routes 9 = 5 + 1 ∧ (∀ l ∈ s.links, l.1 ≠ 5 → l.2.reqs = []))
      ∧ (remote { state := 2 } false).remoteFail 1 (remoteBase + 9 * 2 ^ 42 + 0x1000) = some 0xB4
      ∧ (remote {}).remoteFail 1 (remoteBase + 9 * 2 ^ 42 + 0x1000) = some 0xB0 := by decide +kernel
set_option maxRecDepth 1000000 in
theorem test_meets_fragment :
    (openFlit flit3).map (fun b => (bits (ofBytes (b.take 8)) 25 3, (takeFragment none (b.drop 8)).map (·.code))) = some (3, some 6)
      ∧ takeFragment none [] = none := by decide +kernel
theorem test_meets_ports :
    (∀ n ∈ [0, 1, 2, 3, 4], ((State.reset.setLink 5 { state := n }).link 5).state = n)
      ∧ ((List.range 5).filter (bit 31)).length = 5 ∧ ((List.range 5).filter (bit 3)).length = 2 ∧ ((List.range 5).filter (bit 1)).length = 1
      ∧ (let l : Link := { state := 1, kx := { helloP := [7, 0] } }; l.kx.helloP ≠ [] ∧ ofBytes (l.kx.helloP.take 2) = 7)
      ∧ ({ reqs := [(3, { posted := true })] } : Link).reqs = [(3, { posted := true })] ∧ ({} : Link).reqs = []
      ∧ ({ weak := [0] } : Link).weak ≠ [] ∧ ({ state := 3, half := true } : Link).half = true
      ∧ bit (State.reset.port 0).mgmtstat 2 = false ∧ bit 4 2 = true
      ∧ (let s : State := { State.reset with bindings := [{ ctx := 1, node := 9, state := 1 }] }
         s.bindings.find? (fun b => b.node == 9 && b.xid == 0 && b.state == 1) = some { ctx := 1, node := 9, state := 1 })
      ∧ (let s := State.reset.setLink 5 { state := 2, peer := some 9 }; s.portTo 9 = some 5 ∧ s.portTo 8 = none)
      ∧ (let m : MgmtMsg := { code := 6, xid := 3 }
         ((State.reset.setLink 5 { state := 2, peer := some 9, inbox := [m], kx := { step := 4 } }).link 5).inbox = [m]) := by decide +kernel

/-- PairwiseExchange: a PODBIND in progress at either function; a BINDACK of 5 bytes that accepts and one that refuses; a HELLO, a SHARE and a
BIND of their lengths. -/
theorem test_meets_exchange :
    (let s : State := { State.reset with port0 := { podbind := some 3 } }
     (s.port false.toNat).podbind = some 3 ∧ s.port1.podbind ≠ some 3)
      ∧ (let s : State := { State.reset with port1 := { podbind := some 3 } }
         (s.port true.toNat).podbind = some 3 ∧ s.port0.podbind ≠ some 3)
      ∧ ([1, 2, 3, 4, 0] : List Byte).getD 4 1 = 0 ∧ ([1, 2, 3, 4, 1] : List Byte).getD 4 1 ≠ 0
      ∧ (List.replicate 193 (0 : Byte)).length = 193 ∧ (List.replicate 84 (0 : Byte)).length = 84
      ∧ (let s := inState .running fun s => s.setLink 5 { state := 2, peer := some 9 }
         ((s.ctx 1).port = 0 ∧ (s.ctx 1).stamp ≠ 0 ∧ s.portTo (bits 9 0 10) = some 5)) := by decide +kernel

/-- PackageEvents: boot stages; modules; storage with live data and without. -/
theorem test_meets_package :
    State.reset.boot = 0 ∧ (∀ n ∈ [1, 2, 3], ({ State.reset with boot := n } : State).boot = n) ∧ (one.boot = 4) ∧ one.live (2 * 2 ^ 16) = true ∧ one.live (2 * 2 ^ 16 + 5) = false ∧ one.residents = 1 ∧ State.reset.residents = 0
      ∧ imageOk [] = none ∧ ({ State.reset with ucie := List.range 15 } : State).ucie.length = 15 := by decide +kernel

/-! #### What waits, what is held back, what several hold -/

/-- StepRuns, ResultsAndWaits: no port without a run has a group that may issue; a port that has one. A note for a group that runs a handler. -/
theorem test_meets_ready :
    fetching.grantDue = false ∧ (checking [{ lanes := 1 }]).grantDue = false ∧ (holding {}).grantDue = false
      ∧ ({ holding { issue := 5, min := 28 } with runs := [] } : State).grantDue = true
      ∧ (let g := (at1 (handling 0x51 0)).g; g.handler.isSome = true)
      ∧ (let s := { handling 0x51 0x10000000 with runs := [] }.updGroup 0 fun g => { g with notes := [(0x50, 3)] }
         (at1 s).g.handler.isSome = true ∧ (at1 s).g.notes = [(0x50, 3)] ∧ (at1 s).g.choose = some 0 ∧ deliveryOf 0x50 = .handler) := by decide +kernel

/-- ResultsAndWaits, CallsComplete, GroupSaveAndRestore: a CALL that moves a row, with a tile store to the row's backing and with none; a
LOADREG.group held by a result bound for its rows. -/
theorem test_meets_row_stores :
    (let spills : State := backed fun g => { g with live := [(0, { pc := 0x10000000, mask := 1 })], spr := 0, ident := { g.ident with rows := 16 } }
     let h : Held := { instr := .call { arg := 4 }, pc := 0x10000000, lanes := 1 }
     let s := { spills with engines := [(0, { queue := [{ op := .store 0 0 false (at1 spills).g.ident.bsp 64, uid := (at1 spills).g.ident.uid }] })] }
     spills.rowsMet (at1 spills) h = false ∧ s.tileStores (at1 s).g ≠ [])
      ∧ (at1 (backed fun g => { g with outst := [{ writes := [{ key := rowKey 1 0 0 }] }] })).g.rowsBusy = true := by decide +kernel

/-- PoisonKills: a poisoned vector register, scalar register and predicate that a word reads; its lanes and the keys of its operands. -/
def poisoning (key : Nat) : State := splitAt 0x10000000 (h := fun g => { g with bad := [(key, 0x96)] })
theorem test_meets_poison :
    (∀ e ∈ [((.v 4 : Operand), vecKey 0 4 0), (.s 9, scalarKey 9), (.p 3, predKey 3 0), (.v 5, vecKey 0 5 0)],
        let s := poisoning e.2; let i := at1 s
        s.issuing {} = some i ∧ i.g.poisoned e.2 = some 0x96 ∧ (∀ b ∈ i.g.bad, b.2 = 0x96) ∧ hasLane (destLanes (.v 8) i.lanes) 0 = true
          ∧ (e.2 ∈ operandKeys i.sp.wb e.1 32 0) = true)
      ∧ (let r := Alu.row { d := .v 8, a := .v 4, b := .s 9, ty := 4 } 0x10; roleW r.a = some 32 ∧ roleW r.b = some 32)
      ∧ croleW (Alu.row { d := .v 8, ty := 8, tail := .reg (.v 5) 0 } 0x33).c = some 32
      ∧ vecKey 0 5 0 ∈ operandKeys 0 (.v 4) 64 0 := by decide +kernel

/-- MatrixEngine: MMOV of rows of a slot, into v8; a view of two pixels' channels in and at the edge of a surface of f16. -/
def movW (d : Operand) : List (Nat × Nat × Nat × Nat) → List RegWrite := fun rs => rs.flatMap fun r => destWrites 0 d 32 r.1 0
theorem test_meets_moves :
    (let rs := [(0, 0, 3, 0), (16, 1, 15, 0)]
     let o : Outst := { seq := 1, ready := false, writes := movW (.v 8) rs }
     let s := withEng { eng0 with queue := [entry (.move 0 rs 1)] } (holding o)
     (s.engine 0).instrs[0]? = some 7 ∧ (at1 s).g.outst = [o] ∧ (at1 s).g.ident.uid = 3 ∧ o.seq = 1)
      ∧ (let f : Surf := { surf1 with fmt := 1, samples := 0 }
         let view := 2 + 1 * 2 ^ 12 + 1 * 2 ^ 14 + 8 * 2 ^ 32 + 15 * 2 ^ 48
         let s := surfs [(2, f)] (withEng { eng0 with queue := [entry (.storeSurf 0 view)] })
         s.surf? 1 (bits view 0 12) = some f ∧ f.tiles = [] ∧ bits view 14 2 ≤ 2 ∧ 1 ≤ f.fmt ∧ f.fmt ≤ 6 ∧ f.samples = 0
           ∧ bits view 12 2 + 2 ^ bits view 14 2 ≤ (channels f.fmt).length ∧ (channels f.fmt)[1 + 1]?.map (fun c => (c.1, c.2.1)) = some (32, 16)
           ∧ bits view 32 15 + 7 < f.width ∧ bits view 48 15 + 0 < f.height ∧ ¬ (bits view 32 15 + 8 < f.width)
           ∧ (s.engine 0).instrs[0]? = some 7 ∧ (entry (.fillSurf 0 3 view)).mark = 0) := by decide +kernel

/-- SurfacesAndTextures: a lane whose tile is REFILLING, one whose tile is EVICTING and one whose tile is resident; a descriptor that is not
valid. -/
theorem test_meets_away :
    (∀ st ∈ [2, 3], let f : Surf := { surf1 with tiles := [(tileKey 0 0, { state := st, cls := 1 })] }
        let s := pixel 3 3 2 [(2, f)]; let p := f.locate 3 3 0
        (f.tile p.1 p.2.1).any (fun t => t.state != 1) = true ∧ (f.tile (f.locate 15 15 0).1 (f.locate 15 15 0).2.1).any (fun t => t.state != 1) = false
          ∧ ((at1 s).start s).tileStores (at1 s).g = [] ∧ s.order.writes = [] ∧ s.poison = [] ∧ s.demands = [] ∧ (s.ctx 1).state ≠ .saving)
      ∧ (let s := (textured 0x10000100).putBytes 1 0x10000100 (toBytes 32 (texDesc + 3 * 2 ^ 106))
         texOf (ofBytes (s.peek 1 0x10000100 32)) = none ∧ read1 ((at1 s).start s) 0x10000100 32 = some [(0x10000100, 1, 0, 32)]) := by decide +kernel

/-- OrderedStreamsAndTiles: a stream of three items in key order, of which the one not held is the last to come, a SATOP and two SBLENDs. -/
theorem test_meets_streams :
    (let o : LaneOp := { lane := 0, x := 15, y := 15, b := 2, c := 7 }
     let m : OrdItem := { item 5 [o] with held := false }
     let b (k id : Nat) : OrdItem := { key := k, id, instr := .sblend surfW, ops := [o], held := true }
     let f : Surf := { surf1 with nextKey := 5, items := [b 7 72, b 6 71, m] }
     let s := surfs [(2, f)]; let ms := [m, b 6 71, b 7 72]
     Map.find s.ctxs 1 = some (s.ctx 1) ∧ Map.find (s.ctx 1).surfs 2 = some f ∧ (f.items.find? fun m => m.key == 5 && !m.held) = some m ∧ f.tiles = []
       ∧ s.poison = [] ∧ f.items.Perm ms ∧ ms.length ≤ 64 ∧ (ms.map (·.id)).Nodup ∧ (∀ d ∈ f.items, d ≠ m → d.held = true)
       ∧ (∀ j < 3, (ms.getD j m).key = (5 + j) % 2 ^ 16) ∧ surfW.chan.toNat < (channels f.fmt).length ∧ o.b % 4096 = 2
       ∧ f.pixelLoc 15 15 (bits o.b 12 3) = f.pixelLoc o.x o.y (bits o.b 12 3)) := by decide +kernel

/-- QappendCompletes: a queue that settles, IDLE and BLOCKED; an empty one that is handed a packet to be carried out, of kind 3. -/
theorem test_meets_settling :
    (∀ st ∈ [QState.idle, .blocked], let qu : Queue := { rbase := 0x10000800, kapp := true, tail := 0, state := st }
        let s := (appending 3 0).updCtx 1 fun c => { c with queues := [(0, qu)] }
        (qu.state == .idle || qu.state == .blocked) = true ∧ qu.wait = none ∧ (s.ctx 1).dispatching = true ∧ qu.cur = none ∧ qu.head = 0 ∧ qu.open_ = []
          ∧ read1 s 0x10000800 64 = some [(0x10000800, 1, 0, 64)] ∧ packetOk (ofBytes (s.peek 1 0x10000000 64)) qu.n = true
          ∧ bits (ofBytes (s.peek 1 0x10000000 64)) 0 8 ∉ [1, 2, 4]) := by decide +kernel

/-- ControlPackets: a STOP whose descriptor is in the page, and one whose descriptor has no page. -/
theorem test_meets_stop :
    (∀ e ∈ [(0x10000C00, true), (0x20000C00, false)], let s := (queued { raw := ctlRaw 9 }).updCtx 1 fun c => { c with rc := { c.rc with qtbase := e.1 } }
        let p : Packet := { raw := ctlRaw 9 }
        let v := s.updQueue 1 0 fun r => { r with
          open_ := r.open_ ++ [{ p with status := if s.late 1 p.deadline then 1 else 0 }], cur := none, head := (p.slot + 1) % r.n,
          seq := (r.seq + 1) % 2 ^ 32, placed := 0, state := .stopped, owes := true }
        (s.startable 1 0 9).isSome = true ∧ decide (v.mapRange 1 (e.1 + 16) 16 .write = (.ok [(e.1 + 16, 1, 0, 16)], v)) = e.2
          ∧ decide ((v.mapRange 1 (e.1 + 16) 16 .write).1 = .bad 0x26 (e.1 + 16)) = !e.2) := by decide +kernel

/-- ContextCommands: ADMIT of a context with two queues, one IDLE and one STOPPED, of a descriptor each that passes; what DESTROY owes. -/
def desc1 (st : Nat) : Nat := 0x10000800 + 2 * 2 ^ 64 + 2 ^ 68 + 1 * 2 ^ 96 + 1 * 2 ^ 128 + 4 * 2 ^ 160 + st * 2 ^ 224 + 0x10000400 * 2 ^ 256
def tabling : State :=
  ((ringed.updCtx 1 fun c => { c with rc := { c.rc with qcount := 2, qtbase := 0x10000C00 } }).putBytes 1 0x10000C00 (toBytes 64 (desc1 0))).putBytes 1 0x10000C40
    (toBytes 64 (desc1 5))
theorem test_meets_descriptors :
    tabling.order.writes = [] ∧ (∀ q < 2, (tabling.mapRange 1 (0x10000C00 + 64 * q) 64 .read).2.ats = tabling.ats
        ∧ (tabling.mapRange 1 (0x10000C00 + 64 * q) 64 .read).1 = .ok [(0x10000C00 + 64 * q, 1, 0, 64)] ∧ nodeOf (0x10000C00 + 64 * q) = none
        ∧ ofBytes (tabling.peek 1 (0x10000C00 + 64 * q) 64) = desc1 (5 * q)) := by decide +kernel
theorem test_front_read {s : State} (hs : s.order.writes = []) (qs : Map Queue) {va loc n st : Nat} (hn : nodeOf loc = none)
    (hm : (s.mapRange 1 va n .read).1 = .ok [(loc, st, 0, n)]) (ha : (s.mapRange 1 va n .read).2.ats = s.ats) :
    let u := s.updCtx 1 fun c => { c with queues := qs }
    u.frontRead 1 va n = (.ok (ofBytes (s.peek st loc n)), u) := by
  intro u
  have h := mapRange_queues hs 1 qs 1 va n .read ha
  have hg : u.goesOut { ctx := 1, packet := none, loc } = (true, u) := by simp [State.goesOut, State.remoteFail, State.request, hn]
  have hk : u.peek st loc n = s.peek st loc n := rfl
  simp only [State.frontRead]
  rw [h, hm]
  simp only [List.foldl_cons, List.foldl_nil, List.nil_append]
  rw [hg]
  simp [hk]
theorem test_meets_queue_table (q : Nat) (h : q < 2) (qs : Map Queue) :
    (tabling.updCtx 1 fun c => { c with queues := qs }).frontRead 1 (0x10000C00 + 64 * q) 64
      = (.ok (desc1 (5 * q)), tabling.updCtx 1 fun c => { c with queues := qs }) :=
  have t := test_meets_descriptors
  have d := t.2 q h
  d.2.2.2 ▸ test_front_read t.1 qs d.2.2.1 d.2.1 d.1
theorem test_meets_admission :
    (∀ q < 2, queueOk (desc1 (5 * q)) = true ∧ (bits (desc1 (5 * q)) 224 3 = 5 ∨ bits (desc1 (5 * q)) 128 32 = bits (desc1 (5 * q)) 96 32))
      ∧ (tabling.updCtx 1 fun c => { c with queues := [] }) = tabling ∧ (tabling.ctx 1).rc.qcount = 2 ∧ (tabling.ctx 1).state = .built ∧ tabling.residents < 16 ∧ (tabling.port 0).entering = none
      ∧ (∀ va ∈ [0x10000400, 0x10000440], (match (tabling.readRing 1 va).1 with | .ok _ => true | _ => false) = true)
      ∧ (match loadQueues tabling 1 (List.range 2) with | (.ok (), _) => true | _ => false) = true := by decide +kernel
theorem test_meets_destroyed :
    ((inState .destroyed fun s => s.updCtx 1 fun c => { c with owed := [{ ste := 2 }] }).ctx 1).owed ≠ [] ∧ ((inState .destroyed).ctx 1).owed = []
      ∧ (one.demands.all fun d => d.page.isSome) = true ∧ State.reset.groups = [] ∧ ({ ctx := 1 } : Bar).ctx = 1 := by decide +kernel

/-- ErrorEventsComplete, LinksAndPorts, PackageEvents: the port on which a node's request came; a request that waits behind a full buffer and the
flit that frees it; an UNBIND that waits for its port; a frame beyond a remote package's memory; a cached host page. -/
def flitAck : List Byte := [0, 0, 0, 0, 0, 0, 0, 0] ++ List.replicate 224 0
theorem test_meets_waiting :
    (let s : State := { State.reset with links := [(3, { asked := 1, peer := some 9 }), (4, { asked := 2 })] }
     s.askedBy 9 = some 3 ∧ s.askedBy 8 = some 3) ∧ State.reset.askedBy 9 = none
      ∧ (let l : Link := { state := 2, waiting := [({ loc := 5 }, [1])], replay := (List.range 512).map fun n => (n, []) }
         l.waiting = [({ loc := 5 }, [1])] ∧ 512 ≤ l.replay.length
           ∧ (l.replay.filter fun f => 2048 ≤ (0 + 4096 - f.1) % 4096).length < 512)
      ∧ (let s : State := { State.reset with unbinds := [(9, 3, 4)], links := [(5, { state := 1, kx := { step := 4 } })] }
         s.unbinds = [(9, 3, 4)] ∧ (∀ x ∈ s.links, x.1 ≠ 5 → x.2.peer ≠ some 9) ∧ (s.link 5).kx.step = 4)
      ∧ (remote { state := 2 }).remoteFail 1 (remoteBase + 9 * 2 ^ 42 + Config.gddr7) = some 0xB6
      ∧ (0, 7) ∈ ({ one with ats := [(0, 7), (1, 7)] } : State).ats := by decide +kernel

/-- SequencedReductions, FencesComplete: a tile store of the group that CFLUSH waits for. -/
theorem test_meets_flush :
    (let s := { one with engines := [(0, { queue := [{ op := .store 0 0 false 0x10000400 64, uid := (at1 one).g.ident.uid }] })] }
     ((at1 s).start s).tileStores (at1 s).g ≠ [] ∧ (at1 s).lanes ≠ 0) := by decide +kernel

/-- MST has no TR (R278). -/
theorem test_mst_tr : raises .all (0xA8 + 2 ^ 40) 0x05 = true ∧ raises .all 0xA8 0x05 = false := by decide +kernel

end Sys2Proof.Tests
end

section
/-! SUPPORT. The integer instructions (R84, R89 to R93): elements of a pattern, and the exact result reduced or clamped per
element. -/
namespace Sys2Proof.Machine

/-! ### Elements of a pattern -/

theorem elemAt_zero (w x : Nat) : elemAt w x 0 = x % 2 ^ w := by simp [elemAt]

theorem elemAt_add_mul_succ {w r : Nat} (hr : r < 2 ^ w) (y j : Nat) : elemAt w (r + 2 ^ w * y) (j + 1) = elemAt w y j := by
  have h : (r + 2 ^ w * y) / 2 ^ w = y := by
    rw [Nat.add_mul_div_left _ _ (Nat.two_pow_pos w), Nat.div_eq_of_lt hr, Nat.zero_add]
  rw [elemAt, Nat.mul_succ, Nat.add_comm (w * j), Nat.pow_add, ← Nat.div_div_eq_div_mul, h, elemAt]

theorem elemAt_joinElems (w : Nat) (l : List Nat) : ∀ j (h : j < l.length), elemAt w (joinElems w l) j = l[j] % 2 ^ w := by
  induction l with
  | nil => intro j h; cases h
  | cons x xs ih =>
    intro j h
    have hx : x % 2 ^ w < 2 ^ w := Nat.mod_lt _ (Nat.two_pow_pos w)
    cases j with
    | zero => simp [joinElems, elemAt_zero]
    | succ j =>
      rw [joinElems, elemAt_add_mul_succ hx]
      exact ih j (Nat.lt_of_succ_lt_succ h)

theorem joinElems_lt (w : Nat) (l : List Nat) : joinElems w l < 2 ^ (w * l.length) := by
  induction l with
  | nil => simp [joinElems]
  | cons x xs ih =>
    have hx : x % 2 ^ w < 2 ^ w := Nat.mod_lt _ (Nat.two_pow_pos w)
    calc x % 2 ^ w + 2 ^ w * joinElems w xs
        < 2 ^ w * (joinElems w xs + 1) := by rw [Nat.mul_succ]; omega
      _ ≤ 2 ^ w * 2 ^ (w * xs.length) := Nat.mul_le_mul_left _ ih
      _ = 2 ^ (w * (xs.length + 1)) := by rw [← Nat.pow_add, Nat.mul_succ, Nat.add_comm w]

/-- The elements of every type fill the operand (R57). -/
theorem elemW_mul_count (ty : Nat) : elemW ty * (typeW ty / elemW ty) = typeW ty := by
  unfold elemW typeW
  split <;> simp_all

/-! ### Values and their reduction (R84) -/

theorem int_two_pow_pos (w : Nat) : (0 : Int) < 2 ^ w := Int.pow_pos (by decide)

theorem coe_wrap (w : Nat) (x : Int) : (wrap w x : Int) = x % 2 ^ w :=
  Int.toNat_of_nonneg (Int.emod_nonneg x (Int.ne_of_gt (int_two_pow_pos w)))

theorem wrap_lt (w : Nat) (x : Int) : wrap w x < 2 ^ w := by
  rw [← Int.ofNat_lt, coe_wrap, Int.natCast_pow]
  exact Int.emod_lt_of_pos x (int_two_pow_pos w)

/-- The value of an element depends on its own bits only. -/
theorem intVal_mod (ty w x : Nat) : intVal ty w (x % 2 ^ w) = intVal ty w x := by
  simp [intVal, sint]

theorem intMin_le_intMax (ty w : Nat) : intMin ty w ≤ intMax ty w := by
  have h1 := int_two_pow_pos w
  have h2 := int_two_pow_pos (w - 1)
  unfold intMin intMax
  split <;> omega

theorem intReduce_fst (ty w : Nat) (sat : Bool) (x : Int) :
    (intReduce ty w sat x).1 = wrap w (if sat then max (intMin ty w) (min (intMax ty w) x) else x) := by
  cases sat <;> rfl

theorem clamp_eq_iff {lo hi : Int} (h : lo ≤ hi) (x : Int) : max lo (min hi x) = x ↔ lo ≤ x ∧ x ≤ hi := by omega

/-- SAT is flagged exactly when the clamp changes the value. -/
theorem intReduce_snd (ty w : Nat) (sat : Bool) (x : Int) :
    (intReduce ty w sat x).2 = if sat = true ∧ (x < intMin ty w ∨ intMax ty w < x) then fSAT else 0 := by
  cases sat with
  | false => simp [intReduce]
  | true =>
    simp only [intReduce, if_true, true_and, clamp_eq_iff (intMin_le_intMax ty w)]
    by_cases h : intMin ty w ≤ x ∧ x ≤ intMax ty w
    · rw [if_pos h, if_neg (by omega)]
    · rw [if_neg h, if_pos (by omega)]

/-! ### Every element (R84) -/

theorem foldl_or_ite {α : Type} (p : α → Prop) [DecidablePred p] (fl : Nat) (l : List α) : ∀ m : Nat,
    l.foldl (fun m a => m ||| if p a then fl else 0) m = m ||| if ∃ a ∈ l, p a then fl else 0 := by
  induction l with
  | nil => simp
  | cons a l ih =>
    intro m
    rw [List.foldl_cons, ih, Nat.or_assoc]
    congr 1
    by_cases ha : p a <;> by_cases hl : ∃ b ∈ l, p b <;> simp [ha, hl]

theorem intEach_reduces (ty : Nat) (sat : Bool) (op : Int → Int → Int → Int) (v : AluSrc) :
    let rs := (List.range (typeW ty / elemW ty)).map fun j => intReduce ty (elemW ty) sat (exactElem ty op v j)
    intEach ty sat op v = { d := joinElems (elemW ty) (rs.map (·.1)), fl := rs.foldl (fun m r => m ||| r.2) 0 } := by
  simp only [intEach, elems, List.zip_map', List.zipWith_map, List.zipWith_self]
  rfl

theorem intEach_fl (ty : Nat) (sat : Bool) (op : Int → Int → Int → Int) (v : AluSrc) :
    (intEach ty sat op v).fl = if ∃ j ∈ List.range (typeW ty / elemW ty),
        sat = true ∧ (exactElem ty op v j < intMin ty (elemW ty) ∨ intMax ty (elemW ty) < exactElem ty op v j)
      then fSAT else 0 := by
  rw [intEach_reduces, List.foldl_map]
  simp only [intReduce_snd]
  rw [foldl_or_ite, Nat.zero_or]

theorem intElems_intEach (ty : Nat) (sat : Bool) (op : Int → Int → Int → Int) (v : AluSrc) :
    IntElems ty sat op v (intEach ty sat op v) := by
  refine ⟨?_, rfl, fun j hj => ?_, ?_⟩
  · rw [intEach_reduces]
    refine Nat.lt_of_lt_of_eq (joinElems_lt _ _) ?_
    simp only [List.length_map, List.length_range, elemW_mul_count]
  · rw [intEach_reduces, elemAt_joinElems _ _ j (by simpa using hj)]
    simp only [List.getElem_map, List.getElem_range, intReduce_fst]
    exact Nat.mod_eq_of_lt (wrap_lt _ _)
  · rw [intEach_fl]
    split
    · next h =>
      obtain ⟨j, hj, hs, hr⟩ := h
      exact Or.inl ⟨rfl, hs, j, List.mem_range.mp hj, hr⟩
    · next h =>
      refine Or.inr ⟨rfl, fun hs j hj => ?_⟩
      have hr : ¬ _ := fun hr => h ⟨j, List.mem_range.mpr hj, hs, hr⟩
      omega

/-- The predicate is no part of what R84 says. -/
theorem IntElems.with_p {ty : Nat} {sat : Bool} {op : Int → Int → Int → Int} {v : AluSrc} {o : LaneOut}
    (h : IntElems ty sat op v o) (b : Bool) : IntElems ty sat op v { o with p := b } := h

theorem addFlag_iff (ty : Nat) (f : Int → Int → Int) (v : AluSrc) :
    addFlag ty (f (intVal ty (elemW ty) v.a) (intVal ty (elemW ty) v.b)) = true
      ↔ exactElem ty (fun a b _ => f a b) v 0 < intMin ty (elemW ty) ∨ intMax ty (elemW ty) < exactElem ty (fun a b _ => f a b) v 0 := by
  simp only [addFlag, exactElem, elemAt_zero, intVal_mod, Bool.or_eq_true, decide_eq_true_eq]

/-! ### Laws of the elementwise instructions -/

theorem laneRule_intEach {ins : Alu → Instr} {opc : Nat} {sat : Alu → Bool} {op : Alu → Int → Int → Int → Int}
    (hx : ∀ x s, exec (ins x) s = aluOp1 opc 0 0 (intEach (tyOf x) (sat x) (op x)) x s) :
    LaneRule ins opc 0 (fun _ => 0) tyOf tyOf tyOf fun x v o => IntElems (tyOf x) (sat x) (op x) v o :=
  laneRule_of_op hx fun _ _ => intElems_intEach _ _ _ _

theorem laneRule_sumOut {ins : Alu → Instr} {opc : Nat} {f : Int → Int → Int}
    (hx : ∀ x s, exec (ins x) s = aluOp1 opc 0 0 (sumOut (tyOf x) x.sat f) x s) :
    LaneRule ins opc 0 (fun _ => 0) tyOf tyOf tyOf fun x v o =>
      IntElems (tyOf x) x.sat (fun a b _ => f a b) v o
        ∧ (o.p = true ↔ exactElem (tyOf x) (fun a b _ => f a b) v 0 < intMin (tyOf x) (elemW (tyOf x))
            ∨ intMax (tyOf x) (elemW (tyOf x)) < exactElem (tyOf x) (fun a b _ => f a b) v 0) :=
  laneRule_of_op hx fun _ _ => ⟨(intElems_intEach _ _ _ _).with_p _, addFlag_iff _ _ _⟩

theorem natAbs_eq_ite (a : Int) : (a.natAbs : Int) = if 0 ≤ a then a else -a := by split <;> omega

theorem natAbs_sub_eq_ite (a b : Int) : ((a - b).natAbs : Int) = if b ≤ a then a - b else b - a := by split <;> omega

theorem integerElementwiseResults : Claims.IntegerElementwiseResults := by
  refine ⟨laneRule_sumOut fun _ _ => rfl, laneRule_sumOut fun _ _ => rfl, laneRule_intEach fun _ _ => rfl,
    laneRule_intEach (sat := fun _ => false) fun _ _ => rfl, laneRule_intEach fun _ _ => rfl, ?min, ?max, ?abs,
    laneRule_intEach fun _ _ => rfl, ?sad⟩
  case min => simp only [← Int.min_def]; exact laneRule_intEach (sat := fun _ => false) fun _ _ => rfl
  case max => simp only [← Int.max_def]; exact laneRule_intEach (sat := fun _ => false) fun _ _ => rfl
  case abs => simp only [← natAbs_eq_ite]; exact laneRule_intEach fun _ _ => rfl
  case sad => simp only [← natAbs_sub_eq_ite]; exact laneRule_intEach fun _ _ => rfl

/-! ### ADDC, SUBB, MADW, LEA (R90, R91, R93) -/

theorem wideIntegerResults : Claims.WideIntegerResults :=
  ⟨laneRule_of_op (f := fun x => carryOut (tyOf x) false) (fun _ _ => rfl) fun _ _ => ⟨⟨rfl, rfl⟩, coe_wrap _ _, decide_eq_true_iff⟩,
    laneRule_of_op (f := fun x => carryOut (tyOf x) true) (fun _ _ => rfl) fun _ _ => ⟨⟨rfl, rfl⟩, coe_wrap _ _, decide_eq_true_iff⟩,
    laneRule_of_op (f := fun x => madw (tyOf x)) (fun _ _ => rfl) fun _ _ => ⟨⟨rfl, rfl⟩, coe_wrap _ _⟩,
    laneRule_of_op (f := fun x => lea (tyOf x) x.sub.toNat) (fun _ _ => rfl) fun _ _ => ⟨⟨rfl, rfl⟩, coe_wrap _ _⟩⟩

/-- Settles O8: every element is reduced or clamped alone, and the four 64-bit or carrying instructions wrap one exact sum. -/
theorem integerResults : Obligations.IntegerResults := ⟨integerElementwiseResults, wideIntegerResults⟩

end Sys2Proof.Machine
end

section
/-! SUPPORT. Integer division (R92), and the arithmetic traps (R86, R92, R377). -/
namespace Sys2Proof.Machine

/-! ### Division toward zero (R92) -/

theorem divOut_by_zero {ty : Nat} {v : AluSrc} (h : intVal ty (elemW ty) v.b = 0) (rem : Bool) :
    divOut ty rem v = { d := if rem then v.a else 2 ^ elemW ty - 1, dz := true } := by simp only [divOut, h, if_true]

theorem divOut_of_ne {ty : Nat} {v : AluSrc} (h : intVal ty (elemW ty) v.b ≠ 0) (rem : Bool) :
    let a := intVal ty (elemW ty) v.a
    let b := intVal ty (elemW ty) v.b
    divOut ty rem v = { d := wrap (elemW ty) (if rem then a.tmod b else a.tdiv b) } := by
  simp only [divOut, h, if_false, Int.tmod_def, Int.mul_comm]

/-- What makes a quotient and a remainder those of R92: the remainder is smaller than the divisor and has the dividend's sign. -/
theorem tdiv_tmod_spec {b : Int} (h : b ≠ 0) (a : Int) :
    a = a.tdiv b * b + a.tmod b ∧ (a.tmod b).natAbs < b.natAbs ∧ (0 ≤ a → 0 ≤ a.tmod b) ∧ (a ≤ 0 → a.tmod b ≤ 0) := by
  refine ⟨?_, ?_, Int.tmod_nonneg b, fun ha => ?_⟩
  · rw [Int.add_comm, Int.tmod_add_tdiv_mul]
  · rw [Int.natAbs_tmod]
    exact Nat.mod_lt _ (Int.natAbs_pos.mpr h)
  · have hn := Int.tmod_nonneg b (show 0 ≤ -a by omega)
    rw [Int.neg_tmod] at hn
    omega

theorem divOut_spec (ty : Nat) (rem : Bool) (v : AluSrc) :
    let o := divOut ty rem v
    let w := elemW ty
    let a := intVal ty w v.a
    let b := intVal ty w v.b
    o.fl = 0 ∧ (o.dz = true ↔ b = 0)
      ∧ (b = 0 → o.d = if rem then v.a else 2 ^ w - 1)
      ∧ (b ≠ 0 → ∃ q r : Int, a = q * b + r ∧ r.natAbs < b.natAbs ∧ (0 ≤ a → 0 ≤ r) ∧ (a ≤ 0 → r ≤ 0)
          ∧ o.d = wrap w (if rem then r else q)) := by
  intro o w a b
  by_cases h : b = 0
  · have ho : o = _ := divOut_by_zero h rem
    rw [ho]
    exact ⟨rfl, iff_of_true rfl h, fun _ => rfl, fun hb => absurd h hb⟩
  · have ho : o = _ := divOut_of_ne h rem
    obtain ⟨hq, hr, hp, hn⟩ := tdiv_tmod_spec h a
    rw [ho]
    exact ⟨rfl, iff_of_false Bool.false_ne_true h, fun hb => absurd hb h, fun _ => ⟨_, _, hq, hr, hp, hn, rfl⟩⟩

theorem divisionResults : Claims.DivisionResults :=
  ⟨laneRule_of_op (f := fun x => divOut (tyOf x) false) (fun _ _ => rfl) fun _ _ => divOut_spec _ _ _,
    laneRule_of_op (f := fun x => divOut (tyOf x) true) (fun _ _ => rfl) fun _ _ => divOut_spec _ _ _⟩

/-! ### Bits of sets of flags -/

theorem bit_eq_testBit (x n : Nat) : bit x n = x.testBit n := by
  rw [Nat.testBit_eq_decide_div_mod_eq, bit, Bool.eq_iff_iff, beq_iff_eq, decide_eq_true_iff]

theorem bit_or (x y n : Nat) : bit (x ||| y) n = (bit x n || bit y n) := by simp only [bit_eq_testBit, Nat.testBit_or]

/-- R86: the bits 0 to 4 of FPCTL are the enables of the flags NV to NX. -/
theorem bit_and_enables (x fpctl n : Nat) : bit (x &&& fpctl % 32) n = true ↔ n < 5 ∧ bit fpctl n = true ∧ bit x n = true := by
  have h : (fpctl % 2 ^ 5).testBit n = (decide (n < 5) && fpctl.testBit n) := Nat.testBit_mod_two_pow fpctl 5 n
  rw [bit_eq_testBit, Nat.testBit_and, show (32 : Nat) = 2 ^ 5 from rfl, h, ← bit_eq_testBit, ← bit_eq_testBit, Bool.and_eq_true,
    Bool.and_eq_true, decide_eq_true_iff]
  exact ⟨fun ⟨hx, hn, he⟩ => ⟨hn, he, hx⟩, fun ⟨hn, he, hx⟩ => ⟨hx, hn, he⟩⟩

theorem ne_zero_iff_bit {x : Nat} : x ≠ 0 ↔ ∃ n, bit x n = true := by
  simp only [bit_eq_testBit]
  refine ⟨Nat.exists_testBit_of_ne_zero, fun ⟨n, hn⟩ h0 => ?_⟩
  rw [h0, Nat.zero_testBit] at hn
  cases hn

theorem bit_foldl_or {α : Type} (f : α → Nat) (n : Nat) (l : List α) : ∀ m,
    bit (l.foldl (fun m o => m ||| f o) m) n = true ↔ bit m n = true ∨ ∃ o ∈ l, bit (f o) n = true := by
  induction l with
  | nil => simp
  | cons o l ih =>
    intro m
    rw [List.foldl_cons, ih, bit_or, Bool.or_eq_true, or_assoc]
    simp only [List.mem_cons, exists_eq_or_imp]

theorem bit_allFlags (outs : List (Nat × LaneOut)) (n : Nat) :
    bit (allFlags outs) n = true ↔ ∃ o ∈ outs, bit o.2.fl n = true := by
  rw [allFlags, bit_foldl_or]
  simp [bit]

/-- R377: the flag named is the lowest one. -/
theorem lowFlag_spec {x n : Nat} (hn : n < 5) (hx : bit x n = true) :
    lowFlag x < 5 ∧ bit x (lowFlag x) = true ∧ ∀ k, k < lowFlag x → bit x k = false := by
  have hs : ((List.range 5).find? (bit x)).isSome := List.find?_isSome.mpr ⟨n, List.mem_range.mpr hn, hx⟩
  obtain ⟨m, hm⟩ := Option.isSome_iff_exists.mp hs
  have hl : lowFlag x = m := by rw [lowFlag, hm, Option.getD_some]
  obtain ⟨hb, hr, hk⟩ := List.find?_range_eq_some.mp hm
  rw [hl]
  exact ⟨List.mem_range.mp hr, hb, fun k hkm => by simpa using hk k hkm⟩

/-! ### Masks of lists of lanes -/

theorem hasLane_singleton {l k : Nat} (hl : l < 32) : hasLane (1#32 <<< l) k = true ↔ k = l := by
  simp only [hasLane, BitVec.getLsbD_shiftLeft, BitVec.getLsbD_one, Bool.and_eq_true, Bool.not_eq_true', decide_eq_true_eq,
    decide_eq_false_iff_not]
  omega

theorem hasLane_or (m m' : Lanes) (k : Nat) : hasLane (m ||| m') k = true ↔ hasLane m k = true ∨ hasLane m' k = true := by
  simp only [hasLane, BitVec.getLsbD_or, Bool.or_eq_true]

theorem hasLane_foldl_lanes {ls : List Nat} (k : Nat) : (∀ l ∈ ls, l < 32) → ∀ m : Lanes,
    (hasLane (ls.foldl (fun m l => m ||| (1#32 <<< l)) m) k = true ↔ hasLane m k = true ∨ k ∈ ls) := by
  induction ls with
  | nil => intro _ m; simp
  | cons l ls ih =>
    intro h m
    obtain ⟨hl, hls⟩ := List.forall_mem_cons.mp h
    rw [List.foldl_cons, ih hls, hasLane_or, hasLane_singleton hl, List.mem_cons, or_assoc]

theorem hasLane_maskOf {ls : List Nat} (h : ∀ l ∈ ls, l < 32) (k : Nat) : hasLane (maskOf ls) k = true ↔ k ∈ ls := by
  rw [maskOf, hasLane_foldl_lanes k h]
  simp [hasLane]

/-- The lanes of the results that a test picks. -/
theorem hasLane_maskOf_filter {outs : List (Nat × LaneOut)} (h : ∀ o ∈ outs, o.1 < 32) (p : Nat × LaneOut → Bool) (k : Nat) :
    hasLane (maskOf ((outs.filter p).map (·.1))) k = true ↔ ∃ o ∈ outs, o.1 = k ∧ p o = true := by
  rw [hasLane_maskOf]
  · simp only [List.mem_map, List.mem_filter]
    exact exists_congr fun o => ⟨fun ⟨⟨ho, hp⟩, hk⟩ => ⟨ho, hk, hp⟩, fun ⟨ho, hk, hp⟩ => ⟨⟨ho, hp⟩, hk⟩⟩
  · intro l hl
    obtain ⟨o, ho, rfl⟩ := List.mem_map.mp hl
    exact h o (List.mem_filter.mp ho).1

theorem isEmpty_filter_iff {α : Type} (p : α → Bool) (l : List α) : (l.filter p).isEmpty = true ↔ ∀ o ∈ l, ¬ p o = true := by
  rw [List.isEmpty_iff, List.filter_eq_nil_iff]

/-! ### The trap (R86, R92, R377) -/

/-- A lane raises a flag whose enable FPCTL sets (R86). -/
def RaisesEnabled (fpctl : Nat) (o : Nat × LaneOut) : Prop := ∃ n, n < 5 ∧ bit fpctl n = true ∧ bit o.2.fl n = true

theorem raisesEnabled_iff (fpctl : Nat) (o : Nat × LaneOut) : (o.2.fl &&& fpctl % 32 != 0) = true ↔ RaisesEnabled fpctl o := by
  rw [bne_iff_ne, ne_zero_iff_bit]
  exact exists_congr fun n => bit_and_enables _ _ _

/-- An enabled flag comes before a division by zero. -/
theorem arithTrap_of_raises {fpctl cls : Nat} {outs : List (Nat × LaneOut)} (h : ∃ o ∈ outs, RaisesEnabled fpctl o) :
    arithTrap fpctl cls outs = some (0x50 + 5 * cls + lowFlag (allFlags outs &&& fpctl % 32),
      maskOf ((outs.filter fun o => o.2.fl &&& fpctl % 32 != 0).map (·.1)), allFlags outs % 32) := by
  obtain ⟨o, ho, hr⟩ := h
  have hne : ¬ (outs.filter fun o => o.2.fl &&& fpctl % 32 != 0).isEmpty = true := fun he =>
    (isEmpty_filter_iff _ _).mp he o ho ((raisesEnabled_iff fpctl o).mpr hr)
  simp [arithTrap, hne]

theorem arithTrap_of_not_raises {fpctl : Nat} (cls : Nat) {outs : List (Nat × LaneOut)} (h : ∀ o ∈ outs, ¬ RaisesEnabled fpctl o) :
    arithTrap fpctl cls outs = if bit fpctl 5 = true ∧ ∃ o ∈ outs, o.2.dz = true
      then some (0x5F, maskOf ((outs.filter fun o => o.2.dz).map (·.1)), 0) else none := by
  have he : (outs.filter fun o => o.2.fl &&& fpctl % 32 != 0).isEmpty = true :=
    (isEmpty_filter_iff _ _).mpr fun o ho hr => h o ho ((raisesEnabled_iff fpctl o).mp hr)
  have hz : (outs.filter fun o => o.2.dz).isEmpty = false ↔ ∃ o ∈ outs, o.2.dz = true := by
    simp only [← Bool.not_eq_true, isEmpty_filter_iff, Classical.not_forall, Classical.not_not, exists_prop]
  simp only [arithTrap, he, Bool.not_true, Bool.false_eq_true, if_false, Bool.and_eq_true, Bool.not_eq_true', hz]

theorem lowFlag_names_enabled {fpctl : Nat} {outs : List (Nat × LaneOut)} (h : ∃ o ∈ outs, RaisesEnabled fpctl o) :
    let n := lowFlag (allFlags outs &&& fpctl % 32)
    n < 5 ∧ (∃ o ∈ outs, bit fpctl n = true ∧ bit o.2.fl n = true)
      ∧ ∀ k, k < n → ∀ o ∈ outs, bit fpctl k = true → bit o.2.fl k = false := by
  obtain ⟨o, ho, n, hn, hen, hfl⟩ := h
  obtain ⟨hlt, hbit, hlow⟩ := lowFlag_spec hn ((bit_and_enables _ _ _).mpr ⟨hn, hen, (bit_allFlags outs n).mpr ⟨o, ho, hfl⟩⟩)
  obtain ⟨_, hen', hfl'⟩ := (bit_and_enables _ _ _).mp hbit
  obtain ⟨o', ho', hb'⟩ := (bit_allFlags _ _).mp hfl'
  refine ⟨hlt, ⟨o', ho', hen', hb'⟩, fun k hk o ho hek => ?_⟩
  refine Bool.eq_false_iff.mpr fun hb => ?_
  have hset := (bit_and_enables _ _ _).mpr ⟨Nat.lt_trans hk hlt, hek, (bit_allFlags outs k).mpr ⟨o, ho, hb⟩⟩
  rw [hlow k hk] at hset
  cases hset

theorem arithTrap_eq_none_iff (fpctl cls : Nat) (outs : List (Nat × LaneOut)) : arithTrap fpctl cls outs = none
    ↔ ∀ o ∈ outs, ¬ RaisesEnabled fpctl o ∧ ¬ (bit fpctl 5 = true ∧ o.2.dz = true) := by
  by_cases h : ∃ o ∈ outs, RaisesEnabled fpctl o
  · rw [arithTrap_of_raises h]
    obtain ⟨o, ho, hr⟩ := h
    exact iff_of_false (Option.some_ne_none _) fun hall => (hall o ho).1 hr
  · have hno : ∀ o ∈ outs, ¬ RaisesEnabled fpctl o := fun o ho hr => h ⟨o, ho, hr⟩
    rw [arithTrap_of_not_raises cls hno, ite_eq_right_iff]
    constructor
    · intro hn o ho
      exact ⟨hno o ho, fun ⟨he, hz⟩ => Option.some_ne_none _ (hn ⟨he, o, ho, hz⟩)⟩
    · rintro hall ⟨he, o, ho, hz⟩
      exact absurd ⟨he, hz⟩ (hall o ho).2

theorem arithmeticTrapSelection : Claims.ArithmeticTrapSelection := by
  intro fpctl cls outs hl raises zero
  refine ⟨arithTrap_eq_none_iff fpctl cls outs, fun c m aux ht => ⟨fun hr => ?_, fun hno => ?_⟩⟩
  · rw [arithTrap_of_raises hr] at ht
    cases ht
    obtain ⟨hlt, hnamed, hlow⟩ := lowFlag_names_enabled hr
    refine ⟨⟨_, hlt, rfl, hnamed, hlow⟩, fun l => ?_⟩
    simp only [hasLane_maskOf_filter hl, raisesEnabled_iff]
    rfl
  · rw [arithTrap_of_not_raises cls hno] at ht
    split at ht
    · next h =>
      cases ht
      refine ⟨rfl, fun l => ?_⟩
      simp only [hasLane_maskOf_filter hl, zero, h.1, true_and]
    · cases ht

/-- Settles O9: the quotient and remainder of Int.tdiv and Int.tmod, and a trap by cases on whether a lane raises an enabled flag. -/
theorem divisionAndArithmeticTraps : Obligations.DivisionAndArithmeticTraps := ⟨divisionResults, arithmeticTrapSelection⟩

end Sys2Proof.Machine
end

section
/-! SUPPORT. The raster words (R346 to R352): what a record reads as after the writes of some lanes, which lanes a raster trap
names, and what each of the four words comes to. -/
namespace Sys2Proof.Machine

/-! ### Writes into the records of lanes, 1,024 words apart (R331, R339) -/

/-- Each lane's writes (word of its record, value) in turn, into the records of the lanes. -/
def putRecords (ls : List Nat) (ws : Nat → List (Nat × Word)) (m : Map Word) : Map Word :=
  ls.foldl (fun m l => (ws l).foldl (fun m w => Map.put 0 m (1024 * l + w.1) w.2) m) m

/-- The writes of a quad to the four words of a record from `o` on. -/
def quadAt (o x : Nat) : List (Nat × Word) := (quadWords x).zipIdx.map fun p => (o + p.2, p.1)

theorem Map.get_foldl_put_of_ne {α β : Type} [DecidableEq α] {d : α} (key : β → Nat) (val : β → α) {a : Nat} {l : List β} :
    (∀ x ∈ l, key x ≠ a) → ∀ m : Map α, Map.get d (l.foldl (fun m x => Map.put d m (key x) (val x)) m) a = Map.get d m a := by
  induction l with
  | nil => intro _ m; rfl
  | cons x l ih =>
    intro h m
    obtain ⟨hx, hl⟩ := List.forall_mem_cons.mp h
    rw [List.foldl_cons, ih hl, Map.get_put, if_neg (Ne.symm hx)]

/-- A key that is written, and always with the same value, reads as that value. -/
theorem Map.get_foldl_put_of_mem {α β : Type} [DecidableEq α] {d : α} (key : β → Nat) (val : β → α) {a : Nat} {v : α} {l : List β} :
    (∀ x ∈ l, key x = a → val x = v) → (∃ x ∈ l, key x = a) →
      ∀ m : Map α, Map.get d (l.foldl (fun m x => Map.put d m (key x) (val x)) m) a = v := by
  induction l with
  | nil => rintro _ ⟨_, hx, _⟩; cases hx
  | cons x l ih =>
    intro h hex m
    obtain ⟨hx, hl⟩ := List.forall_mem_cons.mp h
    rw [List.foldl_cons]
    by_cases hlater : ∃ y ∈ l, key y = a
    · exact ih hl hlater _
    · have hkey : key x = a := by simpa only [List.mem_cons, exists_eq_or_imp, or_iff_left hlater] using hex
      rw [Map.get_foldl_put_of_ne key val (fun y hy he => hlater ⟨y, hy, he⟩), Map.get_put, if_pos hkey.symm, hx hkey]

/-- The writes of all lanes as one run. -/
theorem putRecords_eq (ls : List Nat) (ws : Nat → List (Nat × Word)) (m : Map Word) :
    putRecords ls ws m
      = (ls.flatMap fun l => (ws l).map fun w => (1024 * l + w.1, w.2)).foldl (fun m (w : Nat × Word) => Map.put 0 m w.1 w.2) m := by
  simp only [putRecords, List.foldl_flatMap, List.foldl_map]

theorem get_putRecords_of_ne {ls : List Nat} {ws : Nat → List (Nat × Word)} {a : Nat}
    (h : ∀ l ∈ ls, ∀ w ∈ ws l, 1024 * l + w.1 ≠ a) (m : Map Word) : Map.get 0 (putRecords ls ws m) a = Map.get 0 m a := by
  rw [putRecords_eq]
  refine Map.get_foldl_put_of_ne _ _ (fun x hx => ?_) m
  obtain ⟨l, hl, hx⟩ := List.mem_flatMap.mp hx
  obtain ⟨w, hw, rfl⟩ := List.mem_map.mp hx
  exact h l hl w hw

/-- Writes within the records of their lanes, no two values for one word: a lane's write is what its word reads as. -/
theorem get_putRecords_of_mem {ls : List Nat} {ws : Nat → List (Nat × Word)} {l o : Nat} {v : Word}
    (hin : ∀ l ∈ ls, ∀ w ∈ ws l, w.1 < 1024) (hl : l ∈ ls) (hw : (o, v) ∈ ws l) (hone : ∀ w ∈ ws l, w.1 = o → w.2 = v)
    (m : Map Word) :
    Map.get 0 (putRecords ls ws m) (1024 * l + o) = v := by
  rw [putRecords_eq]
  refine Map.get_foldl_put_of_mem _ _ (fun x hx he => ?_)
    ⟨(1024 * l + o, v), List.mem_flatMap.mpr ⟨l, hl, List.mem_map.mpr ⟨_, hw, rfl⟩⟩, rfl⟩ m
  obtain ⟨l', hl', hx⟩ := List.mem_flatMap.mp hx
  obtain ⟨w, hw', rfl⟩ := List.mem_map.mp hx
  have hlt := hin l' hl' w hw'
  have hlt' : o < 1024 := hin l hl _ hw
  have hsame : l' = l := by dsimp only at he; omega
  subst hsame
  exact hone w hw' (Nat.add_left_cancel he)

theorem mem_quadAt {o x : Nat} {w : Nat × Word} : w ∈ quadAt o x ↔ ∃ c, c < 4 ∧ w = (o + c, BitVec.ofNat 32 (x / 2 ^ (32 * c))) := by
  have h : quadAt o x = (List.range 4).map fun c => (o + c, BitVec.ofNat 32 (x / 2 ^ (32 * c))) := rfl
  rw [h, List.mem_map]
  exact exists_congr fun c => and_congr List.mem_range eq_comm

theorem toNat_ofNat_eq_elemAt (x c : Nat) : (BitVec.ofNat 32 (x / 2 ^ (32 * c))).toNat = elemAt 32 x c := BitVec.toNat_ofNat _ _

/-! ### The group of a word that issues -/

/-- The issuing group is as it was, but for FMASK. -/
theorem Issues.start_group {s : State} {ctl : Ctl} {i : Iss} (h : Issues s ctl i) {g : Group} (hg : (i.start s).group i.k = some g) :
    ∃ m, g = { i.g with fmask := m } := by
  obtain ⟨_, hk, _⟩ := issuing_spec h.1
  rw [Iss.start_group, hk] at hg
  split at hg
  · cases hg; exact ⟨_, rfl⟩
  · cases hg; exact ⟨i.g.fmask, rfl⟩

theorem State.updGroup_congr {s : State} {k : Nat} {f f' : Group → Group} (h : ∀ g, s.group k = some g → f g = f' g) :
    s.updGroup k f = s.updGroup k f' := by
  have hu : Map.upd s.groups k f = Map.upd s.groups k f' := by
    unfold Map.upd
    split
    · next g hg => rw [h g hg]
    · rfl
  rw [State.updGroup, hu, State.updGroup]

/-- A change that does not look at FMASK may be made from the group as it issued. -/
theorem Issues.updGroup_congr {s : State} {ctl : Ctl} {i : Iss} (h : Issues s ctl i) {f f' : Group → Group}
    (hf : ∀ m, f { i.g with fmask := m } = f' { i.g with fmask := m }) : (i.start s).updGroup i.k f = (i.start s).updGroup i.k f' :=
  State.updGroup_congr fun _ hg => by
    obtain ⟨m, rfl⟩ := h.start_group hg
    exact hf m

theorem Issues.retire_ok_congr {s : State} {ctl : Ctl} {i : Iss} (h : Issues s ctl i) {f f' : Group → Group}
    (hf : ∀ m, f { i.g with fmask := m } = f' { i.g with fmask := m }) :
    (Eff.ok ((i.start s).updGroup i.k f)).retire ctl i = (Eff.ok ((i.start s).updGroup i.k f')).retire ctl i := by
  rw [h.updGroup_congr hf]

/-! ### Raster traps (R348) -/

/-- The mask of the lanes that fail is the one that the trap names. -/
theorem maskOf_filter_eq {m bad : Lanes} {p : Nat → Bool} (h : ∀ n, hasLane bad n = true ↔ hasLane m n = true ∧ p n = true) :
    maskOf ((lanesOf m).filter p) = bad := by
  have hlt : ∀ l ∈ (lanesOf m).filter p, l < 32 := fun l hl => mem_lanesOf (List.mem_filter.mp hl).1
  refine BitVec.eq_of_getLsbD_eq fun n _ => Bool.eq_iff_iff.mpr ?_
  have hn := hasLane_maskOf hlt n
  rw [List.mem_filter, mem_lanesOf_iff] at hn
  exact hn.trans (h n).symm

theorem rastTrap_of_kind_ne {i : Iss} {kind : Nat} (h : i.g.ident.kind ≠ kind) (s : State) (bad : Nat → Bool) :
    rastTrap i s kind bad = some (.trap s 0x76 i.lanes 0 0) := if_pos h

theorem rastTrap_of_fails {i : Iss} {kind : Nat} {p : Nat → Bool} {bad : Lanes} {l : Nat} (hk : i.g.ident.kind = kind)
    (h : ∀ n, hasLane bad n = true ↔ hasLane i.lanes n = true ∧ p n = true) (hl : hasLane bad l = true) (s : State) :
    rastTrap i s kind p = some (.trap s 0x77 bad 0 0) := by
  have hmem : l ∈ (lanesOf i.lanes).filter p := List.mem_filter.mpr ((h l).mp hl |>.imp_left mem_lanesOf_iff.mpr)
  obtain ⟨a, ls, hls⟩ := List.exists_cons_of_ne_nil (List.ne_nil_of_mem hmem)
  have hbad := maskOf_filter_eq h
  rw [hls] at hbad
  simp only [rastTrap, hk, ne_eq, not_true, if_false, hls, hbad]

/-- A check that does not depend on the lane fails in all of them. -/
theorem rastTrap_of_all {i : Iss} {kind : Nat} {p : Nat → Bool} (hk : i.g.ident.kind = kind) (h : ∀ l, p l = true)
    (hne : i.lanes ≠ 0) (s : State) : rastTrap i s kind p = some (.trap s 0x77 i.lanes 0 0) :=
  rastTrap_of_fails hk (fun n => (and_iff_left (h n)).symm) (mem_lanesOf_iff.mp (lowest_mem hne)) s

theorem rastTrap_eq_none {i : Iss} {kind : Nat} {p : Nat → Bool} (hk : i.g.ident.kind = kind)
    (h : ∀ l ∈ lanesOf i.lanes, ¬ p l = true) (s : State) : rastTrap i s kind p = none := by
  simp only [rastTrap, hk, ne_eq, not_true, if_false, List.filter_eq_nil_iff.mpr h]

/-! ### What the four words come to -/

section
variable {x : RastW} {s : State} {i : Iss}

theorem whenLanes_of_executes {ctl : Ctl} (h : Executes s ctl i) (u : State) (e : Eff) : whenLanes i u e = e := if_neg h.2

/-- The words that VEMIT writes in a lane (R349): its quad, into the slot. -/
def vemitWords (x : RastW) (i : Iss) (l : Nat) : List (Nat × Word) :=
  quadAt (4 * i.val x.a 32 l (tailImm x.tail)) (i.val x.b 128 l (tailImm x.tail))

theorem putRecords_vemitWords (x : RastW) (i : Iss) (ls : List Nat) (m : Map Word) :
    putRecords ls (vemitWords x i) m = ls.foldl (fun m l => (quadWords (i.val x.b 128 l (tailImm x.tail))).zipIdx.foldl
      (fun m p => Map.put 0 m (1024 * l + 4 * i.val x.a 32 l (tailImm x.tail) + p.2) p.1) m) m := by
  simp only [putRecords, vemitWords, quadAt, List.foldl_map, Nat.add_assoc]

/-- The issuing split with the lanes that a destination leaves it (R54): FATTR's checks are theirs. -/
def Iss.toDest (i : Iss) (d : Operand) : Iss := { i with lanes := destLanes d i.lanes }

/-- The register writes of FATTR (R350): in each lane the four words that SEL and the slot name. -/
def fattrWrites (x : RastW) (i : Iss) : List RegWrite :=
  (lanesOf (destLanes x.d i.lanes)).flatMap fun l =>
    let o := 1024 * l + 64 * x.sel.toNat + (if x.sel = 3 then 0 else 4 * i.val x.a 32 l (tailImm x.tail))
    destWrites i.sp.wb x.d 128 l (joinElems 32 ((List.range 4).map fun c => (Map.get 0 i.g.frag (o + c)).toNat))

/-- The words that FEMIT writes in a lane (R351): a colour and its mark, or a depth and its mark. -/
def femitWords (x : RastW) (i : Iss) (l : Nat) : List (Nat × Word) :=
  if x.sel.toNat = 4 then
    [(288, BitVec.ofNat 32 (clampZ (f32.decode (i.g.operand i.sp.wb x.a 32 l (supplyTy 8) (tailImm x.tail))))), (289, 1)]
  else quadAt (256 + 8 * x.sel.toNat) (i.g.operand i.sp.wb x.a 128 l (supplyTy 8) (tailImm x.tail)) ++ [(260 + 8 * x.sel.toNat, 1)]

variable {r : Option Eff}

theorem exec_vemit (h : Executes s x.ctl i)
    (hr : rastTrap i (i.start s) 1 (fun l => i.val x.a 32 l (tailImm x.tail) > ((i.start s).drawOf i.g).nattr) = r) :
    exec (.vemit x) s = .next ((r.getD (.ok ((i.start s).updGroup i.k fun g => { g with
      vert := putRecords (lanesOf i.lanes) (vemitWords x i) i.g.vert }))).retire x.ctl i) := by
  have hx : exec (.vemit x) s = execVemit x s := rfl
  rw [hx, execVemit, withIssue_issues h.1]
  simp only [whenLanes_of_executes h, hr]
  cases r with
  | none =>
    refine congrArg _ (h.1.retire_ok_congr fun m => ?_)
    exact congrArg (fun v => ({ i.g with fmask := m, vert := v } : Group)) (putRecords_vemitWords x i _ _).symm
  | some e => rfl

theorem exec_fattr (h : Executes s x.ctl i)
    (hr : rastTrap (i.toDest x.d) (i.start s) 2
      (fun l => (if x.sel = 3 then 0 else i.val x.a 32 l (tailImm x.tail)) > ((i.start s).drawOf i.g).nattr) = r) :
    exec (.fattr x) s = .next ((r.getD (.ok ((i.start s).outstanding i.k 36 true (fattrWrites x i)))).retire x.ctl i) := by
  have hx : exec (.fattr x) s = execFattr x s := rfl
  have hmul (k : Nat) : 4 * (if x.sel = 3 then 0 else k) = if x.sel = 3 then 0 else 4 * k := by split <;> rfl
  unfold Iss.toDest at hr
  rw [hx, execFattr, withIssue_issues h.1]
  simp only [whenLanes_of_executes h, hr, fattrWrites, hmul]
  cases r <;> rfl

theorem exec_femit (h : Executes s x.ctl i)
    (hr : rastTrap i (i.start s) 2 (fun _ => if x.sel.toNat = 4 then !i.g.ident.depthW else x.sel.toNat ≥ ((i.start s).drawOf i.g).ntgt) = r) :
    exec (.femit x) s = .next ((r.getD (.ok ((i.start s).updGroup i.k fun g => { g with
      frag := putRecords (lanesOf i.lanes) (femitWords x i) i.g.frag }))).retire x.ctl i) := by
  have hx : exec (.femit x) s = execFemit x s := rfl
  rw [hx, execFemit, withIssue_issues h.1]
  simp only [whenLanes_of_executes h, hr]
  cases r with
  | none =>
    refine congrArg _ (h.1.retire_ok_congr fun _ => ?_)
    by_cases hn : x.sel.toNat = 4
    · simp only [putRecords, femitWords, hn, if_true]
    · simp only [putRecords, femitWords, hn, if_false, quadAt]
  | some e => rfl

theorem exec_fkill (h : Executes s x.ctl i) (hr : rastTrap i (i.start s) 2 (fun _ => false) = r) :
    exec (.fkill x) s = .next ((r.getD (.ok ((i.start s).updGroup i.k fun g => { g with killed := i.g.killed ||| i.lanes }))).retire x.ctl i) := by
  have hx : exec (.fkill x) s = execFkill x s := rfl
  rw [hx, execFkill, withIssue_issues h.1]
  simp only [whenLanes_of_executes h, hr]
  cases r with
  | none => exact congrArg _ (h.1.retire_ok_congr fun _ => rfl)
  | some e => rfl

end

/-! ### The records after VEMIT (R349) and FEMIT (R351) -/

theorem Draw.nattr_lt (d : Draw) : d.nattr < 16 := Nat.mod_lt _ (by decide)

section
variable {x : RastW} {i : Iss}

/-- The word c of slot n of a lane's vertex record, where no slot lies beyond the record. -/
theorem get_vemitWords {l n c : Nat} (hslot : ∀ l ∈ lanesOf i.lanes, i.val x.a 32 l (tailImm x.tail) < 256) (hn : n < 256) (hc : c < 4)
    (m : Map Word) : (Map.get 0 (putRecords (lanesOf i.lanes) (vemitWords x i) m) (1024 * l + 4 * n + c)).toNat
      = if hasLane i.lanes l = true ∧ i.val x.a 32 l (tailImm x.tail) = n then elemAt 32 (i.val x.b 128 l (tailImm x.tail)) c
        else (Map.get 0 m (1024 * l + 4 * n + c)).toNat := by
  split
  · next hl =>
    obtain ⟨hlane, rfl⟩ := hl
    have hw : (4 * i.val x.a 32 l (tailImm x.tail) + c, _) ∈ vemitWords x i l := mem_quadAt.mpr ⟨c, hc, rfl⟩
    rw [Nat.add_assoc, get_putRecords_of_mem ?_ (mem_lanesOf_iff.mpr hlane) hw ?_, toNat_ofNat_eq_elemAt]
    · intro l' hl' w hw
      obtain ⟨c', hc', rfl⟩ := mem_quadAt.mp hw
      have := hslot l' hl'
      dsimp only
      omega
    · intro w hw he
      obtain ⟨c', _, rfl⟩ := mem_quadAt.mp hw
      rw [Nat.add_left_cancel he]
  · next hl =>
    rw [get_putRecords_of_ne]
    intro l' hl' w hw he
    obtain ⟨c', hc', rfl⟩ := mem_quadAt.mp hw
    have := hslot l' hl'
    dsimp only at he
    have hsame : l' = l := by omega
    subst hsame
    exact hl ⟨mem_lanesOf_iff.mp hl', by omega⟩

theorem mem_femitWords_depth (h : x.sel.toNat = 4) {l : Nat} {w : Nat × Word} : w ∈ femitWords x i l ↔
    w = (288, BitVec.ofNat 32 (clampZ (f32.decode (i.g.operand i.sp.wb x.a 32 l (supplyTy 8) (tailImm x.tail))))) ∨ w = (289, 1) := by
  rw [femitWords, if_pos h, List.mem_cons, List.mem_singleton]

theorem mem_femitWords_colour (h : x.sel.toNat ≠ 4) {l : Nat} {w : Nat × Word} : w ∈ femitWords x i l ↔
    (∃ c, c < 4 ∧ w = (256 + 8 * x.sel.toNat + c,
      BitVec.ofNat 32 (i.g.operand i.sp.wb x.a 128 l (supplyTy 8) (tailImm x.tail) / 2 ^ (32 * c)))) ∨ w = (260 + 8 * x.sel.toNat, 1) := by
  rw [femitWords, if_neg h, List.mem_append, mem_quadAt, List.mem_singleton]

/-- FEMIT writes within the record, from the colour of its target or from the depth on. -/
theorem femitWords_range {l : Nat} {w : Nat × Word} (hw : w ∈ femitWords x i l) :
    (x.sel.toNat = 4 → 288 ≤ w.1 ∧ w.1 ≤ 289)
      ∧ (x.sel.toNat ≠ 4 → 8 * x.sel.toNat + 256 ≤ w.1 ∧ w.1 ≤ 8 * x.sel.toNat + 260) := by
  refine ⟨fun h => ?_, fun h => ?_⟩
  · obtain rfl | rfl := (mem_femitWords_depth h).mp hw <;> simp
  · obtain ⟨c, hc, rfl⟩ | rfl := (mem_femitWords_colour h).mp hw
    · dsimp only; omega
    · dsimp only; omega

theorem femitWords_unique {l : Nat} {w w' : Nat × Word} (hw : w ∈ femitWords x i l) (hw' : w' ∈ femitWords x i l)
    (he : w'.1 = w.1) : w'.2 = w.2 := by
  by_cases h : x.sel.toNat = 4
  · rw [mem_femitWords_depth h] at hw hw'
    obtain rfl | rfl := hw <;> obtain rfl | rfl := hw'
    · rfl
    · cases he
    · cases he
    · rfl
  · rw [mem_femitWords_colour h] at hw hw'
    obtain ⟨c, hc, rfl⟩ | rfl := hw <;> obtain ⟨c', hc', rfl⟩ | rfl := hw' <;> dsimp only at he
    · rw [Nat.add_left_cancel he]
    · omega
    · omega
    · rfl

theorem get_femitWords {l o : Nat} {v : Word} (hl : hasLane i.lanes l = true) (hw : (o, v) ∈ femitWords x i l) (m : Map Word) :
    Map.get 0 (putRecords (lanesOf i.lanes) (femitWords x i) m) (1024 * l + o) = v := by
  refine get_putRecords_of_mem (fun l' _ w hw => ?_) (mem_lanesOf_iff.mpr hl) hw (fun w hw' => femitWords_unique hw hw') m
  obtain ⟨hdepth, hcolour⟩ := femitWords_range hw
  have := x.sel.isLt
  omega

/-- The words of all lanes that FEMIT does not write. -/
theorem get_femitWords_of_outside {n lo hi : Nat} (hr : ∀ l w, w ∈ femitWords x i l → lo ≤ w.1 ∧ w.1 ≤ hi)
    (h : ∀ l, hasLane i.lanes l = true → n < 1024 * l + lo ∨ 1024 * l + hi < n) (m : Map Word) :
    Map.get 0 (putRecords (lanesOf i.lanes) (femitWords x i) m) n = Map.get 0 m n := by
  refine get_putRecords_of_ne (fun l hl w hw he => ?_) m
  have := hr l w hw
  have := h l (mem_lanesOf_iff.mp hl)
  omega

end

/-! ### The four words (R346 to R352) -/

section
variable {x : RastW} {s : State} {i : Iss}

theorem vemit_writes_quads (h : Executes s x.ctl i) (hk : i.g.ident.kind = 1)
    (hslot : ∀ l, hasLane i.lanes l = true → i.val x.a 32 l (tailImm x.tail) ≤ ((i.start s).drawOf i.g).nattr) :
    ∃ v, exec (.vemit x) s = .next ((Eff.ok ((i.start s).updGroup i.k fun g => { g with vert := v })).retire x.ctl i)
      ∧ ∀ l n c, n < 256 → c < 4 → (Map.get 0 v (1024 * l + 4 * n + c)).toNat =
          if hasLane i.lanes l = true ∧ i.val x.a 32 l (tailImm x.tail) = n then elemAt 32 (i.val x.b 128 l (tailImm x.tail)) c
          else (Map.get 0 i.g.vert (1024 * l + 4 * n + c)).toNat := by
  have hle : ∀ l ∈ lanesOf i.lanes, i.val x.a 32 l (tailImm x.tail) ≤ ((i.start s).drawOf i.g).nattr :=
    fun l hl => hslot l (mem_lanesOf_iff.mp hl)
  refine ⟨_, exec_vemit h (rastTrap_eq_none hk (fun l hl => ?_) _), fun l n c hn hc => get_vemitWords (fun l hl => ?_) hn hc _⟩
  · simpa using hle l hl
  · have := hle l hl
    have := ((i.start s).drawOf i.g).nattr_lt
    omega

theorem fattr_reads_quads (h : Executes s x.ctl i) (hk : i.g.ident.kind = 2)
    (hslot : x.sel = 3 ∨ ∀ l ∈ lanesOf (destLanes x.d i.lanes), i.val x.a 32 l (tailImm x.tail) ≤ ((i.start s).drawOf i.g).nattr) :
    exec (.fattr x) s = .next ((Eff.ok ((i.start s).outstanding i.k 36 true (fattrWrites x i))).retire x.ctl i) := by
  refine exec_fattr h (rastTrap_eq_none (i := i.toDest x.d) hk (fun l hl => ?_) _)
  obtain h3 | hle := hslot
  · simp [h3]
  · have := hle l hl
    split <;> simp [this]

theorem femit_records_colour (h : Executes s x.ctl i) (hk : i.g.ident.kind = 2) (hsel : x.sel.toNat < 4)
    (hon : x.sel.toNat < ((i.start s).drawOf i.g).ntgt) :
    ∃ v, exec (.femit x) s = .next ((Eff.ok ((i.start s).updGroup i.k fun g => { g with frag := v })).retire x.ctl i)
      ∧ (∀ l, hasLane i.lanes l = true → Map.get 0 v (1024 * l + 8 * x.sel.toNat + 260) = 1
          ∧ ∀ c, c < 4 → (Map.get 0 v (1024 * l + 8 * x.sel.toNat + 256 + c)).toNat
              = elemAt 32 (i.g.operand i.sp.wb x.a 128 l (supplyTy 8) (tailImm x.tail)) c)
      ∧ ∀ n, (∀ l, hasLane i.lanes l = true → n < 1024 * l + 8 * x.sel.toNat + 256 ∨ 1024 * l + 8 * x.sel.toNat + 260 < n) →
          Map.get 0 v n = Map.get 0 i.g.frag n := by
  have hne : x.sel.toNat ≠ 4 := by omega
  refine ⟨_, exec_femit h (rastTrap_eq_none hk (fun _ _ => ?_) _), fun l hl => ⟨?_, fun c hc => ?_⟩, fun n hn => ?_⟩
  · simpa [hne] using hon
  · rw [show 1024 * l + 8 * x.sel.toNat + 260 = 1024 * l + (260 + 8 * x.sel.toNat) by omega]
    exact get_femitWords hl ((mem_femitWords_colour hne).mpr (.inr rfl)) _
  · rw [show 1024 * l + 8 * x.sel.toNat + 256 + c = 1024 * l + (256 + 8 * x.sel.toNat + c) by omega,
      get_femitWords hl ((mem_femitWords_colour hne).mpr (.inl ⟨c, hc, rfl⟩)), toNat_ofNat_eq_elemAt]
  · exact get_femitWords_of_outside (fun _ _ hw => (femitWords_range hw).2 hne) (by simpa only [Nat.add_assoc] using hn) _

theorem femit_records_depth (h : Executes s x.ctl i) (hk : i.g.ident.kind = 2) (hsel : x.sel.toNat = 4)
    (hon : i.g.ident.depthW = true) :
    ∃ v, exec (.femit x) s = .next ((Eff.ok ((i.start s).updGroup i.k fun g => { g with frag := v })).retire x.ctl i)
      ∧ (∀ l, hasLane i.lanes l = true → Map.get 0 v (1024 * l + 289) = 1
          ∧ Map.get 0 v (1024 * l + 288)
              = BitVec.ofNat 32 (clampZ (f32.decode (i.g.operand i.sp.wb x.a 32 l (supplyTy 8) (tailImm x.tail)))))
      ∧ ∀ n, (∀ l, hasLane i.lanes l = true → n < 1024 * l + 288 ∨ 1024 * l + 289 < n) → Map.get 0 v n = Map.get 0 i.g.frag n := by
  refine ⟨_, exec_femit h (rastTrap_eq_none hk (fun _ _ => ?_) _), fun l hl => ⟨?_, ?_⟩, fun n hn => ?_⟩
  · simp [hsel, hon]
  · exact get_femitWords hl ((mem_femitWords_depth hsel).mpr (.inr rfl)) _
  · exact get_femitWords hl ((mem_femitWords_depth hsel).mpr (.inl rfl)) _
  · exact get_femitWords_of_outside (fun _ _ hw => (femitWords_range hw).1 hsel) hn _

end

/-- Settles O43: each word is one test of its group's kind and its lanes, and otherwise a run of writes into the records of its
lanes, which lie apart since NATTR is below 16. -/
theorem rasterWords : Obligations.RasterWords := by
  intro x s i h s0 d imm ls goes slot frag emitted
  refine ⟨fun hk => exec_vemit h (rastTrap_of_kind_ne hk _ _), fun hk => ⟨?_, ?_, ?_⟩,
    fun hk => ⟨?vemitTrap, vemit_writes_quads h hk⟩, fun hk => ⟨?kill, ?fattrTrap, fattr_reads_quads h hk, ?colourTrap, ?depthTrap,
      femit_records_colour h hk, fun hsel => femit_records_depth h hk (congrArg BitVec.toNat hsel)⟩⟩
  · exact exec_femit h (rastTrap_of_kind_ne hk _ _)
  · exact exec_fkill h (rastTrap_of_kind_ne hk _ _)
  · exact exec_fattr h (rastTrap_of_kind_ne (i := i.toDest x.d) hk _ _)
  case kill => exact exec_fkill h (rastTrap_eq_none hk (fun _ _ => Bool.false_ne_true) _)
  case vemitTrap =>
    rintro bad l ⟨hbad, hl, _⟩
    exact exec_vemit h (rastTrap_of_fails hk hbad hl _)
  case fattrTrap =>
    rintro bad l hsel ⟨hbad, hl, _⟩
    refine exec_fattr h (rastTrap_of_fails (i := i.toDest x.d) hk ?_ hl _)
    simp only [if_neg hsel]
    exact hbad
  case colourTrap =>
    intro hsel hoff
    have hne : x.sel.toNat ≠ 4 := by omega
    exact exec_femit h (rastTrap_of_all hk (fun _ => by simpa [hne] using hoff) h.2 _)
  case depthTrap =>
    intro hsel hoff
    exact exec_femit h (rastTrap_of_all hk (fun _ => by simp [hsel, hoff]) h.2 _)

end Sys2Proof.Machine
end
